-- ==== Sys2Proof/Word.lean ====
section
/-! DEFINITION. The value types every file shares: bytes, signatures and the bounded numbers of signs, links and lines. -/

namespace Sys2Proof

/-- One byte of memory, of a record or of a link frame. -/
abbrev Byte := BitVec 8

/-- A tile signature or delivered signature (R51). -/
abbrev Signature := BitVec 32

/-- A sign number, its index in the sign table (00 section 0.5). -/
abbrev SignNo := Fin 256

/-- A sign link 0..3. -/
abbrev LinkNo := Fin 4

/-- A general line LINE0..LINE3. -/
abbrev LineNo := Fin 4

end Sys2Proof
end

