-- ==== Sys2Proof/Syntax.lean ====
section
/-! DEFINITION. The commands of the part: one constructor per row of spec/opcode_table.json, in the table's order. -/

namespace Sys2Proof

/-- The command kinds of the octal bus the memory path tells apart (R2). -/
inductive HostKind where
  | write | plainRead | fastRead | other
deriving DecidableEq, Repr

/-- What a host issues on its bus: a command kind, a write with the bytes its data phase will carry (R4, log 6). -/
inductive HostCommand where
  | write (data : List Byte)
  | plainRead | fastRead | other
deriving DecidableEq, Repr

/-- The kind of a host's command. -/
def HostCommand.kind : HostCommand → HostKind
  | .write _ => .write
  | .plainRead => .plainRead
  | .fastRead => .fastRead
  | .other => .other

/-- The bytes a host's command brings: a write's, and none of another. -/
def HostCommand.data : HostCommand → List Byte
  | .write data => data
  | _ => []

/-- Which retry's back-off wait ends on a link (R154): the job step's, the poll's of a sign, or the survey probe's. -/
inductive Retry where
  | job
  | poll (sign : SignNo)
  | survey
deriving DecidableEq, Repr

/-- One constructor per row of the table. The table gives the rows no operands; each operand here is what the row's
rule speaks of. `addr` and `data` are the address and the carried bytes of a host write, `t` is the moment of an event
in microseconds (log 10). -/
inductive Instr where
  /-- RESET_N_ASSERTED (R13): of the write in progress, so many bytes had been transferred when it was cut, `ownSent` of an
  own write and `hostSent` of a host write. -/
  | resetAsserted (ownSent hostSent : Nat)
  /-- RESET_N_RELEASED (R39, R6): the straps as sampled. -/
  | resetReleased (straps : Fin 4)
  /-- HOST_COMMAND_ISSUE (R3). -/
  | hostCommandIssue (command : HostCommand) (addr len : Nat)
  /-- HOST_COMMAND_WITHDRAWN (R3). -/
  | hostCommandWithdrawn
  /-- HOST_READ (R2): `len` bytes carried. -/
  | hostRead (fast : Bool) (addr len : Nat)
  /-- OTHER_HOST_COMMAND (R2). -/
  | otherHostCommand
  /-- HOST_WRITE (R8). -/
  | hostWrite (addr : Nat) (data : List Byte)
  /-- HEADER_COMMIT (R25). -/
  | headerCommit (addr : Nat) (data : List Byte)
  /-- HEADER_RESTART (R26). -/
  | headerRestart (addr : Nat) (data : List Byte)
  /-- LINE_ENTRY_COMMIT (R27). -/
  | lineEntryCommit (addr : Nat) (data : List Byte)
  /-- LINE_CLEAR (R28). -/
  | lineClear (addr : Nat) (data : List Byte)
  /-- SIGN_ENTRY_COMMIT (R30). -/
  | signEntryCommit (addr : Nat) (data : List Byte)
  /-- CLOCK_SET_COMMIT (R33). -/
  | clockSetCommit (addr : Nat) (data : List Byte)
  /-- HEARTBEAT_WORD (R21). -/
  | heartbeatWord (addr : Nat) (data : List Byte)
  /-- CONSUMER_INDEX (R174). -/
  | consumerIndex (addr : Nat) (data : List Byte)
  /-- TILE_WRITE (R45). -/
  | tileWrite (addr : Nat) (data : List Byte)
  /-- MAP_WRITE (R79). -/
  | mapWrite (addr : Nat) (data : List Byte)
  /-- SCHEDULE_WRITE (R100). -/
  | scheduleWrite (addr : Nat) (data : List Byte)
  /-- OWN_REQUEST_GRANT (R12). -/
  | ownRequestGrant
  /-- LOAD_HEADER_READ_END (R36). -/
  | loadHeaderReadEnd
  /-- LOAD_CONSUMER_READ_END (R36). -/
  | loadConsumerReadEnd
  /-- LOAD_LINE_TABLE_READ_END (R36). -/
  | loadLineTableReadEnd
  /-- LOAD_SIGN_TABLE_READ_END (R36). -/
  | loadSignTableReadEnd
  /-- DIRECTORY_LOAD_START (R40). -/
  | directoryLoadStart
  /-- RING_PLACE (R173). -/
  | ringPlace
  /-- SIGNATURE_READ_END (R48). -/
  | signatureReadEnd
  /-- SIGNATURE_COMPLETION (R52). -/
  | signatureCompletion
  /-- MAP_READ_END (R73). -/
  | mapReadEnd
  /-- SCHEDULE_RESYNC_READ_END (R101). -/
  | scheduleResyncReadEnd
  /-- SCHEDULE_ADVANCE_READ_END (R104). -/
  | scheduleAdvanceReadEnd
  /-- SECOND_TICK (R88). -/
  | secondTick
  /-- MINUTE_TICK (R89). -/
  | minuteTick
  /-- PULSE_MISSING (R94). -/
  | pulseMissing
  /-- ROTATION_ADVANCE (R106). -/
  | rotationAdvance (sign : SignNo)
  /-- HEARTBEAT_LAPSE (R119). -/
  | heartbeatLapse
  /-- LINE_LEVEL_CHANGE (R110): the new raw level, `true` for high. -/
  | lineLevelChange (line : LineNo) (high : Bool)
  /-- LINE_FILTER_EXPIRY (R110). -/
  | lineFilterExpiry (line : LineNo)
  /-- LINK_IDLE (R156). -/
  | linkIdle (link : LinkNo) (t : Nat)
  /-- FRAME_SENT (R152). -/
  | frameSent (link : LinkNo)
  /-- ANSWER_WINDOW_EXPIRY (R152). -/
  | answerWindowExpiry (link : LinkNo) (t : Nat)
  /-- STATE_ANSWER (R153): the characters received up to the answer's end, after those that CHARACTER_RECEIVED
  commands have already brought. -/
  | stateAnswer (link : LinkNo) (bytes : List Byte) (t : Nat)
  /-- BACKOFF_EXPIRY (R154). -/
  | backoffExpiry (link : LinkNo) (retry : Retry)
  /-- POLL_DUE (R157). -/
  | pollDue (sign : SignNo)
  /-- LOAD_BUSY_REPEAT_DUE (R160). -/
  | loadBusyRepeatDue (link : LinkNo)
  /-- LINK_TILE_READ_END (R159). -/
  | linkTileReadEnd (link : LinkNo)
  /-- REFRESH_LIMIT_EXPIRY (R164). -/
  | refreshLimitExpiry (sign : SignNo)
  /-- SURVEY_TIMER_EXPIRY (R166). -/
  | surveyTimerExpiry (link : LinkNo)
  /-- REPORT_ENTRY_WRITE_END (R177). -/
  | reportEntryWriteEnd
  /-- PRODUCER_INDEX_WRITE_END (R177). -/
  | producerIndexWriteEnd
  /-- STATUS_WRITE_END (R177). -/
  | statusWriteEnd
  /-- CHARACTER_RECEIVED (R152). -/
  | characterReceived (link : LinkNo) (value : Byte)
deriving DecidableEq, Repr

end Sys2Proof
end

