-- ==== Sys2Proof/Decode.lean ====
section
/-! DEFINITION. The command that a word spells by the table's bits. No row of spec/opcode_table.json gives bits ("fixed" is
absent and "fields" is empty in all 51), so no word spells a command. -/

namespace Sys2Proof

/-- The table gives no row any bits, so every word spells no command (log 27). -/
def decodeTableWord (_nbits _w : Nat) : Option Instr := none

end Sys2Proof
end

