-- ==== Sys2Proof/Config.lean ====
section
/-! DEFINITION. What the part fixes once: capacities and bounds the spec states, and the choices the spec leaves open. -/

namespace Sys2Proof.Config

/-- Bytes of frame memory; addresses wrap here (R4). -/
abbrev memorySize : Nat := 16777216

/-- DESIGN CHOICE (log 3): what a byte of frame memory that nothing has written reads as. Unsafe. -/
abbrev powerOnByte : Byte := 0

/-- DESIGN CHOICE (log 4): the strap levels sampled at the release that `State.reset` stands right after. Unsafe. -/
abbrev resetStraps : Fin 4 := 0

/-- DESIGN CHOICE (log 4): the level of each general line's pin at that release (high). Unsafe. -/
abbrev resetPinHigh : Bool := true

/-- Bytes of the directory window (R6). -/
abbrev windowSize : Nat := 65536

/-- Bytes of the map area (section 1.5). -/
abbrev mapAreaSize : Nat := 1048576

/-- Bytes of the schedule area (section 1.5). -/
abbrev scheduleAreaSize : Nat := 524288

/-- Host grants in a row while own requests wait (R11). -/
abbrev hostGrantLimit : Nat := 4

/-- Watch table capacity (R42). -/
abbrev watchCapacity : Nat := 4096

/-- Slot store capacity (R66). -/
abbrev slotCapacity : Nat := 8192

/-- The signature code of a delivered BLANK slot (R51). -/
abbrev blankCode : Signature := 0xFFFFFFFE

/-- Second ticks without a pulse before PULSE_MISSING (R94). -/
abbrev pulseMissingLimit : Nat := 180

/-- Time-base cycles of one second (R88). -/
abbrev cyclesPerSecond : Nat := 32768

/-- The window base chosen by WIN1..WIN0 (R6). -/
def windowBase (straps : Fin 4) : Nat :=
  match straps with
  | 0 => 0xFF0000
  | 1 => 0x7F0000
  | 2 => 0x3F0000
  | 3 => 0x1F0000

end Sys2Proof.Config
end

