-- ==== Sys2Proof/Machine/State.lean ====
section
/-! DEFINITION. Everything the spec gives the part to hold, as plain data, and its values right after device reset. Fields are
grouped by the block that owns them (00 section 0.3); what a block holds per sign stands in `SignState`, per link in
`LinkState`, per line in `LineState`. -/

namespace Sys2Proof.Machine

/-! ## Stops -/

/-- The spec describes no event that stops the part, so no fault exists and none is ever raised. -/
inductive Fault where
deriving DecidableEq, Repr

/-- Reasons a command has no meaning. No meaning of this model raises one. -/
inductive Refusal where
  /-- Raised by an arm of `exec` that has no meaning yet. Safe: the run stops. No arm raises it now. -/
  | notModelled (mnemonic : String)
deriving DecidableEq, Repr

/-! ## Shared data -/

/-- Bytes by address in canonical form: addresses strictly rise and no listed byte equals what an unlisted one reads. -/
abbrev Memory := List Host.Cell

/-- A time of day (section 5.1). -/
structure TimeOfDay where
  day : Nat
  minute : Nat
  second : Nat
deriving DecidableEq, Repr

/-- Why a sign shows its page: the reason decides the class of the refresh (R122, R76). -/
inductive Reason where
  | page | alert
deriving DecidableEq, Repr

/-- Urgency of an update job, section 7.2. -/
inductive Class where
  | alert | page | recover | content
deriving DecidableEq, Repr

/-- Refresh modes (R138, R150). -/
inductive RefreshMode where
  | full | part
deriving DecidableEq, Repr

/-! ## Memory path (chapter 1) -/

/-- What an own transaction is for, which names its requester (section 1.8). -/
inductive OwnKind where
  /-- R177 order 1: the producer index it writes. -/
  | indexWrite (value : Nat)
  /-- R177 order 2: the head of the pending entries. -/
  | entryWrite
  /-- R177 order 3. -/
  | blockWrite
  /-- R177 order 4. -/
  | recordWrite (sign : SignNo)
  /-- R36 step 1. -/
  | dirHeader
  /-- R36 step 2. -/
  | dirConsumer
  /-- R36 step 3. -/
  | dirLines
  /-- R36 step 4, transaction `k` of 0..15. -/
  | dirSigns (k : Nat)
  /-- R73: the first or the second page-map read of an activation. -/
  | mapRead (sign : SignNo) (second : Bool)
  /-- R101. -/
  | schedResync (sign : SignNo)
  /-- R104. -/
  | schedAdvance (sign : SignNo)
  /-- R159: the tile of planned slot `j`. -/
  | tileRead (link : LinkNo) (j : Nat)
  /-- R48. -/
  | sigRead
deriving DecidableEq, Repr

/-- The nine own requesters (R10). -/
inductive Requester where
  | report | directory | pageMap | schedule
  | link (l : LinkNo)
  | signature
deriving DecidableEq, Repr

/-- An own request: a read of `len` bytes, or a write of `data` (R10). -/
structure OwnReq where
  kind : OwnKind
  addr : Nat
  len : Nat
  data : List Byte
deriving DecidableEq, Repr

/-- The own transaction in progress: the bytes its read took at the grant (R5), and whether they will be discarded at
its end because the requester was emptied (R16). -/
structure Running where
  req : OwnReq
  bytes : List Byte
  discard : Bool
deriving DecidableEq, Repr

/-- The host transaction on the host port (R1: at most one): held in its command phase, or granted (R3). -/
structure HostClaim where
  kind : HostKind
  addr : Nat
  len : Nat
  /-- The bytes a write carries in its data phase, at most `len` (R4, log 6). -/
  data : List Byte
  granted : Bool
  /-- The snoop of a granted write has been handed to the owners (R5). -/
  snooped : Bool
deriving DecidableEq, Repr

/-- Memory path and arbiter (sections 1.4, 1.9, 1.10). -/
structure MemPath where
  windowBase : Nat
  host : Option HostClaim
  /-- Host-grant count, 0..4 (R11). -/
  grantCount : Nat
  linkPointer : LinkNo
  /-- Own requests waiting, in the order they were placed (the arbiter does not look at the order, R12). -/
  waiting : List OwnReq
  running : Option Running
  /-- The bytes last carried back to the host port for a read (R1). -/
  hostData : List Byte
deriving DecidableEq, Repr

/-! ## Directory shadow (chapter 2) -/

/-- The applied header, after rounding and clamping (section 2.4). -/
structure Header where
  tileBase : Nat
  tileCount : Nat
  mapBase : Nat
  schedBase : Nat
  ringBase : Nat
  ringSize : Nat
  linkEnable : BitVec 4
  rates : Vector Nat 4
  /-- ms -/
  answerWindow : Nat
  retryLimit : Nat
  backoffCap : Nat
  /-- units of 10 ms -/
  pollInterval : Nat
  /-- s -/
  refreshLimit : Nat
  /-- s -/
  surveyInterval : Nat
  coldThreshold : Int
  freezeThreshold : Int
  fraction : Nat
  /-- s; 0 is off -/
  heartbeatModulus : Nat
  /-- ms -/
  lineFilter : Nat
  attention : Bool
deriving DecidableEq, Repr

/-- Line modes (section 2.5). -/
inductive LineMode where
  | off | alertLevel | alertLatched | minutePulse | faultOutput
deriving DecidableEq, Repr

/-- An applied line entry (section 2.5). -/
structure LineEntry where
  mode : LineMode
  activeHigh : Bool
  alertPage : Option Nat
  zones : BitVec 64
deriving DecidableEq, Repr

/-- An applied sign entry (section 2.6). -/
structure SignEntry where
  enabled : Bool
  link : LinkNo
  drop : Nat
  zone : Nat
  columns : Nat
  rows : Nat
  pageCount : Nat
  fallback : Option Nat
  ghostLimit : Nat
  scheduleCount : Nat
deriving DecidableEq, Repr

/-- Part states (R34). -/
inductive PartState where
  | waiting | loading | running
deriving DecidableEq, Repr

/-- How far the directory load has read (R36). -/
inductive LoadPos where
  /-- No load in progress. -/
  | idle
  /-- Waiting for the four link controllers to be idle (R40 step 5). -/
  | awaitLinks
  /-- Step 1 read waiting or in progress. -/
  | header
  /-- Step 2 read waiting or in progress. -/
  | consumer
  /-- Step 2 has read this consumer index; the report writer takes its ring next (R173). -/
  | awaitRing (index : Nat)
  /-- Step 3 read waiting or in progress. -/
  | lines
  /-- Step 4, transaction `k` waiting or in progress. -/
  | signs (k : Nat)
deriving DecidableEq, Repr

/-- Directory shadow. The applied line and sign entries stand in `LineState.entry` and `SignState.entry`. -/
structure Directory where
  /-- The byte image by window offset; unlisted offsets hold 0 (R19). -/
  image : Memory
  header : Option Header
  lastClockSeq : Option Byte
  part : PartState
  load : LoadPos
deriving DecidableEq, Repr

/-! ## Tile monitor (chapter 3) -/

/-- Watch entry states (section 3.2). -/
inductive WatchState where
  | clean | stale | computing | restale
deriving DecidableEq, Repr

/-- A watch entry. `chain` is the watch chain as slot references (sign, slot index): its head is the chain head, a
slot's chain link is its successor, its length the reference count (R42). -/
structure WatchEntry where
  tile : Nat
  state : WatchState
  sig : Signature
  chain : List (SignNo × Nat)
deriving DecidableEq, Repr

/-- The signature engine's phase with what it holds (R47 to R50). -/
inductive SigEngine where
  | idle
  | fetch (tile : Nat)
  | accumulate (tile : Nat) (bytes : List Byte) (sumA sumB : Nat)
deriving DecidableEq, Repr

structure TileMonitor where
  /-- Entries by rising tile number, at most one per tile (R42). -/
  watch : List WatchEntry
  /-- Tile numbers, head first (R46). -/
  stale : List Nat
  engine : SigEngine
deriving DecidableEq, Repr

/-! ## Slot store and page loader (chapter 4) -/

/-- A slot record (R65). Its sign and index are its place; its chain link is in the watch chain. `tile` is none for
BLANK. -/
structure Slot where
  mapValue : Nat
  tile : Option Nat
  delivered : Signature
  dirty : Bool
deriving DecidableEq, Repr

/-- Activation states (R70). -/
inductive Activation where
  | idle | queued | loadingMap
deriving DecidableEq, Repr

/-- An entry of the staged map (R70). -/
structure StagedEntry where
  value : Nat
  read : Bool
deriving DecidableEq, Repr

structure PageLoader where
  /-- Activation queue, head first (R70). -/
  queue : List SignNo
  /-- The sign that is LOADING_MAP (R70: at most one). -/
  loading : Option SignNo
deriving DecidableEq, Repr

/-! ## Clock and schedule unit (chapter 5) -/

/-- Work due of a sign (R98). -/
inductive Work where
  | none | advance | resync
deriving DecidableEq, Repr

/-- A schedule entry the engine has taken as current: its index and its fields as read (R96). -/
structure Candidate where
  index : Nat
  first : Nat
  last : Nat
  dwell : Nat
deriving DecidableEq, Repr

/-- The schedule engine (R99, R101, R104). -/
inductive SchedEngine where
  | idle
  /-- A resync whose read at byte `offset` is waiting or in progress; `prev` is the time of the last entry examined. -/
  | resync (sign : SignNo) (offset : Nat) (prev : Option Nat) (cand : Option Candidate)
  /-- An advance to entry `k`. -/
  | advance (sign : SignNo) (k : Nat)
deriving DecidableEq, Repr

structure Clock where
  day : Nat
  minute : Nat
  second : Nat
  unset : Bool
  prescaler : Nat
  lastOffset : Int
  pulseMode : Bool
  pulseMissing : Nat
  armed : Bool
  engine : SchedEngine
deriving DecidableEq, Repr

/-! ## Page chooser (chapter 6) -/

/-- A general line: the applied entry and the chooser's state (section 6.1). Levels are `true` for high. -/
structure LineState where
  entry : LineEntry
  raw : Bool
  filtered : Bool
  /-- The filter timer: stopped, or running with the length it was started with, ms. -/
  timer : Option Nat
  /-- ACTIVE. -/
  alert : Bool
  /-- Driven low; otherwise released. -/
  drive : Bool
deriving DecidableEq, Repr

/-- Heartbeat states (section 6.4). -/
inductive Heartbeat where
  | off | running | lapsed
deriving DecidableEq, Repr

structure Chooser where
  faultCount : Nat
  hb : Heartbeat
  hbCounter : Nat
  hbLast : Option Nat
deriving DecidableEq, Repr

/-! ## Update scheduler (chapter 7) -/

/-- Job states (section 7.1). -/
inductive Job where
  | disabled | shown | queued | cold | transfer | refreshing | settling | offline | panelFault
deriving DecidableEq, Repr

/-- A planned slot (R140). -/
structure PlannedSlot where
  index : Nat
  tile : Option Nat
  sig : Signature
deriving DecidableEq, Repr

/-- A plan record (R140). -/
structure Plan where
  mode : RefreshMode
  page : Nat
  generation : BitVec 32
  tag : Nat
  planned : List PlannedSlot
deriving DecidableEq, Repr

/-- A place in an update queue (R129). -/
structure QueueEntry where
  sign : SignNo
  cls : Class
deriving DecidableEq, Repr

/-- Everything the blocks hold per sign. -/
structure SignState where
  /-- Directory shadow: the applied entry (R29). -/
  entry : SignEntry
  /-- Update scheduler (R128). -/
  job : Job
  pendingClass : Option Class
  again : Option Class
  abort : Option Class
  forceFull : Bool
  partialCount : Nat
  /-- Temperature ring, oldest sample first: empty, or four (R134). -/
  ring : List Int
  shownTag : Nat
  lastTag : Nat
  plan : Option Plan
  lastUpdate : Option TimeOfDay
  /-- Slot store, in slot order (R65). -/
  slots : List Slot
  /-- Page loader (R70). -/
  activePage : Option Nat
  generation : BitVec 32
  activation : Activation
  incoming : Option (Nat × Reason)
  staged : List StagedEntry
  lastRefused : Option Nat
  rangeReported : Bool
  /-- Clock and schedule unit (R98). -/
  curEntry : Option Nat
  nextEntry : Option (Nat × Nat)
  rotFirst : Nat
  rotLast : Nat
  rotDwell : Nat
  rotPos : Nat
  dwellCount : Nat
  workDue : Work
  redo : Bool
  /-- The order-reported flag: clear, or set with the index of the break it was set for (R97, log 32). -/
  orderReported : Option Nat
  schedulePage : Nat
  /-- Page chooser: wanted page and reason (section 6.5). -/
  wanted : Option (Nat × Reason)
  /-- Report writer (R179). -/
  recordDue : Bool
deriving DecidableEq, Repr

/-! ## Link controllers (chapter 8) -/

/-- Line phases (section 8.4). -/
inductive Phase where
  | off | idle | sending | awaiting | receiving | gap
deriving DecidableEq, Repr

/-- Purposes of an exchange, in the order of their codes 1..5 (R155). -/
inductive Purpose where
  | jobProbe | jobLoad | jobShow | poll | survey
deriving DecidableEq, Repr

/-- The exchange in flight. `discard` marks one whose answer goes to no block (R31, R40, R169). -/
structure Exchange where
  sign : SignNo
  drop : Nat
  purpose : Purpose
  attempt : Nat
  frame : List Byte
  rate : Nat
  discard : Bool
deriving DecidableEq, Repr

/-- The next step of a job (section 8.4). -/
inductive JobStep where
  | probe
  | load (j : Nat)
  | showStep
deriving DecidableEq, Repr

/-- What a job step or a survey retry waits for before it is eligible: nothing, a back-off wait in ms (R154), or the
repeat of a busy LOAD in ms (R160). -/
inductive StepWait where
  | ready
  | backoff (ms : Nat)
  | busyRepeat (ms : Nat)
deriving DecidableEq, Repr

/-- The job context (section 8.4). `held` are the filled tile buffers as (planned slot, bytes), at most two (R159). -/
structure JobCtx where
  sign : SignNo
  step : JobStep
  attempts : Nat
  wait : StepWait
  held : List (Nat × List Byte)
  /-- The moment of the first BUSY answer of the present busy run, µs (R160). -/
  busyStart : Option Nat
  /-- A frame of this job's SHOW has begun (R130, R161). -/
  showSent : Bool
  /-- The answer window, ms, taken when the step's pending retry was scheduled; none before a first attempt (R154). -/
  window : Option Nat
deriving DecidableEq, Repr

/-- A poll list entry: due time in µs, and whether it has passed (R156, R157). -/
structure Poll where
  sign : SignNo
  due : Nat
  passed : Bool
  attempts : Nat
  /-- As in `JobCtx`. -/
  window : Option Nat
deriving DecidableEq, Repr

/-- The survey probe being carried out (R167). -/
structure Survey where
  sign : SignNo
  attempts : Nat
  /-- One attempt alone: the sign was OFFLINE at the first attempt (R155). -/
  single : Bool
  wait : StepWait
  /-- As in `JobCtx`. -/
  window : Option Nat
deriving DecidableEq, Repr

/-- A link controller, and the update queue of its link (R129). -/
structure LinkState where
  queue : List QueueEntry
  phase : Phase
  exch : Option Exchange
  /-- The length of the answer window of the exchange in flight, ms (R152). -/
  window : Nat
  /-- Characters of the answer received so far (R152). -/
  rx : List Byte
  job : Option JobCtx
  polls : List Poll
  /-- Refresh timers: sign and length in s (R164). -/
  refresh : List (SignNo × Nat)
  /-- Survey timer: stopped, or running with its length in s (R166). -/
  surveyTimer : Option Nat
  surveyDue : Bool
  survey : Option Survey
  surveyPointer : Nat
deriving DecidableEq, Repr

/-! ## Report writer (chapter 9) -/

/-- Report kinds (R178). -/
inductive ReportKind where
  | updateDone | pageSwitch | signOnline | clockSet | pulseCapture | coldHold
  | signOffline | panelError | refreshTimeout | config | duplicateDrop | slotsExhausted | mapRange | scheduleOrder
  | alertOn | alertOff | heartbeatLapsed | heartbeatRestored | pulseMissing | suppressed | resumed
  | directoryLoaded | directoryRefused
deriving DecidableEq, Repr

/-- A report as a block hands it over (R178). -/
structure Report where
  kind : ReportKind
  sign : Option SignNo
  page : Option Nat
  detail : Nat
deriving DecidableEq, Repr

/-- An accepted entry not yet written: its ring position, its fields and its time stamp (R175). -/
structure PendingEntry where
  pos : Nat
  report : Report
  stamp : TimeOfDay
deriving DecidableEq, Repr

/-- The ring the writer holds, with its indexes (section 9.1). -/
structure Ring where
  base : Nat
  size : Nat
  producer : Nat
  published : Nat
  consumer : Nat
deriving DecidableEq, Repr

structure ReportWriter where
  ring : Option Ring
  placed : Bool
  entries : List PendingEntry
  suppressing : Bool
  blockDue : Bool
  owedIndex : Bool
  /-- ATTN asserted (the pin is active low, R181). -/
  attn : Bool
deriving DecidableEq, Repr

/-! ## The part -/

/-- The whole state: the commands waiting, the frame memory, and the nine blocks. -/
structure State where
  /-- Commands waiting, first in, first out. -/
  pending : List Instr
  /-- RESET_N is asserted (R13, R39). -/
  resetHeld : Bool
  /-- Frame memory (R4). -/
  mem : Memory
  mp : MemPath
  dir : Directory
  tm : TileMonitor
  pl : PageLoader
  clk : Clock
  pc : Chooser
  rw : ReportWriter
  lines : Vector LineState 4
  links : Vector LinkState 4
  signs : Vector SignState 256
deriving DecidableEq, Repr

/-! ## Values after device reset -/

/-- The cleared line entry (R39). -/
def LineEntry.cleared : LineEntry := { mode := .off, activeHigh := false, alertPage := none, zones := 0 }

/-- The cleared sign entry: DISABLED (R39). The rules give no other field of it: the values here are the model's (log 40). -/
def SignEntry.cleared : SignEntry :=
  { enabled := false, link := 0, drop := 0, zone := 0, columns := 0, rows := 0, pageCount := 0, fallback := none,
    ghostLimit := 0, scheduleCount := 0 }

/-- A line after device reset (R125): the pin level and the filtered level are the raw level at the release. -/
def LineState.reset (high : Bool) : LineState :=
  { entry := .cleared, raw := high, filtered := high, timer := none, alert := false, drive := false }

/-- A sign after device reset or any emptying (R85, R108, R125, R147), its record due (R179). -/
def SignState.reset : SignState :=
  { entry := .cleared
    job := .disabled, pendingClass := none, again := none, abort := none, forceFull := false, partialCount := 0,
    ring := [], shownTag := 0, lastTag := 0, plan := none, lastUpdate := none
    slots := [], activePage := none, generation := 0, activation := .idle, incoming := none, staged := [],
    lastRefused := none, rangeReported := false
    curEntry := none, nextEntry := none, rotFirst := 0, rotLast := 0, rotDwell := 0, rotPos := 0, dwellCount := 0,
    workDue := .none, redo := false, orderReported := none, schedulePage := 0
    wanted := none
    recordDue := true }

/-- A link controller and its queue after device reset (R147, R171). -/
def LinkState.reset : LinkState :=
  { queue := [], phase := .off, exch := none, window := 0, rx := [], job := none, polls := [], refresh := [],
    surveyTimer := none, surveyDue := false, survey := none, surveyPointer := 63 }

def TileMonitor.reset : TileMonitor := { watch := [], stale := [], engine := .idle }

def PageLoader.reset : PageLoader := { queue := [], loading := none }

/-- The clock unit after device reset (R108). -/
def Clock.reset : Clock :=
  { day := 0, minute := 0, second := 0, unset := true, prescaler := 0, lastOffset := 0, pulseMode := false,
    pulseMissing := 0, armed := false, engine := .idle }

/-- The page chooser after any emptying (R125). -/
def Chooser.reset : Chooser := { faultCount := 0, hb := .off, hbCounter := 0, hbLast := none }

/-- The report writer after device reset, before it places its first request (R182). -/
def ReportWriter.reset : ReportWriter :=
  { ring := none, placed := false, entries := [], suppressing := false, blockDue := true, owedIndex := false,
    attn := false }

/-- The directory shadow after device reset (R39). -/
def Directory.reset : Directory :=
  { image := [], header := none, lastClockSeq := none, part := .loading, load := .header }

/-- The directory load's step 1 read (R36). -/
def headerRead (windowBase : Nat) : OwnReq := { kind := .dirHeader, addr := windowBase, len := 256, data := [] }

/-- The device status block as it stands at a device reset (R184): part state LOADING, UNSET set, free slots 8192,
free watch entries 4096, every other byte 0. -/
def resetBlock : List Byte :=
  [1, 1, 0, 0, 0, 0, 0, 0, 0, 0, 0, 0, 0x20, 0x00, 0x10, 0x00] ++ List.replicate 48 0

/-- The memory path after device reset (R14), with the directory load's header read waiting (R39) and the report
writer's first request, the status block, already placed (R177, R182). -/
def MemPath.reset (windowBase : Nat) : MemPath :=
  { windowBase := windowBase, host := none, grantCount := 0, linkPointer := 3
    waiting :=
      [headerRead windowBase,
        { kind := .blockWrite, addr := windowBase + 0x6000, len := 64, data := resetBlock }]
    running := none, hostData := [] }

/-- The part right after RESET_N is released (R14, R39, R62, R85, R108, R125, R147, R171, R182), with the straps and pin
levels of log 4 and nothing written to memory (log 3). -/
def State.reset : State :=
  { pending := []
    resetHeld := false
    mem := []
    mp := .reset (Config.windowBase Config.resetStraps)
    dir := .reset
    tm := .reset
    pl := .reset
    clk := .reset
    pc := .reset
    rw := { ReportWriter.reset with blockDue := false }
    lines := Vector.replicate 4 (.reset Config.resetPinHigh)
    links := Vector.replicate 4 .reset
    signs := Vector.replicate 256 .reset }

end Sys2Proof.Machine
end

