-- ==== Sys2Proof/Machine/Ops.lean ====
section
/-! DEFINITION. The named operations every block uses: reading and writing bytes, reaching one sign, link or line, the status
view of a sign, and placing and withdrawing own requests. -/

namespace Sys2Proof.Machine

/-! ## Byte stores (frame memory, byte image) -/

/-- The byte at `a`; what is not listed reads `Config.powerOnByte` (log 3; for the byte image it is the 0 of R19). -/
def Memory.read : Memory → Nat → Byte
  | [], _ => Config.powerOnByte
  | (b, v) :: rest, a => if a = b then v else Memory.read rest a

/-- Store `v` at `a`, keeping the canonical form. -/
def Memory.write (a : Nat) (v : Byte) : Memory → Memory
  | [] => if v = Config.powerOnByte then [] else [(a, v)]
  | (b, w) :: rest =>
    if a < b then (if v = Config.powerOnByte then (b, w) :: rest else (a, v) :: (b, w) :: rest)
    else if a = b then (if v = Config.powerOnByte then rest else (a, v) :: rest)
    else (b, w) :: Memory.write a v rest

/-- Every listed address is above `lo` (none: no bound), addresses rise, no listed byte is the unlisted value. -/
def Memory.wfFrom : Option Nat → Memory → Bool
  | _, [] => true
  | lo, (a, v) :: rest =>
    (match lo with | none => true | some l => decide (l < a)) && decide (v ≠ Config.powerOnByte) &&
      Memory.wfFrom (some a) rest

/-- The canonical form of a byte store. -/
def Memory.wf (m : Memory) : Bool := Memory.wfFrom none m

/-- Store a burst from `a` upward, wrapping at the top of memory (R4). -/
def Memory.writeBytes (a : Nat) : List Byte → Memory → Memory
  | [], m => m
  | v :: rest, m => Memory.writeBytes (a + 1) rest (m.write (a % Config.memorySize) v)

/-- The `n` bytes from `a` upward, wrapping at the top of memory (R4). -/
def Memory.readBytes (m : Memory) (a n : Nat) : List Byte :=
  (List.range n).map fun i => m.read ((a + i) % Config.memorySize)

/-! ## One sign, link or line -/

def State.sign (s : State) (i : SignNo) : SignState := s.signs[i]

def State.link (s : State) (l : LinkNo) : LinkState := s.links[l]

def State.line (s : State) (n : LineNo) : LineState := s.lines[n]

def State.setLink (l : LinkNo) (x : LinkState) (s : State) : State := { s with links := s.links.set l x }

def State.setLine (n : LineNo) (x : LineState) (s : State) : State := { s with lines := s.lines.set n x }

def State.modifyLink (l : LinkNo) (f : LinkState → LinkState) (s : State) : State := s.setLink l (f (s.link l))

def State.modifyLine (n : LineNo) (f : LineState → LineState) (s : State) : State := s.setLine n (f (s.line n))

/-- The average of the temperature ring, rounded toward minus infinity; none while the ring is empty (R134). -/
def SignState.average (g : SignState) : Option Int :=
  if g.ring.isEmpty then none else some (g.ring.sum / 4)

/-- The dirty slot count (R65). -/
def SignState.dirtyCount (g : SignState) : Nat := g.slots.countP (·.dirty)

/-- The fields of the sign status record (R179). -/
structure StatusView where
  job : Job
  activePage : Option Nat
  wanted : Option (Nat × Reason)
  shownTag : Nat
  partialCount : Nat
  average : Option Int
  dirtyCount : Nat
  lastUpdate : Option TimeOfDay
deriving DecidableEq, Repr

def SignState.statusView (g : SignState) : StatusView :=
  { job := g.job, activePage := g.activePage, wanted := g.wanted, shownTag := g.shownTag,
    partialCount := g.partialCount, average := g.average, dirtyCount := g.dirtyCount, lastUpdate := g.lastUpdate }

/-- `new` with its record due set when a field of the status record differs from `old` (R179). -/
def SignState.markDue (old new : SignState) : SignState :=
  if new.statusView = old.statusView then new else { new with recordDue := true }

/-- Change what the blocks hold for sign `i`; a change of a status record field sets its record due (R179). Every change
of a sign's state but an emptying goes through here. -/
def State.modifySign (i : SignNo) (f : SignState → SignState) (s : State) : State :=
  { s with signs := s.signs.set i ((s.sign i).markDue (f (s.sign i))) }

/-- The signs that satisfy `p`, in ascending sign number. -/
def State.signsWhere (p : SignState → Bool) (s : State) : List SignNo :=
  ((List.finRange 256).zip s.signs.toList).filterMap fun x => if p x.2 then some x.1 else none

/-- The lowest-numbered sign that satisfies `p`. -/
def State.findSign (p : SignState → Bool) (s : State) : Option SignNo := (s.signsWhere p).head?

/-- How many signs satisfy `p`. -/
def State.countSigns (p : SignState → Bool) (s : State) : Nat := s.signs.toList.countP p

/-- Do `f` to each sign of the list in turn. -/
def forSigns (f : SignNo → State → State) : List SignNo → State → State
  | [], s => s
  | i :: rest, s => forSigns f rest (f i s)

/-- Do `f` for links 0, 1, 2 and 3 in turn. -/
def forLinks (f : LinkNo → State → State) (s : State) : State := f 3 (f 2 (f 1 (f 0 s)))

/-- The applied header's settings in use; while no header is applied the line filter is 1 ms (R110) and no link runs,
so no other field is looked at. -/
def State.settings (s : State) : Header :=
  s.dir.header.getD
    { tileBase := 0, tileCount := 0, mapBase := 0, schedBase := 0, ringBase := 0, ringSize := 16, linkEnable := 0,
      rates := Vector.replicate 4 0, answerWindow := 1, retryLimit := 1, backoffCap := 0, pollInterval := 5,
      refreshLimit := 120, surveyInterval := 1, coldThreshold := 0, freezeThreshold := 0, fraction := 0,
      heartbeatModulus := 0, lineFilter := 1, attention := false }

/-- The link's enable is applied on (section 2.4). -/
def State.linkOn (s : State) (l : LinkNo) : Bool := s.settings.linkEnable.getLsbD l

/-- The clock as a time of day. -/
def State.now (s : State) : TimeOfDay := { day := s.clk.day, minute := s.clk.minute, second := s.clk.second }

/-! ## Own requests (R10) -/

/-- Whose request a transaction is (section 1.8). -/
def OwnKind.requester : OwnKind → Requester
  | .indexWrite _ => .report
  | .entryWrite => .report
  | .blockWrite => .report
  | .recordWrite _ => .report
  | .dirHeader => .directory
  | .dirConsumer => .directory
  | .dirLines => .directory
  | .dirSigns _ => .directory
  | .mapRead _ _ => .pageMap
  | .schedResync _ => .schedule
  | .schedAdvance _ => .schedule
  | .tileRead l _ => .link l
  | .sigRead => .signature

def OwnReq.requester (r : OwnReq) : Requester := r.kind.requester

/-- The transaction writes to memory: it is the report writer's (section 1.8). -/
def OwnReq.isWrite (r : OwnReq) : Bool := r.requester == .report

/-- The requester has a request waiting or a transaction in progress (R10). -/
def State.busy (s : State) (r : Requester) : Bool :=
  s.mp.waiting.any (·.requester == r) ||
    (match s.mp.running with | some x => x.req.requester == r | none => false)

/-- Place an own request (R10). -/
def State.place (req : OwnReq) (s : State) : State := { s with mp.waiting := s.mp.waiting ++ [req] }

/-- Withdraw the waiting requests of the requesters in `rs`; their read in progress runs to its end and its bytes will be
discarded (R15, R16). When no own request is left waiting, the host-grant count becomes 0 (R11). -/
def State.withdraw (rs : Requester → Bool) (s : State) : State :=
  let left := s.mp.waiting.filter fun q => !rs q.requester
  { s with
    mp.waiting := left
    mp.grantCount := if left.isEmpty then 0 else s.mp.grantCount
    mp.running := s.mp.running.map fun x => if rs x.req.requester then { x with discard := true } else x }

end Sys2Proof.Machine
end

