-- ==== Sys2Proof/Machine/Operands.lean ====
section
/-! DEFINITION. The forms in which values stand in memory and on the links (chapter 10): byte order, the host-written records
with their clamping (chapter 2), schedule entries, map entries, and the places of a burst's bytes (R7, R8). -/

namespace Sys2Proof.Machine

/-! ## Byte order (R183) -/

/-- A 16-bit value, most significant byte first. -/
def be16 (hi lo : Byte) : Nat := hi.toNat * 256 + lo.toNat

/-- A 24-bit value, most significant byte first. -/
def be24 (a b c : Byte) : Nat := a.toNat * 65536 + b.toNat * 256 + c.toNat

/-- The two's complement value of 16 bits. -/
def signed16 (n : Nat) : Int := if n < 32768 then (n : Int) else (n : Int) - 65536

/-- The 16 bits of a signed value in two's complement (R184). -/
def bits16 (x : Int) : Nat := (x % 65536).toNat

/-- The two bytes of a 16-bit value. -/
def bytes16 (n : Nat) : List Byte := [BitVec.ofNat 8 (n / 256), BitVec.ofNat 8 n]

/-- `lo` if below it, `hi` if above it. -/
def clamp (lo hi n : Nat) : Nat := max lo (min hi n)

/-- The 16-bit value at an offset of the byte image. -/
def Memory.word (m : Memory) (off : Nat) : Nat := be16 (m.read off) (m.read (off + 1))

/-- The 24-bit value at an offset of the byte image. -/
def Memory.addr24 (m : Memory) (off : Nat) : Nat := be24 (m.read off) (m.read (off + 1)) (m.read (off + 2))

/-- The 8-bit value at an offset of the byte image. -/
def Memory.num (m : Memory) (off : Nat) : Nat := (m.read off).toNat

/-! ## Header (sections 2.4 and 10.2) -/

/-- The header of the image with its fields rounded and clamped (R24). -/
def parseHeader (m : Memory) : Header :=
  { tileBase := m.addr24 0x04 / 256 * 256
    tileCount := min 8192 (m.word 0x08)
    mapBase := m.addr24 0x0C / 4096 * 4096
    schedBase := m.addr24 0x10 / 2048 * 2048
    ringBase := m.addr24 0x14 / 16 * 16
    ringSize := clamp 16 4096 (m.word 0x18)
    linkEnable := (m.read 0x20).setWidth 4
    rates := #v[min 3 (m.num 0x24), min 3 (m.num 0x25), min 3 (m.num 0x26), min 3 (m.num 0x27)]
    answerWindow := clamp 1 15 (m.num 0x28)
    retryLimit := clamp 1 15 (m.num 0x29)
    backoffCap := min 7 (m.num 0x2A)
    pollInterval := max 5 (m.num 0x2B)
    refreshLimit := if m.num 0x2C = 0 then 120 else min 120 (m.num 0x2C)
    surveyInterval := max 1 (m.num 0x2D)
    fraction := min 8 (m.num 0x2E)
    lineFilter := max 1 (m.num 0x2F)
    coldThreshold := signed16 (m.word 0x30)
    freezeThreshold := signed16 (m.word 0x32)
    heartbeatModulus := m.word 0x34
    attention := (m.read 0x36).getLsbD 0 }

/-- The restart flag of the image's control byte (R26). -/
def restartFlag (m : Memory) : Bool := (m.read 0xFF).getLsbD 0

/-- Two extents (base below the memory size, size) share a byte, each wrapped at the top of memory (R7, R23). -/
def extentsOverlap (a b : Nat × Nat) : Bool :=
  decide ((b.1 + Config.memorySize - a.1) % Config.memorySize < a.2) ||
    decide ((a.1 + Config.memorySize - b.1) % Config.memorySize < b.2)

/-- Some two extents of the list overlap. -/
def anyOverlap : List (Nat × Nat) → Bool
  | [] => false
  | e :: rest => rest.any (extentsOverlap e) || anyOverlap rest

/-- The five extents of R23. -/
def Header.extents (windowBase : Nat) (h : Header) : List (Nat × Nat) :=
  [(windowBase, Config.windowSize), (h.tileBase, h.tileCount * 256), (h.mapBase, Config.mapAreaSize),
    (h.schedBase, Config.scheduleAreaSize), (h.ringBase, h.ringSize * 16)]

/-- The cause code of R23 for which the image's header is refused, or none for a valid header. -/
def headerCause (windowBase : Nat) (m : Memory) : Option Nat :=
  if m.word 0x00 ≠ 0x5347 then some 1
  else if m.num 0x02 ≠ 1 then some 2
  else if m.word 0x08 = 0 then some 3
  else if anyOverlap ((parseHeader m).extents windowBase) then some 4
  else none

/-- No region field differs (R24). -/
def Header.sameRegions (a b : Header) : Bool :=
  a.tileBase == b.tileBase && a.tileCount == b.tileCount && a.mapBase == b.mapBase && a.schedBase == b.schedBase &&
    a.ringBase == b.ringBase && a.ringSize == b.ringSize

/-! ## Line entries, sign entries, clock-set record (sections 2.5 to 2.7 and 10.3) -/

/-- Window offset of line `n`'s entry. -/
def lineOffset (n : LineNo) : Nat := 0x100 + 16 * n.val

/-- Window offset of sign `i`'s entry. -/
def signOffset (i : SignNo) : Nat := 0x1000 + 16 * i.val

/-- The mode a code stands for on line `n`; none for an illegal one (R27). -/
def lineMode (n : LineNo) (code : Nat) : Option LineMode :=
  match code with
  | 0 => some .off
  | 1 => some .alertLevel
  | 2 => some .alertLatched
  | 3 => if n = 3 then some .minutePulse else none
  | 4 => some .faultOutput
  | _ => none

/-- The zone mask at an offset: zone z is bit (z mod 8) of byte floor(z / 8) (section 10.3). -/
def zoneMask (m : Memory) (off : Nat) : BitVec 64 :=
  m.read (off + 7) ++ m.read (off + 6) ++ m.read (off + 5) ++ m.read (off + 4) ++
    m.read (off + 3) ++ m.read (off + 2) ++ m.read (off + 1) ++ m.read off

/-- The mode code of line `n` as written in the image. -/
def lineCode (m : Memory) (n : LineNo) : Nat := m.num (lineOffset n)

/-- Line `n`'s entry as applied: OFF in place of an illegal mode, an alert page above 7 as 7 (R27). -/
def parseLine (m : Memory) (n : LineNo) : LineEntry :=
  { mode := (lineMode n (lineCode m n)).getD .off
    activeHigh := (m.read (lineOffset n + 1)).getLsbD 0
    alertPage := some (min 7 (m.num (lineOffset n + 2)))
    zones := zoneMask m (lineOffset n + 4) }

/-- Sign `i`'s entry as written, before clamping (section 10.3). -/
def rawSign (m : Memory) (i : SignNo) : SignEntry :=
  let o := signOffset i
  { enabled := (m.read o).getLsbD 0
    link := Fin.ofNat 4 (m.num (o + 1) / 64)
    drop := m.num (o + 1) % 64
    zone := m.num (o + 2) % 64
    columns := m.num (o + 3)
    rows := m.num (o + 4)
    pageCount := m.num (o + 5)
    fallback := if m.num (o + 6) = 0xFF then none else some (m.num (o + 6))
    ghostLimit := m.num (o + 7)
    scheduleCount := m.num (o + 8) }

/-- A sign entry clamped as section 2.6 states. The clamp gives no page for a fallback page under page count 0, which an entry
with its enable off may have: page 0 is stored (log 35). -/
def SignEntry.clamped (e : SignEntry) : SignEntry :=
  let pages := min 8 e.pageCount
  { e with
    columns := min 16 e.columns
    rows := min 16 e.rows
    pageCount := pages
    fallback := e.fallback.map (min (pages - 1))
    ghostLimit := min 15 e.ghostLimit }

/-- The detail code for which an entry with its enable on is refused (R29): 1 zero columns or rows, 2 zero page count. Of an
entry with both, R29 does not say which is reported; it is 1 alone (log 30). -/
def SignEntry.geometryCause (e : SignEntry) : Option Nat :=
  if e.columns = 0 ∨ e.rows = 0 then some 1 else if e.pageCount = 0 then some 2 else none

/-- Columns × rows: the slots of a page of the sign (R65). -/
def SignEntry.slotCount (e : SignEntry) : Nat := e.columns * e.rows

/-- The time of the clock-set record, clamped (section 2.7). -/
def parseClockSet (m : Memory) : TimeOfDay :=
  { day := m.word 0x200, minute := min 1439 (m.word 0x202), second := min 59 (m.num 0x204) }

/-! ## Schedule lists (sections 5.4 and 10.4) -/

/-- A schedule entry as read, the minute clamped (R96). -/
structure SchedEntry where
  day : Nat
  minute : Nat
  first : Nat
  last : Nat
  dwell : Nat
deriving DecidableEq, Repr

/-- day × 1440 + minute (R96). -/
def SchedEntry.time (e : SchedEntry) : Nat := e.day * 1440 + e.minute

/-- The entries of the bytes of a schedule-list read, 8 bytes each. -/
def parseSchedule : List Byte → List SchedEntry
  | d1 :: d0 :: m1 :: m0 :: f :: l :: w1 :: w0 :: rest =>
    { day := be16 d1 d0, minute := min 1439 (be16 m1 m0), first := f.toNat, last := l.toNat, dwell := be16 w1 w0 }
      :: parseSchedule rest
  | _ => []

/-! ## Page maps (sections 4.2 and 10.4) -/

/-- The map values of the bytes of a page-map read, two bytes each. -/
def parseMap : List Byte → List Nat
  | hi :: lo :: rest => be16 hi lo :: parseMap rest
  | _ => []

/-- The map entries whose bytes a run carries, in travel order: index, high half and low half where carried (R74, R79).
The run is a list of (position, value) with consecutive positions. -/
def mapEntries : List (Nat × Byte) → List (Nat × Option Byte × Option Byte)
  | [] => []
  | [(p, b)] => [if p % 2 = 0 then (p / 2, some b, none) else (p / 2, none, some b)]
  | (p, b) :: (q, c) :: rest =>
    if p % 2 = 0 ∧ q = p + 1 then (p / 2, some b, some c) :: mapEntries rest
    else (if p % 2 = 0 then (p / 2, some b, none) else (p / 2, none, some b)) :: mapEntries ((q, c) :: rest)

/-- A map value with the carried halves replaced. -/
def mergeHalves (v : Nat) (hi lo : Option Byte) : Nat :=
  (match hi with | some b => b.toNat | none => v / 256 % 256) * 256 +
    (match lo with | some b => b.toNat | none => v % 256)

/-! ## The places of a burst's bytes (R7, R8) -/

/-- The unit of ownership that contains an address (R8), with the byte's position in it. -/
inductive Place where
  /-- The window, by offset. -/
  | window (off : Nat)
  /-- A tile of the tile pool. -/
  | tile (n : Nat)
  /-- A page map: sign, page and the position within the map. -/
  | map (sign : SignNo) (page pos : Nat)
  /-- A sign's schedule list. -/
  | schedule (sign : SignNo)
  /-- The report ring region. -/
  | ring
  /-- No region. -/
  | outside
deriving DecidableEq, Repr

/-- The offset of an address from a base, modulo the memory size (R8). -/
def offsetFrom (base a : Nat) : Nat := (a + Config.memorySize - base) % Config.memorySize

/-- The place of an address below the memory size, by the window and the applied header's regions (R7). -/
def classify (windowBase : Nat) (h : Option Header) (a : Nat) : Place :=
  if offsetFrom windowBase a < Config.windowSize then .window (offsetFrom windowBase a)
  else
    match h with
    | none => .outside
    | some h =>
      let t := offsetFrom h.tileBase a
      let m := offsetFrom h.mapBase a
      let c := offsetFrom h.schedBase a
      if t < h.tileCount * 256 then .tile (t / 256)
      else if m < Config.mapAreaSize then .map (Fin.ofNat 256 (m / 4096)) (m % 4096 / 512) (m % 512)
      else if c < Config.scheduleAreaSize then .schedule (Fin.ofNat 256 (c / 2048))
      else if offsetFrom h.ringBase a < h.ringSize * 16 then .ring
      else .outside

/-- A run handed to an owner (R8). -/
inductive Run where
  | window (bytes : List (Nat × Byte))
  | tile (n : Nat)
  | map (sign : SignNo) (page : Nat) (bytes : List (Nat × Byte))
  | schedule (sign : SignNo)
  | dropped
deriving DecidableEq, Repr

/-- Put one byte before the runs of the bytes that follow it: it joins the first run when that run lies in the same
unit (R8). -/
def consRun (p : Place) (v : Byte) (runs : List Run) : List Run :=
  match p, runs with
  | .window o, .window bs :: rest => .window ((o, v) :: bs) :: rest
  | .window o, rest => .window [(o, v)] :: rest
  | .tile n, .tile m :: rest => if n = m then .tile m :: rest else .tile n :: .tile m :: rest
  | .tile n, rest => .tile n :: rest
  | .map i p pos, .map j q bs :: rest =>
    if i = j ∧ p = q then .map j q ((pos, v) :: bs) :: rest else .map i p [(pos, v)] :: .map j q bs :: rest
  | .map i p pos, rest => .map i p [(pos, v)] :: rest
  | .schedule i, .schedule j :: rest => if i = j then .schedule j :: rest else .schedule i :: .schedule j :: rest
  | .schedule i, rest => .schedule i :: rest
  | .ring, .dropped :: rest => .dropped :: rest
  | .ring, rest => .dropped :: rest
  | .outside, .dropped :: rest => .dropped :: rest
  | .outside, rest => .dropped :: rest

/-- The runs of a burst from address `a`, in travel order, by the bounds in force at its grant (R7, R8). -/
def cutRuns (windowBase : Nat) (h : Option Header) : Nat → List Byte → List Run
  | _, [] => []
  | a, v :: rest => consRun (classify windowBase h (a % Config.memorySize)) v (cutRuns windowBase h (a + 1) rest)

end Sys2Proof.Machine
end

