-- ==== Sys2Proof/Machine/Formats.lean ====
section
/-! DEFINITION. What the part writes and sends, byte by byte (sections 10.5, 10.6), the link CRC (R151) and the judging of a
received answer (R152, R153, R185). -/

namespace Sys2Proof.Machine

/-! ## Codes (R178, R184) -/

/-- Kind code (R178). -/
def ReportKind.code : ReportKind → Nat
  | .updateDone => 0x01
  | .pageSwitch => 0x02
  | .signOnline => 0x03
  | .clockSet => 0x04
  | .pulseCapture => 0x05
  | .coldHold => 0x06
  | .signOffline => 0x10
  | .panelError => 0x11
  | .refreshTimeout => 0x12
  | .config => 0x13
  | .duplicateDrop => 0x14
  | .slotsExhausted => 0x15
  | .mapRange => 0x16
  | .scheduleOrder => 0x17
  | .alertOn => 0x18
  | .alertOff => 0x19
  | .heartbeatLapsed => 0x1A
  | .heartbeatRestored => 0x1B
  | .pulseMissing => 0x1C
  | .suppressed => 0x1D
  | .resumed => 0x1E
  | .directoryLoaded => 0x1F
  | .directoryRefused => 0x20

/-- The fixed grade of a kind: routine exactly for the codes below 0x10 (R178). -/
def ReportKind.routine (k : ReportKind) : Bool := k.code < 0x10

def Job.code : Job → Nat
  | .disabled => 0
  | .shown => 1
  | .queued => 2
  | .cold => 3
  | .transfer => 4
  | .refreshing => 5
  | .settling => 6
  | .offline => 7
  | .panelFault => 8

/-- Reason codes; 0 is none (R184, R76). -/
def Reason.code : Reason → Nat
  | .page => 1
  | .alert => 2

def PartState.code : PartState → Nat
  | .waiting => 0
  | .loading => 1
  | .running => 2

def Heartbeat.code : Heartbeat → Nat
  | .off => 0
  | .running => 1
  | .lapsed => 2

/-- Purpose codes (R155). -/
def Purpose.code : Purpose → Nat
  | .jobProbe => 1
  | .jobLoad => 2
  | .jobShow => 3
  | .poll => 4
  | .survey => 5

/-- A page field: 0xFF for none. -/
def pageCode (p : Option Nat) : Nat := p.getD 0xFF

/-! ## Records (R184) -/

/-- One byte of a number. -/
def byteOf (n : Nat) : Byte := BitVec.ofNat 8 n

def bitOf (b : Bool) : Byte := if b then 1 else 0

/-- The 16 bytes of a report entry. -/
def PendingEntry.bytes (e : PendingEntry) : List Byte :=
  [byteOf e.report.kind.code,
    (if e.report.kind.routine then 0 else 1) + (if e.report.sign.isSome then 2 else 0),
    byteOf (match e.report.sign with | some i => i.val | none => 0),
    byteOf (pageCode e.report.page)] ++
  bytes16 e.report.detail ++ bytes16 e.stamp.day ++ bytes16 e.stamp.minute ++ [byteOf e.stamp.second] ++
  List.replicate 5 0

/-- The 32 bytes of sign status record. -/
def SignState.record (g : SignState) : List Byte :=
  let u := g.lastUpdate.getD { day := 0, minute := 0, second := 0 }
  [byteOf g.job.code, byteOf (pageCode g.activePage), byteOf (pageCode (g.wanted.map (·.1))),
    byteOf (match g.wanted with | some w => w.2.code | none => 0), byteOf g.shownTag, byteOf g.partialCount] ++
  bytes16 (match g.average with | some a => bits16 a | none => 0x8000) ++ bytes16 g.dirtyCount ++
  [bitOf g.lastUpdate.isSome, 0] ++ bytes16 u.day ++ bytes16 u.minute ++ [byteOf u.second] ++ List.replicate 15 0

/-- Slots held in the slot store (R66). -/
def State.slotsHeld (s : State) : Nat := (s.signs.toList.map (·.slots.length)).sum

/-- Free slots (R66). -/
def State.freeSlots (s : State) : Nat := Config.slotCapacity - s.slotsHeld

/-- Free watch entries (R42). -/
def State.freeWatch (s : State) : Nat := Config.watchCapacity - s.tm.watch.length

/-- The signs of link `l` in job state `j` (R148). -/
def State.countOn (s : State) (l : LinkNo) (j : Job) : Nat := s.countSigns fun g => g.entry.link == l && g.job == j

/-- The 64 bytes of the device status block. -/
def State.statusBlock (s : State) : List Byte :=
  let onLink (l : LinkNo) : List Byte :=
    [byteOf (s.countOn l .queued), byteOf (s.countOn l .refreshing), byteOf (s.countOn l .offline)]
  [byteOf s.dir.part.code, bitOf s.clk.unset] ++ bytes16 s.clk.day ++ bytes16 s.clk.minute ++
  [byteOf s.clk.second, BitVec.ofInt 8 s.clk.lastOffset, byteOf s.pc.hb.code, 0] ++ bytes16 s.pc.hbCounter ++
  bytes16 s.freeSlots ++ bytes16 s.freeWatch ++ bytes16 s.tm.stale.length ++
  onLink 0 ++ onLink 1 ++ onLink 2 ++ onLink 3 ++ List.replicate 34 0

/-! ## Characters on a link (R149) -/

/-- The high line level, at which a link's line rests and a character's stop bit stands (R149). -/
def stopLevel : Bool := true

/-- The ten line levels of a character: the start bit low, the data bits from the least significant on, the stop bit
high (R149). -/
def characterBits (v : Byte) : List Bool :=
  [!stopLevel] ++ (List.range 8).map (v.getLsbD ·) ++ [stopLevel]

/-- The line levels of a frame: its characters back to back (R149). -/
def frameBits (f : List Byte) : List Bool := f.flatMap characterBits

/-! ## Link frames (R150, R151, R185) -/

/-- One data bit into the CRC remainder (R151). -/
def crcBit (crc : BitVec 16) (bit : Bool) : BitVec 16 :=
  if crc.getLsbD 15 != bit then (crc <<< 1) ^^^ 0x1021 else crc <<< 1

/-- One byte into the CRC remainder, most significant bit first. -/
def crcByte (crc : BitVec 16) (b : Byte) : BitVec 16 :=
  [7, 6, 5, 4, 3, 2, 1, 0].foldl (fun c k => crcBit c (b.getLsbD k)) crc

/-- The CRC of R151. -/
def crc16 (bytes : List Byte) : BitVec 16 := bytes.foldl crcByte 0xFFFF

/-- A frame of the part: drop, kind code, payload length, payload, CRC (R150, R185). -/
def frame (drop kind : Nat) (payload : List Byte) : List Byte :=
  let body := [byteOf (drop % 64), byteOf kind] ++ bytes16 payload.length ++ payload
  body ++ bytes16 (crc16 body).toNat

/-- PROBE (R150). -/
def probeFrame (drop : Nat) : List Byte := frame drop 0x01 []

/-- LOAD of a slot index: the tile bytes, or the blank flag alone (R150). -/
def loadFrame (drop index : Nat) (tileBytes : Option (List Byte)) : List Byte :=
  match tileBytes with
  | some bs => frame drop 0x02 (byteOf index :: 0 :: bs)
  | none => frame drop 0x02 [byteOf index, 1]

/-- SHOW of a mode and tag (R150). -/
def showFrame (drop : Nat) (mode : RefreshMode) (tag : Nat) : List Byte :=
  frame drop 0x03 [match mode with | .full => 0 | .part => 1, byteOf tag]

/-- Panel states (R150). -/
inductive PanelState where
  | ready | busy | error
deriving DecidableEq, Repr

/-- An answered STATE: panel state, temperature and shown tag (R150, R153). -/
structure Answer where
  state : PanelState
  temp : Int
  tag : Nat
deriving DecidableEq, Repr

/-- How an attempt came out (R153): an answer, or a failure reason 1..5 (R155). -/
inductive Verdict where
  | answered (a : Answer)
  | failed (reason : Nat)
deriving DecidableEq, Repr

/-- The characters so far can still be a STATE frame: the kind and payload length received are right (R152, R185). -/
def mayBeState : List Byte → Bool
  | _ :: k :: h :: l :: _ => k == 0x81 && h == 0x00 && l == 0x04
  | _ :: k :: h :: [] => k == 0x81 && h == 0x00
  | _ :: k :: [] => k == 0x81
  | _ => true

/-- Store a received character: no more once the frame cannot be a STATE frame or its ten characters are in (R152). -/
def storeCharacter (rx : List Byte) (v : Byte) : List Byte :=
  if mayBeState rx && decide (rx.length < 10) then rx ++ [v] else rx

/-- The tests of R153 in their order, on the characters stored. -/
def judge (drop : Nat) (rx : List Byte) : Verdict :=
  match rx with
  | d :: k :: h :: l :: p :: t1 :: t0 :: g :: c1 :: c0 :: [] =>
    if !mayBeState [d, k, h, l] then .failed 4
    else if crc16 [d, k, h, l, p, t1, t0, g] ≠ c1 ++ c0 then .failed 2
    else if d.toNat ≠ drop then .failed 3
    else
      match p.toNat with
      | 0 => .answered { state := .ready, temp := signed16 (be16 t1 t0), tag := g.toNat }
      | 1 => .answered { state := .busy, temp := signed16 (be16 t1 t0), tag := g.toNat }
      | 2 => .answered { state := .error, temp := signed16 (be16 t1 t0), tag := g.toNat }
      | _ => .failed 4
  | _ => .failed 4

end Sys2Proof.Machine
end

