-- ==== Sys2Proof/Machine/Flags.lean ====
section
/-! DEFINITION. The levels and flags the part derives from its counts: ring counts (R174), ATTN (R181), the fault output's
drives (R116), line activity (section 6.1). -/

namespace Sys2Proof.Machine

/-- Unread entries (R174). -/
def Ring.unread (r : Ring) : Nat := (r.producer + (r.size - r.consumer % r.size)) % r.size

/-- Free positions (R174). -/
def Ring.free (r : Ring) : Nat := r.size - 1 - r.unread

/-- The published unread count (R174). -/
def Ring.publishedUnread (r : Ring) : Nat := (r.published + (r.size - r.consumer % r.size)) % r.size

/-- What ATTN must be (R181). -/
def State.attnLevel (s : State) : Bool :=
  match s.rw.ring with
  | none => false
  | some r => s.settings.attention && s.rw.placed && decide (0 < r.publishedUnread)

/-- Re-evaluate ATTN (R181). -/
def State.evalAttn (s : State) : State := { s with rw.attn := s.attnLevel }

/-- The line is active: its filtered level is the level its polarity names (section 6.1). -/
def LineState.active (x : LineState) : Bool := x.filtered == x.entry.activeHigh

/-- Whether the pin is driven low, by mode, polarity and fault count (R116). -/
def LineState.driveFor (x : LineState) (faults : Nat) : Bool :=
  x.entry.mode == .faultOutput && (decide (0 < faults) != x.entry.activeHigh)

/-- Each drive follows the fault count at once (R116). -/
def State.evalDrives (s : State) : State :=
  let d (n : LineNo) : LineState := { s.line n with drive := (s.line n).driveFor s.pc.faultCount }
  { s with lines := #v[d 0, d 1, d 2, d 3] }

/-- The job states that count toward the fault output (R116). -/
def Job.lost (j : Job) : Bool := j == .offline || j == .panelFault

/-- The job states the survey visits (R167). -/
def Job.surveyed (j : Job) : Bool := j == .shown || j == .cold || j == .offline || j == .panelFault

/-- The job states whose signs are polled (R157). -/
def Job.polled (j : Job) : Bool := j == .refreshing || j == .settling

end Sys2Proof.Machine
end

