-- ==== Sys2Proof/Machine/Reports.lean ====
section
/-! DEFINITION. The report writer (chapter 9): accepting reports, suppression, the consumer index, placing the ring, and choosing
its next write. -/

namespace Sys2Proof.Machine

/-- Append an entry at the producer index and advance it (R175). -/
def State.acceptEntry (r : Ring) (rep : Report) (s : State) : State :=
  { s with
    rw.ring := some { r with producer := (r.producer + 1) % r.size }
    rw.entries := s.rw.entries ++ [{ pos := r.producer, report := rep, stamp := s.now }] }

/-- The writer accepts a report of this kind now (R175). -/
def State.accepts (s : State) (r : Ring) (k : ReportKind) : Bool :=
  s.rw.placed && decide (0 < r.free) && !(k.routine && s.rw.suppressing)

/-- The NORMAL test of R176: enter SUPPRESSING when free is at or below a quarter, and hand SUPPRESSED at once. -/
def State.startSuppression (s : State) : State :=
  match s.rw.ring with
  | none => s
  | some r =>
    if !s.rw.suppressing && decide (r.free ≤ r.size / 4) then
      let s := { s with rw.suppressing := true }
      if s.accepts r .suppressed then
        s.acceptEntry r { kind := .suppressed, sign := none, page := none, detail := r.free }
      else s
    else s

/-- Hand a report to the writer: accepted or dropped at this moment (R175), then the NORMAL test (R176). -/
def State.report (rep : Report) (s : State) : State :=
  match s.rw.ring with
  | none => s
  | some r => if s.accepts r rep.kind then (s.acceptEntry r rep).startSuppression else s

/-- The SUPPRESSING test of R176: return to NORMAL when free is at least a half, and hand RESUMED at once. -/
def State.endSuppression (s : State) : State :=
  match s.rw.ring with
  | none => s
  | some r =>
    if s.rw.suppressing && decide (r.size / 2 ≤ r.free) then
      { s with rw.suppressing := false }.report { kind := .resumed, sign := none, page := none, detail := r.free }
    else s

/-- Both tests of R176, made after a consumer take and at the placing of the ring: the one of the state the writer is in. -/
def State.evalSuppression (s : State) : State :=
  if s.rw.suppressing then s.endSuppression else s.startSuppression

/-- A consumer index handed by the directory shadow (R174). -/
def State.takeConsumer (v : Nat) (s : State) : State :=
  match s.rw.ring with
  | none => s
  | some r =>
    let s := { s with rw.ring := some { r with consumer := v % r.size } }
    if s.rw.placed then s.evalSuppression.evalAttn else s

/-- Place the ring of the applied header, with the consumer index step 2 read (R173). -/
def State.placeRing (v : Nat) (s : State) : State :=
  let h := s.settings
  let consumer := v % h.ringSize
  let kept : Option Ring := s.rw.ring.bind fun r => if r.base = h.ringBase ∧ r.size = h.ringSize then some r else none
  let s :=
    match kept with
    | some r =>
      { s with rw.ring := some { r with published := r.producer, consumer := consumer } }
    | none =>
      { s with
        rw.ring := some { base := h.ringBase, size := h.ringSize, producer := consumer, published := consumer,
                          consumer := consumer }
        rw.suppressing := false }
  { s with rw.placed := true, rw.owedIndex := true }.evalSuppression.evalAttn

/-- The ring stops being placed (R173). -/
def State.unplaceRing (s : State) : State := { s with rw.placed := false }.evalAttn

/-- The producer index reached by the entries written so far (R177): the place of the first entry still pending. -/
def State.writtenIndex (s : State) (r : Ring) : Nat :=
  match s.rw.entries with
  | e :: _ => e.pos
  | [] => r.producer

/-- Whether the writer has work that R177 orders before a status write: an owed index write or a pending entry. -/
def State.ringWork (s : State) : Bool := s.rw.owedIndex || !s.rw.entries.isEmpty

/-- Place the report writer's next request when it has none: the first work present in the order of R177. The fields of
a record or of the block are taken here, and the flag of the work placed is cleared, that of an owed index write too
(log 37). -/
def State.placeReport (s : State) : State :=
  if s.busy .report then s
  else
    match s.rw.ring, s.rw.owedIndex, s.rw.entries with
    | some r, true, _ =>
      { s with rw.owedIndex := false }.place
        { kind := .indexWrite (s.writtenIndex r), addr := (s.mp.windowBase + 0x222) % Config.memorySize, len := 2,
          data := bytes16 (s.writtenIndex r) }
    | some r, false, e :: _ =>
      s.place { kind := .entryWrite, addr := (r.base + e.pos * 16) % Config.memorySize, len := 16, data := e.bytes }
    | _, _, _ =>
      if s.rw.blockDue then
        { s with rw.blockDue := false }.place
          { kind := .blockWrite, addr := s.mp.windowBase + 0x6000, len := 64, data := s.statusBlock }
      else
        match s.findSign (·.recordDue) with
        | none => s
        | some i =>
          (s.modifySign i fun g => { g with recordDue := false }).place
            { kind := .recordWrite i, addr := s.mp.windowBase + 0x4000 + 32 * i.val, len := 32,
              data := (s.sign i).record }

end Sys2Proof.Machine
end

