-- ==== Sys2Proof/Machine/Jobs.lean ====
section
/-! DEFINITION. The update scheduler (chapter 7): job states, classes and queues, triggers, stops, losses, samples, plans and
completion; with the two link-controller duties that a job state change carries (poll list, job context). -/

namespace Sys2Proof.Machine

/-! ## Classes (R128, section 7.2) -/

/-- Urgency: higher is more urgent. -/
def Class.rank : Class → Nat
  | .alert => 4
  | .page => 3
  | .recover => 2
  | .content => 1

def classRank : Option Class → Nat
  | none => 0
  | some c => c.rank

/-- The class of a reason (R76). -/
def Reason.class : Reason → Class
  | .alert => .alert
  | .page => .page

/-- Raising a class: the higher of the two (R128). -/
def raise (a b : Option Class) : Option Class := if classRank a < classRank b then b else a

/-! ## Job states (R127) -/

/-- Set a sign's job state and tell the blocks R127 names: the record is due, the fault count and the drives follow
(R116, R117), and the link controller drops the poll entry, refresh timer or survey probe the new state does not have
(R157, R164, R167). -/
def State.setJob (i : SignNo) (j : Job) (s : State) : State :=
  let old := (s.sign i).job
  let s := s.modifySign i fun g => { g with job := j }
  let s := s.modifyLink (s.sign i).entry.link fun k =>
    { k with
      polls := if j.polled then k.polls else k.polls.filter (·.sign ≠ i)
      refresh := if j = .refreshing then k.refresh else k.refresh.filter (·.1 ≠ i)
      survey := if j.surveyed then k.survey else k.survey.filter (·.sign ≠ i) }
  if j.lost && !old.lost then { s with pc.faultCount := s.pc.faultCount + 1 }.evalDrives
  else if !j.lost && old.lost then { s with pc.faultCount := s.pc.faultCount - 1 }.evalDrives
  else s

/-! ## Update queues (R129) -/

/-- Join a class at its tail: after every sign of a class at least as high. -/
def insertQueue (e : QueueEntry) : List QueueEntry → List QueueEntry
  | [] => [e]
  | h :: rest => if e.cls.rank ≤ h.cls.rank then h :: insertQueue e rest else e :: h :: rest

/-- Leave the link's queue; the order of the others is kept. -/
def State.leaveQueue (i : SignNo) (s : State) : State :=
  s.modifyLink (s.sign i).entry.link fun k => { k with queue := k.queue.filter (·.sign ≠ i) }

/-- Become QUEUED with pending class `c` and join `c` at its tail (R130). -/
def State.joinQueue (i : SignNo) (c : Class) (s : State) : State :=
  let s := s.setJob i .queued
  let s := s.modifySign i fun g => { g with pendingClass := some c }
  s.modifyLink (s.sign i).entry.link fun k =>
    { k with queue := insertQueue { sign := i, cls := c } (k.queue.filter (·.sign ≠ i)) }

/-! ## The job context of a link (R158, R159, R163) -/

/-- Clear the job context: buffers are freed, the tile read is withdrawn or will be discarded (R159). -/
def State.clearJob (l : LinkNo) (s : State) : State :=
  (s.modifyLink l fun k => { k with job := none }).withdraw (· == .link l)

/-- The purpose is an exchange of a job. -/
def Purpose.ofJob (p : Purpose) : Bool := p == .jobProbe || p == .jobLoad || p == .jobShow

/-- An exchange of sign `i`'s job is in flight on the link. -/
def LinkState.jobInFlight (k : LinkState) (i : SignNo) : Bool :=
  match k.exch with
  | some e => e.purpose.ofJob && e.sign == i && !e.discard
  | none => false

/-- A frame of the SHOW of sign `i`'s job has begun (R130). -/
def LinkState.showBegun (k : LinkState) (i : SignNo) : Bool :=
  match k.job with
  | some c => c.sign == i && c.showSent
  | none => false

/-- The plan of sign `i`'s job has been made (R130). -/
def SignState.planned (g : SignState) : Bool := g.plan.isSome

/-- Stop a TRANSFER job (R131): the plan is dropped, FORCE_FULL set, the pending class raised to the abort class, to
AGAIN and to `extra`, and the sign queued; the link's job context is cleared. -/
def State.stopJob (i : SignNo) (extra : Option Class) (s : State) : State :=
  let g := s.sign i
  let c := raise (raise (raise g.pendingClass g.abort) g.again) extra
  let s := s.modifySign i fun g => { g with plan := none, forceFull := true, again := none, abort := none }
  let s := s.joinQueue i (c.getD .content)
  s.clearJob (s.sign i).entry.link

/-! ## Triggers (R130) -/

/-- A trigger of class `c` reaching sign `i`. -/
def State.trigger (i : SignNo) (c : Class) (s : State) : State :=
  let g := s.sign i
  let k := s.link g.entry.link
  let raiseAgain (s : State) : State := s.modifySign i fun g => { g with again := raise g.again (some c) }
  match g.job with
  | .disabled => s
  | .shown => s.joinQueue i c
  | .queued => if classRank g.pendingClass < c.rank then s.joinQueue i c else s
  | .cold => s.modifySign i fun g => { g with pendingClass := raise g.pendingClass (some c) }
  | .transfer =>
    if k.showBegun i then raiseAgain s
    else
      match c with
      | .alert | .page =>
        let s := s.modifySign i fun g => { g with abort := raise g.abort (some c) }
        if k.jobInFlight i then s else s.stopJob i none
      | .recover | .content => raiseAgain s
  | .refreshing => raiseAgain s
  | .settling => raiseAgain s
  | .offline => s
  | .panelFault => s

/-! ## Samples and losses (R134, R135) -/

/-- A temperature clamped to −80..170 (R134). -/
def clampTemp (x : Int) : Int := max (-80) (min 170 x)

/-- A sample enters the ring: all four places of an empty ring, else over the oldest (R134). -/
def SignState.addSample (x : Int) (g : SignState) : SignState :=
  { g with
    ring :=
      match g.ring with
      | [] => List.replicate 4 (clampTemp x)
      | _ :: rest => rest ++ [clampTemp x] }

def State.sample (i : SignNo) (x : Int) (s : State) : State := s.modifySign i (SignState.addSample x)

/-- A slot whose delivered picture is lost (R135). -/
def Slot.lose (x : Slot) : Slot := { x with delivered := 0, dirty := true }

/-- The loss of the shown picture, for all slots; the shown tag becomes `tag` where a mismatched READY caused it
(R135). -/
def State.loss (i : SignNo) (tag : Option Nat) (s : State) : State :=
  s.modifySign i fun g =>
    { g with slots := g.slots.map Slot.lose, forceFull := true, shownTag := tag.getD g.shownTag }

/-- Change the slot at an index, if there is one. -/
def modifySlot (k : Nat) (f : Slot → Slot) (slots : List Slot) : List Slot := slots.modify k f

/-- The loss of the planned slots alone, after a refresh limit (R135, R137). -/
def State.lossPlanned (i : SignNo) (p : Plan) (s : State) : State :=
  s.modifySign i fun g =>
    { g with slots := p.planned.foldl (fun slots q => modifySlot q.index Slot.lose slots) g.slots, forceFull := true }

/-! ## Entering OFFLINE and PANEL_FAULT (R136, R137) -/

/-- The plan and every class of the sign become none (R136). -/
def State.dropWork (i : SignNo) (s : State) : State :=
  s.modifySign i fun g => { g with plan := none, pendingClass := none, again := none, abort := none }

/-- Hand a report of sign `i` whose page field is its active page (R172). -/
def State.reportSign (i : SignNo) (k : ReportKind) (detail : Nat) (s : State) : State :=
  s.report { kind := k, sign := some i, page := (s.sign i).activePage, detail := detail }

/-- OFFLINE by silence: its detail is the purpose code × 256 + the reason (R136, R155). `lose` is clear for a
PANEL_FAULT sign, whose slots are already lost. -/
def State.goOffline (i : SignNo) (lose : Bool) (p : Purpose) (reason : Nat) (s : State) : State :=
  let s := if lose then s.loss i none else s
  ((s.dropWork i).setJob i .offline).reportSign i .signOffline (p.code * 256 + reason)

/-- PANEL_FAULT by an ERROR answer (R136, R137, R168). `lose` is clear for an OFFLINE sign. -/
def State.goFault (i : SignNo) (lose : Bool) (p : Purpose) (s : State) : State :=
  let s := if lose then s.loss i none else s
  ((s.dropWork i).setJob i .panelFault).reportSign i .panelError (p.code * 256)

/-- Recovery of an OFFLINE or PANEL_FAULT sign (R137). -/
def State.recover (i : SignNo) (tag : Nat) (s : State) : State :=
  ((s.loss i none).joinQueue i .recover).reportSign i .signOnline tag

/-! ## Plans (R138 to R140) -/

/-- The entry of tile `t`, if it is watched. -/
def State.watched (s : State) (t : Nat) : Option WatchEntry := s.tm.watch.find? (·.tile == t)

/-- The signature of tile `t` as other blocks read it: none unless its entry is CLEAN (R55). -/
def State.tileSig (s : State) (t : Nat) : Option Signature :=
  (s.watched t).bind fun e => if e.state = .clean then some e.sig else none

/-- The signature a slot's picture has now: BLANK's code, or its tile's (R55, R142). -/
def State.presentSig (s : State) (tile : Option Nat) : Option Signature :=
  match tile with
  | none => some Config.blankCode
  | some t => s.tileSig t

/-- A dirty slot that is BLANK or whose tile is CLEAN (R56). -/
def State.sendable (s : State) (x : Slot) : Bool := x.dirty && (s.presentSig x.tile).isSome

/-- Slots with their indexes. -/
def indexed (slots : List Slot) : List (Nat × Slot) := (List.range slots.length).zip slots

/-- The planned slot record of a slot (R140): signature 0 for a tile that is not CLEAN. -/
def State.planSlot (s : State) (x : Nat × Slot) : PlannedSlot :=
  { index := x.1, tile := x.2.tile, sig := (s.presentSig x.2.tile).getD 0 }

/-- The tag after `t`: 255 and 0 are both followed by 1 (R140). -/
def nextTag (t : Nat) : Nat := if 255 ≤ t then 1 else t + 1

/-- The average is below a threshold; no average is below none. -/
def belowAverage (a : Option Int) (t : Int) : Bool :=
  match a with
  | some x => decide (x < t)
  | none => false

/-- What a plan decides (R138). -/
inductive PlanKind where
  | hold | nothing | full | part
deriving DecidableEq, Repr

/-- The tests of R138 in order. -/
def State.planKind (s : State) (i : SignNo) : PlanKind :=
  let g := s.sign i
  let h := s.settings
  let d := g.slots.countP (s.sendable ·)
  if belowAverage g.average h.freezeThreshold then .hold
  else if g.activePage.isNone then .nothing
  else if g.forceFull then .full
  else if d = 0 then .nothing
  else if g.entry.ghostLimit ≤ g.partialCount ∨ belowAverage g.average h.coldThreshold ∨
      g.slots.length * min h.fraction 8 < 8 * d then .full
  else .part

/-- The slots a plan of that kind lists, in slot order (R140). -/
def State.plannedSlots (s : State) (i : SignNo) (m : RefreshMode) : List PlannedSlot :=
  let slots := indexed (s.sign i).slots
  match m with
  | .full => slots.map s.planSlot
  | .part => (slots.filter fun x => s.sendable x.2).map s.planSlot

/-- End the job as a HOLD (R138): COLD, its class raised to AGAIN and kept, COLD_HOLD written. -/
def State.holdJob (i : SignNo) (s : State) : State :=
  let s := s.modifySign i fun g => { g with pendingClass := raise g.pendingClass g.again, again := none, plan := none }
  let s := s.setJob i .cold
  let s := s.reportSign i .coldHold (bits16 ((s.sign i).average.getD 0))
  s.clearJob (s.sign i).entry.link

/-- End the job as NOTHING (R138). -/
def State.nothingJob (i : SignNo) (s : State) : State :=
  let s := (s.modifySign i fun g => { g with pendingClass := none }).setJob i .shown
  s.clearJob (s.sign i).entry.link

/-- Make the plan record and set the job's next step to the LOAD of the first planned slot (R140, R158). -/
def State.startPlan (i : SignNo) (m : RefreshMode) (s : State) : State :=
  let slots := s.plannedSlots i m
  let s := s.modifySign i fun g =>
    { g with
      lastTag := nextTag g.lastTag
      plan := some { mode := m, page := g.activePage.getD 0, generation := g.generation, tag := nextTag g.lastTag,
                     planned := slots } }
  s.modifyLink (s.sign i).entry.link fun k =>
    { k with job := k.job.map fun c => { c with step := .load 0, attempts := 0, wait := .ready, window := none } }

/-- The plan made on the READY answer to the PROBE (R138). -/
def State.makePlan (i : SignNo) (s : State) : State :=
  let s := s.modifySign i fun g => { g with pendingClass := raise g.pendingClass g.again, again := none }
  match s.planKind i with
  | .hold => s.holdJob i
  | .nothing => s.nothingJob i
  | .full => s.startPlan i .full
  | .part => s.startPlan i .part

/-- The COLD re-check (R139). -/
def State.coldRecheck (i : SignNo) (s : State) : State :=
  let g := s.sign i
  if g.job = .cold ∧ !belowAverage g.average s.settings.freezeThreshold then
    s.joinQueue i (g.pendingClass.getD .content)
  else s

/-- What the check before a SHOW says (R141). -/
inductive ShowCheck where
  | send | hold | stop
deriving DecidableEq, Repr

/-- The check of R141. -/
def State.showCheck (s : State) (i : SignNo) : ShowCheck :=
  let g := s.sign i
  let h := s.settings
  if belowAverage g.average h.freezeThreshold then .hold
  else if (g.plan.map (·.mode)) = some .part ∧
      (g.forceFull ∨ g.entry.ghostLimit ≤ g.partialCount ∨ belowAverage g.average h.coldThreshold) then .stop
  else .send

/-! ## Completion (R142, R143) -/

/-- Record a planned slot as delivered where the slot still names the planned tile (R142 step 1). -/
def State.deliver (s : State) (slots : List Slot) (q : PlannedSlot) : List Slot :=
  modifySlot q.index
    (fun x =>
      if x.tile = q.tile then { x with delivered := q.sig, dirty := decide (s.presentSig q.tile ≠ some q.sig) } else x)
    slots

/-- Requeue after a completion (R142 step 6). -/
def State.requeue (i : SignNo) (s : State) : State :=
  let g := s.sign i
  if g.again.isSome || g.slots.any (s.sendable ·) then
    (s.modifySign i fun g => { g with again := none }).joinQueue i (g.again.getD .content)
  else s.modifySign i fun g => { g with pendingClass := none }

/-- Completion of the job whose plan is `p` (R142). -/
def State.complete (i : SignNo) (p : Plan) (s : State) : State :=
  let s := s.modifySign i fun g =>
    { g with
      slots := if g.generation = p.generation then p.planned.foldl s.deliver g.slots else g.slots
      partialCount := if p.mode = .full then 0 else g.partialCount + 1
      forceFull := if g.generation = p.generation then false else g.forceFull
      shownTag := p.tag
      lastUpdate := some s.now
      plan := none }
  let s := s.setJob i .shown
  let s := s.report
    { kind := .updateDone, sign := some i, page := some p.page,
      detail := p.planned.length + (if p.mode = .part then 0x8000 else 0) }
  s.requeue i

/-- A failed refresh (R143): the panel is READY with a tag that is not the plan's. -/
def State.failedRefresh (i : SignNo) (tag : Nat) (s : State) : State :=
  let g := s.sign i
  let s := s.loss i (some tag)
  let s := s.modifySign i fun g => { g with plan := none, again := none }
  s.joinQueue i ((raise (some .recover) g.again).getD .recover)

end Sys2Proof.Machine
end

