-- ==== Sys2Proof/Machine/Tiles.lean ====
section
/-! DEFINITION. The tile monitor (chapter 3): add and drop requests, tile writes, the signature engine, signature arithmetic and
completion. -/

namespace Sys2Proof.Machine

/-! ## Watch table (R42 to R44) -/

/-- Add a new entry at its place by tile number. -/
def insertWatch (e : WatchEntry) : List WatchEntry → List WatchEntry
  | [] => [e]
  | h :: rest => if e.tile < h.tile then e :: h :: rest else h :: insertWatch e rest

/-- Change the entry of tile `t`. -/
def State.modifyWatch (t : Nat) (f : WatchEntry → WatchEntry) (s : State) : State :=
  { s with tm.watch := s.tm.watch.map fun e => if e.tile = t then f e else e }

/-- An add request is refused: no entry for `t` and no free watch entry (R43). -/
def State.addRefused (t : Nat) (s : State) : Bool :=
  (s.watched t).isNone && decide (Config.watchCapacity ≤ s.tm.watch.length)

/-- An add request for tile `t` and a slot (R43). The slot is linked at the chain's head (log 15). A refused request
changes nothing. -/
def State.addTile (t : Nat) (slot : SignNo × Nat) (s : State) : State :=
  if (s.watched t).isSome then s.modifyWatch t fun e => { e with chain := slot :: e.chain }
  else if s.addRefused t then s
  else
    { s with
      tm.watch := insertWatch { tile := t, state := .stale, sig := 0, chain := [slot] } s.tm.watch
      tm.stale := s.tm.stale ++ [t] }

/-- A drop request for tile `t` and a slot (R44): the entry goes with its last slot, and a STALE tile leaves the queue
from wherever it stands. -/
def State.dropTile (t : Nat) (slot : SignNo × Nat) (s : State) : State :=
  match s.watched t with
  | none => s
  | some e =>
    if (e.chain.erase slot).isEmpty then
      { s with tm.watch := s.tm.watch.filter (·.tile ≠ t), tm.stale := s.tm.stale.erase t }
    else s.modifyWatch t fun e => { e with chain := e.chain.erase slot }

/-- The add request of a slot that names a tile; none for BLANK (R68, R69). -/
def State.addSlot (tile : Option Nat) (slot : SignNo × Nat) (s : State) : State :=
  match tile with
  | some t => s.addTile t slot
  | none => s

/-- The drop request of a slot that names a tile; none for BLANK (R68, R69). -/
def State.dropSlot (tile : Option Nat) (slot : SignNo × Nat) (s : State) : State :=
  match tile with
  | some t => s.dropTile t slot
  | none => s

/-! ## Tile writes (R45) -/

/-- A snooped run on tile `n` (R45). -/
def State.tileWritten (n : Nat) (s : State) : State :=
  match s.watched n with
  | none => s
  | some e =>
    match e.state with
    | .clean =>
      { s.modifyWatch n fun e => { e with state := .stale, sig := 0 } with tm.stale := s.tm.stale ++ [n] }
    | .computing => s.modifyWatch n fun e => { e with state := .restale }
    | .stale => s
    | .restale => s

/-! ## Signature engine (R47, R48) -/

/-- The IDLE engine takes the head of the stale queue (R47). -/
def State.takeStale (s : State) : State :=
  match s.tm.engine, s.tm.stale with
  | .idle, t :: rest =>
    { s.modifyWatch t fun e => { e with state := .computing } with tm.stale := rest, tm.engine := .fetch t }
  | _, _ => s

/-- In FETCH the engine places its read once it has no other waiting or in progress (R10, R48). -/
def State.placeSignature (s : State) : State :=
  match s.tm.engine with
  | .fetch t =>
    if s.busy .signature then s
    else s.place { kind := .sigRead, addr := (s.settings.tileBase + t * 256) % Config.memorySize, len := 256, data := [] }
  | _ => s

/-! ## Signature arithmetic (R41, R50, R51) -/

/-- The words of a tile: the byte at the even offset is the high half (R41). -/
def tileWords : List Byte → List Nat
  | hi :: lo :: rest => be16 hi lo :: tileWords rest
  | _ => []

/-- One word into the running sums A and B (R50). -/
def sumStep (ab : Nat × Nat) (w : Nat) : Nat × Nat :=
  let a := (ab.1 + w) % 65521
  (a, (ab.2 + a) % 65521)

/-- The running sums over all words, from the given start (R50). -/
def sums (a b : Nat) (bytes : List Byte) : Nat × Nat := (tileWords bytes).foldl sumStep (a, b)

/-- The stored signature of computed sums: 0xFFFFFFFF stands for a computed 0 (R50, R51). -/
def storedSignature (ab : Nat × Nat) : Signature :=
  if ab.2 * 65536 + ab.1 = 0 then 0xFFFFFFFF else BitVec.ofNat 32 (ab.2 * 65536 + ab.1)

/-- The signature of a tile's bytes: A starts at 1 and B at 0 (R50). -/
def signatureOf (bytes : List Byte) : Signature := storedSignature (sums 1 0 bytes)

/-! ## Completion (R52 to R57) -/

/-- Compare one slot of the chain with its tile's new signature (R53). -/
def State.compareSlot (sig : Signature) (slot : SignNo × Nat) (s : State) : State :=
  s.modifySign slot.1 fun g =>
    { g with slots := modifySlot slot.2 (fun x => { x with dirty := decide (x.delivered ≠ sig) }) g.slots }

def State.compareChain (sig : Signature) : List (SignNo × Nat) → State → State
  | [], s => s
  | x :: rest, s => State.compareChain sig rest (s.compareSlot sig x)

/-- The sign holds a dirty slot on the chain (R54). -/
def State.dirtyOnChain (s : State) (chain : List (SignNo × Nat)) (i : SignNo) : Bool :=
  chain.any fun x => x.1 == i && ((s.sign i).slots[x.2]?.map (·.dirty)).getD false

/-- Apply a result to a COMPUTING entry (R53), then trigger each sign once, in ascending sign number (R54). -/
def State.applySignature (t : Nat) (sig : Signature) (chain : List (SignNo × Nat)) (s : State) : State :=
  let s := s.modifyWatch t fun e => { e with state := .clean, sig := sig }
  let s := s.compareChain sig chain
  forSigns (fun i s => s.trigger i .content)
    ((List.finRange 256).filter fun i => chain.any (·.1 == i) && s.dirtyOnChain chain i) s

/-- The completion of the computation in flight (R49, R52): the engine becomes IDLE and the result is applied or
discarded by the state of the tile's entry. -/
def State.completeSignature (s : State) : State :=
  match s.tm.engine with
  | .accumulate t bytes a b =>
    let s := { s with tm.engine := .idle }
    match s.watched t with
    | none => s
    | some e =>
      match e.state with
      | .computing => s.applySignature t (storedSignature (sums a b bytes)) e.chain
      | .restale =>
        { s.modifyWatch t fun e => { e with state := .stale } with tm.stale := s.tm.stale ++ [t] }
      | .stale => s
      | .clean => s
  | _ => s

end Sys2Proof.Machine
end

