-- ==== Sys2Proof/Machine/Pages.lean ====
section
/-! DEFINITION. The page loader (chapter 4): map values, the activation queue, taking, reading, accepting and refusing an
activation, and snooped map writes. -/

namespace Sys2Proof.Machine

/-! ## Map values (R67) -/

/-- The tile number of a map value; none is BLANK (R67). -/
def State.tileOf (s : State) (v : Nat) : Option Nat := if v < s.settings.tileCount then some v else none

/-- The map value is out of range: tile count..0xFFFE (R67). -/
def State.outOfRange (s : State) (v : Nat) : Bool := decide (s.settings.tileCount ≤ v) && decide (v ≠ 0xFFFF)

/-- MAP_RANGE for slot `k` of the active page, and the flag that it has been written (R67). The flag is set when the report
is handed, whether the writer accepts it or drops it (log 31). -/
def State.reportRange (i : SignNo) (k : Nat) (s : State) : State :=
  (s.modifySign i fun g => { g with rangeReported := true }).report
    { kind := .mapRange, sign := some i, page := (s.sign i).activePage, detail := k }

/-! ## Activation queue (R71, R72, R78) -/

/-- The sign's wanted page is not none and differs from its active page. -/
def SignState.wantsOther (g : SignState) : Bool :=
  match g.wanted with
  | some (p, _) => decide (g.activePage ≠ some p)
  | none => false

/-- Join the tail of the activation queue (R71). -/
def State.joinActivation (i : SignNo) (s : State) : State :=
  let s := s.modifySign i fun g => { g with activation := .queued }
  { s with pl.queue := s.pl.queue ++ [i] }

/-- An event of R71 reaches the sign: it joins when it is IDLE and its wanted page differs from its active page. -/
def State.queueActivation (i : SignNo) (s : State) : State :=
  let g := s.sign i
  if g.activation = .idle ∧ g.wantsOther then s.joinActivation i else s

/-- Refusal of page `p` with a cause (R77), then R78. The last refused page is kept when its report is handed, whether the
writer accepts it or drops it (log 31). -/
def State.refuseActivation (i : SignNo) (p cause : Nat) (s : State) : State :=
  let g := s.sign i
  let s := s.modifySign i fun g => { g with activation := .idle, incoming := none, staged := [], lastRefused := some p }
  let s := { s with pl.loading := if s.pl.loading = some i then none else s.pl.loading }
  let s :=
    if g.lastRefused = some p then s
    else s.report { kind := .slotsExhausted, sign := some i, page := some p, detail := cause }
  if (s.sign i).wanted.map (·.1) ≠ some p then s.queueActivation i else s

/-- A page-map read (R73): the first carries up to 128 entries, the second the rest. -/
def State.mapReadOf (s : State) (i : SignNo) (p n : Nat) (second : Bool) : OwnReq :=
  { kind := .mapRead i second
    addr := (s.settings.mapBase + i.val * 4096 + p * 512 + (if second then 256 else 0)) % Config.memorySize
    len := if second then 2 * n - 256 else min 256 (2 * n)
    data := [] }

/-- Begin to load the map of page `p` (R72, R73). -/
def State.startActivation (i : SignNo) (p : Nat) (r : Reason) (s : State) : State :=
  let n := (s.sign i).entry.slotCount
  let s := s.modifySign i fun g =>
    { g with activation := .loadingMap, incoming := some (p, r), staged := List.replicate n { value := 0, read := false } }
  { s with pl.loading := some i }.place (s.mapReadOf i p n false)

/-- Take signs from the head of the activation queue until one starts to load or the queue is empty (R72); nothing is
taken while a sign is LOADING_MAP or an abandoned map read is still on the memory port (R83). -/
def State.takeActivation : Nat → State → State
  | 0, s => s
  | fuel + 1, s =>
    if s.pl.loading.isSome || s.busy .pageMap then s
    else
      match s.pl.queue with
      | [] => s
      | i :: rest =>
        let s := { s with pl.queue := rest }.modifySign i fun g => { g with activation := .idle }
        let g := s.sign i
        match g.wanted with
        | none => State.takeActivation fuel s
        | some (p, r) =>
          if g.activePage = some p then State.takeActivation fuel s
          else if g.entry.slotCount ≤ s.freeSlots + g.slots.length then s.startActivation i p r
          else State.takeActivation fuel (s.refuseActivation i p 1)

/-! ## The end of a map read (R73, R75, R76) -/

/-- Write the read values into the staged map from entry `k` on, their read flags set (R73). -/
def stageRead (k : Nat) (values : List Nat) (staged : List StagedEntry) : List StagedEntry :=
  staged.take k ++ ((values.map fun v => { value := v, read := true }) ++ (staged.drop k).drop values.length)

/-- Every slot naming the entry's tile belongs to sign `i` (R75). -/
def WatchEntry.onlyOf (i : SignNo) (e : WatchEntry) : Bool := e.chain.all (·.1 == i)

/-- F of R75: the free watch entries after a release of the sign's present page. -/
def State.freeAfterRelease (s : State) (i : SignNo) : Nat := s.freeWatch + s.tm.watch.countP (·.onlyOf i)

/-- W of R75: the distinct tiles the staged map names that would have no entry after that release. -/
def State.newTiles (s : State) (i : SignNo) (staged : List StagedEntry) : Nat :=
  ((staged.filterMap fun e => s.tileOf e.value).dedup.filter fun t =>
    match s.watched t with
    | none => true
    | some e => e.onlyOf i).length

/-- Drop requests for the slots from index `k` on, in slot order. -/
def State.dropSlots (i : SignNo) : Nat → List Slot → State → State
  | _, [], s => s
  | k, x :: rest, s => State.dropSlots i (k + 1) rest (s.dropSlot x.tile (i, k))

/-- Add requests for the slots from index `k` on, in slot order. -/
def State.addSlots (i : SignNo) : Nat → List Slot → State → State
  | _, [], s => s
  | k, x :: rest, s => State.addSlots i (k + 1) rest (s.addSlot x.tile (i, k))

/-- Remove the sign's slots from the slot store with a drop request for each that names a tile (R76, R83). -/
def State.releaseSlots (i : SignNo) (s : State) : State :=
  (s.dropSlots i 0 (s.sign i).slots).modifySign i fun g => { g with slots := [] }

/-- A new slot of a map value: dirty, nothing delivered (R76). -/
def State.newSlot (s : State) (v : Nat) : Slot := { mapValue := v, tile := s.tileOf v, delivered := 0, dirty := true }

/-- The first index of a list that satisfies `p`. -/
def firstIndex (p : Nat → Bool) (values : List Nat) : Option Nat :=
  if values.any p then some (values.findIdx p) else none

/-- Acceptance of the activation of page `p` (R76), then R78. -/
def State.acceptActivation (i : SignNo) (p : Nat) (r : Reason) (s : State) : State :=
  let previous := (s.sign i).activePage
  let values := (s.sign i).staged.map (·.value)
  let s := s.releaseSlots i
  let slots := values.map s.newSlot
  let s := s.modifySign i fun g =>
    { g with generation := g.generation + 1, activePage := some p, slots := slots, rangeReported := false }
  let s := s.addSlots i 0 slots
  let s :=
    match firstIndex (s.outOfRange ·) values with
    | some k => s.reportRange i k
    | none => s
  let s := s.modifySign i fun g => { g with forceFull := true }
  let s := s.trigger i r.class
  let s := s.report
    { kind := .pageSwitch, sign := some i, page := some p, detail := r.code * 256 + pageCode previous }
  let s := s.modifySign i fun g =>
    { g with lastRefused := none, incoming := none, staged := [], activation := .idle, recordDue := true }
  { s with pl.loading := none }.queueActivation i

/-- Decide the activation when its last read has ended (R75). -/
def State.decideActivation (i : SignNo) (p : Nat) (r : Reason) (s : State) : State :=
  if s.newTiles i (s.sign i).staged ≤ s.freeAfterRelease i then s.acceptActivation i p r
  else s.refuseActivation i p 2

/-- The end of a page-map read whose bytes are delivered (R73). -/
def State.mapReadEnds (i : SignNo) (second : Bool) (bytes : List Byte) (s : State) : State :=
  match (s.sign i).incoming with
  | none => s
  | some (p, r) =>
    let n := (s.sign i).entry.slotCount
    let s := s.modifySign i fun g =>
      { g with staged := stageRead (if second then 128 else 0) (parseMap bytes) g.staged }
    if !second && decide (128 < n) then s.place (s.mapReadOf i p n true) else s.decideActivation i p r

/-! ## Snooped map writes (R74, R79 to R81) -/

/-- A map entry of a run taken at the staged map (R74). -/
def stageWrite (staged : List StagedEntry) (e : Nat × Option Byte × Option Byte) : List StagedEntry :=
  staged.modify e.1 fun x => if x.read then { x with value := mergeHalves x.value e.2.1 e.2.2 } else x

/-- Give slot `k` a new map value and tile: nothing delivered, dirty (R79). -/
def State.changeSlot (i : SignNo) (k v : Nat) (tile : Option Nat) (s : State) : State :=
  s.modifySign i fun g =>
    { g with slots := modifySlot k (fun _ => { mapValue := v, tile := tile, delivered := 0, dirty := true }) g.slots }

/-- MAP_RANGE for a written value that is out of range, unless one has been written since the last accepted activation
(R67, R79). -/
def State.rangeWrite (i : SignNo) (k v : Nat) (s : State) : State :=
  if s.outOfRange v && !(s.sign i).rangeReported then s.reportRange i k else s

/-- A map entry of a run taken at the active page's slots (R79, R80); the flag says whether it changed a slot. A value
equal to the one held changes nothing (log 24). -/
def State.mapEntryWritten (i : SignNo) (e : Nat × Option Byte × Option Byte) (s : State) : State × Bool :=
  match (s.sign i).slots[e.1]? with
  | none => (s, false)
  | some x =>
    let v := mergeHalves x.mapValue e.2.1 e.2.2
    let tile := s.tileOf v
    if v = x.mapValue then (s, false)
    else if tile = x.tile then
      let s := s.modifySign i fun g => { g with slots := modifySlot e.1 (fun x => { x with mapValue := v }) g.slots }
      (s.rangeWrite i e.1 v, false)
    else
      let s := s.dropSlot x.tile (i, e.1)
      match tile with
      | none => ((s.changeSlot i e.1 v none).rangeWrite i e.1 v, true)
      | some t =>
        if s.addRefused t then
          ((s.changeSlot i e.1 v none).report
            { kind := .slotsExhausted, sign := some i, page := (s.sign i).activePage, detail := 3 }, true)
        else ((s.addTile t (i, e.1)).changeSlot i e.1 v (some t), true)

/-- The entries of a run in travel order; the flag says whether any slot changed. -/
def State.mapEntriesWritten (i : SignNo) : List (Nat × Option Byte × Option Byte) → State → State × Bool
  | [], s => (s, false)
  | e :: rest, s =>
    let (s, one) := s.mapEntryWritten i e
    let (s, more) := State.mapEntriesWritten i rest s
    (s, one || more)

/-- A snooped run on the map of page `p` of sign `i` (R74, R79, R81): the staged map of the incoming page, the slots of
the active page with one CONTENT trigger for the run, nothing for any other page. -/
def State.mapRunWritten (i : SignNo) (p : Nat) (bytes : List (Nat × Byte)) (s : State) : State :=
  let entries := mapEntries bytes
  let s :=
    if (s.sign i).incoming.map (·.1) = some p then
      s.modifySign i fun g => { g with staged := entries.foldl stageWrite g.staged }
    else s
  if (s.sign i).activePage = some p then
    let (s, changed) := s.mapEntriesWritten i entries
    if changed then s.trigger i .content else s
  else s

/-! ## Disable (R83) -/

/-- What a disable does at the page loader (R83). -/
def State.loaderDisable (i : SignNo) (s : State) : State :=
  let loading := decide (s.pl.loading = some i)
  let s := if loading then s.withdraw (· == .pageMap) else s
  let s := { s with pl.queue := s.pl.queue.filter (· ≠ i), pl.loading := if loading then none else s.pl.loading }
  (s.releaseSlots i).modifySign i fun g =>
    { g with activePage := none, activation := .idle, incoming := none, staged := [], lastRefused := none,
             rangeReported := false }

end Sys2Proof.Machine
end

