-- ==== Sys2Proof/Machine/Chooser.lean ====
section
/-! DEFINITION. The page chooser's decisions (chapter 6): the wanted page, sweeps, activation and deactivation of alerts, and the
heartbeat. -/

namespace Sys2Proof.Machine

/-! ## The wanted page (R122, R123) -/

/-- An ACTIVE alert of line `x` covers a zone (R122). -/
def LineState.covers (x : LineState) (zone : Nat) : Bool := x.alert && x.entry.zones.getLsbD zone

/-- The alert page of the lowest-numbered line whose ACTIVE alert covers the zone (R122). -/
def State.alertPageFor (s : State) (zone : Nat) : Option Nat :=
  ([s.line 0, s.line 1, s.line 2, s.line 3].find? (·.covers zone)).map fun x => x.entry.alertPage.getD 0

/-- The wanted page and reason of an enabled sign (R122): alert, fallback, schedule. -/
def State.wantedFor (s : State) (g : SignState) : Nat × Reason :=
  match s.alertPageFor g.entry.zone with
  | some p => (min p (g.entry.pageCount - 1), .alert)
  | none =>
    match decide (s.pc.hb = .lapsed), g.entry.fallback with
    | true, some f => (f, .page)
    | _, _ => (g.schedulePage, .page)

/-- Evaluate an enabled sign's wanted page and hand the result to the page loader (R123, R71). -/
def State.evaluate (i : SignNo) (s : State) : State :=
  if (s.sign i).entry.enabled then
    (s.modifySign i fun g => { g with wanted := some (s.wantedFor g) }).queueActivation i
  else s

/-- Evaluate every enabled sign, in ascending sign number (R119 to R121). -/
def State.evaluateAll (s : State) : State := forSigns State.evaluate (s.signsWhere (·.entry.enabled)) s

/-- The sweep of R115: the enabled signs whose zone bit is set in the mask, in ascending sign number. -/
def State.sweep (zones : BitVec 64) (s : State) : State :=
  forSigns State.evaluate (s.signsWhere fun g => g.entry.enabled && zones.getLsbD g.entry.zone) s

/-- Carry out an activation (`on`) or deactivation of line `n` with a cause, sweeping a mask (R115). -/
def State.setAlert (n : LineNo) (on : Bool) (cause : Nat) (zones : BitVec 64) (s : State) : State :=
  let s := s.modifyLine n fun x => { x with alert := on }
  let s := s.report
    { kind := if on then .alertOn else .alertOff, sign := none, page := (s.line n).entry.alertPage,
      detail := n.val * 256 + cause }
  s.sweep zones

/-! ## Heartbeat (section 6.4) -/

/-- The heartbeat starts when the part enters RUNNING (R118). -/
def State.startHeartbeat (s : State) : State :=
  let m := s.settings.heartbeatModulus
  { s with pc.hb := if m = 0 then .off else .running, pc.hbCounter := m }

/-- The heartbeat lapses (R119). -/
def State.lapse (s : State) : State :=
  let s := { s with pc.hb := .lapsed, pc.hbCounter := 0 }
  (s.report { kind := .heartbeatLapsed, sign := none, page := none, detail := s.settings.heartbeatModulus }).evaluateAll

/-- The next second tick brings a running heartbeat's counter to 0 (R119). -/
def State.lapseDue (s : State) : Bool :=
  s.dir.part == .running && s.pc.hb == .running && decide (s.pc.hbCounter ≤ 1)

/-- HEARTBEAT_RESTORED, then every enabled sign evaluated (R120, R121). -/
def State.restoreHeartbeat (detail : Nat) (s : State) : State :=
  (s.report { kind := .heartbeatRestored, sign := none, page := none, detail := detail }).evaluateAll

/-- A heartbeat value handed by the directory shadow (R120). -/
def State.serveHeartbeat (v : Nat) (s : State) : State :=
  if s.pc.hbLast = some v then s
  else
    let s := { s with pc.hbLast := some v }
    match s.pc.hb with
    | .off => s
    | .running => { s with pc.hbCounter := s.settings.heartbeatModulus }
    | .lapsed =>
      { s with pc.hb := .running, pc.hbCounter := s.settings.heartbeatModulus }.restoreHeartbeat 1

/-- A changed heartbeat modulus applied in RUNNING (R121); the applied header already holds it. -/
def State.changeModulus (s : State) : State :=
  let m := s.settings.heartbeatModulus
  match s.pc.hb with
  | .off => if m = 0 then s else { s with pc.hb := .running, pc.hbCounter := m }
  | .running =>
    if m = 0 then { s with pc.hb := .off, pc.hbCounter := 0 } else { s with pc.hbCounter := m }
  | .lapsed =>
    if m = 0 then { s with pc.hb := .off, pc.hbCounter := 0 }.restoreHeartbeat 2 else s

end Sys2Proof.Machine
end

