-- ==== Sys2Proof/Machine/Schedules.lean ====
section
/-! DEFINITION. The clock and schedule unit (chapter 5): the clock's ticks, pulse captures, the schedule engine's resyncs and
advances, and rotation. -/

namespace Sys2Proof.Machine

/-! ## Schedule pages (R98) -/

/-- The schedule page R98 derives. -/
def State.schedulePageOf (s : State) (g : SignState) : Nat :=
  if s.clk.unset || g.curEntry.isNone then 0 else g.rotPos

/-- Let the schedule page follow, and hand it to the page chooser if it changed (R98). -/
def State.refreshSchedulePage (i : SignNo) (s : State) : State :=
  let g := s.sign i
  if g.schedulePage = s.schedulePageOf g then s
  else (s.modifySign i fun g => { g with schedulePage := s.schedulePageOf g }).evaluate i

/-- The sign the engine has an operation in flight for (R99). -/
def SchedEngine.sign : SchedEngine → Option SignNo
  | .idle => none
  | .resync i _ _ _ => some i
  | .advance i _ => some i

/-- Mark a sign RESYNC (R100). -/
def State.markResync (i : SignNo) (s : State) : State :=
  s.modifySign i fun g =>
    { g with workDue := .resync, redo := if s.clk.engine.sign = some i then true else g.redo }

/-- Mark every enabled sign RESYNC (R89, R91). -/
def State.markAllResync (s : State) : State := forSigns State.markResync (s.signsWhere (·.entry.enabled)) s

/-- The clock's present time: day × 1440 + minute (R96). -/
def Clock.time (c : Clock) : Nat := c.day * 1440 + c.minute

/-! ## What a minute tick looks at (R71, R89, R103) -/

/-- The clock of a minute tick: second 0, the minute and day with their carries (R89). -/
def Clock.nextMinute (c : Clock) : Clock :=
  if c.minute = 1439 then { c with second := 0, minute := 0, day := if c.day = 65535 then 0 else c.day + 1 }
  else { c with second := 0, minute := c.minute + 1 }

/-- The minute tick makes the day wrap (R89). -/
def Clock.wrapsDay (c : Clock) : Bool := c.minute == 1439 && c.day == 65535

/-- The next entry of the sign is due at time `now` (R103). -/
def SignState.nextDue (now : Nat) (g : SignState) : Bool :=
  match g.nextEntry with
  | some (_, t) => decide (t ≤ now)
  | none => false

/-- One sign at the schedule engine's look at a minute tick: ADVANCE when its next entry is due, nothing else is due and
no operation of it is in flight (R103). -/
def State.markAdvance (i : SignNo) (s : State) : State :=
  let g := s.sign i
  if g.workDue = .none ∧ s.clk.engine.sign ≠ some i ∧ g.nextDue s.clk.time = true then
    s.modifySign i fun g => { g with workDue := .advance }
  else s

/-- The schedule engine's look at a minute tick (R103). -/
def State.markAdvances (s : State) : State :=
  if s.clk.unset then s else forSigns State.markAdvance (s.signsWhere (·.entry.enabled)) s

/-- The page loader's look at a minute tick (R71). -/
def State.queueDiffering (s : State) : State :=
  forSigns State.queueActivation (s.signsWhere (·.entry.enabled)) s

/-! ## Clock set and pulse mode (R91, R95) -/

/-- A clock set with its sequence byte (R91). -/
def State.setClock (t : TimeOfDay) (seq : Byte) (s : State) : State :=
  let s := { s with
    clk.day := t.day, clk.minute := t.minute, clk.second := t.second, clk.prescaler := 0, clk.unset := false }
  s.markAllResync.report { kind := .clockSet, sign := none, page := none, detail := seq.toNat }

/-- Line 3's applied mode turns to MINUTE_PULSE or away from it (R95). -/
def State.setPulseMode (on : Bool) (s : State) : State :=
  if s.clk.pulseMode = on then s
  else { s with clk.pulseMode := on, clk.pulseMissing := 0, clk.armed := on }

/-! ## Rotation (R106) -/

/-- The rotation of the sign is running (R98). -/
def SignState.rotating (g : SignState) : Bool := decide (g.rotDwell ≠ 0) && decide (g.rotFirst < g.rotLast)

/-- The dwell counter has reached the rotation dwell (R106). -/
def SignState.rotationDue (g : SignState) : Bool := g.entry.enabled && g.rotating && decide (g.rotDwell ≤ g.dwellCount)

/-- The page after the rotation position (R106). -/
def SignState.nextPage (g : SignState) : Nat := if g.rotPos = g.rotLast then g.rotFirst else g.rotPos + 1

/-- A rotation advance (R106). -/
def State.rotate (i : SignNo) (s : State) : State :=
  (s.modifySign i fun g => { g with dwellCount := 0, rotPos := g.nextPage }).refreshSchedulePage i

/-! ## The schedule engine (R99 to R104) -/

/-- A page field of a schedule entry clamped to page count − 1 (R96, R98). -/
def SignEntry.pageOf (e : SignEntry) (p : Nat) : Nat := min p (e.pageCount - 1)

/-- Make an entry current: a schedule switch (R102, R104). -/
def SignState.switchTo (c : Candidate) (g : SignState) : SignState :=
  { g with
    curEntry := some c.index, rotFirst := g.entry.pageOf c.first, rotLast := g.entry.pageOf c.last,
    rotDwell := c.dwell, rotPos := g.entry.pageOf c.first, dwellCount := 0 }

/-- The entry is the current one with the rotation fields held (R102 step 3). -/
def SignState.sameEntry (c : Candidate) (g : SignState) : Bool :=
  g.curEntry == some c.index && g.rotFirst == g.entry.pageOf c.first && g.rotLast == g.entry.pageOf c.last &&
    g.rotDwell == c.dwell

/-- The result of a resync applied to a sign (R102). -/
def SignState.resynced (cand : Option Candidate) (next : Option (Nat × Nat)) (g : SignState) : SignState :=
  match cand with
  | none =>
    { g with curEntry := none, nextEntry := next, rotFirst := 0, rotLast := 0, rotDwell := 0, rotPos := 0,
             dwellCount := 0 }
  | some c => if g.sameEntry c then { g with nextEntry := next } else { g.switchTo c with nextEntry := next }

/-- A resync ends: its result is applied, or discarded when the redo flag is set (R102). The engine becomes idle. -/
def State.endResync (i : SignNo) (cand : Option Candidate) (next : Option (Nat × Nat)) (s : State) : State :=
  let s := { s with clk.engine := .idle }
  if (s.sign i).redo then s
  else (s.modifySign i (SignState.resynced cand next)).refreshSchedulePage i

/-- The order-reported flag once a break at entry `k` is reported: set for that break (R97), but as it stands with the redo
flag set, since the resync's result is discarded (R102, log 25). -/
def SignState.orderMet (k : Nat) (g : SignState) : SignState := if g.redo then g else { g with orderReported := some k }

/-- SCHEDULE_ORDER at entry `k`, but where the order-reported flag is set for this break (R97, log 32). The flag is set
though the report writer may drop the report (log 31). -/
def State.reportOrder (i : SignNo) (k : Nat) (s : State) : State :=
  if (s.sign i).orderReported = some k then s
  else
    (s.modifySign i (SignState.orderMet k)).report
      { kind := .scheduleOrder, sign := some i, page := none, detail := k }

/-- A schedule-list read: `len` bytes at byte `offset` of sign `i`'s list (R96). -/
def State.listRead (s : State) (i : SignNo) (kind : OwnKind) (offset len : Nat) : OwnReq :=
  { kind := kind, addr := (s.settings.schedBase + i.val * 2048 + offset) % Config.memorySize, len := len, data := [] }

/-- Place the read of a resync at byte `offset` of a list, up to the schedule count now applied (R96, R101, log 39). -/
def State.readResync (i : SignNo) (offset : Nat) (prev : Option Nat) (cand : Option Candidate) (s : State) : State :=
  { s with clk.engine := .resync i offset prev cand }.place
    (s.listRead i (.schedResync i) offset (min 256 (8 * (s.sign i).entry.scheduleCount - offset)))

/-- How the examination of a read's entries comes out (R101). -/
inductive Examined where
  /-- Entry `k` is not later than its predecessor: the list ends there (R97). -/
  | broken (k : Nat) (cand : Option Candidate)
  /-- Entry `k` is later than now: it is the next entry. -/
  | found (k time : Nat) (cand : Option Candidate)
  /-- Every entry of the read is due. -/
  | passed (prev : Option Nat) (cand : Option Candidate)
deriving DecidableEq, Repr

/-- Examine entries from index `k` on, with the time of the entry before them (R101). -/
def examine (now : Nat) : Nat → Option Nat → Option Candidate → List SchedEntry → Examined
  | _, prev, cand, [] => .passed prev cand
  | k, prev, cand, e :: rest =>
    if (match prev with | some t => decide (e.time ≤ t) | none => false) then .broken k cand
    else if now < e.time then .found k e.time cand
    else examine now (k + 1) (some e.time) (some { index := k, first := e.first, last := e.last, dwell := e.dwell }) rest

/-- The end of a resync read whose bytes are delivered (R101). The entries it carried are examined up to the schedule count
now applied, and the next read begins where it ended (R96, log 39). -/
def State.resyncReadEnds (bytes : List Byte) (s : State) : State :=
  match s.clk.engine with
  | .resync i offset prev cand =>
    let count := (s.sign i).entry.scheduleCount
    match examine s.clk.time (offset / 8) prev cand ((parseSchedule bytes).take (count - offset / 8)) with
    | .broken k cand => (s.reportOrder i k).endResync i cand none
    | .found k t cand => s.endResync i cand (some (k, t))
    | .passed prev cand =>
      if 8 * count ≤ offset + bytes.length then s.endResync i cand none
      else s.readResync i (offset + bytes.length) prev cand
  | _ => s

/-- Apply entry `k` in an advance: a schedule switch (R104). -/
def State.applyAdvance (i : SignNo) (k : Nat) (e : SchedEntry) (next : Option (Nat × Nat)) (s : State) : State :=
  (s.modifySign i fun g =>
      { g.switchTo { index := k, first := e.first, last := e.last, dwell := e.dwell } with
        nextEntry := next }).refreshSchedulePage i

/-- The end of an advance read whose bytes are delivered (R104). -/
def State.advanceReadEnds (bytes : List Byte) (s : State) : State :=
  match s.clk.engine with
  | .advance i k =>
    let s := { s with clk.engine := .idle }
    if (s.sign i).redo then s
    else
      match parseSchedule bytes with
      | [] => s
      | [e] => s.applyAdvance i k e none
      | e :: f :: _ =>
        if f.time ≤ e.time then (s.reportOrder i (k + 1)).applyAdvance i k e none
        else if s.clk.time < f.time then s.applyAdvance i k e (some (k + 1, f.time))
        else s.markResync i
  | _ => s

/-- Start the operation a sign's work due names (R99, R101, R104): its work due becomes none and its redo flag clear. A
resync of an empty list ends at once. -/
def State.startWork (i : SignNo) (s : State) : State :=
  let g := s.sign i
  let s := s.modifySign i fun g => { g with workDue := .none, redo := false }
  match g.workDue, g.nextEntry with
  | .resync, _ =>
    if g.entry.scheduleCount = 0 then s.endResync i none none
    else s.readResync i 0 none none
  | .advance, some (k, _) =>
    { s with clk.engine := .advance i k }.place
      (s.listRead i (.schedAdvance i) (8 * k) (if k + 1 < g.entry.scheduleCount then 16 else 8))
  | .advance, none => s
  | .none, _ => s

/-- The idle engine takes the lowest-numbered enabled sign with work due until an operation is in flight or no work is
due; nothing is taken while UNSET is set or an abandoned read is still on the memory port (R99, R107). -/
def State.takeWork : Nat → State → State
  | 0, s => s
  | fuel + 1, s =>
    if s.clk.engine ≠ .idle ∨ s.clk.unset ∨ s.busy .schedule then s
    else
      match s.findSign fun g => g.entry.enabled && g.workDue != .none with
      | none => s
      | some i => State.takeWork fuel (s.startWork i)

/-- A snooped run in sign `i`'s schedule list (R97, R100). -/
def State.scheduleWritten (i : SignNo) (s : State) : State :=
  if (s.sign i).entry.enabled then
    (s.markResync i).modifySign i fun g => { g with orderReported := none }
  else s

/-- What a disable does at the clock and schedule unit (R107). -/
def State.scheduleDisable (i : SignNo) (s : State) : State :=
  let s :=
    if s.clk.engine.sign = some i then { s with clk.engine := .idle }.withdraw (· == Requester.schedule) else s
  s.modifySign i fun g =>
    { g with
      curEntry := none, nextEntry := none, rotFirst := 0, rotLast := 0, rotDwell := 0, rotPos := 0, dwellCount := 0,
      workDue := .none, redo := false, orderReported := none, schedulePage := 0 }

/-! ## Taking up work (R47, R72, R99; log 14) -/

/-- The schedule engine, the page loader and the signature engine, where idle, take what waits for them (R47, R48, R72,
R99). -/
def State.takeUp (s : State) : State :=
  let s := State.takeWork 256 s
  (State.takeActivation s.pl.queue.length s).takeStale.placeSignature

/-! ## Second ticks, minute ticks and pulse captures (R88, R89, R92, R105, R119) -/

/-- A minute tick (R89): the clock moves into the next minute, a day wrap marks every sign RESYNC, and the schedule
engine, then the page loader take the tick, each with what it takes up (R72, R99; log 14). -/
def State.tickMinute (s : State) : State :=
  let wrap := s.clk.wrapsDay
  let s := { s with clk := s.clk.nextMinute }
  let s := if wrap then s.markAllResync else s
  s.markAdvances.takeUp.queueDiffering.takeUp

/-- The heartbeat's second tick (R119): while the part and the heartbeat are RUNNING the counter falls, and at 0 the
heartbeat lapses, with the work that takes up. -/
def State.tickHeartbeat (s : State) : State :=
  if s.lapseDue then s.lapse.takeUp
  else if s.dir.part = .running ∧ s.pc.hb = .running then { s with pc.hbCounter := s.pc.hbCounter - 1 }
  else s

/-- The dwell counters of a second tick (R105); a counter that has reached its dwell waits for its rotation advance
(log 12). -/
def State.tickDwell (s : State) : State :=
  forSigns (fun i s => s.modifySign i fun g => { g with dwellCount := min g.rotDwell (g.dwellCount + 1) })
    (s.signsWhere fun g => g.entry.enabled && g.rotating && g.job == .shown) s

/-- PULSE_MISSING is written and disarmed (R94). -/
def State.missPulse (s : State) : State :=
  { s with clk.armed := false }.report { kind := .pulseMissing, sign := none, page := none, detail := 180 }

/-- The next second tick brings the pulse-missing counter to 180 with pulse-missing armed set (R94). -/
def State.pulseMissingDue (s : State) : Bool :=
  s.clk.pulseMode && s.clk.armed && decide (Config.pulseMissingLimit ≤ s.clk.pulseMissing + 1)

/-- The pulse-missing counter of a second tick, and PULSE_MISSING where it reaches 180 armed (R94). -/
def State.tickPulse (s : State) : State :=
  let counted : State :=
    if s.clk.pulseMode then { s with clk.pulseMissing := min Config.pulseMissingLimit (s.clk.pulseMissing + 1) } else s
  if s.pulseMissingDue then counted.missPulse else counted

/-- A second tick (R88): the prescaler returns to 0, the second rises or the clock takes a minute tick, and the page
chooser, the report writer and the clock unit take the tick. -/
def State.tickSecond (s : State) : State :=
  let s := { s with clk.prescaler := 0 }
  let s := if s.clk.second < 59 then { s with clk.second := s.clk.second + 1 } else s.tickMinute
  let s := s.tickHeartbeat.tickPulse.tickDwell
  { s with rw.blockDue := true }

/-- A pulse capture (R92, R93, R94). PULSE_CAPTURE is handed after all that a forward capture's minute tick brings about
(log 36). -/
def State.capturePulse (s : State) : State :=
  let sec := s.clk.second
  let offset : Int := if sec < 30 then (sec : Int) else (sec : Int) - 60
  let s := if sec < 30 then { s with clk.second := 0 } else s.tickMinute
  let s := { s with
    clk.prescaler := 0, clk.lastOffset := offset, clk.pulseMissing := 0, clk.armed := true }
  s.report { kind := .pulseCapture, sign := none, page := none, detail := bits16 offset }

end Sys2Proof.Machine
end

