-- ==== Sys2Proof/Machine/Lines.lean ====
section
/-! DEFINITION. The general lines (sections 6.1 to 6.3): level changes, filtered edges, line-entry commits, clears and the
emptying of a line. -/

namespace Sys2Proof.Machine

/-! ## The filter (R110) -/

/-- The filter timer after a change: it starts with the line filter when the raw level differs from the filtered level,
and stops when they are equal (R110). -/
def LineState.armFilter (ms : Nat) (x : LineState) : LineState :=
  { x with timer := if x.raw = x.filtered then none else some ms }

/-- A change of the raw level; the filter is held in FAULT_OUTPUT (R110). -/
def LineState.levelChanged (ms : Nat) (high : Bool) (x : LineState) : LineState :=
  if x.raw = high then x
  else if x.entry.mode = .faultOutput then { x with raw := high }
  else { x with raw := high }.armFilter ms

/-- A filtered edge is handed on by the line's mode (R111 to R113). -/
def State.filteredEdge (n : LineNo) (s : State) : State :=
  let x := s.line n
  match x.entry.mode, x.active with
  | .alertLevel, true => if x.alert then s else s.setAlert n true 1 x.entry.zones
  | .alertLevel, false => if x.alert then s.setAlert n false 1 x.entry.zones else s
  | .alertLatched, true => if x.alert then s else s.setAlert n true 1 x.entry.zones
  | .minutePulse, true => if n = 3 then s.capturePulse else s
  | _, _ => s

/-- The filter timer expires: the filtered level becomes the raw level, and the edge is handed on (R110, R111). -/
def State.filterExpires (n : LineNo) (s : State) : State :=
  let x := s.line n
  (s.setLine n { x with filtered := x.raw, timer := none }).filteredEdge n

/-! ## Line-entry commits (R27, R110, R114, R116) -/

/-- The filter and the drive of a line whose entry is replaced by `e` (R110, R116). -/
def LineState.applied (e : LineEntry) (faults ms : Nat) (x : LineState) : LineState :=
  let y : LineState := { x with entry := e }
  let z : LineState :=
    if e.mode = .faultOutput then { y with timer := none }
    else if x.entry.mode = .faultOutput then { y with filtered := !e.activeHigh }.armFilter ms
    else y
  { z with drive := z.driveFor faults }

/-- The alert state after a commit that replaced mode `old` (R114). -/
def LineState.alertAfter (old : LineMode) (x : LineState) : Bool :=
  match x.entry.mode with
  | .alertLevel => x.active
  | .alertLatched => x.alert && (old == .alertLatched || old == .alertLevel)
  | .off => false
  | .minutePulse => false
  | .faultOutput => false

/-- Apply entry `e` to line `n` (R95, R110, R114, R116). -/
def State.applyLine (n : LineNo) (e : LineEntry) (s : State) : State :=
  let old := s.line n
  let s := s.setLine n (old.applied e s.pc.faultCount s.settings.lineFilter)
  let s := if n = 3 then s.setPulseMode (e.mode == .minutePulse) else s
  let after := (s.line n).alertAfter old.entry.mode
  let zones := old.entry.zones ||| e.zones
  if after != old.alert then s.setAlert n after 3 zones
  else if after && (old.entry.alertPage != e.alertPage || old.entry.zones != e.zones) then s.sweep zones
  else s

/-- CONFIG for an illegal mode code (R27). -/
def State.reportLineMode (n : LineNo) (s : State) : State :=
  let code := lineCode s.dir.image n
  if (lineMode n code).isSome then s
  else s.report { kind := .config, sign := none, page := none, detail := n.val * 256 + code }

/-- An applied line-entry commit of line `n`, its fields taken from the image (R20, R27). -/
def State.commitLine (n : LineNo) (s : State) : State :=
  (s.reportLineMode n).applyLine n (parseLine s.dir.image n)

/-- A clear of line `n` handed to the page chooser (R28, R112, R113). -/
def State.clearLine (n : LineNo) (s : State) : State :=
  let x := s.line n
  if x.entry.mode = .alertLatched ∧ x.alert = true then s.setAlert n false 2 x.entry.zones else s

/-! ## Emptying (R125) -/

/-- A line at a restart, an entry into WAITING or a new load: cleared to OFF as a change of mode, with a line filter of
1 ms because no header is applied (R110, R125). -/
def LineState.emptied (x : LineState) : LineState :=
  let y : LineState := { x with entry := .cleared, alert := false, drive := false }
  if x.entry.mode = .faultOutput then { y with filtered := true }.armFilter 1 else y

end Sys2Proof.Machine
end

