-- ==== Sys2Proof/Machine/Links.lean ====
section
/-! DEFINITION. The link controllers (chapter 8): the exchange arbiter, job steps and tile reads, attempts and retries, polls, the
refresh limit, the survey, and turning links on and off. Times are in µs (log 10). -/

namespace Sys2Proof.Machine

/-! ## Frames and phases (R149, R156) -/

/-- Begin the frame of an exchange: the line phase becomes SENDING (R156). The rate is that applied now (R25, R169), and so
is the answer window of a first attempt; a retry brings the window `w` taken when it was scheduled (R154, log 34). -/
def State.beginFrame (l : LinkNo) (i : SignNo) (p : Purpose) (attempt : Nat) (w : Option Nat) (f : List Byte)
    (s : State) : State :=
  s.modifyLink l fun k =>
    { k with
      phase := .sending
      exch := some { sign := i, drop := (s.sign i).entry.drop, purpose := p, attempt := attempt, frame := f,
                     rate := s.settings.rates[l], discard := false }
      window := w.getD s.settings.answerWindow }

/-- SDE of a link: asserted while the part sends (R149). -/
def LinkState.sde (k : LinkState) : Bool := k.phase == .sending

/-- What the part puts on a link's line, bit by bit: the whole frame while it sends, and else the level at which the line
rests (R149). -/
def LinkState.sent (k : LinkState) : List Bool :=
  match k.sde, k.exch with
  | true, some e => frameBits e.frame
  | _, _ => [stopLevel]

/-- The bit rate of an exchange, bit/s, by the rate code its frame began with (R149). -/
def Exchange.bitRate (e : Exchange) : Nat :=
  match e.rate with
  | 0 => 115200
  | 1 => 250000
  | 2 => 500000
  | _ => 1000000

/-- An attempt ends: the exchange is no longer in flight, and the link passes through a gap, or is OFF when no header
is applied or its enable is off (R149, R156, R169, R171). -/
def State.endAttempt (l : LinkNo) (s : State) : State :=
  s.modifyLink l fun k =>
    { k with phase := if s.linkOn l then .gap else .off, exch := none, rx := [], window := 0 }

/-! ## Waits (R154, R157, R160) -/

/-- The back-off wait before retry `k`, ms (R154). -/
def backoffMs (cap k : Nat) : Nat := 5 * 2 ^ min (k - 1) cap

/-- The applied poll interval, ms. -/
def State.pollMs (s : State) : Nat := s.settings.pollInterval * 10

/-- Put sign `i` on its link's poll list, due one poll interval after `t` (R157). -/
def State.addPoll (i : SignNo) (t : Nat) (s : State) : State :=
  s.modifyLink (s.sign i).entry.link fun k =>
    { k with
      polls := k.polls.filter (·.sign ≠ i) ++
        [{ sign := i, due := t + s.pollMs * 1000, passed := false, attempts := 0, window := none }] }

/-- Become SETTLING, polled one poll interval after `t` (R136, R157). -/
def State.becomeSettling (i : SignNo) (t : Nat) (s : State) : State :=
  let s := s.modifySign i fun g => { g with pendingClass := raise g.pendingClass g.again, again := none }
  let s := s.clearJob (s.sign i).entry.link
  (s.setJob i .settling).addPoll i t

/-! ## Tile reads (R159) -/

/-- The planned slot from which LOADs are still to be sent; none once they are done or before the plan. -/
def JobStep.loadIndex : JobStep → Option Nat
  | .load j => some j
  | _ => none

/-- The first planned slot from `j` on whose bytes are wanted and not held: (planned slot, tile). -/
def wantedTile (held : List (Nat × List Byte)) : Nat → List PlannedSlot → Option (Nat × Nat)
  | _, [] => none
  | j, q :: rest =>
    match q.tile with
    | some t => if held.any (·.1 == j) then wantedTile held (j + 1) rest else some (j, t)
    | none => wantedTile held (j + 1) rest

/-- The plan a job context of link `l` works through. A context that outlives the disable of its sign while an exchange
ends has none, whatever a new job of the sign plans on another link (R31, R170). -/
def State.jobPlan (l : LinkNo) (c : JobCtx) (s : State) : Option Plan :=
  if (s.sign c.sign).entry.link = l then (s.sign c.sign).plan else none

/-- Place the next link tile read when a buffer is free and no read is waiting or in progress (R159). -/
def State.placeTile (l : LinkNo) (s : State) : State :=
  if s.busy (.link l) then s
  else
    match (s.link l).job with
    | none => s
    | some c =>
      match c.step.loadIndex, s.jobPlan l c with
      | some j, some p =>
        if c.held.length < 2 then
          match wantedTile c.held j (p.planned.drop j) with
          | none => s
          | some (q, t) =>
            s.place { kind := .tileRead l q, addr := (s.settings.tileBase + t * 256) % Config.memorySize, len := 256,
                      data := [] }
        else s
      | _, _ => s

/-- A tile read's bytes fill a free buffer (R159). -/
def State.fillBuffer (l : LinkNo) (j : Nat) (bytes : List Byte) (s : State) : State :=
  s.modifyLink l fun k => { k with job := k.job.map fun c => { c with held := c.held ++ [(j, bytes)] } }

/-! ## The exchange arbiter (R156) -/

/-- The due poll served first: the earliest due time, of equal ones the lower drop (R156). -/
def State.duePoll (l : LinkNo) (s : State) : Option Poll :=
  ((s.link l).polls.filter (·.passed)).foldl
    (fun best p =>
      match best with
      | none => some p
      | some b =>
        if p.due < b.due ∨ (p.due = b.due ∧ (s.sign p.sign).entry.drop < (s.sign b.sign).entry.drop) then some p
        else some b)
    none

/-- How far a drop lies after the survey pointer, wrapping from 63 to 0; the pointer itself comes last (R167). -/
def surveyDistance (pointer drop : Nat) : Nat := (drop + 127 - pointer) % 64

/-- The sign a new survey probe visits: the first surveyed one of the link after the pointer (R167). -/
def State.surveyPick (l : LinkNo) (s : State) : Option SignNo :=
  let near (i : SignNo) : Nat := surveyDistance (s.link l).surveyPointer (s.sign i).entry.drop
  (s.signsWhere fun g => g.entry.enabled && g.entry.link == l && g.job.surveyed).foldl
    (fun best i =>
      match best with
      | none => some i
      | some b => if near i < near b then some i else some b)
    none

/-- Send the PROBE of a held survey probe (R167). -/
def State.sendSurvey (l : LinkNo) (v : Survey) (s : State) : State :=
  s.beginFrame l v.sign .survey (v.attempts + 1) v.window (probeFrame (s.sign v.sign).entry.drop)

/-- Step 4 of R156: the survey probe whose retry is eligible, or a new one when survey due is set (R167). -/
def State.chooseSurvey (l : LinkNo) (s : State) : State :=
  match (s.link l).survey with
  | some v => if v.wait = .ready then s.sendSurvey l v else s
  | none =>
    if (s.link l).surveyDue then
      let s' := s.modifyLink l fun k => { k with surveyDue := false }
      match s.surveyPick l with
      | none => s'
      | some i =>
        let v : Survey :=
          { sign := i, attempts := 0, single := (s.sign i).job == .offline, wait := .ready, window := none }
        (s'.modifyLink l fun k => { k with surveyPointer := (s.sign i).entry.drop, survey := some v }).sendSurvey l v
    else s

/-- Take the head of the update queue into TRANSFER and send its PROBE (R132, R158). -/
def State.startJob (l : LinkNo) (e : QueueEntry) (s : State) : State :=
  let i := e.sign
  let s := s.leaveQueue i
  let s := s.setJob i .transfer
  let s := s.modifySign i fun g => { g with abort := none }
  let s := s.modifyLink l fun k =>
    { k with
      job := some { sign := i, step := .probe, attempts := 0, wait := .ready, held := [], busyStart := none,
                    showSent := false, window := none } }
  s.beginFrame l i .jobProbe 1 none (probeFrame (s.sign i).entry.drop)

/-- Steps 3 and 4 of R156. -/
def State.chooseNew (l : LinkNo) (s : State) : State :=
  match (s.link l).job, (s.link l).queue with
  | none, e :: _ => s.startJob l e
  | _, _ => s.chooseSurvey l

/-- The frame of a job's LOAD step, once its bytes are held (R150, R159); none while they are not. -/
def JobCtx.loadFrame (c : JobCtx) (drop j : Nat) (p : Plan) : Option (List Byte) :=
  match p.planned[j]? with
  | none => none
  | some q =>
    match q.tile with
    | none => some (Machine.loadFrame drop q.index none)
    | some _ => (c.held.find? (·.1 == j)).map fun h => Machine.loadFrame drop q.index (some h.2)

/-- A SHOW whose first attempt's check fails (R141, R161). -/
def State.endAtShow (i : SignNo) (hold : Bool) (s : State) : State :=
  if hold then (s.modifySign i fun g => { g with forceFull := true }).holdJob i else s.stopJob i none

/-- A SHOW retry whose check fails (R162). -/
def State.abandonShow (i : SignNo) (t : Nat) (s : State) : State :=
  let s := s.loss i none
  let s := s.modifySign i fun g => { g with plan := none }
  s.becomeSettling i t

/-- Send the SHOW (R161). -/
def State.sendShow (l : LinkNo) (c : JobCtx) (p : Plan) (s : State) : State :=
  let s := s.modifyLink l fun k => { k with job := some { c with showSent := true } }
  s.beginFrame l c.sign .jobShow (c.attempts + 1) c.window (showFrame (s.sign c.sign).entry.drop p.mode p.tag)

/-- The exchange arbiter's choice on an IDLE link (R156): due polls, the job's step, a new job, the survey. A SHOW whose
check fails ends its job, and the choice is made again at once without it (R161, R162). -/
def State.choose (l : LinkNo) (t : Nat) (s : State) : State :=
  match s.duePoll l with
  | some p => s.beginFrame l p.sign .poll (p.attempts + 1) p.window (probeFrame (s.sign p.sign).entry.drop)
  | none =>
    match (s.link l).job with
    | none => s.chooseNew l
    | some c =>
      if c.wait ≠ .ready then s.chooseNew l
      else
        let g := s.sign c.sign
        match c.step, g.plan with
        | .probe, _ => s.beginFrame l c.sign .jobProbe (c.attempts + 1) c.window (probeFrame g.entry.drop)
        | .load j, some p =>
          match c.loadFrame g.entry.drop j p with
          | some f => s.beginFrame l c.sign .jobLoad (c.attempts + 1) c.window f
          | none => s.chooseNew l
        | .showStep, some p =>
          match s.showCheck c.sign with
          | .send => s.sendShow l c p
          | check =>
            if c.showSent then (s.abandonShow c.sign t).chooseNew l
            else (s.endAtShow c.sign (check == .hold)).chooseNew l
        | _, none => s.chooseNew l

/-! ## Failed attempts and silence (R153 to R155) -/

/-- Retry number `n` is allowed (R154). -/
def State.mayRetry (s : State) (n : Nat) : Bool := decide (n ≤ s.settings.retryLimit)

/-- The wait before retry `n` by the applied back-off cap (R154). -/
def State.retryMs (s : State) (n : Nat) : Nat := backoffMs s.settings.backoffCap n

/-- A job's exchange is silent (R136, R155): OFFLINE with loss, the job context cleared. -/
def State.jobSilent (i : SignNo) (p : Purpose) (reason : Nat) (s : State) : State :=
  (s.goOffline i true p reason).clearJob (s.sign i).entry.link

/-- A failed attempt of a job's exchange (R131, R154). -/
def State.jobFailed (l : LinkNo) (i : SignNo) (p : Purpose) (reason : Nat) (s : State) : State :=
  match (s.link l).job with
  | none => s
  | some c =>
    if (s.sign i).abort.isSome then s.stopJob i none
    else if s.mayRetry (c.attempts + 1) then
      s.modifyLink l fun k =>
        { k with
          job := some { c with
            attempts := c.attempts + 1, wait := .backoff (s.retryMs (c.attempts + 1))
            window := some s.settings.answerWindow } }
    else s.jobSilent i p reason

/-- Change sign `i`'s poll list entry. -/
def LinkState.modifyPoll (i : SignNo) (f : Poll → Poll) (k : LinkState) : LinkState :=
  { k with polls := k.polls.map fun p => if p.sign = i then f p else p }

/-- A failed attempt of a poll (R157, R165): nothing is handed on for a sign that is no longer polled. -/
def State.pollFailed (l : LinkNo) (i : SignNo) (reason t : Nat) (s : State) : State :=
  match (s.link l).polls.find? (·.sign == i) with
  | none => s
  | some p =>
    if s.mayRetry (p.attempts + 1) then
      s.modifyLink l (LinkState.modifyPoll i fun p =>
        { p with attempts := p.attempts + 1, due := t + s.retryMs (p.attempts + 1) * 1000, passed := false,
                 window := some s.settings.answerWindow })
    else s.goOffline i true .poll reason

/-- Silence of a survey probe (R137, R155). -/
def State.surveySilent (i : SignNo) (reason : Nat) (s : State) : State :=
  match (s.sign i).job with
  | .shown => s.goOffline i true .survey reason
  | .cold => s.goOffline i true .survey reason
  | .panelFault => s.goOffline i false .survey reason
  | _ => s

/-- A failed attempt of a survey probe (R167). -/
def State.surveyFailed (l : LinkNo) (i : SignNo) (reason : Nat) (s : State) : State :=
  match (s.link l).survey with
  | none => s
  | some v =>
    if !v.single && s.mayRetry (v.attempts + 1) then
      s.modifyLink l fun k =>
        { k with
          survey := some { v with
            attempts := v.attempts + 1, wait := .backoff (s.retryMs (v.attempts + 1))
            window := some s.settings.answerWindow } }
    else (s.modifyLink l fun k => { k with survey := none }).surveySilent i reason

/-! ## Answers (R136, R137, R160, R161) -/

/-- An answer for a sign without a job (R137); its sample has been taken. In any other job state the sample alone counts
(R167, log 23). -/
def State.quietAnswer (i : SignNo) (a : Answer) (p : Purpose) (s : State) : State :=
  let g := s.sign i
  match g.job, a.state with
  | .shown, .ready => if a.tag = g.shownTag then s else (s.loss i (some a.tag)).trigger i .recover
  | .shown, .busy => s
  | .shown, .error => s.goFault i true p
  | .cold, .ready =>
    if a.tag = g.shownTag then s.coldRecheck i else ((s.loss i (some a.tag)).trigger i .recover).coldRecheck i
  | .cold, .busy => s.coldRecheck i
  | .cold, .error => s.goFault i true p
  | .offline, .ready => s.recover i a.tag
  | .offline, .busy => s
  | .offline, .error => s.goFault i false p
  | .panelFault, .ready => s.recover i a.tag
  | .panelFault, .busy => s
  | .panelFault, .error => s
  | _, _ => s

/-- After a poll that leaves the sign polled: due one poll interval after the attempt's end (R157). -/
def State.pollAgain (i : SignNo) (t : Nat) (s : State) : State := s.addPoll i t

/-- An answer to a poll (R136, R157, R165). -/
def State.pollAnswer (i : SignNo) (a : Answer) (t : Nat) (s : State) : State :=
  let g := s.sign i
  match g.job, a.state with
  | .refreshing, .ready =>
    match g.plan with
    | some p => if a.tag = p.tag then s.complete i p else s.failedRefresh i a.tag
    | none => s.failedRefresh i a.tag
  | .refreshing, .busy => s.pollAgain i t
  | .refreshing, .error => s.goFault i true .poll
  | .settling, .ready =>
    let lost := decide (a.tag ≠ g.shownTag)
    let s := if lost then s.loss i (some a.tag) else s
    let c := raise (raise g.pendingClass g.again) (if lost then some .recover else none)
    (s.modifySign i fun g => { g with again := none }).joinQueue i (c.getD .content)
  | .settling, .busy => s.pollAgain i t
  | .settling, .error => s.goFault i true .poll
  | _, _ => s.quietAnswer i a .poll

/-- The ending answer of a job that an abort class has stopped (R131); its sample has been taken. -/
def State.abortAnswer (i : SignNo) (a : Answer) (p : Purpose) (s : State) : State :=
  match a.state with
  | .error => (s.goFault i true p).clearJob (s.sign i).entry.link
  | .busy => s.stopJob i none
  | .ready =>
    (if a.tag = (s.sign i).shownTag then s else s.loss i (some a.tag)).stopJob i none

/-- An answer to a job's PROBE (R136, R158). -/
def State.probeAnswer (i : SignNo) (a : Answer) (t : Nat) (s : State) : State :=
  match a.state with
  | .ready => (if a.tag = (s.sign i).shownTag then s else s.loss i (some a.tag)).makePlan i
  | .busy => s.becomeSettling i t
  | .error => (s.goFault i true .jobProbe).clearJob (s.sign i).entry.link

/-- The step after LOAD `j` of a plan of `n` slots (R158). -/
def nextStep (j n : Nat) : JobStep := if j + 1 < n then .load (j + 1) else .showStep

/-- A LOAD answered BUSY: repeated one poll interval later, or silence with reason 5 once its busy run has lasted the
refresh limit (R160). -/
def State.loadBusy (l : LinkNo) (i : SignNo) (c : JobCtx) (t : Nat) (s : State) : State :=
  let start := c.busyStart.getD t
  if s.settings.refreshLimit * 1000000 ≤ t - start then s.jobSilent i .jobLoad 5
  else
    s.modifyLink l fun k =>
      { k with
        job := some { c with attempts := 0, wait := .busyRepeat s.pollMs, busyStart := some start, window := none } }

/-- An answer to a job's LOAD (R136, R158, R160). -/
def State.loadAnswer (l : LinkNo) (i : SignNo) (a : Answer) (t : Nat) (s : State) : State :=
  match (s.link l).job with
  | none => s
  | some c =>
    match a.state, c.step with
    | .ready, .load j =>
      if a.tag = (s.sign i).shownTag then
        let n := match (s.sign i).plan with | some p => p.planned.length | none => 0
        s.modifyLink l fun k =>
          { k with
            job := some { c with
              step := nextStep j n, attempts := 0, wait := .ready, busyStart := none, window := none,
              held := c.held.filter (·.1 ≠ j) } }
      else (s.loss i (some a.tag)).stopJob i (some .recover)
    | .busy, _ => s.loadBusy l i c t
    | .error, _ => (s.goFault i true .jobLoad).clearJob l
    | _, _ => s

/-- The refresh timer of a sign starts with the refresh limit applied now (R164). -/
def State.startRefresh (i : SignNo) (s : State) : State :=
  s.modifyLink (s.sign i).entry.link fun k =>
    { k with refresh := k.refresh.filter (·.1 ≠ i) ++ [(i, s.settings.refreshLimit)] }

/-- An answer to a job's SHOW (R136, R161). -/
def State.showAnswer (l : LinkNo) (i : SignNo) (a : Answer) (t : Nat) (s : State) : State :=
  match a.state with
  | .ready =>
    match (s.sign i).plan with
    | some p => (if a.tag = p.tag then s.complete i p else s.failedRefresh i a.tag).clearJob l
    | none => (s.failedRefresh i a.tag).clearJob l
  | .busy => (((s.clearJob l).setJob i .refreshing).startRefresh i).addPoll i t
  | .error => (s.goFault i true .jobShow).clearJob l

/-- An answered attempt of a job's exchange: the sample first (R134), then the stop of an aborted job, or the answer by
its step. -/
def State.jobAnswered (l : LinkNo) (e : Exchange) (a : Answer) (t : Nat) (s : State) : State :=
  let i := e.sign
  let s := s.sample i a.temp
  if (s.sign i).job ≠ .transfer then s
  else if (s.sign i).abort.isSome then s.abortAnswer i a e.purpose
  else
    match e.purpose with
    | .jobProbe => s.probeAnswer i a t
    | .jobLoad => s.loadAnswer l i a t
    | .jobShow => s.showAnswer l i a t
    | _ => s

/-- An attempt that was not discarded has come out (R153): hand on the answer or the failure by its purpose. -/
def State.attemptOut (l : LinkNo) (e : Exchange) (v : Verdict) (t : Nat) (s : State) : State :=
  match e.purpose, v with
  | .poll, .answered a => (s.sample e.sign a.temp).pollAnswer e.sign a t
  | .poll, .failed r => s.pollFailed l e.sign r t
  | .survey, .answered a =>
    let held := (s.link l).survey.isSome
    let s := (s.modifyLink l fun k => { k with survey := none }).sample e.sign a.temp
    if held then s.quietAnswer e.sign a .survey else s
  | .survey, .failed r => s.surveyFailed l e.sign r
  | _, .answered a => s.jobAnswered l e a t
  | _, .failed r => s.jobFailed l e.sign e.purpose r

/-- The attempt in flight on a link ends with a verdict at `t`. An exchange marked for discarding hands nothing on, and
a job context that outlived its sign is cleared (R31, R40, R169, R170). -/
def State.attemptEnds (l : LinkNo) (v : Verdict) (t : Nat) (s : State) : State :=
  match (s.link l).exch with
  | none => s.endAttempt l
  | some e =>
    let s := s.endAttempt l
    if e.discard then (if e.purpose.ofJob then s.clearJob l else s) else s.attemptOut l e v t

/-! ## Refresh limit (R137, R164) -/

/-- The refresh timer of a REFRESHING sign expires (R137, R164). -/
def State.refreshExpires (i : SignNo) (s : State) : State :=
  let g := s.sign i
  match g.plan with
  | none => (s.dropWork i).setJob i .offline
  | some p =>
    let s := if g.generation = p.generation then s.lossPlanned i p else s
    let s := s.modifySign i fun g => { g with forceFull := true }
    let s := (s.dropWork i).setJob i .offline
    s.report { kind := .refreshTimeout, sign := some i, page := some p.page, detail := p.tag }

/-! ## Turning a link on and off, disabling its signs (R144, R169, R170) -/

/-- A sign of a link turned off becomes OFFLINE with loss, without a report (R144). -/
def State.signLinkOff (i : SignNo) (s : State) : State :=
  (((s.loss i none).dropWork i).leaveQueue i).setJob i .offline

/-- The exchange in flight will be discarded; a link without one is OFF at once. -/
def LinkState.drain (k : LinkState) : LinkState :=
  { k with
    exch := k.exch.map fun e => { e with discard := true }
    phase := if k.exch.isSome then k.phase else .off }

/-- The link's enable is turned off (R144, R169). -/
def State.linkOff (l : LinkNo) (s : State) : State :=
  let s := forSigns State.signLinkOff (s.signsWhere fun g => g.entry.enabled && g.entry.link == l) s
  let s := s.clearJob l
  s.modifyLink l fun k =>
    { k.drain with polls := [], refresh := [], surveyTimer := none, surveyDue := false, survey := none }

/-- The link's enable is turned on, or applied on at step 1 of a load (R166, R169, R171). Where an exchange from before the
turn-off is still in flight its phase goes on, and the gap comes at its end (log 33). -/
def State.linkOnSet (l : LinkNo) (s : State) : State :=
  s.modifyLink l fun k =>
    { k with
      phase := if k.exch.isSome then k.phase else .gap
      surveyTimer := some s.settings.surveyInterval }

/-- What a disable does at the sign's link controller (R31, R170); the job state's own entries go with it (`setJob`). -/
def State.linkDisable (i : SignNo) (s : State) : State :=
  let l := (s.sign i).entry.link
  let inFlight := match (s.link l).exch with | some e => e.sign == i | none => false
  let mine := match (s.link l).job with | some c => c.sign == i | none => false
  let s := s.modifyLink l fun k =>
    { k with
      exch := k.exch.map fun e => if e.sign = i then { e with discard := true } else e
      polls := k.polls.filter (·.sign ≠ i)
      refresh := k.refresh.filter (·.1 ≠ i)
      survey := k.survey.filter (·.sign ≠ i) }
  if mine && !inFlight then s.clearJob l else s

/-- A link controller emptied (R171): the exchange in flight is let end, everything else takes the table's value. -/
def LinkState.emptied (k : LinkState) : LinkState :=
  { LinkState.reset with
    exch := k.exch.map fun e => { e with discard := true }
    phase := if k.exch.isSome then k.phase else .off
    window := k.window
    rx := k.rx }

end Sys2Proof.Machine
end

