-- ==== Sys2Proof/Machine/Directory.lean ====
section
/-! DEFINITION. The directory shadow (chapter 2): the byte image, header commits, sign-entry commits with enables and disables,
the clock-set record, the part states, restarts and the directory load. -/

namespace Sys2Proof.Machine

/-! ## The byte image (R19) -/

/-- The window offsets the image holds (section 2.1). -/
def imaged (off : Nat) : Bool :=
  decide (off < 0x140) || (decide (0x200 ≤ off) && decide (off < 0x212)) ||
    (decide (0x220 ≤ off) && decide (off < 0x222)) || (decide (0x1000 ≤ off) && decide (off < 0x2000))

/-- The bytes of a directory-load read replace the image bytes they cover (R19). -/
def State.loadImage (off : Nat) (bytes : List Byte) (s : State) : State :=
  { s with dir.image := s.dir.image.writeBytes off bytes }

/-! ## Disable and enable of a sign (R31, R32, R83, R107, R146, R170) -/

/-- What the update scheduler and the page chooser drop at a disable (R31, R146). -/
def SignState.dropped (g : SignState) : SignState :=
  { g with
    entry := { g.entry with enabled := false }
    plan := none, forceFull := false, pendingClass := none, again := none, abort := none, ring := []
    wanted := none, recordDue := true }

/-- Disable sign `i` in every block (R31). -/
def State.disableSign (i : SignNo) (s : State) : State :=
  let s := (((s.linkDisable i).leaveQueue i).setJob i .disabled).loaderDisable i
  (s.scheduleDisable i).modifySign i SignState.dropped

/-- Replace the applied copy of sign `i`. -/
def State.setEntry (i : SignNo) (e : SignEntry) (s : State) : State := s.modifySign i fun g => { g with entry := e }

/-- The values an enable gives the sign in every block, but for the job state, RESYNC and the wanted page (R31, R146). -/
def SignState.enabledWith (e : SignEntry) (g : SignState) : SignState :=
  { g with
    entry := e
    pendingClass := none, again := none, abort := none, forceFull := true, partialCount := 0, ring := [],
    shownTag := 0, lastTag := 0, plan := none, lastUpdate := none
    activePage := none, generation := 0
    recordDue := true }

/-- Mark the sign RESYNC and clear its order-reported flag, as every commit that leaves it enabled does (R30, R97). -/
def State.resyncCommitted (i : SignNo) (s : State) : State :=
  (s.markResync i).modifySign i fun g => { g with orderReported := none }

/-- The enabled sign that holds a link and drop (R32). -/
def State.dropHolder (s : State) (e : SignEntry) : Option SignNo :=
  s.findSign fun g => g.entry.enabled && g.entry.link == e.link && g.entry.drop == e.drop

/-- Enable the DISABLED sign `i` with entry `e`, unless another sign holds its link and drop (R31, R32; log 17). -/
def State.enableSign (i : SignNo) (e : SignEntry) (s : State) : State :=
  match s.dropHolder e with
  | some j =>
    (s.setEntry i { e with enabled := false }).report
      { kind := .duplicateDrop, sign := some i, page := none, detail := j.val }
  | none =>
    let s := s.modifySign i (SignState.enabledWith e)
    let s := s.setJob i (if s.linkOn e.link then .shown else .offline)
    (s.resyncCommitted i).evaluate i

/-! ## Sign-entry commits (R29, R30) -/

/-- The fields whose change disables and enables the sign (R30). -/
def SignEntry.samePanel (a b : SignEntry) : Bool :=
  a.link == b.link && a.drop == b.drop && a.columns == b.columns && a.rows == b.rows && a.pageCount == b.pageCount

/-- The fields whose change in place re-evaluates the wanted page (R30). -/
def SignEntry.sameChoice (a b : SignEntry) : Bool :=
  a.zone == b.zone && a.fallback == b.fallback && a.ghostLimit == b.ghostLimit

/-- A commit that changes an enabled sign in place (R30). -/
def State.updateSign (i : SignNo) (e : SignEntry) (s : State) : State :=
  let old := (s.sign i).entry
  let s := s.setEntry i e
  let s := if old.sameChoice e then s else s.evaluate i
  s.resyncCommitted i

/-- Make the sign DISABLED if it is enabled (R29). -/
def State.disableIfEnabled (i : SignNo) (s : State) : State :=
  if (s.sign i).entry.enabled then s.disableSign i else s

/-- An applied sign-entry commit of sign `i`, its fields taken from the image (R20, R29, R30). -/
def State.commitSign (i : SignNo) (s : State) : State :=
  let raw := rawSign s.dir.image i
  let old := (s.sign i).entry
  if raw.enabled then
    match raw.geometryCause with
    | some c =>
      ((s.report { kind := .config, sign := some i, page := none, detail := c }).disableIfEnabled i).setEntry i
        { raw with enabled := false }
    | none =>
      if !old.enabled then s.enableSign i raw.clamped
      else if old.samePanel raw.clamped then s.updateSign i raw.clamped
      else (s.disableSign i).takeUp.enableSign i raw.clamped
  else (s.disableIfEnabled i).setEntry i raw.clamped

/-! ## Clock-set commits (R33) -/

/-- An applied clock-set commit with sequence byte `q` (R33). -/
def State.commitClock (q : Byte) (s : State) : State :=
  if s.dir.lastClockSeq = some q then s
  else { s with dir.lastClockSeq := some q }.setClock (parseClockSet s.dir.image) q

/-! ## Emptying (R35, R37, R40; R62, R85, R108, R125, R147, R171, R173) -/

/-- The clock unit at a restart, an entry into WAITING or a new load (R108). -/
def Clock.emptied (c : Clock) : Clock :=
  { c with lastOffset := 0, pulseMode := false, pulseMissing := 0, armed := false, engine := .idle }

/-- The applied header and entries are cleared and the blocks take their emptying tables' values. -/
def State.clearBlocks (s : State) : State :=
  { s with
    dir.header := none
    tm := .reset
    pl := .reset
    clk := s.clk.emptied
    pc := .reset
    lines := #v[(s.line 0).emptied, (s.line 1).emptied, (s.line 2).emptied, (s.line 3).emptied]
    links := #v[(s.link 0).emptied, (s.link 1).emptied, (s.link 2).emptied, (s.link 3).emptied]
    signs := Vector.replicate 256 .reset }

/-- Empty the working state; what the emptying tables keep is kept. The requests of every requester but the report writer
go (R15, R16), and the ring stops being placed (R173, R182). -/
def State.emptyWorking (s : State) : State := (s.withdraw (· != Requester.report)).clearBlocks.unplaceRing

/-- The load begins again once the links are idle (R37, R40). LOADING is not left, so block due stays as it stood (R180,
log 38). -/
def State.loadAgain (s : State) : State := { s.emptyWorking with dir.load := .awaitLinks }

/-- Enter LOADING; the status block is due at the change of part state (R40, R180). -/
def State.enterLoading (s : State) : State :=
  { s with dir.part := .loading, dir.load := .awaitLinks, rw.blockDue := true }

/-- A restart (R40). -/
def State.restart (s : State) : State := s.emptyWorking.enterLoading

/-- DIRECTORY_REFUSED, if a header is applied (R35). -/
def State.reportRefused (cause : Nat) (s : State) : State :=
  if s.dir.header.isSome then s.report { kind := .directoryRefused, sign := none, page := none, detail := cause } else s

/-- A header refused: the part enters WAITING (R35). -/
def State.refuseHeader (cause : Nat) (s : State) : State :=
  { (s.reportRefused cause).emptyWorking with dir.part := .waiting, dir.load := .idle, rw.blockDue := true }

/-! ## Header commits (R23 to R26, R34, R37) -/

/-- A link's enable in a header. -/
def Header.link (h : Header) (l : LinkNo) : Bool := h.linkEnable.getLsbD l

/-- The change of link `l`'s enable from header `old` to header `new`, which is already applied (R25, R144, R169). -/
def State.changeLink (old new : Header) (l : LinkNo) (s : State) : State :=
  if old.link l && !new.link l then s.linkOff l
  else if !old.link l && new.link l then s.linkOnSet l
  else s

/-- Apply changed settings in place, each handed to its user (R25; log 21). -/
def State.applySettings (h : Header) (s : State) : State :=
  let old := s.settings
  let s := { s with dir.header := some h }
  let s := forLinks (State.changeLink old h) s
  let s := if s.dir.part = .running ∧ old.heartbeatModulus ≠ h.heartbeatModulus then s.changeModulus else s
  s.evalAttn

/-- During LOADING the load's step 1 read has ended (R37). -/
def State.headerReached (s : State) : Bool :=
  match s.dir.load with
  | .consumer => true
  | .awaitRing _ => true
  | .lines => true
  | .signs _ => true
  | .idle => false
  | .awaitLinks => false
  | .header => false

/-- A header commit: validation, then the part state's handling (R23, R25, R26, R34, R35, R37; log 26). -/
def State.commitHeader (s : State) : State :=
  let h := parseHeader s.dir.image
  match s.dir.part, headerCause s.mp.windowBase s.dir.image with
  | .waiting, some _ => s
  | .waiting, none => s.enterLoading
  | .loading, some c => if s.headerReached then s.refuseHeader c else s
  | .loading, none =>
    if !s.headerReached then s
    else if s.settings.sameRegions h then (if s.settings = h then s else s.applySettings h)
    else s.loadAgain
  | .running, some c => s.refuseHeader c
  | .running, none =>
    if restartFlag s.dir.image || !s.settings.sameRegions h then s.restart
    else if s.settings = h then s
    else s.applySettings h

/-! ## Which records are reached (R28, R34, R37) -/

/-- A line entry's commit or clear is handed on: in RUNNING, and in LOADING once step 3 has ended. -/
def State.lineReached (s : State) : Bool :=
  match s.dir.part, s.dir.load with
  | .running, _ => true
  | .loading, .signs _ => true
  | _, _ => false

/-- Sign `i`'s commit is applied: in RUNNING, and in LOADING once the transaction that holds it has ended. -/
def State.signReached (s : State) (i : SignNo) : Bool :=
  match s.dir.part, s.dir.load with
  | .running, _ => true
  | .loading, .signs k => decide (i.val / 16 < k)
  | _, _ => false

/-- The clock-set record, the heartbeat word and the consumer index are taken outside WAITING (R34). -/
def State.takesWords (s : State) : Bool := s.dir.part != .waiting

/-! ## One byte of a window run (R19 to R21, R28) -/

/-- What the byte `v` at window offset `off` brings about once it is in the image. -/
def State.windowAction (off : Nat) (v : Byte) (s : State) : State :=
  if off = 0xFF then s.commitHeader
  else if 0x100 ≤ off ∧ off < 0x140 then
    let n : LineNo := Fin.ofNat 4 ((off - 0x100) / 16)
    if off % 16 = 14 then (if s.lineReached then s.clearLine n else s)
    else if off % 16 = 15 then (if s.lineReached then s.commitLine n else s)
    else s
  else if off = 0x20F then (if s.takesWords then s.commitClock v else s)
  else if off = 0x211 then (if s.takesWords then s.serveHeartbeat (be16 (s.dir.image.read 0x210) v) else s)
  else if off = 0x221 then (if s.takesWords then s.takeConsumer (be16 (s.dir.image.read 0x220) v) else s)
  else if 0x1000 ≤ off ∧ off < 0x2000 ∧ off % 16 = 15 then
    let i : SignNo := Fin.ofNat 256 ((off - 0x1000) / 16)
    if s.signReached i then s.commitSign i else s
  else s

/-- One byte of a window run: into the image if its offset is imaged, then its action (R19, R20, R21, R22). -/
def State.windowByte (off : Nat) (v : Byte) (s : State) : State :=
  if imaged off then { s with dir.image := s.dir.image.write off v }.windowAction off v else s

/-- A byte at this window offset hands something on: a commit byte, a clear byte, or the last byte of a word (R20, R21,
R28). -/
def actsAt (off : Nat) : Bool :=
  off == 0xFF || (decide (0x100 ≤ off) && decide (off < 0x140) && decide (14 ≤ off % 16)) || off == 0x20F ||
    off == 0x211 || off == 0x221 || (decide (0x1000 ≤ off) && decide (off < 0x2000) && off % 16 == 15)

/-- A window run, byte by byte in travel order (R19, R20). What one record brings about is complete, work taken up
included, before the next record of the run acts (R20, R47, R72, R99). -/
def State.windowRun : List (Nat × Byte) → State → State
  | [], s => s
  | (off, v) :: rest, s =>
    State.windowRun rest
      (if actsAt off && rest.any (actsAt ·.1) then (s.windowByte off v).takeUp else s.windowByte off v)

/-! ## The directory load (R36, R38, R40) -/

/-- Place a directory-load read of `len` bytes at a window offset. -/
def State.placeLoad (kind : OwnKind) (off len : Nat) (s : State) : State :=
  s.place { kind := kind, addr := (s.mp.windowBase + off) % Config.memorySize, len := len, data := [] }

/-- Begin the load at step 1 (R36, R40 step 5). -/
def State.startLoad (s : State) : State := { s with dir.load := .header }.place (headerRead s.mp.windowBase)

/-- Turn on the links whose enable the header applied at step 1 has on (R166, R171). -/
def State.linksOn (s : State) : State := forLinks (fun l s => if s.linkOn l then s.linkOnSet l else s) s

/-- Step 1's read has ended and its bytes stand in the image (R36). -/
def State.loadHeader (s : State) : State :=
  match headerCause s.mp.windowBase s.dir.image with
  | some c => s.refuseHeader c
  | none =>
    let s := { s with dir.header := some (parseHeader s.dir.image) }.linksOn
    { s with dir.load := .consumer }.placeLoad .dirConsumer 0x220 2

/-- Step 2's read has ended: its value waits for the report writer to take its ring (R36, R173). -/
def State.loadConsumer (s : State) : State := { s with dir.load := .awaitRing (s.dir.image.word 0x220) }

/-- The report writer takes its ring, and step 3 is read (R36, R173; log 22). -/
def State.takeRing (v : Nat) (s : State) : State := { s.placeRing v with dir.load := .lines }.placeLoad .dirLines 0x100 64

/-- Step 3's read has ended: lines 0 to 3 are applied in order and step 4 begins (R36). -/
def State.loadLines (s : State) : State :=
  let s := (((s.commitLine 0).commitLine 1).commitLine 2).commitLine 3
  { s with dir.load := .signs 0 }.placeLoad (.dirSigns 0) 0x1000 256

/-- The sixteen signs of a step 4 transaction, in sign order (R36). -/
def signsOf (k : Nat) : List SignNo := (List.range 16).map fun n => Fin.ofNat 256 (16 * k + n)

/-- The load ends: RUNNING, DIRECTORY_LOADED with the count of enabled signs, the heartbeat starts (R38). -/
def State.endLoad (s : State) : State :=
  let s := { s with dir.part := .running, dir.load := .idle, rw.blockDue := true }
  (s.report { kind := .directoryLoaded, sign := none, page := none, detail := s.countSigns (·.entry.enabled) }).startHeartbeat

/-- Apply the entries of signs one after another: each is complete, work taken up included, before the next (R36, R47, R72,
R99). -/
def State.applySigns : List SignNo → State → State
  | [], s => s
  | [i], s => s.commitSign i
  | i :: rest, s => State.applySigns rest (s.commitSign i).takeUp

/-- Step 4's transaction `k` has ended: its entries are applied, and the next is read or the load ends (R36, R38). -/
def State.loadSigns (k : Nat) (s : State) : State :=
  let s := State.applySigns (signsOf k) s
  if k < 15 then
    { s with dir.load := .signs (k + 1) }.placeLoad (.dirSigns (k + 1)) (0x1000 + 256 * (k + 1)) 256
  else s.endLoad

end Sys2Proof.Machine
end

