-- ==== Sys2Proof/Machine/Path.lean ====
section
/-! DEFINITION. The memory path (chapter 1): the host port, the snoop, the memory-port arbiter, device reset, and what every event
leaves the blocks to do at its end. -/

namespace Sys2Proof.Machine

/-! ## The host port (R1 to R4, R11) -/

/-- The host would be granted now: RESET_N is released, no own transaction is in progress, and no own request waits or
the host-grant count is below 4 (R11, R13). -/
def State.hostMayGo (s : State) : Bool :=
  !s.resetHeld && s.mp.running.isNone && (s.mp.waiting.isEmpty || decide (s.mp.grantCount < Config.hostGrantLimit))

/-- Grant the held host transaction if the arbiter gives it the port (R11). The snoop of a write so granted follows within
the same event (`State.snoopHost`). -/
def State.grantHost (s : State) : State :=
  match s.mp.host with
  | none => s
  | some c =>
    if !c.granted && s.hostMayGo then
      { s with
        mp.host := some { c with granted := true }
        mp.grantCount := if s.mp.waiting.isEmpty then s.mp.grantCount else s.mp.grantCount + 1 }
    else s

/-- The host issues a command: it is granted at once or held (R3). The host port admits one transaction at a time. -/
def State.issue (kind : HostKind) (addr len : Nat) (data : List Byte) (s : State) : State :=
  match s.mp.host with
  | some _ => s
  | none =>
    { s with
      mp.host := some
        { kind := kind, addr := addr, len := len, data := data.take len, granted := false, snooped := false } }.grantHost

/-- The granted host transaction has this command kind and, but for other commands, this address and at least the bytes
carried (R4, log 6). -/
def State.carries (s : State) (kind : HostKind) (addr n : Nat) : Bool :=
  match s.mp.host with
  | none => false
  | some c => c.granted && c.kind == kind && (kind == .other || (c.addr == addr && decide (n ≤ c.len)))

/-- The host transaction ends and the memory port is free. -/
def State.endHost (s : State) : State := { s with mp.host := none }

/-- Hand a run to its owner (R8). -/
def State.handRun (r : Run) (s : State) : State :=
  match r with
  | .window bytes => s.windowRun bytes
  | .tile n => s.tileWritten n
  | .map i p bytes => s.mapRunWritten i p bytes
  | .schedule i => s.scheduleWritten i
  | .dropped => s

/-- Hand runs to their owners in order (R8). What one run brings about is complete, work taken up included, before the next
is handed (R47, R72, R99). -/
def State.handRuns : List Run → State → State
  | [], s => s
  | [r], s => s.handRun r
  | r :: rest, s => State.handRuns rest (s.handRun r).takeUp

/-- The snoop of a host write: its runs, cut by the bounds now in force, go to their owners (R5, R7, R8). -/
def State.snoop (addr : Nat) (data : List Byte) (s : State) : State :=
  s.handRuns (cutRuns s.mp.windowBase s.dir.header addr data)

/-- A granted host write whose snoop is still to be handed on. -/
def HostClaim.unsnooped (c : HostClaim) : Bool := c.granted && c.kind == .write && !c.snooped

/-- A granted host write is still to be snooped. -/
def State.snoopDue (s : State) : Bool :=
  match s.mp.host with
  | none => false
  | some c => c.unsnooped

/-- The snoop of a write that this event has granted (R5). What the event has brought about is complete before it, work
taken up included: work is taken at the moment it joins (R47, R72, R99). -/
def State.snoopHost (s : State) : State :=
  match s.mp.host with
  | none => s
  | some c => if c.unsnooped then { s with mp.host := some { c with snooped := true } }.takeUp.snoop c.addr c.data else s

/-! ## Own grants and ends (R5, R10, R12, R16) -/

/-- The requesters in the order of the classes, the links from the one after the pointer (R12). -/
def requesterOrder (pointer : LinkNo) : List Requester :=
  [.report, .directory, .pageMap, .schedule, .link (pointer + 1), .link (pointer + 2), .link (pointer + 3), .link pointer,
    .signature]

/-- The own request the arbiter chooses (R12). -/
def chooseOwn (pointer : LinkNo) (waiting : List OwnReq) : Option OwnReq :=
  (requesterOrder pointer).findSome? fun r => waiting.find? (·.requester == r)

/-- The memory port is free for the part: no transaction is in progress, and no host transaction is granted or would be
granted first (R11, R13). -/
def State.partMayGo (s : State) : Bool :=
  !s.resetHeld && s.mp.running.isNone &&
    (match s.mp.host with
    | none => true
    | some c => !c.granted && decide (Config.hostGrantLimit ≤ s.mp.grantCount))

/-- Grant an own request: the count becomes 0, a link's grant moves the pointer, and a read takes its bytes (R5, R11,
R12). -/
def State.grantOwn (q : OwnReq) (s : State) : State :=
  { s with
    mp.waiting := s.mp.waiting.erase q
    mp.grantCount := 0
    mp.linkPointer := match q.requester with | .link l => l | _ => s.mp.linkPointer
    mp.running := some
      { req := q, bytes := if q.isWrite then [] else s.mem.readBytes q.addr q.len, discard := false } }

/-- The transaction in progress is of a kind. -/
def State.inProgress (s : State) (p : OwnKind → Bool) : Bool :=
  match s.mp.running with
  | some x => p x.req.kind
  | none => false

/-- The own transaction in progress ends: the bytes of a write stand in memory (log 8), the port is free and a held host
transaction is granted, and what was read goes to its requester unless it was emptied meanwhile (R10, R11, R16). The snoop
of a write granted here comes at the end of the event, after what was read (R17, log 6). -/
def State.endOwn (f : OwnReq → List Byte → State → State) (s : State) : State :=
  match s.mp.running with
  | none => s
  | some x =>
    let s := { s with
      mp.running := none
      mem := if x.req.isWrite then s.mem.writeBytes x.req.addr x.req.data else s.mem }.grantHost
    if x.discard then s else f x.req x.bytes s

/-! ## The end of every event (log 14) -/

/-- The blocks take up what waits for them, and requests that they have become free to place are placed (R10, R47, R48,
R72, R99, R159, R177). -/
def State.takeAll (s : State) : State := (forLinks State.placeTile s.takeUp).placeReport

/-- What an event leaves to do at once: a held host transaction that may go is granted and, being a write, snooped once the
blocks have taken up the event's work; then the blocks take up what the snoop leaves, and requests are placed (R5, R10,
R11, R47, R72, R99). -/
def State.settle (s : State) : State := s.grantHost.snoopHost.takeAll

/-- An event with its precondition: without it, or while RESET_N holds every block cleared, nothing changes (R13, R39,
log 2). -/
def State.onEvent (ok : Bool) (f : State → State) (s : State) : State :=
  if !s.resetHeld && ok then (f s).settle else s

/-! ## Device reset (R13, R14, R39) -/

/-- Every block cleared to its values after device reset. Frame memory, the pin levels, the window base and a host command
still held are kept (R13, R14). -/
def State.cleared (s : State) : State :=
  { s with
    mp := { s.mp with
      host := s.mp.host.filter (!·.granted), grantCount := 0, linkPointer := 3, waiting := [], running := none }
    dir := .reset
    tm := .reset
    pl := .reset
    clk := .reset
    pc := .reset
    rw := .reset
    lines := #v[.reset (s.line 0).raw, .reset (s.line 1).raw, .reset (s.line 2).raw, .reset (s.line 3).raw]
    links := Vector.replicate 4 .reset
    signs := Vector.replicate 256 .reset }

/-- Memory when RESET_N cuts the transaction in progress: of a write the first bytes, already transferred, stay (R13). -/
def State.cutMemory (ownSent hostSent : Nat) (s : State) : Memory :=
  match s.mp.running with
  | some x => if x.req.isWrite then s.mem.writeBytes x.req.addr (x.req.data.take ownSent) else s.mem
  | none =>
    match s.mp.host with
    | some c => if c.granted && c.kind == .write then s.mem.writeBytes c.addr (c.data.take hostSent) else s.mem
    | none => s.mem

/-- RESET_N is asserted (R13, R39). -/
def State.assertReset (ownSent hostSent : Nat) (s : State) : State :=
  { s.cleared with resetHeld := true, mem := s.cutMemory ownSent hostSent }

/-- RESET_N is released: the straps are sampled, a held host transaction is the first claimant, and the directory load
places its step 1 read (R6, R14, R36, R39). -/
def State.releaseReset (straps : Fin 4) (s : State) : State :=
  let s := { s.cleared with resetHeld := false, mp.windowBase := Config.windowBase straps }.grantHost
  (s.place (headerRead s.mp.windowBase)).settle

end Sys2Proof.Machine
end

