-- ==== Sys2Proof/Machine/LineSteps.lean ====
section
/-! DEFINITION. The meanings of the general lines' commands (R110, R111). -/

namespace Sys2Proof.Machine

/-- LINE_LEVEL_CHANGE (R110). The pin level is seen while RESET_N is asserted too (R125, log 18). -/
def execLineLevelChange (n : LineNo) (high : Bool) (s : State) : Host.Outcome State Fault Refusal :=
  .next
    (if s.resetHeld then s.modifyLine n fun x => { x with raw := high }
    else s.onEvent true (State.modifyLine n (LineState.levelChanged s.settings.lineFilter high)))

/-- LINE_FILTER_EXPIRY (R110, R111). -/
def execLineFilterExpiry (n : LineNo) (s : State) : Host.Outcome State Fault Refusal :=
  .next (s.onEvent (s.line n).timer.isSome (State.filterExpires n))

end Sys2Proof.Machine
end

