-- ==== Sys2Proof/Machine/LinkSteps.lean ====
section
/-! DEFINITION. The meanings of the link controllers' commands (chapter 8). `t` is the moment of the event, µs (log 10). -/

namespace Sys2Proof.Machine

/-- No frame is on its way and the link is not OFF: its idle gap has ended, or it is IDLE (R156). -/
def LinkState.mayChoose (k : LinkState) : Bool := k.exch.isNone && (k.phase == .gap || k.phase == .idle)

/-- LINK_IDLE (R156; log 11). -/
def execLinkIdle (l : LinkNo) (t : Nat) (s : State) : Host.Outcome State Fault Refusal :=
  .next (s.onEvent (s.link l).mayChoose fun s => (s.modifyLink l fun k => { k with phase := .idle }).choose l t)

/-- FRAME_SENT (R149, R152): SDE is released and the answer window opens. -/
def execFrameSent (l : LinkNo) (s : State) : Host.Outcome State Fault Refusal :=
  .next (s.onEvent ((s.link l).phase == .sending) (State.modifyLink l fun k => { k with phase := .awaiting, rx := [] }))

/-- ANSWER_WINDOW_EXPIRY (R152): reason 1, no answer. -/
def execAnswerWindowExpiry (l : LinkNo) (t : Nat) (s : State) : Host.Outcome State Fault Refusal :=
  .next (s.onEvent ((s.link l).phase == .awaiting) (State.attemptEnds l (.failed 1) t))

/-- An answer is being received, or begins with the characters given (R152). -/
def LinkState.mayAnswer (k : LinkState) (bytes : List Byte) : Bool :=
  k.phase == .receiving || (k.phase == .awaiting && !bytes.isEmpty)

/-- The verdict on an answer whose last characters are `bytes` (R153). -/
def LinkState.verdict (k : LinkState) (bytes : List Byte) : Verdict :=
  judge ((k.exch.map (·.drop)).getD 0) (bytes.foldl storeCharacter k.rx)

/-- STATE_ANSWER (R152, R153). -/
def execStateAnswer (l : LinkNo) (bytes : List Byte) (t : Nat) (s : State) : Host.Outcome State Fault Refusal :=
  .next (s.onEvent ((s.link l).mayAnswer bytes) (State.attemptEnds l ((s.link l).verdict bytes) t))

/-- A back-off wait is running for the retry (R154, R157, R167; log 20). -/
def LinkState.backingOff (k : LinkState) : Retry → Bool
  | .job => match k.job with | some c => (match c.wait with | .backoff _ => true | _ => false) | none => false
  | .poll i => k.polls.any fun p => p.sign == i && decide (0 < p.attempts) && !p.passed
  | .survey => match k.survey with | some v => (match v.wait with | .backoff _ => true | _ => false) | none => false

/-- The retry becomes eligible (R154). -/
def LinkState.retryReady (k : LinkState) : Retry → LinkState
  | .job => { k with job := k.job.map fun c => { c with wait := .ready } }
  | .poll i => k.modifyPoll i fun p => { p with passed := true }
  | .survey => { k with survey := k.survey.map fun v => { v with wait := .ready } }

/-- BACKOFF_EXPIRY (R154). -/
def execBackoffExpiry (l : LinkNo) (r : Retry) (s : State) : Host.Outcome State Fault Refusal :=
  .next (s.onEvent ((s.link l).backingOff r) (State.modifyLink l (LinkState.retryReady · r)))

/-- POLL_DUE (R157). -/
def execPollDue (i : SignNo) (s : State) : Host.Outcome State Fault Refusal :=
  let l := (s.sign i).entry.link
  .next (s.onEvent ((s.link l).polls.any fun p => p.sign == i && !p.passed)
    (State.modifyLink l (LinkState.modifyPoll i fun p => { p with passed := true })))

/-- The job waits to repeat a busy LOAD (R160). -/
def LinkState.busyWaiting (k : LinkState) : Bool :=
  match k.job with
  | some c => (match c.wait with | .busyRepeat _ => true | _ => false)
  | none => false

/-- LOAD_BUSY_REPEAT_DUE (R160). -/
def execLoadBusyRepeatDue (l : LinkNo) (s : State) : Host.Outcome State Fault Refusal :=
  .next (s.onEvent (s.link l).busyWaiting
    (State.modifyLink l fun k => { k with job := k.job.map fun c => { c with wait := .ready } }))

/-- The planned slot a tile read of link `l` is for. -/
def OwnKind.tileFor (l : LinkNo) : OwnKind → Option Nat
  | .tileRead m j => if m = l then some j else none
  | _ => none

/-- LINK_TILE_READ_END (R159). -/
def execLinkTileReadEnd (l : LinkNo) (s : State) : Host.Outcome State Fault Refusal :=
  .next (s.onEvent (s.inProgress fun k => (k.tileFor l).isSome) (State.endOwn fun q bytes s =>
    match q.kind.tileFor l with
    | some j => s.fillBuffer l j bytes
    | none => s))

/-- The sign is REFRESHING and its refresh timer runs (R164). -/
def State.refreshRunning (s : State) (i : SignNo) : Bool :=
  (s.sign i).job == .refreshing && (s.link (s.sign i).entry.link).refresh.any (·.1 == i)

/-- REFRESH_LIMIT_EXPIRY (R137, R164). -/
def execRefreshLimitExpiry (i : SignNo) (s : State) : Host.Outcome State Fault Refusal :=
  .next (s.onEvent (s.refreshRunning i) (State.refreshExpires i))

/-- SURVEY_TIMER_EXPIRY (R166). -/
def execSurveyTimerExpiry (l : LinkNo) (s : State) : Host.Outcome State Fault Refusal :=
  .next (s.onEvent (s.link l).surveyTimer.isSome
    (State.modifyLink l fun k => { k with surveyTimer := some s.settings.surveyInterval, surveyDue := true }))

/-- A character received by a link, by its line phase (R149, R152). -/
def LinkState.received (v : Byte) (k : LinkState) : LinkState :=
  match k.phase with
  | .awaiting => { k with phase := .receiving, rx := [v] }
  | .receiving => { k with rx := storeCharacter k.rx v }
  | .idle => { k with phase := .gap }
  | .gap => k
  | .sending => k
  | .off => k

/-- CHARACTER_RECEIVED (R149, R152). -/
def execCharacterReceived (l : LinkNo) (v : Byte) (s : State) : Host.Outcome State Fault Refusal :=
  .next (s.onEvent true (State.modifyLink l (LinkState.received v)))

end Sys2Proof.Machine
end

