-- ==== Sys2Proof/Machine/LoadSteps.lean ====
section
/-! DEFINITION. The meanings of the directory-load commands (R36 to R40, R173). -/

namespace Sys2Proof.Machine

/-- LOAD_HEADER_READ_END (R36 step 1). -/
def execLoadHeaderReadEnd (s : State) : Host.Outcome State Fault Refusal :=
  .next (s.onEvent (s.inProgress (· == .dirHeader)) (State.endOwn fun _ bytes s => (s.loadImage 0 bytes).loadHeader))

/-- LOAD_CONSUMER_READ_END (R36 step 2). -/
def execLoadConsumerReadEnd (s : State) : Host.Outcome State Fault Refusal :=
  .next (s.onEvent (s.inProgress (· == .dirConsumer))
    (State.endOwn fun _ bytes s => (s.loadImage 0x220 bytes).loadConsumer))

/-- LOAD_LINE_TABLE_READ_END (R36 step 3). -/
def execLoadLineTableReadEnd (s : State) : Host.Outcome State Fault Refusal :=
  .next (s.onEvent (s.inProgress (· == .dirLines))
    (State.endOwn fun _ bytes s => (s.loadImage 0x100 bytes).loadLines))

/-- The transaction of step 4 a kind names. -/
def OwnKind.signsStep : OwnKind → Option Nat
  | .dirSigns k => some k
  | _ => none

/-- LOAD_SIGN_TABLE_READ_END (R36 step 4, R38). -/
def execLoadSignTableReadEnd (s : State) : Host.Outcome State Fault Refusal :=
  .next (s.onEvent (s.inProgress (·.signsStep.isSome)) (State.endOwn fun q bytes s =>
    match q.kind.signsStep with
    | some k => (s.loadImage (0x1000 + 256 * k) bytes).loadSigns k
    | none => s))

/-- All four link controllers are idle: no exchange is in flight (R40 step 5). -/
def State.linksQuiet (s : State) : Bool :=
  (s.link 0).exch.isNone && (s.link 1).exch.isNone && (s.link 2).exch.isNone && (s.link 3).exch.isNone

/-- The load waits for the links, the links are idle, and no abandoned directory read is on the memory port (R40 step 5,
R10). -/
def State.loadMayStart (s : State) : Bool :=
  s.dir.part == .loading && s.dir.load == .awaitLinks && s.linksQuiet && !s.busy .directory

/-- DIRECTORY_LOAD_START (R40 step 5). -/
def execDirectoryLoadStart (s : State) : Host.Outcome State Fault Refusal :=
  .next (s.onEvent s.loadMayStart State.startLoad)

/-- The consumer index the ring's placing waits with. -/
def LoadPos.ringIndex : LoadPos → Option Nat
  | .awaitRing v => some v
  | _ => none

/-- A ring write is waiting or in progress. -/
def OwnKind.ringWrite : OwnKind → Bool
  | .indexWrite _ => true
  | .entryWrite => true
  | _ => false

/-- The old ring's pending entries and index writes have ended (R173). -/
def State.ringDrained (s : State) : Bool :=
  !s.ringWork && !s.mp.waiting.any (·.kind.ringWrite) && !s.inProgress OwnKind.ringWrite

/-- RING_PLACE (R173). -/
def execRingPlace (s : State) : Host.Outcome State Fault Refusal :=
  match s.dir.load.ringIndex with
  | none => .next s
  | some v => .next (s.onEvent s.ringDrained (State.takeRing v))

end Sys2Proof.Machine
end

