-- ==== Sys2Proof/Machine/PageSteps.lean ====
section
/-! DEFINITION. The meaning of the page loader's command (R73). -/

namespace Sys2Proof.Machine

/-- The sign and the part of the map a page-map read is for. -/
def OwnKind.mapOf : OwnKind → Option (SignNo × Bool)
  | .mapRead i second => some (i, second)
  | _ => none

/-- MAP_READ_END (R73, R75). -/
def execMapReadEnd (s : State) : Host.Outcome State Fault Refusal :=
  .next (s.onEvent (s.inProgress (·.mapOf.isSome)) (State.endOwn fun q bytes s =>
    match q.kind.mapOf with
    | some (i, second) => s.mapReadEnds i second bytes
    | none => s))

end Sys2Proof.Machine
end

