-- ==== Sys2Proof/Machine/PortSteps.lean ====
section
/-! DEFINITION. The meanings of the reset commands, the host port's commands, the granted host writes and the own grant
(chapter 1, with the commits of chapter 2 that a write carries). -/

namespace Sys2Proof.Machine

/-- RESET_N_ASSERTED (R13): the transaction in progress is cut and every block is held cleared. -/
def execResetAsserted (ownSent hostSent : Nat) (s : State) : Host.Outcome State Fault Refusal :=
  .next (if s.resetHeld then s else s.assertReset ownSent hostSent)

/-- RESET_N_RELEASED (R39): reset values, LOADING, the load's step 1 read. -/
def execResetReleased (straps : Fin 4) (s : State) : Host.Outcome State Fault Refusal :=
  .next (if s.resetHeld then s.releaseReset straps else s)

/-- The host issues a command at a free host port; a write granted at once is snooped (R1, R3, R5). -/
def State.issueHost (kind : HostKind) (addr len : Nat) (data : List Byte) (s : State) : State :=
  match s.mp.host with
  | some _ => s
  | none =>
    if (s.issue kind addr len data).snoopDue then (s.issue kind addr len data).settle else s.issue kind addr len data

/-- HOST_COMMAND_ISSUE (R3, R5): granted at once or held. -/
def execHostCommandIssue (command : HostCommand) (addr len : Nat) (s : State) : Host.Outcome State Fault Refusal :=
  .next (s.issueHost command.kind addr len command.data)

/-- HOST_COMMAND_WITHDRAWN (R3): a held transaction leaves the arbiter; a granted one is not held. -/
def execHostCommandWithdrawn (s : State) : Host.Outcome State Fault Refusal :=
  .next { s with mp.host := s.mp.host.filter (·.granted) }

/-- The kind of a read (R2). -/
def readKind (fast : Bool) : HostKind := if fast then .fastRead else .plainRead

/-- A granted read is carried: the bytes memory holds go back to the host port, and nothing else changes (R1, R2). -/
def State.carryRead (kind : HostKind) (addr len : Nat) (s : State) : State :=
  let s := s.issue kind addr len []
  if !s.resetHeld && s.carries kind addr len then { s.endHost with mp.hostData := s.mem.readBytes addr len } else s

/-- HOST_READ (R1, R2): no effect but the bytes on the host port. -/
def execHostRead (fast : Bool) (addr len : Nat) (s : State) : Host.Outcome State Fault Refusal :=
  .next (s.carryRead (readKind fast) addr len)

/-- A granted command that is no read or write is carried unexamined (R2, log 9). -/
def State.carryOther (s : State) : State :=
  let s := s.issue .other 0 0 []
  if !s.resetHeld && s.carries .other 0 0 then s.endHost else s

/-- OTHER_HOST_COMMAND (R2). -/
def execOtherHostCommand (s : State) : Host.Outcome State Fault Refusal := .next s.carryOther

/-- The host write on the port is the granted one of this address and these bytes. -/
def HostClaim.isWrite (c : HostClaim) (addr : Nat) (data : List Byte) : Bool :=
  c.granted && c.kind == .write && c.addr == addr && c.data == data

/-- The bytes of a host write stand in memory and the host port is free (R1, R4). -/
def State.writeEnds (addr : Nat) (data : List Byte) (s : State) : State :=
  { s.endHost with mem := s.mem.writeBytes addr data }

/-- A host write is carried (R1, R4, R5, R8). At a free host port it is issued and, where the arbiter grants it at once,
carried whole: snooped at its grant, its bytes in memory at its end. Of a write that stands granted on the port, and so
has been snooped, the data phase ends (log 6). The rows of host writes name what the snoop meets; the bytes written
decide it, so every such row has this meaning (log 5). -/
def State.carryWrite (addr : Nat) (data : List Byte) (s : State) : State :=
  match s.mp.host with
  | none =>
    let s := s.issue .write addr data.length data
    s.onEvent (s.carries .write addr data.length) fun s => (s.writeEnds addr data).snoop addr data
  | some c => s.onEvent (c.isWrite addr data) (State.writeEnds addr data)

/-- HOST_WRITE (R8). -/
def execHostWrite (addr : Nat) (data : List Byte) (s : State) : Host.Outcome State Fault Refusal :=
  .next (s.carryWrite addr data)

/-- HEADER_COMMIT (R25): `State.commitHeader` is what its byte at 0x00FF brings about. -/
def execHeaderCommit (addr : Nat) (data : List Byte) (s : State) : Host.Outcome State Fault Refusal :=
  .next (s.carryWrite addr data)

/-- HEADER_RESTART (R26): `State.commitHeader` with the restart flag set. -/
def execHeaderRestart (addr : Nat) (data : List Byte) (s : State) : Host.Outcome State Fault Refusal :=
  .next (s.carryWrite addr data)

/-- LINE_ENTRY_COMMIT (R27): `State.commitLine` at byte 15 of a line entry. -/
def execLineEntryCommit (addr : Nat) (data : List Byte) (s : State) : Host.Outcome State Fault Refusal :=
  .next (s.carryWrite addr data)

/-- LINE_CLEAR (R28): `State.clearLine` at byte 14 of a line entry. -/
def execLineClear (addr : Nat) (data : List Byte) (s : State) : Host.Outcome State Fault Refusal :=
  .next (s.carryWrite addr data)

/-- SIGN_ENTRY_COMMIT (R30): `State.commitSign` at byte 15 of a sign entry. -/
def execSignEntryCommit (addr : Nat) (data : List Byte) (s : State) : Host.Outcome State Fault Refusal :=
  .next (s.carryWrite addr data)

/-- CLOCK_SET_COMMIT (R33): `State.commitClock` at 0x020F. -/
def execClockSetCommit (addr : Nat) (data : List Byte) (s : State) : Host.Outcome State Fault Refusal :=
  .next (s.carryWrite addr data)

/-- HEARTBEAT_WORD (R21): `State.serveHeartbeat` at 0x0211. -/
def execHeartbeatWord (addr : Nat) (data : List Byte) (s : State) : Host.Outcome State Fault Refusal :=
  .next (s.carryWrite addr data)

/-- CONSUMER_INDEX (R174): `State.takeConsumer` at 0x0221. -/
def execConsumerIndex (addr : Nat) (data : List Byte) (s : State) : Host.Outcome State Fault Refusal :=
  .next (s.carryWrite addr data)

/-- TILE_WRITE (R45): `State.tileWritten` for each tile run. -/
def execTileWrite (addr : Nat) (data : List Byte) (s : State) : Host.Outcome State Fault Refusal :=
  .next (s.carryWrite addr data)

/-- MAP_WRITE (R79): `State.mapRunWritten` for each map run. -/
def execMapWrite (addr : Nat) (data : List Byte) (s : State) : Host.Outcome State Fault Refusal :=
  .next (s.carryWrite addr data)

/-- SCHEDULE_WRITE (R100): `State.scheduleWritten` for each schedule run. -/
def execScheduleWrite (addr : Nat) (data : List Byte) (s : State) : Host.Outcome State Fault Refusal :=
  .next (s.carryWrite addr data)

/-- OWN_REQUEST_GRANT (R12): the port is the part's and an own request waits. -/
def execOwnRequestGrant (s : State) : Host.Outcome State Fault Refusal :=
  match chooseOwn s.mp.linkPointer s.mp.waiting with
  | none => .next s
  | some q => .next (if s.partMayGo then s.grantOwn q else s)

end Sys2Proof.Machine
end

