-- ==== Sys2Proof/Machine/ReportSteps.lean ====
section
/-! DEFINITION. The meanings of the ends of the report writer's writes (R177, R181). -/

namespace Sys2Proof.Machine

/-- REPORT_ENTRY_WRITE_END (R177): the entry leaves the pending list and an index write is owed. -/
def execReportEntryWriteEnd (s : State) : Host.Outcome State Fault Refusal :=
  .next (s.onEvent (s.inProgress (· == .entryWrite)) (State.endOwn fun _ _ s =>
    { s with rw.entries := s.rw.entries.tail, rw.owedIndex := true }))

/-- The index a producer index write carries. -/
def OwnKind.indexOf : OwnKind → Option Nat
  | .indexWrite v => some v
  | _ => none

/-- The published index becomes the written one, and ATTN is re-evaluated (R177, R181). -/
def State.publish (v : Nat) (s : State) : State :=
  { s with rw.ring := s.rw.ring.map fun (r : Ring) => { r with published := v } }.evalAttn

/-- PRODUCER_INDEX_WRITE_END (R177). -/
def execProducerIndexWriteEnd (s : State) : Host.Outcome State Fault Refusal :=
  .next (s.onEvent (s.inProgress (·.indexOf.isSome)) (State.endOwn fun q _ s =>
    match q.kind.indexOf with
    | some v => s.publish v
    | none => s))

/-- The transaction writes a status record or the status block. -/
def OwnKind.isStatus : OwnKind → Bool
  | .blockWrite => true
  | .recordWrite _ => true
  | _ => false

/-- STATUS_WRITE_END (R177): the report writer goes on to its next request. -/
def execStatusWriteEnd (s : State) : Host.Outcome State Fault Refusal :=
  .next (s.onEvent (s.inProgress OwnKind.isStatus) (State.endOwn fun _ _ s => s))

end Sys2Proof.Machine
end

