-- ==== Sys2Proof/Machine/ScheduleSteps.lean ====
section
/-! DEFINITION. The meanings of the schedule engine's commands (R101, R104). -/

namespace Sys2Proof.Machine

/-- The transaction is a resync's read. -/
def OwnKind.isResync : OwnKind → Bool
  | .schedResync _ => true
  | _ => false

/-- The transaction is an advance's read. -/
def OwnKind.isAdvance : OwnKind → Bool
  | .schedAdvance _ => true
  | _ => false

/-- SCHEDULE_RESYNC_READ_END (R101). -/
def execScheduleResyncReadEnd (s : State) : Host.Outcome State Fault Refusal :=
  .next (s.onEvent (s.inProgress OwnKind.isResync) (State.endOwn fun _ bytes s => s.resyncReadEnds bytes))

/-- SCHEDULE_ADVANCE_READ_END (R104). -/
def execScheduleAdvanceReadEnd (s : State) : Host.Outcome State Fault Refusal :=
  .next (s.onEvent (s.inProgress OwnKind.isAdvance) (State.endOwn fun _ bytes s => s.advanceReadEnds bytes))

end Sys2Proof.Machine
end

