-- ==== Sys2Proof/Machine/TileSteps.lean ====
section
/-! DEFINITION. The meanings of the signature engine's commands (R48 to R53). -/

namespace Sys2Proof.Machine

/-- In FETCH the delivered bytes take the engine to ACCUMULATE, A at 1 and B at 0 (R48, R50). -/
def State.startAccumulate (bytes : List Byte) (s : State) : State :=
  match s.tm.engine with
  | .fetch t => { s with tm.engine := .accumulate t bytes 1 0 }
  | _ => s

/-- SIGNATURE_READ_END (R48). -/
def execSignatureReadEnd (s : State) : Host.Outcome State Fault Refusal :=
  .next (s.onEvent (s.inProgress (· == .sigRead)) (State.endOwn fun _ bytes s => s.startAccumulate bytes))

/-- The engine is in ACCUMULATE. -/
def State.accumulating (s : State) : Bool :=
  match s.tm.engine with
  | .accumulate _ _ _ _ => true
  | .fetch _ => false
  | .idle => false

/-- SIGNATURE_COMPLETION (R49, R52, R53). -/
def execSignatureCompletion (s : State) : Host.Outcome State Fault Refusal :=
  .next (s.onEvent s.accumulating State.completeSignature)

end Sys2Proof.Machine
end

