-- ==== Sys2Proof/Machine/TimeSteps.lean ====
section
/-! DEFINITION. The meanings of the commands of the clock, the rotation and the heartbeat (R88, R89, R94, R106, R119), and the
part's one time-base cycle. -/

namespace Sys2Proof.Machine

/-- SECOND_TICK (R88). -/
def execSecondTick (s : State) : Host.Outcome State Fault Refusal := .next (s.onEvent true State.tickSecond)

/-- MINUTE_TICK (R89): the second tick that passes 59 (log 13). -/
def execMinuteTick (s : State) : Host.Outcome State Fault Refusal :=
  .next (s.onEvent (s.clk.second == 59) State.tickSecond)

/-- PULSE_MISSING (R94): the second tick that brings the armed counter to 180 (log 13). -/
def execPulseMissing (s : State) : Host.Outcome State Fault Refusal := .next (s.onEvent s.pulseMissingDue State.tickSecond)

/-- ROTATION_ADVANCE (R106; log 12). -/
def execRotationAdvance (i : SignNo) (s : State) : Host.Outcome State Fault Refusal :=
  .next (s.onEvent (s.sign i).rotationDue (State.rotate i))

/-- HEARTBEAT_LAPSE (R119): the second tick that brings the counter to 0 (log 13). -/
def execHeartbeatLapse (s : State) : Host.Outcome State Fault Refusal := .next (s.onEvent s.lapseDue State.tickSecond)

/-- One time-base cycle: the prescaler counts, and its 32 768th cycle makes a second tick (R88; log 1). -/
def State.tickCycle (s : State) : State :=
  if s.resetHeld then s
  else if s.clk.prescaler + 1 < Config.cyclesPerSecond then { s with clk.prescaler := s.clk.prescaler + 1 }
  else s.onEvent true State.tickSecond

end Sys2Proof.Machine
end

