-- ==== Sys2Proof/Machine/Dispatch.lean ====
section
/-! DEFINITION. One arm per command: its meaning. -/

namespace Sys2Proof.Machine

/-- A command's effect on everything but the queue. -/
def exec (i : Instr) (s : State) : Host.Outcome State Fault Refusal :=
  match i with
  | .resetAsserted ownSent hostSent => Sys2Proof.Machine.execResetAsserted ownSent hostSent s
  | .resetReleased straps => Sys2Proof.Machine.execResetReleased straps s
  | .hostCommandIssue command addr len => Sys2Proof.Machine.execHostCommandIssue command addr len s
  | .hostCommandWithdrawn => Sys2Proof.Machine.execHostCommandWithdrawn s
  | .hostRead fast addr len => Sys2Proof.Machine.execHostRead fast addr len s
  | .otherHostCommand => Sys2Proof.Machine.execOtherHostCommand s
  | .hostWrite addr data => Sys2Proof.Machine.execHostWrite addr data s
  | .headerCommit addr data => Sys2Proof.Machine.execHeaderCommit addr data s
  | .headerRestart addr data => Sys2Proof.Machine.execHeaderRestart addr data s
  | .lineEntryCommit addr data => Sys2Proof.Machine.execLineEntryCommit addr data s
  | .lineClear addr data => Sys2Proof.Machine.execLineClear addr data s
  | .signEntryCommit addr data => Sys2Proof.Machine.execSignEntryCommit addr data s
  | .clockSetCommit addr data => Sys2Proof.Machine.execClockSetCommit addr data s
  | .heartbeatWord addr data => Sys2Proof.Machine.execHeartbeatWord addr data s
  | .consumerIndex addr data => Sys2Proof.Machine.execConsumerIndex addr data s
  | .tileWrite addr data => Sys2Proof.Machine.execTileWrite addr data s
  | .mapWrite addr data => Sys2Proof.Machine.execMapWrite addr data s
  | .scheduleWrite addr data => Sys2Proof.Machine.execScheduleWrite addr data s
  | .ownRequestGrant => Sys2Proof.Machine.execOwnRequestGrant s
  | .loadHeaderReadEnd => Sys2Proof.Machine.execLoadHeaderReadEnd s
  | .loadConsumerReadEnd => Sys2Proof.Machine.execLoadConsumerReadEnd s
  | .loadLineTableReadEnd => Sys2Proof.Machine.execLoadLineTableReadEnd s
  | .loadSignTableReadEnd => Sys2Proof.Machine.execLoadSignTableReadEnd s
  | .directoryLoadStart => Sys2Proof.Machine.execDirectoryLoadStart s
  | .ringPlace => Sys2Proof.Machine.execRingPlace s
  | .signatureReadEnd => Sys2Proof.Machine.execSignatureReadEnd s
  | .signatureCompletion => Sys2Proof.Machine.execSignatureCompletion s
  | .mapReadEnd => Sys2Proof.Machine.execMapReadEnd s
  | .scheduleResyncReadEnd => Sys2Proof.Machine.execScheduleResyncReadEnd s
  | .scheduleAdvanceReadEnd => Sys2Proof.Machine.execScheduleAdvanceReadEnd s
  | .secondTick => Sys2Proof.Machine.execSecondTick s
  | .minuteTick => Sys2Proof.Machine.execMinuteTick s
  | .pulseMissing => Sys2Proof.Machine.execPulseMissing s
  | .rotationAdvance sign => Sys2Proof.Machine.execRotationAdvance sign s
  | .heartbeatLapse => Sys2Proof.Machine.execHeartbeatLapse s
  | .lineLevelChange line high => Sys2Proof.Machine.execLineLevelChange line high s
  | .lineFilterExpiry line => Sys2Proof.Machine.execLineFilterExpiry line s
  | .linkIdle link t => Sys2Proof.Machine.execLinkIdle link t s
  | .frameSent link => Sys2Proof.Machine.execFrameSent link s
  | .answerWindowExpiry link t => Sys2Proof.Machine.execAnswerWindowExpiry link t s
  | .stateAnswer link bytes t => Sys2Proof.Machine.execStateAnswer link bytes t s
  | .backoffExpiry link retry => Sys2Proof.Machine.execBackoffExpiry link retry s
  | .pollDue sign => Sys2Proof.Machine.execPollDue sign s
  | .loadBusyRepeatDue link => Sys2Proof.Machine.execLoadBusyRepeatDue link s
  | .linkTileReadEnd link => Sys2Proof.Machine.execLinkTileReadEnd link s
  | .refreshLimitExpiry sign => Sys2Proof.Machine.execRefreshLimitExpiry sign s
  | .surveyTimerExpiry link => Sys2Proof.Machine.execSurveyTimerExpiry link s
  | .reportEntryWriteEnd => Sys2Proof.Machine.execReportEntryWriteEnd s
  | .producerIndexWriteEnd => Sys2Proof.Machine.execProducerIndexWriteEnd s
  | .statusWriteEnd => Sys2Proof.Machine.execStatusWriteEnd s
  | .characterReceived link value => Sys2Proof.Machine.execCharacterReceived link value s

end Sys2Proof.Machine
end

