-- ==== Sys2Proof/Machine/Step.lean ====
section
/-! DEFINITION. One step: the command at the front of the queue, or one time-base cycle on an empty queue; and putting the command
a word spells at the front. -/

namespace Sys2Proof.Machine

/-- One step of the part (log 1). -/
def step (s : State) : Host.Outcome State Fault Refusal :=
  match s.pending with
  | [] => .next s.tickCycle
  | c :: rest => exec c { s with pending := rest }

/-- The state with the command that a word spells at the front of its queue; the state itself where the word spells none
(log 27). -/
def State.withFetchWord (s : State) (nbits w : Nat) : State :=
  match decodeTableWord nbits w with
  | some c => { s with pending := c :: s.pending }
  | none => s

end Sys2Proof.Machine
end

