-- ==== Sys2Proof/Safety.lean ====
section
/-! DEFINITION. What counts as a well-behaved state: ranges the spec states for its registers, the canonical form of the byte
stores, and the promises the spec makes about the whole part (R10, R11, R32, R42, R88, R134); and what an event leaves alone
beside its own effect. -/

namespace Sys2Proof.Machine

/-! ## Ranges and promises -/

/-- Frame memory and the byte image are in canonical form. -/
def State.StoresCanonical (s : State) : Prop := s.mem.wf = true ∧ s.dir.image.wf = true

/-- The clock lies in its ranges (section 5.1, R88). -/
def Clock.InRange (c : Clock) : Prop :=
  c.day < 65536 ∧ c.minute < 1440 ∧ c.second < 60 ∧ c.prescaler < Config.cyclesPerSecond

/-- The host-grant count lies in 0..4, and is 0 while no own request waits (R11). -/
def MemPath.CountInRange (m : MemPath) : Prop :=
  m.grantCount ≤ Config.hostGrantLimit ∧ (m.waiting = [] → m.grantCount = 0)

/-- Own requests of `r` that wait or are in progress. -/
def MemPath.load (m : MemPath) (r : Requester) : Nat :=
  m.waiting.countP (·.requester == r) + (match m.running with | some x => if x.req.requester = r then 1 else 0 | none => 0)

/-- A requester has at most one own request waiting or in progress (R10). -/
def MemPath.OneEach (m : MemPath) : Prop := ∀ r, m.load r ≤ 1

/-- While the load waits for the ring to be placed it has no request of its own (R36, R173). -/
def State.RingWaitQuiet (s : State) : Prop := s.dir.load.ringIndex.isSome = true → s.mp.load .directory = 0

/-- Every sample in the temperature ring is a clamped temperature (R134). -/
def SignState.SamplesInRange (g : SignState) : Prop := ∀ x ∈ g.ring, -80 ≤ x ∧ x ≤ 170

/-- The watch table holds at most its capacity (R42). -/
def TileMonitor.WithinCapacity (m : TileMonitor) : Prop := m.watch.length ≤ Config.watchCapacity

/-- No two enabled signs share a link and drop address (R32). -/
def State.DropsDistinct (s : State) : Prop :=
  ∀ i j : SignNo, (s.sign i).entry.enabled = true → (s.sign j).entry.enabled = true →
    (s.sign i).entry.link = (s.sign j).entry.link → (s.sign i).entry.drop = (s.sign j).entry.drop → i = j

/-- The registers and stores lie in their ranges. -/
structure State.Sound (s : State) : Prop where
  stores : s.StoresCanonical
  clock : s.clk.InRange
  count : s.mp.CountInRange
  samples : ∀ i, (s.sign i).SamplesInRange
  watch : s.tm.WithinCapacity

/-! ## What the end of an event may change

At the end of an event a held host transaction may be granted and a write so granted is snooped; then the blocks take up what
waits for them (`State.takeAll`): the schedule engine, the page loader and the signature engine take their next work,
requests are placed, and a refused activation may be reported. `lasting` keeps what the taking up cannot change. -/

/-- Of a sign: all but its activation, its schedule position, its wanted page and its record due. -/
def SignState.lasting (g : SignState) : SignState :=
  { g with
    activation := .idle, incoming := none, staged := [], lastRefused := none
    curEntry := none, nextEntry := none, rotFirst := 0, rotLast := 0, rotDwell := 0, rotPos := 0, dwellCount := 0,
    workDue := .none, redo := false, schedulePage := 0
    wanted := none, recordDue := false }

/-- Of a sign with no schedule work due: all but its activation and its record due. -/
def SignState.held (g : SignState) : SignState :=
  { g with activation := .idle, incoming := none, staged := [], lastRefused := none, recordDue := false }

/-- Of a watch entry: all but its state. -/
def WatchEntry.lasting (e : WatchEntry) : WatchEntry := { e with state := .clean }

/-- Of the report writer: the ring but its producer index, whether it is placed, and ATTN. -/
def ReportWriter.lasting (w : ReportWriter) : ReportWriter :=
  { ring := w.ring.map fun r => { r with producer := 0 }, placed := w.placed, entries := [], suppressing := false,
    blockDue := false, owedIndex := false, attn := w.attn }

/-- Of the memory path: all but the requests waiting, the grant count and whether a held host transaction is granted. -/
def MemPath.lasting (m : MemPath) : MemPath :=
  { m with host := m.host.map fun c => { c with granted := true }, grantCount := 0, waiting := [] }

/-- The two states differ at most in what blocks take up at the end of an event. -/
structure SameButTaken (s t : State) : Prop where
  pending : t.pending = s.pending
  resetHeld : t.resetHeld = s.resetHeld
  mem : t.mem = s.mem
  mp : t.mp.lasting = s.mp.lasting
  dir : t.dir = s.dir
  clk : { t.clk with engine := .idle } = { s.clk with engine := .idle }
  pc : t.pc = s.pc
  lines : t.lines = s.lines
  links : t.links = s.links
  rw : t.rw.lasting = s.rw.lasting
  watch : t.tm.watch.map WatchEntry.lasting = s.tm.watch.map WatchEntry.lasting
  signs : ∀ i, (t.sign i).lasting = (s.sign i).lasting
  /-- Reports already accepted stay, in their order. -/
  entries : s.rw.entries <+: t.rw.entries
  /-- Requests already waiting stay. -/
  waiting : s.mp.waiting <+: t.mp.waiting
  /-- Tiles leave the stale queue only from its head. -/
  stale : t.tm.stale <:+ s.tm.stale

/-- The host transaction with these command-phase values is granted when its command comes: the host port is free of another
and the arbiter gives the host the port at once, or, for a read and another command, it is granted already (R3, R11). -/
def State.HostGoes (s : State) (kind : HostKind) (addr n : Nat) : Prop :=
  s.resetHeld = false ∧
    ((s.mp.host = none ∧ s.hostMayGo = true) ∨
      (kind ≠ .write ∧
        ∃ c, s.mp.host = some c ∧ c.granted = true ∧ c.kind = kind ∧ (kind = .other ∨ (c.addr = addr ∧ n ≤ c.len))))

/-! ## What events leave -/

/-- Memory `m'` is `m` after a burst of bytes from `addr` upward, wrapping at the top: an address no byte goes to reads as
before, and where the burst passes an address the last pass counts (R4). -/
def Memory.Stored (m m' : Memory) (addr : Nat) (bytes : List Byte) : Prop :=
  (∀ a, (∀ k < bytes.length, a ≠ (addr + k) % Config.memorySize) → m'.read a = m.read a) ∧
    ∀ (k : Nat) (h : k < bytes.length), bytes.length ≤ k + Config.memorySize →
      m'.read ((addr + k) % Config.memorySize) = bytes[k]

/-- A requester's turn at a grant, lower first: report writes, then the three loader reads, then the links from the one
after the link pointer, then the signature engine (R12). -/
def Requester.turn (pointer : LinkNo) : Requester → Nat
  | .report => 0
  | .directory => 1
  | .pageMap => 2
  | .schedule => 3
  | .link l => 4 + (l.val + 3 - pointer.val) % 4
  | .signature => 8

/-- The rows of the command table that are a host write of these bytes. -/
def writeRows (addr : Nat) (data : List Byte) : List Instr :=
  [.hostWrite addr data, .headerCommit addr data, .headerRestart addr data, .lineEntryCommit addr data,
    .lineClear addr data, .signEntryCommit addr data, .clockSetCommit addr data, .heartbeatWord addr data,
    .consumerIndex addr data, .tileWrite addr data, .mapWrite addr data, .scheduleWrite addr data]

/-- The command is the end of an own read of this kind. -/
def endsRead : Instr → OwnKind → Bool
  | .loadHeaderReadEnd, .dirHeader => true
  | .loadConsumerReadEnd, .dirConsumer => true
  | .loadLineTableReadEnd, .dirLines => true
  | .loadSignTableReadEnd, .dirSigns _ => true
  | .signatureReadEnd, .sigRead => true
  | .mapReadEnd, .mapRead _ _ => true
  | .scheduleResyncReadEnd, .schedResync _ => true
  | .scheduleAdvanceReadEnd, .schedAdvance _ => true
  | .linkTileReadEnd l, .tileRead m _ => l == m
  | _, _ => false

/-- The host-grant count once a host transaction has been carried: one more where its grant comes with the command while
own requests wait (R11). -/
def State.countAfter (s : State) : Nat :=
  if s.mp.host = none ∧ s.mp.waiting ≠ [] then s.mp.grantCount + 1 else s.mp.grantCount

/-- A host write that is granted with its command has ended: its bytes stand in memory and the host port is free (R1, R5). -/
def State.wrote (s : State) (addr : Nat) (data : List Byte) : State :=
  { s with mem := s.mem.writeBytes addr data, mp.host := none, mp.grantCount := s.countAfter }

/-- The directory shadow's image after a burst of host bytes from a window offset (R19). -/
def State.imaged (s : State) (off : Nat) (data : List Byte) : State :=
  { s with dir.image := s.dir.image.writeBytes off data }

/-- Hand a report where `b` holds (R175). -/
def State.reportIf (b : Prop) [Decidable b] (r : Report) (s : State) : State := if b then s.report r else s

/-- Evaluate the wanted page of every sign that satisfies `p`, in ascending sign number (R115, R119 to R121, R123). -/
def State.evaluateEach (p : SignState → Bool) (s : State) : State :=
  forSigns State.evaluate ((List.finRange 256).filter fun i => p (s.sign i)) s

/-- A minute tick: the clock moves into the next minute, with the carries of minute and day. A day wrap marks every enabled
sign RESYNC; else, with the clock set, a sign whose next entry is due by the new time, with nothing due and nothing in
flight, becomes ADVANCE. Work is taken up; then every enabled sign that wants another page and is IDLE joins the activation
queue in sign order, and work is taken up again (R71, R72, R89, R99, R100, R103; log 14). -/
def State.minuteTurned (s : State) : State :=
  let c := s.clk
  let wrap := c.minute = 1439 ∧ c.day = 65535
  let clk : Clock := { c with
    second := 0
    minute := if c.minute = 1439 then 0 else c.minute + 1
    day := if wrap then 0 else if c.minute = 1439 then c.day + 1 else c.day }
  let due (g : SignState) : Bool :=
    match g.nextEntry with
    | some x => decide (x.2 ≤ clk.day * 1440 + clk.minute)
    | none => false
  let marked (i : SignNo) : SignState :=
    let g := s.sign i
    { g with
      workDue :=
        if wrap ∧ g.entry.enabled = true then .resync
        else if c.unset = false ∧ g.entry.enabled = true ∧ g.workDue = .none ∧ c.engine.sign ≠ some i ∧ due g = true then
          .advance
        else g.workDue
      redo := g.redo || decide (wrap ∧ g.entry.enabled = true ∧ c.engine.sign = some i) }
  let t := State.takeUp { s with clk := clk, signs := Vector.ofFn marked }
  let joins (i : SignNo) : Bool :=
    (t.sign i).entry.enabled && (t.sign i).activation == .idle &&
      match (t.sign i).wanted with | some w => decide ((t.sign i).activePage ≠ some w.1) | none => false
  State.takeUp { t with
    pl.queue := t.pl.queue ++ (List.finRange 256).filter joins
    signs := Vector.ofFn fun i => { t.sign i with activation := if joins i then .queued else (t.sign i).activation } }

/-- The part emptied as its emptying tables give for a restart, an entry into WAITING and a new load, under a directory
shadow `d`: what they keep is kept, every other register takes the table's value, requests of every requester but the
report writer go, and the ring stops being placed (R15, R16, R62, R85, R108, R125, R147, R171, R173, R182). -/
def State.emptiedTo (d : Directory) (s : State) : State :=
  let line (n : LineNo) : LineState :=
    let x := s.line n
    let fault := decide (x.entry.mode = .faultOutput)
    { entry := .cleared, raw := x.raw, filtered := if fault then true else x.filtered
      timer := if fault then (if x.raw then none else some 1) else x.timer
      alert := false, drive := false }
  let link (l : LinkNo) : LinkState :=
    let k := s.link l
    { LinkState.reset with
      exch := k.exch.map fun e => { e with discard := true }
      phase := if k.exch.isSome then k.phase else .off
      window := k.window, rx := k.rx }
  { s with
    mp.waiting := s.mp.waiting.filter (·.requester = .report)
    mp.grantCount := if s.mp.waiting.any (·.requester = .report) then s.mp.grantCount else 0
    mp.running := s.mp.running.map fun x => if x.req.requester = .report then x else { x with discard := true }
    dir := d
    tm := .reset
    pl := .reset
    clk := { s.clk with lastOffset := 0, pulseMode := false, pulseMissing := 0, armed := false, engine := .idle }
    pc := .reset
    rw := { s.rw with placed := false, attn := false, blockDue := true }
    lines := #v[line 0, line 1, line 2, line 3]
    links := #v[link 0, link 1, link 2, link 3]
    signs := Vector.replicate 256 .reset }

/-- The header commit is applied in this part state: in RUNNING, in WAITING, and in LOADING once the load's step 1 read has
ended (R34, R37). -/
def State.headerTaken (s : State) : Prop := s.dir.part = .running ∨ (s.dir.part = .loading ∧ s.headerReached = true)

/-- The burst covers the window offsets from `off` on, one run (R7, R8). -/
def State.InWindow (s : State) (addr off : Nat) (data : List Byte) : Prop :=
  ∀ k < data.length, classify s.mp.windowBase s.dir.header ((addr + k) % Config.memorySize) = .window (off + k)

/-- An own transaction of a kind is in progress, was not abandoned, and RESET_N is released; `bytes` are what its read
took at the grant (R5, R10, R16). -/
def State.OwnEnds (s : State) (kind : OwnKind) (bytes : List Byte) : Prop :=
  s.resetHeld = false ∧
    ∃ x, s.mp.running = some x ∧ x.req.kind = kind ∧ x.bytes = bytes ∧ x.discard = false

/-- The own transaction has ended: a write's bytes stand in memory, and the port is free, which a held host transaction may
be granted (R10, R11); the snoop of a write so granted is left to the end of the event (R17). -/
def State.portFreed (s : State) : State :=
  match s.mp.running with
  | none => s
  | some x =>
    State.grantHost { s with
      mp.running := none
      mem := if x.req.isWrite then s.mem.writeBytes x.req.addr x.req.data else s.mem }

end Sys2Proof.Machine
end

