-- ==== Sys2Proof/Certificates/Slice0/Obligations.lean ====
section
/-! DEFINITION. The statements for the provers. An event ends with `State.settle`: a held host transaction is granted,
a write so granted is snooped once the blocks have taken up the event's work, and the blocks take up what waits for
them. A statement that says `exec c s = .next u.settle` gives in `u` the event's own effect, whole; what `settle` and
its parts do is stated of them. -/

open Sys2Proof Sys2Proof.Machine

/-! ## The machine -/

/-- A step with a command at the front of the queue is that command's meaning on the state with the queue's rest. -/
def Obligations.StepRunsFrontCommand : Prop :=
  ∀ (c : Instr) (rest : List Instr) (s : State), s.pending = c :: rest → step s = exec c { s with pending := rest }

/-- The model's choice (log 1): a step on an empty queue is one cycle of the time base. The prescaler counts the cycle, its
32 768th cycle is a second tick (R88), and nothing happens while RESET_N is asserted. -/
def Obligations.IdleStepIsOneCycle : Prop :=
  ∀ s : State, s.pending = [] →
    (s.resetHeld = true → step s = .next s) ∧
    (s.resetHeld = false → s.clk.prescaler + 1 < 32768 →
      step s = .next { s with clk.prescaler := s.clk.prescaler + 1 }) ∧
    (s.resetHeld = false → 32768 ≤ s.clk.prescaler + 1 → step s = exec .secondTick s)

/-! ## Device reset (chapter 1.10, R39 and the emptying tables) -/

/-- What the part holds right after device reset, block by block, with every register of every sign, link and line at its
table's value; the directory load's first read and the status block alone wait (R14, R36, R39, R62, R85, R108, R125, R147,
R171, R177, R182). The model's choices: log 4, 14, 40. -/
def Obligations.ResetLeavesTheTables : Prop :=
  State.reset.mp.host = none ∧ State.reset.mp.grantCount = 0 ∧ State.reset.mp.linkPointer = 3 ∧
  State.reset.mp.running = none ∧ State.reset.mp.waiting.map (·.kind) = [.dirHeader, .blockWrite] ∧
  State.reset.dir = { image := [], header := none, lastClockSeq := none, part := .loading, load := .header } ∧
  State.reset.tm = { watch := [], stale := [], engine := .idle } ∧
  State.reset.pl = { queue := [], loading := none } ∧
  State.reset.clk =
    { day := 0, minute := 0, second := 0, unset := true, prescaler := 0, lastOffset := 0, pulseMode := false,
      pulseMissing := 0, armed := false, engine := .idle } ∧
  State.reset.pc = { faultCount := 0, hb := .off, hbCounter := 0, hbLast := none } ∧
  State.reset.rw =
    { ring := none, placed := false, entries := [], suppressing := false, blockDue := false, owedIndex := false,
      attn := false } ∧
  (∀ n : LineNo, ∃ high, State.reset.line n =
    { entry := { mode := .off, activeHigh := false, alertPage := none, zones := 0 }
      raw := high, filtered := high, timer := none, alert := false, drive := false }) ∧
  (∀ l : LinkNo, State.reset.link l =
    { queue := [], phase := .off, exch := none, window := 0, rx := [], job := none, polls := [], refresh := [],
      surveyTimer := none, surveyDue := false, survey := none, surveyPointer := 63 }) ∧
  ∀ i : SignNo, State.reset.sign i =
    { entry :=
        { enabled := false, link := 0, drop := 0, zone := 0, columns := 0, rows := 0, pageCount := 0, fallback := none,
          ghostLimit := 0, scheduleCount := 0 }
      job := .disabled, pendingClass := none, again := none, abort := none, forceFull := false, partialCount := 0
      ring := [], shownTag := 0, lastTag := 0, plan := none, lastUpdate := none
      slots := [], activePage := none, generation := 0, activation := .idle, incoming := none, staged := []
      lastRefused := none, rangeReported := false
      curEntry := none, nextEntry := none, rotFirst := 0, rotLast := 0, rotDwell := 0, rotPos := 0, dwellCount := 0
      workDue := .none, redo := false, orderReported := none, schedulePage := 0
      wanted := none, recordDue := true }

/-- RESET_N released: whatever the part held, it takes the values after device reset, with the window base the straps
choose, memory and the pins' levels as they are, a held host command granted first, and the directory load's header read
and the status block waiting (R6, R14, R36, R39, R182). A held write so granted is snooped at its grant (R5), when no block has
any work to take up. The model's choices: log 14. -/
def Obligations.ReleaseGivesTheResetState : Prop :=
  ∀ (s : State) (straps : Fin 4), s.resetHeld = true →
    let base := Config.windowBase straps
    let held := (s.mp.host.filter (!·.granted)).map fun c => { c with granted := true }
    let u : State := { State.reset with
      pending := s.pending
      mem := s.mem
      mp := { MemPath.reset base with
        host := held, hostData := s.mp.hostData
        waiting := [{ kind := .dirHeader, addr := base, len := 256, data := [] }] }
      rw := .reset
      lines := #v[.reset (s.line 0).raw, .reset (s.line 1).raw, .reset (s.line 2).raw, .reset (s.line 3).raw] }
    exec (.resetReleased straps) s = .next u.settle ∧
    ((∀ c, held = some c → c.kind ≠ .write ∨ c.snooped = true) →
      exec (.resetReleased straps) s = .next { u with
        mp.waiting := (MemPath.reset base).waiting
        rw.blockDue := false }) ∧
    ∀ c, held = some c → c.kind = .write → c.snooped = false →
      exec (.resetReleased straps) s = .next (State.takeAll
        (State.handRuns (cutRuns base none c.addr c.data) { u with mp.host := some { c with snooped := true } }))

/-- RESET_N asserted: every block is cleared, no own request and no transaction stays, a held host command stays held, and
memory keeps of a cut write the first bytes, those already transferred; a cut read leaves memory alone (R13). The model's choices: log 8. -/
def Obligations.AssertedResetClearsTheBlocks : Prop :=
  ∀ (s : State) (ownSent hostSent : Nat), s.resetHeld = false → s.mem.wf = true →
    ∃ t, exec (.resetAsserted ownSent hostSent) s = .next t ∧ t.resetHeld = true ∧ t.pending = s.pending ∧
      t.dir = .reset ∧ t.tm = .reset ∧ t.pl = .reset ∧ t.clk = .reset ∧ t.pc = .reset ∧ t.rw = .reset ∧
      (∀ n, t.line n = .reset (s.line n).raw) ∧ (∀ l, t.link l = .reset) ∧ (∀ i, t.sign i = .reset) ∧
      t.mp = { s.mp with
        host := s.mp.host.filter (!·.granted), grantCount := 0, linkPointer := 3, waiting := [], running := none } ∧
      match s.mp.running, s.mp.host with
      | some x, _ =>
        if x.req.requester = .report then s.mem.Stored t.mem x.req.addr (x.req.data.take ownSent) else t.mem = s.mem
      | none, some c =>
        if c.granted = true ∧ c.kind = .write then s.mem.Stored t.mem c.addr (c.data.take hostSent) else t.mem = s.mem
      | none, none => t.mem = s.mem

/-- While RESET_N is asserted no command but its release reaches a block, no transaction is granted, and memory stays; a
host command issued is held, a held one may be withdrawn, and a pin's level is seen (R13, R39; log 18). -/
def Obligations.NothingRunsWhileReset : Prop :=
  ∀ (c : Instr) (s : State), s.resetHeld = true → (∀ straps, c ≠ .resetReleased straps) →
    ∃ t, exec c s = .next t ∧ t.resetHeld = true ∧ t.pending = s.pending ∧ t.mem = s.mem ∧ t.dir = s.dir ∧
      t.tm = s.tm ∧ t.pl = s.pl ∧ t.clk = s.clk ∧ t.pc = s.pc ∧ t.rw = s.rw ∧ t.links = s.links ∧ t.signs = s.signs ∧
      (∀ n, { t.line n with raw := (s.line n).raw } = s.line n) ∧
      { t.mp with host := s.mp.host } = s.mp ∧
      ∀ h, t.mp.host = some h → h.granted = true → s.mp.host = some h

/-! ## The host port and the arbiter (chapter 1) -/

/-- A host command at a free host port is granted when the memory port is free and no own request waits or the host-grant
count is below 4, and counts when one waits; otherwise it is held. A host port that carries a transaction admits no other,
and only a held transaction can be withdrawn (R1, R3, R11). At the end of every event a held transaction that may go is
granted; a granted write that has not been snooped is handed to its owners, by the bounds then in force, after the blocks
have taken up the work that the event brought them; then they take up what the snoop brings (R5, R7, R8, R17, R47, R72,
R99). The model's choices: log 6, 14. -/
def Obligations.HostCommandIsGrantedOrHeld : Prop :=
  let may (s : State) : Prop :=
    s.resetHeld = false ∧ s.mp.running = none ∧ (s.mp.waiting = [] ∨ s.mp.grantCount < 4)
  let granted (c : HostClaim) (s : State) : State := { s with
    mp.host := some { c with granted := true }
    mp.grantCount := if s.mp.waiting = [] then s.mp.grantCount else s.mp.grantCount + 1 }
  let snooped (c : HostClaim) (s : State) : State :=
    State.handRuns (cutRuns s.mp.windowBase s.dir.header c.addr c.data)
      (State.takeUp { s with mp.host := some { c with granted := true, snooped := true } })
  (∀ (command : HostCommand) (addr len : Nat) (s : State),
    let c : HostClaim :=
      { kind := command.kind, addr := addr, len := len, data := command.data.take len, granted := false, snooped := false }
    (s.mp.host = none →
      (may s → c.kind = .write → exec (.hostCommandIssue command addr len) s = .next (snooped c (granted c s)).takeAll) ∧
      (may s → c.kind ≠ .write → exec (.hostCommandIssue command addr len) s = .next (granted c s)) ∧
      (¬may s → exec (.hostCommandIssue command addr len) s = .next { s with mp.host := some c })) ∧
    (∀ c, s.mp.host = some c → exec (.hostCommandIssue command addr len) s = .next s) ∧
    (∀ c, s.mp.host = some c → c.granted = false → exec .hostCommandWithdrawn s = .next { s with mp.host := none }) ∧
    ((s.mp.host = none ∨ ∃ c, s.mp.host = some c ∧ c.granted = true) → exec .hostCommandWithdrawn s = .next s)) ∧
  ∀ s : State,
    (s.mp.host = none → s.settle = s.takeAll) ∧
    ∀ c, s.mp.host = some c →
      let fresh := c.kind = .write ∧ c.snooped = false
      (c.granted = false → ¬may s → s.settle = s.takeAll) ∧
      (c.granted = false → may s → fresh → s.settle = (snooped c (granted c s)).takeAll) ∧
      (c.granted = false → may s → ¬fresh → s.settle = (granted c s).takeAll) ∧
      (c.granted = true → fresh → s.settle = (snooped c s).takeAll) ∧
      (c.granted = true → ¬fresh → s.settle = s.takeAll)

/-- A host read carries back the bytes memory holds and, like a command that is neither read nor write, changes nothing
else but the host port and, where the grant comes with it while own requests wait, the count (R1, R2, R4).
The model's choices: log 6, 9, 28. -/
def Obligations.HostReadsLeaveThePart : Prop :=
  (∀ (fast : Bool) (addr len : Nat) (s : State), s.HostGoes (if fast then .fastRead else .plainRead) addr len →
    exec (.hostRead fast addr len) s = .next { s with
      mp.host := none
      mp.hostData := (List.range len).map fun i => s.mem.read ((addr + i) % 16777216)
      mp.grantCount := if s.mp.host = none ∧ s.mp.waiting ≠ [] then s.mp.grantCount + 1 else s.mp.grantCount }) ∧
  ∀ s : State, s.HostGoes .other 0 0 →
    exec .otherHostCommand s = .next { s with
      mp.host := none
      mp.grantCount := if s.mp.host = none ∧ s.mp.waiting ≠ [] then s.mp.grantCount + 1 else s.mp.grantCount }

/-- Every row of the table that is a host write puts its bytes into memory at the wrapped addresses, whatever they hit, and
leaves every other byte; the host port is free after it. At a free port it is granted and carried whole, or held where the
arbiter does not grant it; of a write that already stands granted on the port the row ends the data phase; a row of
another write, or of one still held, changes nothing (R1, R3, R4, R5). The model's choices: log 5, 6, 14. -/
def Obligations.HostWritesReachMemory : Prop :=
  ∀ (s : State) (addr : Nat) (data : List Byte) (c : Instr), c ∈ writeRows addr data →
    (s.mem.wf = true → s.HostGoes .write addr data.length →
      ∃ t, exec c s = .next t ∧ s.mem.Stored t.mem addr data ∧ t.mp.host = none ∧ t.mp.windowBase = s.mp.windowBase ∧
        t.mp.linkPointer = s.mp.linkPointer ∧ t.mp.hostData = s.mp.hostData ∧ t.pending = s.pending) ∧
    (s.mp.host = none → (s.resetHeld = true ∨ s.mp.running ≠ none ∨ (s.mp.waiting ≠ [] ∧ 4 ≤ s.mp.grantCount)) →
      let claim : HostClaim :=
        { kind := .write, addr := addr, len := data.length, data := data, granted := false, snooped := false }
      exec c s = .next { s with mp.host := some claim }) ∧
    ∀ h, s.mp.host = some h →
      (s.resetHeld = false ∧ h.granted = true ∧ h.kind = .write ∧ h.addr = addr ∧ h.data = data →
        ∃ m, exec c s = .next (State.settle { s with mem := m, mp.host := none }) ∧
          (s.mem.wf = true → s.mem.Stored m addr data)) ∧
      (¬(s.resetHeld = false ∧ h.granted = true ∧ h.kind = .write ∧ h.addr = addr ∧ h.data = data) →
        exec c s = .next s)

/-- Each region's bytes are classified by their offset from its base, wrapped at the top of memory, when no two extents
overlap; without an applied header the window is the only region (R6, R7, R8). A host write that meets the report ring
or no region, or carries no byte, acts on nothing but memory (R4, R7, R8). The model's choices: log 5, 6, 14. -/
def Obligations.RegionsOwnTheirBytes : Prop :=
  (∀ (base : Nat) (h : Header) (a : Nat), a < 16777216 → base < 16777216 → h.tileBase < 16777216 →
    h.mapBase < 16777216 → h.schedBase < 16777216 → h.ringBase < 16777216 → anyOverlap (h.extents base) = false →
    (offsetFrom base a < 65536 → classify base (some h) a = .window (offsetFrom base a)) ∧
    (offsetFrom h.tileBase a < h.tileCount * 256 → classify base (some h) a = .tile (offsetFrom h.tileBase a / 256)) ∧
    (offsetFrom h.mapBase a < 1048576 →
      classify base (some h) a =
        .map (Fin.ofNat 256 (offsetFrom h.mapBase a / 4096)) (offsetFrom h.mapBase a % 4096 / 512)
          (offsetFrom h.mapBase a % 512)) ∧
    (offsetFrom h.schedBase a < 524288 →
      classify base (some h) a = .schedule (Fin.ofNat 256 (offsetFrom h.schedBase a / 2048))) ∧
    (offsetFrom h.ringBase a < h.ringSize * 16 → classify base (some h) a = .ring) ∧
    (65536 ≤ offsetFrom base a → h.tileCount * 256 ≤ offsetFrom h.tileBase a → 1048576 ≤ offsetFrom h.mapBase a →
      524288 ≤ offsetFrom h.schedBase a → h.ringSize * 16 ≤ offsetFrom h.ringBase a →
      classify base (some h) a = .outside) ∧
    classify base none a = if offsetFrom base a < 65536 then .window (offsetFrom base a) else .outside) ∧
  ∀ (s : State) (addr : Nat) (data : List Byte), s.HostGoes .write addr data.length →
    (∀ k < data.length, classify s.mp.windowBase s.dir.header ((addr + k) % 16777216) = .outside ∨
      classify s.mp.windowBase s.dir.header ((addr + k) % 16777216) = .ring) →
      exec (.hostWrite addr data) s = .next (s.wrote addr data).settle

/-- The part's grant goes to a waiting request whose turn is first by R12, wherever it stands among the waiting: class,
then the order within the loader class, then the links after the pointer. The others keep waiting, the count is 0, the
pointer moves to a granted link, and a read takes the bytes memory holds (R5, R12). -/
def Obligations.ArbiterChoosesByClass : Prop :=
  ∀ s : State, s.resetHeld = false → s.mp.running = none → s.mp.waiting ≠ [] →
    (s.mp.host = none ∨ ∃ c, s.mp.host = some c ∧ c.granted = false ∧ 4 ≤ s.mp.grantCount) →
    ∃ q ∈ s.mp.waiting,
      (∀ r ∈ s.mp.waiting, q.requester.turn s.mp.linkPointer ≤ r.requester.turn s.mp.linkPointer) ∧
      exec .ownRequestGrant s = .next { s with
        mp.waiting := s.mp.waiting.erase q
        mp.grantCount := 0
        mp.linkPointer := match q.requester with | .link l => l | _ => s.mp.linkPointer
        mp.running := some
          { req := q
            bytes := if q.requester = .report then [] else (List.range q.len).map fun i => s.mem.read ((q.addr + i) % 16777216)
            discard := false } }

/-- The end of an own read whose requester was emptied frees the port and delivers nothing: what the event leaves is the
freed port and the end of every event (R16). The model's choices: log 14. -/
def Obligations.AbandonedReadsAreDiscarded : Prop :=
  ∀ (c : Instr) (s : State) (x : Running), s.resetHeld = false → s.mp.running = some x → x.discard = true →
    x.req.isWrite = false → endsRead c x.req.kind = true → exec c s = .next s.portFreed.settle

/-! ## The directory (chapter 2) -/

/-- A header commit, plain or with the restart flag, that does more than change settings. Refused for a cause of R23 in
RUNNING or once step 1 has been read: DIRECTORY_REFUSED is handed if a header was applied, and the part enters WAITING with
everything emptied (R35). Valid in RUNNING with the restart flag set or a region field changed: a restart, everything
emptied (R26, R40). Valid with a changed region field once step 1 has been read: the load begins again, everything emptied
(R37). Refused in WAITING, or before step 1's read has ended: the image alone takes the bytes (R34, R37). Emptying gives
every block its table's values and withdraws its requests (R15, R62, R85, R108, R125, R147, R171, R173); the status
block is due at a change of part state (R180). The model's choices: log 14, 26, 38, 40. -/
def Obligations.HeaderCommitsByPartState : Prop :=
  ∀ (s : State) (addr off : Nat) (data : List Byte) (c : Instr), s.HostGoes .write addr data.length → data ≠ [] →
    off + data.length = 0x100 → s.InWindow addr off data →
    c = .headerCommit addr data ∨ c = .headerRestart addr data →
    let v := (s.wrote addr data).imaged off data
    (∀ cause, headerCause s.mp.windowBase v.dir.image = some cause →
      (s.headerTaken → exec c s = .next (State.settle
        ((v.reportIf (v.dir.header ≠ none)
            { kind := .directoryRefused, sign := none, page := none, detail := cause }).emptiedTo
          { v.dir with header := none, part := .waiting, load := .idle }))) ∧
      (s.dir.part = .waiting → exec c s = .next v.settle)) ∧
    (headerCause s.mp.windowBase v.dir.image = none →
      (s.dir.part = .running →
        (v.dir.image.read 0xFF).getLsbD 0 = true ∨ s.settings.sameRegions (parseHeader v.dir.image) = false →
          exec c s = .next (State.settle
            (v.emptiedTo { v.dir with header := none, part := .loading, load := .awaitLinks }))) ∧
      (s.dir.part = .loading → s.headerReached = true → s.settings.sameRegions (parseHeader v.dir.image) = false →
        exec c s = .next (State.settle
          { v.emptiedTo { v.dir with header := none, load := .awaitLinks } with rw.blockDue := v.rw.blockDue }))) ∧
    (s.dir.part = .loading → s.headerReached = false → exec c s = .next v.settle)

/-- The causes of R23 in their order: the mark, the version, a tile count of 0, two extents that overlap. -/
def Obligations.HeaderCausesInOrder : Prop :=
  ∀ (base : Nat) (m : Memory), base < 16777216 →
    (m.word 0 ≠ 0x5347 → headerCause base m = some 1) ∧
    (m.word 0 = 0x5347 → m.num 2 ≠ 1 → headerCause base m = some 2) ∧
    (m.word 0 = 0x5347 → m.num 2 = 1 → m.word 8 = 0 → headerCause base m = some 3) ∧
    (m.word 0 = 0x5347 → m.num 2 = 1 → m.word 8 ≠ 0 →
      ((∃ a < 16777216, ∃ i j : Fin 5, i < j ∧
          ∀ k, k = i ∨ k = j → ∃ e, ((parseHeader m).extents base)[k.val]? = some e ∧ offsetFrom e.1 a < e.2) ↔
        headerCause base m = some 4) ∧
      (headerCause base m = none ∨ headerCause base m = some 4))

/-- A valid header whose regions are those applied, taken in LOADING, or in RUNNING with the restart flag clear, with every
link's enable as it was: the settings are replaced in place and nothing is restarted. In RUNNING a changed heartbeat
modulus acts by the heartbeat state, with HEARTBEAT_RESTORED and an evaluation of every enabled sign's wanted page where
it ends a lapse, and ATTN follows the attention enable (R24, R25, R37, R121, R123, R181).
The model's choices: log 14, 21. -/
def Obligations.HeaderSettingsApplyInPlace : Prop :=
  ∀ (s : State) (addr off : Nat) (data : List Byte) (c : Instr), s.HostGoes .write addr data.length → data ≠ [] →
    off + data.length = 0x100 → s.InWindow addr off data →
    c = .headerCommit addr data ∨ c = .headerRestart addr data → s.headerTaken → s.dir.header ≠ none →
    let v := (s.wrote addr data).imaged off data
    let h := parseHeader v.dir.image
    headerCause s.mp.windowBase v.dir.image = none → s.settings.sameRegions h = true →
    (s.dir.part = .running → (v.dir.image.read 0xFF).getLsbD 0 = false) → h.linkEnable = s.settings.linkEnable →
    let m := h.heartbeatModulus
    let changed : Bool := s.dir.part == .running && s.settings.heartbeatModulus != m
    let pc : Chooser :=
      match changed, s.pc.hb, decide (m = 0) with
      | true, .off, false => { s.pc with hb := .running, hbCounter := m }
      | true, .running, true => { s.pc with hb := .off, hbCounter := 0 }
      | true, .running, false => { s.pc with hbCounter := m }
      | true, .lapsed, true => { s.pc with hb := .off, hbCounter := 0 }
      | _, _, _ => s.pc
    let w : State := { v with dir.header := some h, pc := pc }
    let x := if changed = true ∧ s.pc.hb = Heartbeat.lapsed ∧ m = 0 then
        State.evaluateEach (fun g => g.entry.enabled)
          (w.report { kind := .heartbeatRestored, sign := none, page := none, detail := 2 })
      else w
    exec c s = .next (State.settle
      (if s.settings = h then v
      else { x with rw.attn :=
        match s.rw.ring with
        | some r => h.attention && s.rw.placed && decide (0 < (r.published + (r.size - r.consumer % r.size)) % r.size)
        | none => false }))

/-- A valid header, taken as above, that changes link enables alone of what acts at once. A link turned off drops its job,
polls, timers and survey, and its exchange in flight will be discarded; every enabled sign of it becomes OFFLINE with its
picture lost, and the fault count rises for each that was not lost before. A link turned on falls into the gap with its
survey timer started. Other links, and signs of other links, stay as they are (R25, R116, R117, R135, R144, R169).
The model's choices: log 14, 21, 33. -/
def Obligations.HeaderTurnsLinksOnAndOff : Prop :=
  ∀ (s : State) (addr off : Nat) (data : List Byte), s.HostGoes .write addr data.length → data ≠ [] →
    off + data.length = 0x100 → s.InWindow addr off data → s.headerTaken → s.dir.header ≠ none →
    let v := (s.wrote addr data).imaged off data
    let h := parseHeader v.dir.image
    headerCause s.mp.windowBase v.dir.image = none → s.settings.sameRegions h = true →
    (s.dir.part = .running → (v.dir.image.read 0xFF).getLsbD 0 = false) →
    (s.dir.part = .running → h.heartbeatModulus = s.settings.heartbeatModulus) →
    let turnedOff (l : LinkNo) : Bool := s.settings.linkEnable.getLsbD l && !h.linkEnable.getLsbD l
    let turnedOn (l : LinkNo) : Bool := !s.settings.linkEnable.getLsbD l && h.linkEnable.getLsbD l
    ∃ u : State, exec (.headerCommit addr data) s = .next u.settle ∧ u.mem = v.mem ∧
      u.dir = { v.dir with header := some h } ∧ u.clk = s.clk ∧ u.tm = s.tm ∧ u.pl = s.pl ∧
      (∀ l, turnedOff l = true →
        (u.link l).phase = (if (s.link l).exch.isSome then (s.link l).phase else .off) ∧
        (u.link l).exch = (s.link l).exch.map (fun e => { e with discard := true }) ∧
        (u.link l).job = none ∧ (u.link l).polls = [] ∧ (u.link l).refresh = [] ∧ (u.link l).surveyTimer = none ∧
        (u.link l).surveyDue = false ∧ (u.link l).survey = none ∧
        (u.link l).surveyPointer = (s.link l).surveyPointer ∧
        (∀ q ∈ u.mp.waiting, q.requester ≠ .link l)) ∧
      (∀ l, turnedOn l = true → u.link l = { s.link l with
        phase := if (s.link l).exch.isSome then (s.link l).phase else .gap
        surveyTimer := some h.surveyInterval }) ∧
      (∀ l, turnedOff l = false → turnedOn l = false → u.link l = s.link l) ∧
      (∀ i, (s.sign i).entry.enabled = true → turnedOff (s.sign i).entry.link = true →
        { u.sign i with recordDue := true } = { s.sign i with
          job := .offline, plan := none, pendingClass := none, again := none, abort := none, forceFull := true
          slots := (s.sign i).slots.map fun x => { x with delivered := 0, dirty := true }
          recordDue := true } ∧
        ∀ e ∈ (u.link (s.sign i).entry.link).queue, e.sign ≠ i) ∧
      (∀ i, ¬((s.sign i).entry.enabled = true ∧ turnedOff (s.sign i).entry.link = true) → u.sign i = s.sign i) ∧
      u.pc = { s.pc with
        faultCount := s.pc.faultCount + ((List.finRange 256).filter fun i =>
          (s.sign i).entry.enabled && turnedOff (s.sign i).entry.link &&
            !((s.sign i).job == .offline) && !((s.sign i).job == .panelFault)).length }

/-! ### Line entries, clears (R27, R28, R110 to R116) -/

/-- What the part takes of the header in the image: every field from its place, most significant byte first, bases rounded
down to their multiple and values out of range acting as the table says (R24, R183, sections 2.4 and 10.2).
What the part takes of line `n`'s entry: the mode, OFF for an illegal one; the polarity; the alert page, 7
for one above 7; zone z's bit from bit z mod 8 of byte floor(z / 8) of the mask (R27, section 10.3). What the part takes
of sign `i`'s entry in the image, clamped: link and drop from one byte, zone of 6 bits; columns and rows above 16 act as
16, a page count above 8 as 8, a fallback page from page count to 0xFE as page count − 1 with 0xFF for none, a ghost
limit above 15 as 15; schedule count as written (section 2.6, R29, section 10.3). The model's choices: log 35. -/
def Obligations.EntryFieldsAreClamped : Prop :=
  (∀ m : Memory,
    let h := parseHeader m
    let b (off : Nat) : Nat := (m.read off).toNat
    let word (off : Nat) : Nat := b off * 256 + b (off + 1)
    let signed (off : Nat) : Int := (word off : Int) - (if 128 ≤ b off then 65536 else 0)
    let within (lo hi v : Nat) : Nat := if v < lo then lo else if hi < v then hi else v
    let rounded (off unit x : Nat) : Prop :=
      let a := b off * 65536 + b (off + 1) * 256 + b (off + 2)
      unit ∣ x ∧ x ≤ a ∧ a < x + unit
    rounded 0x04 256 h.tileBase ∧ h.tileCount = (if word 0x08 ≤ 8192 then word 0x08 else 8192) ∧
    rounded 0x0C 4096 h.mapBase ∧ rounded 0x10 2048 h.schedBase ∧ rounded 0x14 16 h.ringBase ∧
    h.ringSize = within 16 4096 (word 0x18) ∧
    (∀ l : LinkNo, h.linkEnable.getLsbD l = (m.read 0x20).getLsbD l ∧ h.rates[l] = within 0 3 (b (0x24 + l.val))) ∧
    h.answerWindow = within 1 15 (b 0x28) ∧ h.retryLimit = within 1 15 (b 0x29) ∧ h.backoffCap = within 0 7 (b 0x2A) ∧
    h.pollInterval = within 5 255 (b 0x2B) ∧
    h.refreshLimit = (if b 0x2C = 0 then 120 else within 1 120 (b 0x2C)) ∧
    h.surveyInterval = within 1 255 (b 0x2D) ∧ h.fraction = within 0 8 (b 0x2E) ∧
    h.lineFilter = within 1 255 (b 0x2F) ∧ h.coldThreshold = signed 0x30 ∧ h.freezeThreshold = signed 0x32 ∧
    h.heartbeatModulus = word 0x34 ∧ h.attention = (m.read 0x36).getLsbD 0) ∧
  (∀ (m : Memory) (n : LineNo),
    let o := 0x100 + 16 * n.val
    let e := parseLine m n
    e.mode = (match m.num o with
      | 1 => .alertLevel
      | 2 => .alertLatched
      | 3 => if n = 3 then .minutePulse else .off
      | 4 => .faultOutput
      | _ => .off) ∧
    e.activeHigh = (m.read (o + 1)).getLsbD 0 ∧
    e.alertPage = some (if m.num (o + 2) ≤ 7 then m.num (o + 2) else 7) ∧
    ∀ z < 64, e.zones.getLsbD z = (m.read (o + 4 + z / 8)).getLsbD (z % 8)) ∧
  ∀ (m : Memory) (i : SignNo),
    let b (k : Nat) : Nat := (m.read (0x1000 + 16 * i.val + k)).toNat
    let e := (rawSign m i).clamped
    e.enabled = (m.read (0x1000 + 16 * i.val)).getLsbD 0 ∧ e.link.val = b 1 / 64 ∧ e.drop = b 1 % 64 ∧
    e.zone = b 2 % 64 ∧ e.columns = (if b 3 ≤ 16 then b 3 else 16) ∧ e.rows = (if b 4 ≤ 16 then b 4 else 16) ∧
    e.pageCount = (if b 5 ≤ 8 then b 5 else 8) ∧
    (b 6 = 0xFF → e.fallback = none) ∧
    (b 6 < e.pageCount → e.fallback = some (b 6)) ∧
    (e.pageCount ≤ b 6 → b 6 ≠ 0xFF → e.fallback = some (e.pageCount - 1)) ∧
    e.ghostLimit = (if b 7 ≤ 15 then b 7 else 15) ∧ e.scheduleCount = b 8

/-- A line-entry commit that is applied: CONFIG for an illegal mode code, with line × 256 + code; the entry of the image; the
filter stopped in FAULT_OUTPUT, and on leaving it set to the inactive level and started where the pin differs; the drive
of the new mode; line 3's pulse mode told to the clock; the alert state of R114, reported with cause 3 where it changes.
Where it changes, or stays ACTIVE under another alert page or mask, every enabled sign that the old or the new mask covers
has its wanted page evaluated, in sign order. Other lines stay as they are. A commit that is not reached changes the image
alone (R20, R27, R34, R37, R95, R110, R114, R115, R116). The model's choices: log 14. -/
def Obligations.LineEntryCommitApplies : Prop :=
  ∀ (s : State) (addr : Nat) (b : Byte) (n : LineNo), s.HostGoes .write addr 1 →
    s.InWindow addr (0x10F + 16 * n.val) [b] →
    let v := (s.wrote addr [b]).imaged (0x10F + 16 * n.val) [b]
    let code := v.dir.image.num (0x100 + 16 * n.val)
    let e := parseLine v.dir.image n
    let x := s.line n
    let fault := decide (e.mode = .faultOutput)
    let left := decide (x.entry.mode = .faultOutput) && !fault
    let filtered := if left then !e.activeHigh else x.filtered
    let alert : Bool :=
      match e.mode with
      | .alertLevel => filtered == e.activeHigh
      | .alertLatched => x.alert && (x.entry.mode == .alertLatched || x.entry.mode == .alertLevel)
      | _ => false
    let y : LineState :=
      { entry := e, raw := x.raw, filtered := filtered
        timer := if fault then none
          else if left then (if x.raw = filtered then none else some s.settings.lineFilter) else x.timer
        alert := alert
        drive := fault && (decide (0 < s.pc.faultCount) != e.activeHigh) }
    let pulse := e.mode == .minutePulse
    let w := { v.reportIf (5 ≤ code ∨ (code = 3 ∧ n ≠ 3))
          { kind := .config, sign := none, page := none, detail := n.val * 256 + code } with
        lines := s.lines.set n y
        clk := if n = 3 ∧ s.clk.pulseMode ≠ pulse then
          { s.clk with pulseMode := pulse, pulseMissing := 0, armed := pulse } else s.clk }
    let swept (u : State) : State :=
      u.evaluateEach fun g => g.entry.enabled && (x.entry.zones ||| e.zones).getLsbD g.entry.zone
    exec (.lineEntryCommit addr [b]) s = .next (State.settle
      (if s.lineReached = false then v
      else if alert ≠ x.alert then
        swept (w.report
          { kind := if alert then .alertOn else .alertOff, sign := none, page := e.alertPage, detail := n.val * 256 + 3 })
      else if alert = true ∧ (x.entry.alertPage ≠ e.alertPage ∨ x.entry.zones ≠ e.zones) then swept w
      else w))

/-- A clear of line `n`: an ACTIVE alert of a latched line becomes INACTIVE, ALERT_OFF is handed with cause 2, and every
enabled sign in the line's mask has its wanted page evaluated, in sign order; in any other case, and before the entry is
reached, the image alone takes the byte (R28, R112, R113, R115). The model's choices: log 14. -/
def Obligations.LineClearEndsALatchedAlert : Prop :=
  ∀ (s : State) (addr off : Nat) (data : List Byte) (n : LineNo), s.HostGoes .write addr data.length → data ≠ [] →
    0x100 + 16 * n.val ≤ off → off + data.length = 0x10F + 16 * n.val → s.InWindow addr off data →
    let v := (s.wrote addr data).imaged off data
    let x := s.line n
    exec (.lineClear addr data) s = .next (State.settle
      (if s.lineReached = true ∧ x.entry.mode = .alertLatched ∧ x.alert = true then
        State.evaluateEach (fun g => g.entry.enabled && x.entry.zones.getLsbD g.entry.zone)
          ({ v with lines := s.lines.set n { x with alert := false } }.report
            { kind := .alertOff, sign := none, page := x.entry.alertPage, detail := n.val * 256 + 2 })
      else v))

/-! ### Clock-set record, heartbeat word, consumer index (R21, R33, R91, R120, R174) -/

/-- A clock-set commit outside WAITING with a new sequence loads the clamped day, minute and second with the prescaler at 0,
clears UNSET, keeps the sequence, marks each enabled sign RESYNC, with its redo flag where an operation of it is in flight,
and hands CLOCK_SET with the sequence; one with the last sequence, or in WAITING, changes the image alone (R33, R34, R91,
R100). The model's choices: log 14. -/
def Obligations.ClockSetLoadsTheClock : Prop :=
  ∀ (s : State) (addr off : Nat) (data : List Byte) (hne : data ≠ []), s.HostGoes .write addr data.length →
    0x200 ≤ off → off + data.length = 0x210 → s.InWindow addr off data →
    let v := (s.wrote addr data).imaged off data
    let q := data.getLast hne
    let m := v.dir.image
    exec (.clockSetCommit addr data) s = .next (State.settle
      (if s.dir.part = .waiting ∨ s.dir.lastClockSeq = some q then v
      else
        { v with
          dir.lastClockSeq := some q
          clk := { s.clk with
            day := (m.read 0x200).toNat * 256 + (m.read 0x201).toNat
            minute := min 1439 ((m.read 0x202).toNat * 256 + (m.read 0x203).toNat)
            second := min 59 (m.read 0x204).toNat
            prescaler := 0, unset := false }
          signs := Vector.ofFn fun i =>
            if (s.sign i).entry.enabled then
              { s.sign i with
                workDue := .resync, redo := decide (s.clk.engine.sign = some i) || (s.sign i).redo }
            else s.sign i }.report
          { kind := .clockSet, sign := none, page := none, detail := q.toNat }))

/-- The heartbeat word, taken outside WAITING: a value that differs from the last becomes it; RUNNING reloads the counter;
LAPSED also returns to RUNNING with HEARTBEAT_RESTORED, detail 1, and every enabled sign's wanted page is evaluated in
sign order; OFF only keeps it. The value is the image's first byte and the byte written (R19, R21, R120, R123).
The model's choices: log 14. -/
def Obligations.HeartbeatWordServesTheHeartbeat : Prop :=
  ∀ (s : State) (addr off : Nat) (data : List Byte) (hne : data ≠ []), s.HostGoes .write addr data.length →
    0x210 ≤ off → off + data.length = 0x212 → s.InWindow addr off data →
    let v := (s.wrote addr data).imaged off data
    let value := (v.dir.image.read 0x210).toNat * 256 + (data.getLast hne).toNat
    let m := s.settings.heartbeatModulus
    exec (.heartbeatWord addr data) s = .next (State.settle
      (if s.dir.part = .waiting ∨ s.pc.hbLast = some value then v
      else
        match s.pc.hb with
        | .off => { v with pc.hbLast := some value }
        | .running => { v with pc.hbLast := some value, pc.hbCounter := m }
        | .lapsed =>
          State.evaluateEach (fun g => g.entry.enabled)
            ({ v with pc.hbLast := some value, pc.hb := .running, pc.hbCounter := m }.report
              { kind := .heartbeatRestored, sign := none, page := none, detail := 1 })))

/-- The consumer index, taken outside WAITING once the writer has a ring: it is kept modulo the ring size, and while the ring
is placed the suppression state is evaluated and ATTN follows the published unread count (R21, R174, R176, R181).
The model's choices: log 14. -/
def Obligations.ConsumerIndexIsTaken : Prop :=
  ∀ (s : State) (addr off : Nat) (data : List Byte) (hne : data ≠ []), s.HostGoes .write addr data.length →
    0x220 ≤ off → off + data.length = 0x222 → s.InWindow addr off data →
    let v := (s.wrote addr data).imaged off data
    let value := (v.dir.image.read 0x220).toNat * 256 + (data.getLast hne).toNat
    (s.dir.part = .waiting ∨ s.rw.ring = none → exec (.consumerIndex addr data) s = .next v.settle) ∧
    ∀ r, s.dir.part ≠ .waiting → s.rw.ring = some r →
      let c := value % r.size
      let w := { v with rw.ring := some { r with consumer := c } }
      exec (.consumerIndex addr data) s = .next (State.settle
        (if s.rw.placed then
          { w.evalSuppression with
            rw.attn := s.settings.attention && decide (0 < (r.published + (r.size - c % r.size)) % r.size) }
        else w))

/-! ### Sign entries (R29 to R32) -/

/-- A sign-entry commit, by the entry of the image and the applied copy. Refused for its geometry: CONFIG with detail 1 or 2,
then disabled. Enable off: disabled if it was enabled. Enable on: enabled if it was not; disabled and enabled again, each
complete before the other, where link, drop, columns, rows or page count differs; else changed in place: its wanted page is
evaluated where zone, fallback page or ghost limit differs, it is marked RESYNC, with its redo flag where an operation of
it is in flight, and its order-reported flag is cleared. Not reached, the image alone takes the bytes (R20, R29, R30, R34,
R37, R97, R100, R123). The model's choices: log 14, 30. -/
def Obligations.SignEntryCommitByCase : Prop :=
  ∀ (s : State) (addr off : Nat) (data : List Byte) (i : SignNo), s.HostGoes .write addr data.length → data ≠ [] →
    0x1000 + 16 * i.val ≤ off → off + data.length = 0x1010 + 16 * i.val → s.InWindow addr off data →
    let v := (s.wrote addr data).imaged off data
    let raw := rawSign v.dir.image i
    let e := raw.clamped
    let old := (s.sign i).entry
    let same := old.link = e.link ∧ old.drop = e.drop ∧ old.columns = e.columns ∧ old.rows = e.rows ∧
      old.pageCount = e.pageCount
    let ends (u : State) : Prop := exec (.signEntryCommit addr data) s = .next u.settle
    (s.signReached i = false → ends v) ∧
    (s.signReached i = true →
      (raw.enabled = false → ends ((if old.enabled then v.disableSign i else v).setEntry i e)) ∧
      (raw.enabled = true →
        (raw.columns = 0 ∨ raw.rows = 0 ∨ raw.pageCount = 0 →
          let r := v.report
            { kind := .config, sign := some i, page := none
              detail := if raw.columns = 0 ∨ raw.rows = 0 then 1 else 2 }
          ends ((if old.enabled then r.disableSign i else r).setEntry i { raw with enabled := false })) ∧
        (raw.columns ≠ 0 → raw.rows ≠ 0 → raw.pageCount ≠ 0 →
          (old.enabled = false → ends (v.enableSign i e)) ∧
          (old.enabled = true → ¬same → ends ((v.disableSign i).takeUp.enableSign i e)) ∧
          (old.enabled = true → same →
            let w := v.modifySign i fun g => { g with entry := e }
            let x :=
              if old.zone = e.zone ∧ old.fallback = e.fallback ∧ old.ghostLimit = e.ghostLimit then w else w.evaluate i
            ends (x.modifySign i fun g =>
              { g with
                workDue := .resync, redo := decide (s.clk.engine.sign = some i) || g.redo, orderReported := none })))))

/-- A disable drops what every block holds for the sign. Its registers: enable off, DISABLED, plan, flags, classes and
temperature ring none; slots, active, incoming and last refused page none; schedule state and rotation cleared; wanted page
none; its record due. The tile monitor takes a drop request for each slot that names a tile, in slot order. The page
loader and the schedule engine abandon what they have in flight for it, and its link drops queue place, poll, timer and
survey probe, marks an exchange in flight for it for discarding, and clears its job context, at once where none is in
flight, else when that ends; a read of each so abandoned is withdrawn, or will be discarded. The fault count and the
drives follow. All else stays: tags, partial count and generation, the link's phase, timers and pointer, other signs,
links and requests (R15, R16, R31, R44, R83, R107, R116, R117, R146, R159, R170). The model's choices: log 29. -/
def Obligations.DisableDropsTheSign : Prop :=
  ∀ (s : State) (i : SignNo),
    let u := s.disableSign i
    let g := s.sign i
    let l := g.entry.link
    let k := s.link l
    let cleared : Bool := decide ((∃ c, k.job = some c ∧ c.sign = i) ∧ ¬∃ e, k.exch = some e ∧ e.sign = i)
    let loading : Bool := decide (s.pl.loading = some i)
    let inFlight : Bool := decide (s.clk.engine.sign = some i)
    let goes (q : OwnReq) : Bool :=
      (cleared && decide (q.requester = .link l)) || (loading && decide (q.requester = .pageMap)) ||
        (inFlight && decide (q.requester = .schedule))
    let left := s.mp.waiting.filter fun q => !goes q
    let lost : Prop := g.job = .offline ∨ g.job = .panelFault
    let faults := s.pc.faultCount - 1
    u.sign i = { g with
      entry := { g.entry with enabled := false }
      job := .disabled, plan := none, forceFull := false, pendingClass := none, again := none, abort := none, ring := []
      slots := [], activePage := none, activation := .idle, incoming := none, staged := [], lastRefused := none
      rangeReported := false
      curEntry := none, nextEntry := none, rotFirst := 0, rotLast := 0, rotDwell := 0, rotPos := 0, dwellCount := 0
      workDue := .none, redo := false, orderReported := none, schedulePage := 0
      wanted := none, recordDue := true } ∧
    (∀ j, j ≠ i → u.sign j = s.sign j) ∧ (∀ m, m ≠ l → u.link m = s.link m) ∧
    u.link l = { k with
      queue := k.queue.filter (·.sign ≠ i), polls := k.polls.filter (·.sign ≠ i), refresh := k.refresh.filter (·.1 ≠ i)
      survey := k.survey.filter (·.sign ≠ i)
      exch := k.exch.map fun e => if e.sign = i then { e with discard := true } else e
      job := if cleared then none else k.job } ∧
    u.tm = (g.slots.zipIdx.foldl
      (fun v x => match x.1.tile with | some n => State.dropTile n (i, x.2) v | none => v) s).tm ∧
    u.pl = { queue := s.pl.queue.filter (· ≠ i), loading := if loading then none else s.pl.loading } ∧
    u.clk = { s.clk with engine := if inFlight then .idle else s.clk.engine } ∧
    u.mp = { s.mp with
      waiting := left
      grantCount := if left = [] ∧ (cleared || loading || inFlight) = true then 0 else s.mp.grantCount
      running := s.mp.running.map fun x => if goes x.req then { x with discard := true } else x } ∧
    (¬lost → u.pc = s.pc ∧ u.lines = s.lines) ∧
    (lost → u.pc = { s.pc with faultCount := faults } ∧
      ∀ n, u.line n = { s.line n with
        drive := decide ((s.line n).entry.mode = .faultOutput) && (decide (0 < faults) != (s.line n).entry.activeHigh) }) ∧
    u.mem = s.mem ∧ u.dir = s.dir ∧ u.rw = s.rw ∧ u.resetHeld = s.resetHeld ∧ u.pending = s.pending

/-- An enable of a sign that is DISABLED. Where another enabled sign holds its link and drop, DUPLICATE_DROP names that sign
and the sign stays DISABLED with enable off in its applied copy. Else it is SHOWN, or OFFLINE if its link is off, which
raises the fault count; FORCE_FULL is set, partial count, shown tag and generation are 0, ring and classes empty, active
page none; it is marked RESYNC and its wanted page is evaluated. No other sign is affected (R31, R32, R117, R146).
The model's choices: log 17. -/
def Obligations.EnableStartsTheSign : Prop :=
  ∀ (s : State) (i : SignNo) (e : SignEntry), (s.sign i).entry.enabled = false → (s.sign i).job = .disabled →
    e.enabled = true →
    let u := s.enableSign i e
    (∀ j, s.DropsDistinct → (s.sign j).entry.enabled = true → (s.sign j).entry.link = e.link →
      (s.sign j).entry.drop = e.drop →
        u = (s.setEntry i { e with enabled := false }).report
          { kind := .duplicateDrop, sign := some i, page := none, detail := j.val }) ∧
    ((∀ j, (s.sign j).entry.enabled = true → (s.sign j).entry.link = e.link → (s.sign j).entry.drop ≠ e.drop) →
      (u.sign i).entry = e ∧ (u.sign i).job = (if s.linkOn e.link then .shown else .offline) ∧
      (u.sign i).forceFull = true ∧ (u.sign i).partialCount = 0 ∧ (u.sign i).ring = [] ∧
      (u.sign i).pendingClass = none ∧ (u.sign i).again = none ∧ (u.sign i).abort = none ∧
      (u.sign i).shownTag = 0 ∧ (u.sign i).lastTag = 0 ∧ (u.sign i).plan = none ∧ (u.sign i).lastUpdate = none ∧
      (u.sign i).activePage = none ∧ (u.sign i).generation = 0 ∧ (u.sign i).workDue = .resync ∧
      (u.sign i).orderReported = none ∧ (u.sign i).recordDue = true ∧
      (u.sign i).wanted = some (s.wantedFor { s.sign i with entry := e }) ∧
      (∀ j, j ≠ i → u.sign j = s.sign j) ∧ u.dir = s.dir ∧ u.rw = s.rw ∧
      u.pc.faultCount = if s.linkOn e.link then s.pc.faultCount else s.pc.faultCount + 1)

/-! ### The directory load (R36 to R40, R173) -/

/-- The end of step 1's read: its bytes stand in the image. A header refused for a cause empties the part into WAITING; a
valid one is applied without regard to the restart flag, its enabled links fall into the gap with their survey timers
started, and step 2's read of the consumer index is placed (R15, R19, R35, R36, R62, R85, R108, R125, R166, R171).
The model's choices: log 14, 33. -/
def Obligations.LoadHeaderReadEnds : Prop :=
  ∀ (s : State) (bytes : List Byte), s.OwnEnds .dirHeader bytes →
    let v := s.portFreed.imaged 0 bytes
    let h := parseHeader v.dir.image
    let link (l : LinkNo) : LinkState :=
      if h.linkEnable.getLsbD l then
        { s.link l with
          phase := if (s.link l).exch.isSome then (s.link l).phase else .gap
          surveyTimer := some h.surveyInterval }
      else s.link l
    (∀ cause, headerCause s.mp.windowBase v.dir.image = some cause →
      exec .loadHeaderReadEnd s = .next (State.settle
        ((v.reportIf (v.dir.header ≠ none)
            { kind := .directoryRefused, sign := none, page := none, detail := cause }).emptiedTo
          { v.dir with header := none, part := .waiting, load := .idle }))) ∧
    (headerCause s.mp.windowBase v.dir.image = none →
      exec .loadHeaderReadEnd s = .next (State.settle { v with
        dir.header := some h
        dir.load := .consumer
        links := #v[link 0, link 1, link 2, link 3]
        mp.waiting := v.mp.waiting ++
          [{ kind := .dirConsumer, addr := (s.mp.windowBase + 0x220) % 16777216, len := 2, data := [] }] }))

/-- A valid header in WAITING starts the load: LOADING, which waits for the links, the status block due (R34, R35, R180). The
load begins at step 1 once no link has an exchange in flight and no directory read is on the memory port: the header read
is placed. Before that it does not begin (R10, R36, R40). The model's choices: log 14. -/
def Obligations.LoadsStartOnceLinksAreIdle : Prop :=
  (∀ (s : State) (addr off : Nat) (data : List Byte) (c : Instr), s.HostGoes .write addr data.length → data ≠ [] →
    off + data.length = 0x100 → s.InWindow addr off data →
    c = .headerCommit addr data ∨ c = .headerRestart addr data →
    let v := (s.wrote addr data).imaged off data
    s.dir.part = .waiting → headerCause s.mp.windowBase v.dir.image = none →
      exec c s = .next (State.settle { v with dir.part := .loading, dir.load := .awaitLinks, rw.blockDue := true })) ∧
  ∀ s : State, s.resetHeld = false → s.dir.part = .loading → s.dir.load = .awaitLinks →
    ((∀ l, (s.link l).exch = none) → s.mp.load .directory = 0 →
      exec .directoryLoadStart s = .next (State.settle { s with
        dir.load := .header
        mp.waiting := s.mp.waiting ++ [{ kind := .dirHeader, addr := s.mp.windowBase, len := 256, data := [] }] })) ∧
    (∀ l, (s.link l).exch ≠ none → exec .directoryLoadStart s = .next s)

/-- The ring of the applied header is placed once the old ring's entries and index writes have ended. A ring of the same base
and size keeps its producer index and suppression state; otherwise the producer index is the consumer index read, and
suppression is NORMAL. The published index is the producer index, an index write is owed, the suppression tests are made,
ATTN follows, and step 3's read is placed (R36, R38, R173, R176, R181). The model's choices: log 14, 22. -/
def Obligations.RingIsPlaced : Prop :=
  ∀ (s : State) (value : Nat), s.resetHeld = false → s.dir.load = .awaitRing value → s.rw.owedIndex = false →
    s.rw.entries = [] → (∀ q ∈ s.mp.waiting, q.kind ≠ .entryWrite ∧ ∀ x, q.kind ≠ .indexWrite x) →
    (∀ x, s.mp.running = some x → x.req.kind ≠ .entryWrite ∧ ∀ y, x.req.kind ≠ .indexWrite y) →
    let h := s.settings
    let c := value % h.ringSize
    let kept : Bool := match s.rw.ring with | some r => r.base == h.ringBase && r.size == h.ringSize | none => false
    let p := if kept then ((s.rw.ring.map (·.producer)).getD c) else c
    let w := State.evalSuppression { s with
      rw.ring := some { base := h.ringBase, size := h.ringSize, producer := p, published := p, consumer := c }
      rw.placed := true
      rw.owedIndex := true
      rw.suppressing := kept && s.rw.suppressing }
    exec .ringPlace s = .next (State.settle { w with
      rw.attn := h.attention && decide (0 < (p + (h.ringSize - c % h.ringSize)) % h.ringSize)
      dir.load := .lines
      mp.waiting := s.mp.waiting ++
        [{ kind := .dirLines, addr := (s.mp.windowBase + 0x100) % 16777216, len := 64, data := [] }] })

/-- The end of step 2's read: its bytes stand in the image, and the value waits for the report writer (R19, R36, R173). The
end of step 3's read: its bytes stand in the image, lines 0 to 3 are applied in order as their commits apply them, and
step 4's first read is placed (R19, R27, R36). The model's choices: log 14. -/
def Obligations.LoadConsumerAndLineTableReadEnd : Prop :=
  (∀ (s : State) (bytes : List Byte), s.OwnEnds .dirConsumer bytes →
    let v := s.portFreed.imaged 0x220 bytes
    exec .loadConsumerReadEnd s = .next (State.settle { v with
      dir.load := .awaitRing ((v.dir.image.read 0x220).toNat * 256 + (v.dir.image.read 0x221).toNat) })) ∧
  ∀ (s : State) (bytes : List Byte), s.OwnEnds .dirLines bytes →
    let v := s.portFreed.imaged 0x100 bytes
    let w := (((v.commitLine 0).commitLine 1).commitLine 2).commitLine 3
    w.mp.waiting = v.mp.waiting ∧
    exec .loadLineTableReadEnd s = .next (State.settle { w with
      dir.load := .signs 0
      mp.waiting := v.mp.waiting ++
        [{ kind := .dirSigns 0, addr := (s.mp.windowBase + 0x1000) % 16777216, len := 256, data := [] }] })

/-- The end of transaction `k` of step 4: its bytes stand in the image and its sixteen signs are applied in sign order, each
complete before the next. Before the last the next read is placed. At the last the part enters RUNNING with the status
block due, DIRECTORY_LOADED is handed with the count of enabled signs, and the heartbeat takes the modulus, RUNNING unless
it is 0 (R36, R38, R118, R180). The model's choices: log 14. -/
def Obligations.LoadSignTableReadEnds : Prop :=
  ∀ (s : State) (k : Nat) (bytes : List Byte), s.OwnEnds (.dirSigns k) bytes → k < 16 →
    let v := s.portFreed.imaged (0x1000 + 256 * k) bytes
    let w := (List.range 16).foldl
      (fun u n =>
        let c := u.commitSign (Fin.ofNat 256 (16 * k + n))
        if n < 15 then c.takeUp else c)
      v
    let m := w.settings.heartbeatModulus
    let done := State.report
      { kind := .directoryLoaded, sign := none, page := none
        detail := ((List.finRange 256).filter fun i => (w.sign i).entry.enabled).length }
      { w with dir.part := .running, dir.load := .idle, rw.blockDue := true }
    (k < 15 → exec .loadSignTableReadEnd s = .next (State.settle { w with
      dir.load := .signs (k + 1)
      mp.waiting := w.mp.waiting ++
        [{ kind := .dirSigns (k + 1), addr := (s.mp.windowBase + (0x1000 + 256 * (k + 1))) % 16777216, len := 256,
           data := [] }] })) ∧
    (k = 15 → exec .loadSignTableReadEnd s = .next (State.settle { done with
      pc := { w.pc with hb := if m = 0 then .off else .running, hbCounter := m } }))

/-! ## Reports and ATTN (chapter 9) -/

/-- A report is dropped while the ring is not placed, when no position is free, and, if routine, in SUPPRESSING; UPDATE_DONE,
PAGE_SWITCH, SIGN_ONLINE, CLOCK_SET, PULSE_CAPTURE and COLD_HOLD are routine, every other kind is priority (R178). Otherwise
it takes the producer's position with the clock as its stamp, at the tail of the pending entries, the producer index
advances, and in NORMAL the suppression test follows (R174, R175, R176). The suppression state: NORMAL becomes
SUPPRESSING when free is at or below a quarter of the ring, with SUPPRESSED handed at once; SUPPRESSING becomes NORMAL
when free is at least a half, with RESUMED; the detail is free before (R176). -/
def Obligations.ReportsAndSuppression : Prop :=
  (∀ (s : State) (rep : Report),
    ((s.rw.placed = false ∨ s.rw.ring = none) → s.report rep = s) ∧
    ∀ r, s.rw.ring = some r →
      let free := r.size - 1 - (r.producer + (r.size - r.consumer % r.size)) % r.size
      let routine : Prop := rep.kind ∈
        [ReportKind.updateDone, .pageSwitch, .signOnline, .clockSet, .pulseCapture, .coldHold]
      (free = 0 ∨ (routine ∧ s.rw.suppressing = true) → s.report rep = s) ∧
      (s.rw.placed = true → 0 < free → ¬(routine ∧ s.rw.suppressing = true) →
        let w := { s with
          rw.ring := some { r with producer := (r.producer + 1) % r.size }
          rw.entries := s.rw.entries ++
            [{ pos := r.producer, report := rep
               stamp := { day := s.clk.day, minute := s.clk.minute, second := s.clk.second } }] }
        s.report rep = if s.rw.suppressing then w else w.evalSuppression)) ∧
  ∀ (s : State) (r : Ring), s.rw.ring = some r →
    let free := r.size - 1 - (r.producer + (r.size - r.consumer % r.size)) % r.size
    (s.rw.suppressing = false →
      s.evalSuppression = if free ≤ r.size / 4 then
        { s with rw.suppressing := true }.report { kind := .suppressed, sign := none, page := none, detail := free }
      else s) ∧
    (s.rw.suppressing = true →
      s.evalSuppression = if r.size / 2 ≤ free then
        { s with rw.suppressing := false }.report { kind := .resumed, sign := none, page := none, detail := free }
      else s)

/-- The end of a report entry's write: its 16 bytes stand in memory, the entry leaves the head of the pending entries, and
an index write is owed. The end of a status record's or the block's write: its bytes stand in memory (R177). The end of the
producer index's write: its two bytes stand in memory, the published index takes the value, and ATTN is asserted exactly
while the attention enable is on, the ring is placed and the published unread count is above 0 (R177, R181). The port is
free after each, and a held host transaction may be granted (R10, R11). The model's choices: log 8, 14. -/
def Obligations.ReportWriterWritesEnd : Prop :=
  ∀ (s : State) (x : Running), s.resetHeld = false → s.mp.running = some x → x.discard = false →
    let v := s.portFreed
    (x.req.requester = .report → s.mem.wf = true → s.mem.Stored v.mem x.req.addr x.req.data) ∧
    (x.req.kind = .entryWrite →
      exec .reportEntryWriteEnd s = .next (State.settle { v with rw.entries := s.rw.entries.tail, rw.owedIndex := true })) ∧
    ((x.req.kind = .blockWrite ∨ ∃ i, x.req.kind = .recordWrite i) → exec .statusWriteEnd s = .next v.settle) ∧
    ∀ value r, x.req.kind = .indexWrite value → s.rw.ring = some r →
      exec .producerIndexWriteEnd s = .next (State.settle { v with
        rw.ring := some { r with published := value }
        rw.attn := s.settings.attention && s.rw.placed &&
          decide (0 < (value + (r.size - r.consumer % r.size)) % r.size) })

/-- What the report writer places when it has no request: an owed index write; else the head of the pending entries; else the
status block if it is due; else the record of the lowest sign whose record is due; else nothing. Each takes its fields at
the placing, clears its flag, and goes to its address (R177, R182). The bytes of an entry, with its kind's
code and grade, of a record and of the block are those of the tables, 16, 32 and 64 of them, with every unassigned byte 0
(R178, R184). A change of a field of a sign's record
sets its record due (R179). The counts per link in the block are those held (R66, R148, R180).
The model's choices: log 14, 37. -/
def Obligations.ReportWriterChoosesItsWrite : Prop :=
  (∀ s : State,
    let u := s.placeReport
    let put (kind : OwnKind) (addr : Nat) (data : List Byte) (v : State) : State := { v with
      mp.waiting := v.mp.waiting ++ [{ kind := kind, addr := addr, len := data.length, data := data }] }
    let byte (n : Nat) : Byte := BitVec.ofNat 8 n
    let word (n : Nat) : List Byte := [byte (n / 256), byte n]
    let code (k : ReportKind) : Byte := match k with
      | .updateDone => 0x01 | .pageSwitch => 0x02 | .signOnline => 0x03 | .clockSet => 0x04 | .pulseCapture => 0x05
      | .coldHold => 0x06 | .signOffline => 0x10 | .panelError => 0x11 | .refreshTimeout => 0x12 | .config => 0x13
      | .duplicateDrop => 0x14 | .slotsExhausted => 0x15 | .mapRange => 0x16 | .scheduleOrder => 0x17
      | .alertOn => 0x18 | .alertOff => 0x19 | .heartbeatLapsed => 0x1A | .heartbeatRestored => 0x1B
      | .pulseMissing => 0x1C | .suppressed => 0x1D | .resumed => 0x1E | .directoryLoaded => 0x1F
      | .directoryRefused => 0x20
    let grade (k : ReportKind) : Byte :=
      if k ∈ [ReportKind.updateDone, .pageSwitch, .signOnline, .clockSet, .pulseCapture, .coldHold] then 0 else 1
    let entry (e : PendingEntry) : List Byte :=
      [code e.report.kind, grade e.report.kind + (if e.report.sign = none then 0 else 2),
        byte ((e.report.sign.map (·.val)).getD 0), byte (e.report.page.getD 0xFF)] ++
      word e.report.detail ++ word e.stamp.day ++ word e.stamp.minute ++ [byte e.stamp.second, 0, 0, 0, 0, 0]
    let record (g : SignState) : List Byte :=
      let job : Nat := match g.job with
        | .disabled => 0 | .shown => 1 | .queued => 2 | .cold => 3 | .transfer => 4 | .refreshing => 5 | .settling => 6
        | .offline => 7 | .panelFault => 8
      let last := g.lastUpdate.getD { day := 0, minute := 0, second := 0 }
      ([byte job, byte (g.activePage.getD 0xFF), byte ((g.wanted.map (·.1)).getD 0xFF),
        match g.wanted with | none => 0 | some (_, .page) => 1 | some (_, .alert) => 2,
        byte g.shownTag, byte g.partialCount] : List Byte) ++
      word (match g.ring with | [] => 0x8000 | ring => ((ring.sum / 4) % 65536).toNat) ++
      word (g.slots.countP (·.dirty)) ++ ([if g.lastUpdate = none then 0 else 1, 0] : List Byte) ++
      word last.day ++ word last.minute ++ [byte last.second] ++ List.replicate 15 0
    let held (l : LinkNo) (j : Job) : Nat :=
      ((List.finRange 256).filter fun i => (s.sign i).entry.link == l && (s.sign i).job == j).length
    let counts (l : LinkNo) : List Byte := [byte (held l .queued), byte (held l .refreshing), byte (held l .offline)]
    let block : List Byte :=
      ([match s.dir.part with | .waiting => 0 | .loading => 1 | .running => 2, if s.clk.unset then 1 else 0] : List Byte) ++
      word s.clk.day ++ word s.clk.minute ++ ([byte s.clk.second, BitVec.ofInt 8 s.clk.lastOffset,
        match s.pc.hb with | .off => 0 | .running => 1 | .lapsed => 2, 0] : List Byte) ++
      word s.pc.hbCounter ++ word (8192 - (s.signs.toList.map (·.slots.length)).sum) ++
      word (4096 - s.tm.watch.length) ++ word s.tm.stale.length ++ counts 0 ++ counts 1 ++ counts 2 ++ counts 3 ++
      List.replicate 34 0
    (s.mp.load .report ≠ 0 → u = s) ∧
    (s.mp.load .report = 0 →
      (∀ r, s.rw.ring = some r →
        (s.rw.owedIndex = true →
          let v := match s.rw.entries with | [] => r.producer | e :: _ => e.pos
          u = put (.indexWrite v) ((s.mp.windowBase + 0x222) % 16777216) (word v) { s with rw.owedIndex := false }) ∧
        ∀ e rest, s.rw.owedIndex = false → s.rw.entries = e :: rest →
          u = put .entryWrite ((r.base + e.pos * 16) % 16777216) (entry e) s) ∧
      (s.rw.ring = none ∨ (s.rw.owedIndex = false ∧ s.rw.entries = []) →
        (s.rw.blockDue = true → u = put .blockWrite (s.mp.windowBase + 0x6000) block { s with rw.blockDue := false }) ∧
        (s.rw.blockDue = false →
          ((∀ i, (s.sign i).recordDue = false) → u = s) ∧
          ∀ i, (s.sign i).recordDue = true → (∀ j, j < i → (s.sign j).recordDue = false) →
            u = put (.recordWrite i) (s.mp.windowBase + 0x4000 + 32 * i.val) (record (s.sign i))
              (s.modifySign i fun g => { g with recordDue := false }))))) ∧
  ∀ (s : State) (i : SignNo) (f : SignState → SignState),
    let g := s.sign i
    let h := f g
    let same := h.job = g.job ∧ h.activePage = g.activePage ∧ h.wanted = g.wanted ∧ h.shownTag = g.shownTag ∧
      h.partialCount = g.partialCount ∧ h.average = g.average ∧ h.slots.countP (·.dirty) = g.slots.countP (·.dirty) ∧
      h.lastUpdate = g.lastUpdate
    (same → (s.modifySign i f).sign i = h) ∧ (¬same → (s.modifySign i f).sign i = { h with recordDue := true }) ∧
    ∀ j, j ≠ i → (s.modifySign i f).sign j = s.sign j

/-! ## Tiles and signatures (chapter 3) -/

/-- A host write inside tile `n`. Without a watch entry it acts on memory alone. With one, CLEAN becomes STALE with signature
unknown and the tile joins the stale queue's tail; COMPUTING becomes RESTALE; STALE and RESTALE stay. No slot's dirty flag
or delivered signature changes. The engine may then take the queue's head (R45, R47). The model's choices: log 14. -/
def Obligations.TileWriteByEntryState : Prop :=
  ∀ (s : State) (addr n : Nat) (data : List Byte), s.HostGoes .write addr data.length → data ≠ [] →
    (∀ k < data.length, classify s.mp.windowBase s.dir.header ((addr + k) % 16777216) = .tile n) →
    let v := s.wrote addr data
    let put (st : WatchState) (known : Bool) (queue : List Nat) : State := { v with
      tm.watch := s.tm.watch.map fun e => if e.tile = n then { e with state := st, sig := if known then e.sig else 0 } else e
      tm.stale := queue }
    let ends (u : State) : Prop := exec (.tileWrite addr data) s = .next u.settle
    ((∀ e ∈ s.tm.watch, e.tile ≠ n) → ends v) ∧
    ∀ e, s.watched n = some e →
      match e.state with
      | .clean => ends (put .stale false (s.tm.stale ++ [n]))
      | .stale => ends v
      | .computing => ends (put .restale true s.tm.stale)
      | .restale => ends v

/-- An add request links the slot into its tile's entry, whatever the entry's state, or creates a STALE entry at the queue's
tail; in a full table it is refused and changes nothing. A drop request unlinks the slot; with its last slot the entry
goes, and a STALE tile's number leaves the queue from wherever it stands. Nothing else changes (R42, R43, R44, R46).
The model's choices: log 15. -/
def Obligations.AddAndDropRequests : Prop :=
  ∀ (s : State) (n : Nat) (slot : SignNo × Nat),
    let a := s.addTile n slot
    let d := s.dropTile n slot
    { a with tm := s.tm } = s ∧ { d with tm := s.tm } = s ∧ a.tm.engine = s.tm.engine ∧ d.tm.engine = s.tm.engine ∧
    (∀ m, m ≠ n → a.watched m = s.watched m ∧ d.watched m = s.watched m) ∧
    (∀ e, s.watched n = some e →
      a.watched n = some { e with chain := slot :: e.chain } ∧ a.tm.stale = s.tm.stale ∧
      a.tm.watch.length = s.tm.watch.length ∧
      (e.chain.erase slot = [] → d.watched n = none ∧ d.tm.stale = s.tm.stale.erase n) ∧
      (e.chain.erase slot ≠ [] → d.watched n = some { e with chain := e.chain.erase slot } ∧ d.tm.stale = s.tm.stale)) ∧
    (s.watched n = none → d = s ∧
      (4096 ≤ s.tm.watch.length → a = s) ∧
      (s.tm.watch.length < 4096 →
        a.watched n = some { tile := n, state := .stale, sig := 0, chain := [slot] } ∧ a.tm.stale = s.tm.stale ++ [n] ∧
        a.tm.watch.length = s.tm.watch.length + 1))

/-- When work is taken up, at the end of every event and between the records of a command, the IDLE engine takes the stale
queue's head: the tile leaves the queue, its entry becomes COMPUTING, the engine enters FETCH and places its read of the
tile's 256 bytes. A busy engine takes nothing (R47, R48). When the read ends the engine has the bytes, A at 1 and B at 0
(R48, R50). At the completion the engine becomes IDLE; without an entry, or with a STALE or CLEAN one, the result is
discarded; a RESTALE entry becomes STALE at the queue's tail; a COMPUTING one becomes CLEAN with the signature, each slot
of its chain becomes dirty exactly where its delivered signature differs, and each sign with a dirty slot on the chain gets
a CONTENT trigger, in sign order (R49, R51, R52, R53, R54). The model's choices: log 14. -/
def Obligations.SignatureEngineCycle : Prop :=
  (∀ s : State,
    (∀ n rest, s.tm.engine = .idle → s.tm.stale = n :: rest →
      s.takeUp.tm =
        { watch := s.tm.watch.map fun e => if e.tile = n then { e with state := .computing } else e
          stale := rest, engine := .fetch n }) ∧
    (s.tm.engine ≠ .idle ∨ s.tm.stale = [] → s.takeUp.tm = s.tm) ∧
    (∀ n, s.takeUp.tm.engine = .fetch n → s.mp.load .signature = 0 →
      { kind := .sigRead, addr := (s.settings.tileBase + n * 256) % 16777216, len := 256, data := [] } ∈
        s.takeUp.mp.waiting) ∧
    s.takeAll.tm = s.takeUp.tm) ∧
  (∀ (s : State) (bytes : List Byte) (n : Nat), s.OwnEnds .sigRead bytes → s.tm.engine = .fetch n →
    exec .signatureReadEnd s = .next (State.settle { s.portFreed with tm.engine := .accumulate n bytes 1 0 })) ∧
  ∀ (s : State) (n : Nat) (bytes : List Byte) (a b : Nat), s.resetHeld = false →
    s.tm.engine = .accumulate n bytes a b →
    let v : State := { s with tm.engine := .idle }
    let sig := storedSignature (sums a b bytes)
    let put (st : WatchState) (x : Option Signature) (queue : List Nat) : State := { v with
      tm.watch := s.tm.watch.map fun e => if e.tile = n then { e with state := st, sig := x.getD e.sig } else e
      tm.stale := queue }
    let ends (u : State) : Prop := exec .signatureCompletion s = .next u.settle
    (s.watched n = none → ends v) ∧
    ∀ e, s.watched n = some e →
      match e.state with
      | .stale => ends v
      | .clean => ends v
      | .restale => ends (put .stale none (s.tm.stale ++ [n]))
      | .computing =>
        ∃ w : State, { w with signs := s.signs } = put .clean (some sig) s.tm.stale ∧
          (∀ i, { w.sign i with recordDue := (s.sign i).recordDue } =
            { s.sign i with
              slots := (s.sign i).slots.mapIdx fun k x =>
                if (i, k) ∈ e.chain then { x with dirty := decide (x.delivered ≠ sig) } else x }) ∧
          let due := (List.finRange 256).filter fun i =>
            decide (∃ x ∈ e.chain, x.1 = i ∧ (((w.sign i).slots[x.2]?).map (·.dirty)) = some true)
          ends (forSigns (fun i u => u.trigger i .content) due w)

/-- The words of a tile are taken in order, most significant byte first; A starts at 1 and B at 0, and each word steps A,
then B, modulo 65521. The sums are those of the closed form, and 0xFFFF acts as 14. The signature is B × 65536 + A, or
0xFFFFFFFF for 0, and never 0 or the BLANK code (R41, R50, R51). -/
def Obligations.SignatureArithmetic : Prop :=
  ∀ bytes : List Byte, bytes.length = 256 →
    let w (i : Nat) : Nat := (bytes[2 * i - 2]?.getD 0).toNat * 256 + (bytes[2 * i - 1]?.getD 0).toNat
    let run := (List.range 128).foldl
      (fun (ab : Nat × Nat) k =>
        let a := (ab.1 + w (k + 1)) % 65521
        (a, (ab.2 + a) % 65521))
      (1, 0)
    let a := (1 + ((List.range 128).map fun k => w (k + 1)).sum) % 65521
    let b := (128 + ((List.range 128).map fun k => (128 - k) * w (k + 1)).sum) % 65521
    sums 1 0 bytes = run ∧ run = (a, b) ∧ a < 65521 ∧ b < 65521 ∧
    (∀ x v, 65521 ≤ v → (x + v) % 65521 = (x + (v - 65521)) % 65521) ∧ (∀ x, (x + 0xFFFF) % 65521 = (x + 14) % 65521) ∧
    (a = 0 ∧ b = 0 → signatureOf bytes = 0xFFFFFFFF) ∧
    (¬(a = 0 ∧ b = 0) → (signatureOf bytes).toNat = b * 65536 + a) ∧
    signatureOf bytes ≠ 0 ∧ signatureOf bytes ≠ 0xFFFFFFFE

/-! ## Pages and the slot store (chapter 4) -/

/-- The page loader takes the head of the activation queue while no sign is LOADING_MAP and it has no map read on the memory
port. A sign whose wanted page is none or active becomes IDLE and the next is taken. Else, with N its columns × rows, where
the free slots and its own slots are fewer than N the activation is refused with cause 1 and the next is taken; else it
becomes LOADING_MAP with N unread entries, and the first map read is placed (R65, R66, R70, R72, R73, R77, R83). The end of
a page-map read: the entries it covers enter the staged map with their read flags set. After the first read of a page of
more than 128 entries the second is placed. After the last the activation is accepted when the distinct tiles that would
have no entry after a release of the present page are at most the watch entries then free, and is else refused with cause
2 (R73, R75). The model's choices: log 14. -/
def Obligations.MapReadEndDecides : Prop :=
  (∀ s : State,
    let take (u : State) : State := State.takeActivation u.pl.queue.length u
    (s.pl.loading ≠ none ∨ s.mp.load .pageMap ≠ 0 ∨ s.pl.queue = [] → take s = s) ∧
    ∀ i rest, s.pl.loading = none → s.mp.load .pageMap = 0 → s.pl.queue = i :: rest →
      let g := s.sign i
      let n := g.entry.columns * g.entry.rows
      let w := { s with pl.queue := rest }.modifySign i fun g => { g with activation := .idle }
      let free := 8192 - (s.signs.toList.map (·.slots.length)).sum
      ((∀ x, g.wanted = some x → g.activePage = some x.1) → take s = take w) ∧
      ∀ p r, g.wanted = some (p, r) → g.activePage ≠ some p →
        (free + g.slots.length < n → take s = take (w.refuseActivation i p 1)) ∧
        (n ≤ free + g.slots.length →
          take s = State.place
            { kind := .mapRead i false, addr := (s.settings.mapBase + i.val * 4096 + p * 512) % 16777216
              len := if n ≤ 128 then 2 * n else 256, data := [] }
            ({ w with pl.loading := some i }.modifySign i fun g =>
              { g with
                activation := .loadingMap, incoming := some (p, r)
                staged := List.replicate n { value := 0, read := false } }))) ∧
  ∀ (s : State) (i : SignNo) (second : Bool) (bytes : List Byte) (p : Nat) (r : Reason),
    s.OwnEnds (.mapRead i second) bytes → (s.sign i).incoming = some (p, r) →
    let g := s.sign i
    let n := g.entry.columns * g.entry.rows
    let k := if second then 128 else 0
    k + bytes.length / 2 ≤ g.staged.length →
    let staged := g.staged.mapIdx fun j x =>
      if k ≤ j ∧ j < k + bytes.length / 2 then
        { value := (bytes[2 * (j - k)]?.getD 0).toNat * 256 + (bytes[2 * (j - k) + 1]?.getD 0).toNat, read := true }
      else x
    let v := s.portFreed.modifySign i fun g => { g with staged := staged }
    let tiles := (staged.filterMap fun e => if e.value < s.settings.tileCount then some e.value else none).dedup
    let only (e : WatchEntry) : Bool := e.chain.all (·.1 = i)
    let missing := tiles.filter fun t => match s.watched t with | none => true | some e => only e
    exec .mapReadEnd s = .next (State.settle
      (if second = false ∧ 128 < n then
        v.place
          { kind := .mapRead i true, addr := (s.settings.mapBase + i.val * 4096 + p * 512 + 256) % 16777216,
            len := 2 * n - 256, data := [] }
      else if missing.length ≤ 4096 - s.tm.watch.length + s.tm.watch.countP only then v.acceptActivation i p r
      else v.refuseActivation i p 2))

/-- What ends an activation. Accepted: the page's generation rises by 1, the page is active, its slots are made from the
staged map, dirty with nothing delivered, the old slots' drop requests before the new ones' add requests; FORCE_FULL is
set; the sign is triggered with the reason's class; MAP_RANGE names the lowest slot out of range, and PAGE_SWITCH the
reason and the previous page. Refused: slots and active page stay, the page is the last refused one, and SLOTS_EXHAUSTED
is handed unless it was already. Either way the sign is queued again if its wanted page asks for another (R67, R76, R77,
R78). The model's choices: log 31. -/
def Obligations.ActivationsEnd : Prop :=
  ∀ (s : State) (i : SignNo) (p : Nat) (r : Reason) (cause : Nat),
    let g := s.sign i
    let tile (v : Nat) : Option Nat := if v < s.settings.tileCount then some v else none
    let slots := g.staged.map fun e => ({ mapValue := e.value, tile := tile e.value, delivered := 0, dirty := true } : Slot)
    let bad (v : Nat) : Bool := decide (s.settings.tileCount ≤ v ∧ v ≠ 0xFFFF)
    let range := g.staged.any (bad ·.value)
    let a := s.acceptActivation i p r
    let f := s.refuseActivation i p cause
    let wants (q : Option Nat) : Prop := ∃ w, g.wanted = some w ∧ some w.1 ≠ q
    let asks := wants g.activePage ∧ wants (some p)
    let c := (s.trigger i r.class).sign i
    ((a.sign i).activePage = some p ∧ (a.sign i).generation = g.generation + 1 ∧ (a.sign i).slots = slots ∧
      (a.sign i).rangeReported = range ∧ (a.sign i).forceFull = true ∧ (a.sign i).lastRefused = none ∧
      (a.sign i).incoming = none ∧ (a.sign i).staged = [] ∧ (a.sign i).recordDue = true ∧
      (a.sign i).entry = g.entry ∧ (a.sign i).wanted = g.wanted ∧
      (a.sign i).job = c.job ∧ (a.sign i).pendingClass = c.pendingClass ∧ (a.sign i).again = c.again ∧
      (a.sign i).abort = c.abort ∧ (a.sign i).plan = c.plan ∧
      (∀ j, j ≠ i → a.sign j = s.sign j) ∧ a.links = (s.trigger i r.class).links ∧
      a.tm = ((s.dropSlots i 0 g.slots).addSlots i 0 slots).tm ∧ a.pl.loading = none ∧
      (wants (some p) → (a.sign i).activation = .queued ∧ a.pl.queue = s.pl.queue ++ [i]) ∧
      (¬wants (some p) → (a.sign i).activation = .idle ∧ a.pl.queue = s.pl.queue) ∧
      a.rw = State.rw
        ((s.reportIf (range = true)
            { kind := .mapRange, sign := some i, page := some p, detail := g.staged.findIdx (bad ·.value) }).report
          { kind := .pageSwitch, sign := some i, page := some p,
            detail := (match r with | .page => 1 | .alert => 2) * 256 + g.activePage.getD 0xFF })) ∧
    ((f.sign i).lastRefused = some p ∧ (f.sign i).incoming = none ∧ (f.sign i).staged = [] ∧
      (f.sign i).lasting = g.lasting ∧ (∀ j, j ≠ i → f.sign j = s.sign j) ∧ f.tm = s.tm ∧ f.links = s.links ∧
      f.pl.loading = (if s.pl.loading = some i then none else s.pl.loading) ∧
      (asks → (f.sign i).activation = .queued ∧ f.pl.queue = s.pl.queue ++ [i]) ∧
      (¬asks → (f.sign i).activation = .idle ∧ f.pl.queue = s.pl.queue) ∧
      f.rw = State.rw (s.reportIf (g.lastRefused ≠ some p)
        { kind := .slotsExhausted, sign := some i, page := some p, detail := cause }))

/-- A host write of one map entry, or of one of its halves. On the incoming page's map an entry already read takes the value,
one not yet read takes nothing. On the active page's map the slot takes the value: with the same tile it changes no
further; else the old tile is dropped, the new one added, nothing is delivered, the slot is dirty and the sign gets a
CONTENT trigger; where the add is refused the slot is BLANK and SLOTS_EXHAUSTED has detail 3. An out-of-range value is
reported once. On any other page's map, or at an index without slot, memory alone changes. A burst over several whole
entries of one map takes them in travel order, and the sign gets one CONTENT trigger if any of them changed its slot's tile
(R67, R74, R79, R80, R81). The model's choices: log 14, 24, 31. -/
def Obligations.MapWriteChangesOneSlot : Prop :=
  (∀ (s : State) (addr : Nat) (data : List Byte) (i : SignNo) (p k : Nat) (hi lo : Option Byte),
    s.HostGoes .write addr data.length →
    (hi.isSome ∨ lo.isSome) → data = hi.toList ++ lo.toList →
    (∀ m < data.length, classify s.mp.windowBase s.dir.header ((addr + m) % 16777216) =
      .map i p (2 * k + (if hi.isSome then 0 else 1) + m)) →
    let g := s.sign i
    let merge (x : Nat) : Nat :=
      (match hi with | some b => b.toNat | none => x / 256 % 256) * 256 + (match lo with | some b => b.toNat | none => x % 256)
    let v := s.wrote addr data
    let w :=
      if g.incoming.map (·.1) = some p then
        v.modifySign i fun g =>
          { g with staged := g.staged.modify k fun x => if x.read then { x with value := merge x.value } else x }
      else v
    (g.activePage ≠ some p ∨ g.slots[k]? = none → exec (.mapWrite addr data) s = .next w.settle) ∧
    ∀ x, g.activePage = some p → g.slots[k]? = some x →
      let value := merge x.mapValue
      let tile := if value < s.settings.tileCount then some value else none
      let bad := s.settings.tileCount ≤ value ∧ value ≠ 0xFFFF ∧ g.rangeReported = false
      let range (u : State) : State :=
        if bad then
          (u.modifySign i fun g => { g with rangeReported := true }).report
            { kind := .mapRange, sign := some i, page := some p, detail := k }
        else u
      let change (tile : Option Nat) (u : State) : State := u.modifySign i fun g =>
        { g with slots := g.slots.modify k fun _ => { mapValue := value, tile := tile, delivered := 0, dirty := true } }
      let d := w.dropSlot x.tile (i, k)
      (value = x.mapValue → exec (.mapWrite addr data) s = .next w.settle) ∧
      (value ≠ x.mapValue → tile = x.tile → exec (.mapWrite addr data) s = .next (State.settle
        (range (w.modifySign i fun g => { g with slots := g.slots.modify k fun x => { x with mapValue := value } })))) ∧
      (value ≠ x.mapValue → tile ≠ x.tile → tile = none →
        exec (.mapWrite addr data) s = .next ((range (change none d)).trigger i .content).settle) ∧
      ∀ n, value ≠ x.mapValue → tile ≠ x.tile → tile = some n →
        (d.watched n = none ∧ 4096 ≤ d.tm.watch.length → exec (.mapWrite addr data) s = .next (State.settle
          (((change none d).report
              { kind := .slotsExhausted, sign := some i, page := some p, detail := 3 }).trigger i .content))) ∧
        (¬(d.watched n = none ∧ 4096 ≤ d.tm.watch.length) →
          exec (.mapWrite addr data) s = .next (State.settle
            ((change (some n) (d.addTile n (i, k))).trigger i .content)))) ∧
  ∀ (s : State) (addr : Nat) (data : List Byte) (i : SignNo) (p k m : Nat), s.HostGoes .write addr data.length →
    data.length = 2 * m → 0 < m →
    (∀ j < data.length, classify s.mp.windowBase s.dir.header ((addr + j) % 16777216) = .map i p (2 * k + j)) →
    let value (j : Nat) : Nat := (data[2 * j]?.getD 0).toNat * 256 + (data[2 * j + 1]?.getD 0).toNat
    let g := s.sign i
    let v := s.wrote addr data
    let w :=
      if g.incoming.map (·.1) = some p then
        v.modifySign i fun g =>
          { g with staged := g.staged.mapIdx fun q x =>
              if k ≤ q ∧ q < k + m ∧ x.read = true then { x with value := value (q - k) } else x }
      else v
    let entry (u : State) (j : Nat) : State × Bool :=
      match (u.sign i).slots[k + j]? with
      | none => (u, false)
      | some x =>
        let tile := if value j < s.settings.tileCount then some (value j) else none
        let range (u : State) : State :=
          if s.settings.tileCount ≤ value j ∧ value j ≠ 0xFFFF ∧ (u.sign i).rangeReported = false then
            (u.modifySign i fun g => { g with rangeReported := true }).report
              { kind := .mapRange, sign := some i, page := some p, detail := k + j }
          else u
        let change (tile : Option Nat) (u : State) : State := u.modifySign i fun g =>
          { g with slots := g.slots.modify (k + j) fun _ =>
              { mapValue := value j, tile := tile, delivered := 0, dirty := true } }
        let d := u.dropSlot x.tile (i, k + j)
        if value j = x.mapValue then (u, false)
        else if tile = x.tile then
          (range (u.modifySign i fun g =>
            { g with slots := g.slots.modify (k + j) fun x => { x with mapValue := value j } }), false)
        else
          match tile with
          | none => (range (change none d), true)
          | some n =>
            if d.watched n = none ∧ 4096 ≤ d.tm.watch.length then
              ((change none d).report { kind := .slotsExhausted, sign := some i, page := some p, detail := 3 }, true)
            else (change (some n) (d.addTile n (i, k + j)), true)
    let out := (List.range m).foldl (fun (x : State × Bool) j => ((entry x.1 j).1, x.2 || (entry x.1 j).2)) (w, false)
    exec (.mapWrite addr data) s = .next (State.settle
      (if g.activePage ≠ some p then w else if out.2 then out.1.trigger i .content else out.1))

/-! ## Clock and schedules (chapter 5) -/

/-- A host write inside an enabled sign's schedule list marks it RESYNC, clears its order-reported flag and, where an
operation of the sign is in flight, sets its redo flag; a disabled sign is not affected (R97, R100). When work is taken up,
the idle engine of a set clock takes the lowest-numbered enabled sign with work due, its work due becoming none and its
redo flag clear: a resync reads up to 256 bytes at the list's start, an advance its next entry and the one after; a resync
of an empty list ends at once without a candidate, and the next sign is taken. A busy engine, or UNSET, takes none (R99,
R101, R104). The page loader and the signature engine take up their work after it. The model's choices: log 14. -/
def Obligations.ScheduleWorkIsMarkedAndTaken : Prop :=
  (∀ (s : State) (addr : Nat) (data : List Byte) (i : SignNo), s.HostGoes .write addr data.length → data ≠ [] →
    (∀ k < data.length, classify s.mp.windowBase s.dir.header ((addr + k) % 16777216) = .schedule i) →
    let v := s.wrote addr data
    exec (.scheduleWrite addr data) s = .next (State.settle
      (if (s.sign i).entry.enabled then
        v.modifySign i fun g =>
          { g with workDue := .resync, redo := decide (s.clk.engine.sign = some i) || g.redo, orderReported := none }
      else v))) ∧
  (∀ (s : State) (i : SignNo), s.clk.engine = .idle → s.clk.unset = false → s.mp.load .schedule = 0 →
    (s.sign i).entry.enabled = true → (∀ j, j < i → (s.sign j).entry.enabled = true → (s.sign j).workDue = .none) →
    let g := s.sign i
    let count := g.entry.scheduleCount
    let read (kind : OwnKind) (offset len : Nat) : OwnReq :=
      { kind := kind, addr := (s.settings.schedBase + i.val * 2048 + offset) % 16777216, len := len, data := [] }
    (g.workDue = .resync → 0 < count →
      s.takeUp.clk.engine = .resync i 0 none none ∧ (s.takeUp.sign i).workDue = .none ∧
      (s.takeUp.sign i).redo = false ∧ read (.schedResync i) 0 (min 256 (8 * count)) ∈ s.takeUp.mp.waiting) ∧
    (g.workDue = .resync → count = 0 →
      s.takeUp = State.takeUp
        (State.endResync i none none (s.modifySign i fun g => { g with workDue := .none, redo := false }))) ∧
    ∀ k x, g.workDue = .advance → g.nextEntry = some (k, x) →
      s.takeUp.clk.engine = .advance i k ∧ (s.takeUp.sign i).workDue = .none ∧ (s.takeUp.sign i).redo = false ∧
      read (.schedAdvance i) (8 * k) (if k + 1 < count then 16 else 8) ∈ s.takeUp.mp.waiting) ∧
  ∀ s : State,
    s.clk.engine ≠ .idle ∨ s.clk.unset = true ∨ (∀ i, (s.sign i).entry.enabled = true → (s.sign i).workDue = .none) →
      s.takeUp = (State.takeActivation s.pl.queue.length s).takeStale.placeSignature ∧
      s.takeUp.clk = s.clk ∧ ∀ i, (s.takeUp.sign i).workDue = (s.sign i).workDue

/-- The end of a resync's read. Its entries, 8 bytes each with the minute clamped, are examined in order: an entry not later
than its predecessor ends the list there, and there is no next entry; SCHEDULE_ORDER is handed unless the order-reported
flag is set for this break, and the flag set for it unless the resync will be discarded; an entry later than now is the
next entry; the last due one is the candidate. The list ends at the schedule count now applied: no entry from it on is
examined, and a read whose entries are all due is followed by the next one, from where it ended and no further than that
count, or ends the resync at it (R96, R97, R101, R102). The model's choices: log 14, 25, 31, 32, 39. -/
def Obligations.ResyncReadIsExamined : Prop :=
  ∀ (s : State) (j i : SignNo) (bytes : List Byte) (offset : Nat) (prev : Option Nat) (cand : Option Candidate),
    s.OwnEnds (.schedResync j) bytes → s.clk.engine = .resync i offset prev cand →
    let b (n : Nat) : Nat := (bytes[n]?.getD 0).toNat
    let time (m : Nat) : Nat := (b (8 * m) * 256 + b (8 * m + 1)) * 1440 + min 1439 (b (8 * m + 2) * 256 + b (8 * m + 3))
    let entry (m : Nat) : Candidate :=
      { index := offset / 8 + m, first := b (8 * m + 4), last := b (8 * m + 5), dwell := b (8 * m + 6) * 256 + b (8 * m + 7) }
    let now := s.clk.day * 1440 + s.clk.minute
    let before (m : Nat) : Option Nat := if m = 0 then prev else some (time (m - 1))
    let best (m : Nat) : Option Candidate := if m = 0 then cand else some (entry (m - 1))
    let broken (m : Nat) : Prop := ∃ x, before m = some x ∧ time m ≤ x
    let g := s.sign i
    let count := g.entry.scheduleCount
    let n := min (bytes.length / 8) (count - offset / 8)
    let next := offset + bytes.length
    let v := s.portFreed
    let out (u : State) : Prop := exec .scheduleResyncReadEnd s = .next u.settle
    ∀ m ≤ n, (∀ q < m, ¬broken q ∧ time q ≤ now) →
      (m < n → broken m →
        let k := offset / 8 + m
        let r : Report := { kind := .scheduleOrder, sign := some i, page := none, detail := k }
        (g.orderReported = some k → out (v.endResync i (best m) none)) ∧
        (g.orderReported ≠ some k → g.redo = true → out ((v.report r).endResync i (best m) none)) ∧
        (g.orderReported ≠ some k → g.redo = false → out
          (State.endResync i (best m) none
            ((v.modifySign i fun g => { g with orderReported := some k }).report r)))) ∧
      (m < n → ¬broken m → now < time m → out (v.endResync i (best m) (some (offset / 8 + m, time m)))) ∧
      (m = n → 8 * count ≤ next → out (v.endResync i (best m) none)) ∧
      (m = n → next < 8 * count → out
        (State.place
          { kind := .schedResync i, addr := (s.settings.schedBase + i.val * 2048 + next) % 16777216,
            len := min 256 (8 * count - next), data := [] }
          { v with clk.engine := .resync i next (before m) (best m) }))

/-- The result of a resync: the engine is idle; with the redo flag set nothing else changes. Without a candidate the current
entry is none and the rotation zero; an entry that is current with the fields held keeps its rotation; any other is a
switch: its pages clamped to the sign's page count, its first page's position, the dwell count 0. The schedule page is the
rotation position, or 0 without a current entry or with UNSET (R98, R102). -/
def Obligations.ResyncResultIsApplied : Prop :=
  ∀ (s : State) (i : SignNo) (cand : Option Candidate) (next : Option (Nat × Nat)),
    let g := s.sign i
    let u := s.endResync i cand next
    let h := u.sign i
    let page (p : Nat) : Nat := min p (g.entry.pageCount - 1)
    u.clk = { s.clk with engine := .idle } ∧ (∀ j, j ≠ i → u.sign j = s.sign j) ∧ u.mp = s.mp ∧ u.rw = s.rw ∧
    (g.redo = true → u.signs = s.signs ∧ u.pl = s.pl) ∧
    (g.redo = false →
      h.nextEntry = next ∧ h.schedulePage = (if s.clk.unset || h.curEntry.isNone then 0 else h.rotPos) ∧
      h.workDue = g.workDue ∧ h.entry = g.entry ∧ h.slots = g.slots ∧ h.job = g.job ∧
      (h.schedulePage ≠ g.schedulePage → g.entry.enabled = true → h.wanted = some (u.wantedFor h)) ∧
      (h.schedulePage = g.schedulePage → h.wanted = g.wanted) ∧
      match cand with
      | none => h.curEntry = none ∧ h.rotFirst = 0 ∧ h.rotLast = 0 ∧ h.rotDwell = 0 ∧ h.rotPos = 0 ∧ h.dwellCount = 0
      | some c =>
        h.curEntry = some c.index ∧ h.rotFirst = page c.first ∧ h.rotLast = page c.last ∧ h.rotDwell = c.dwell ∧
        (if g.curEntry = some c.index ∧ g.rotFirst = page c.first ∧ g.rotLast = page c.last ∧ g.rotDwell = c.dwell then
          h.rotPos = g.rotPos ∧ h.dwellCount = g.dwellCount
        else h.rotPos = page c.first ∧ h.dwellCount = 0))

/-- The end of an advance's read. With the redo flag set its bytes are dropped. Else the entry read becomes current by a
switch; the next entry is the one after it if that is later than the entry and than now. If it is later than the entry
but due already, the sign is marked RESYNC and keeps its entry; if it is not later than the entry, SCHEDULE_ORDER is
handed unless the order-reported flag is set for this break, the flag is set for it, and there is no next entry (R97, R104). The model's choices: log 14, 31, 32. -/
def Obligations.AdvanceReadIsApplied : Prop :=
  ∀ (s : State) (j i : SignNo) (k : Nat) (bytes : List Byte), s.OwnEnds (.schedAdvance j) bytes →
    s.clk.engine = .advance i k → bytes.length = 8 ∨ bytes.length = 16 →
    let b (n : Nat) : Nat := (bytes[n]?.getD 0).toNat
    let time (m : Nat) : Nat := (b (8 * m) * 256 + b (8 * m + 1)) * 1440 + min 1439 (b (8 * m + 2) * 256 + b (8 * m + 3))
    let now := s.clk.day * 1440 + s.clk.minute
    let g := s.sign i
    let page (p : Nat) : Nat := min p (g.entry.pageCount - 1)
    let v : State := { s.portFreed with clk.engine := .idle }
    let broken := bytes.length = 16 ∧ time 1 ≤ time 0
    ∃ u : State, exec .scheduleAdvanceReadEnd s = .next u.settle ∧
      (g.redo = true → u = v) ∧
      (g.redo = false → bytes.length = 16 → time 0 < time 1 → time 1 ≤ now →
        u = v.modifySign i fun g => { g with workDue := .resync }) ∧
      (g.redo = false → ¬(bytes.length = 16 ∧ time 0 < time 1 ∧ time 1 ≤ now) →
        let h := u.sign i
        h.curEntry = some k ∧ h.rotFirst = page (b 4) ∧ h.rotLast = page (b 5) ∧ h.rotDwell = b 6 * 256 + b 7 ∧
        h.rotPos = page (b 4) ∧ h.dwellCount = 0 ∧ h.workDue = g.workDue ∧
        h.nextEntry = (if bytes.length = 16 ∧ time 0 < time 1 then some (k + 1, time 1) else none) ∧
        h.schedulePage = (if s.clk.unset then 0 else page (b 4)) ∧
        (h.schedulePage ≠ g.schedulePage → g.entry.enabled = true → h.wanted = some (u.wantedFor h)) ∧
        (∀ q, q ≠ i → u.sign q = s.sign q) ∧ u.clk = v.clk ∧ u.mp = v.mp ∧
        (broken → h.orderReported = some (k + 1)) ∧ (¬broken → h.orderReported = g.orderReported) ∧
        u.rw = State.rw (v.reportIf (broken ∧ g.orderReported ≠ some (k + 1))
          { kind := .scheduleOrder, sign := some i, page := none, detail := k + 1 }))

/-- A second tick: the prescaler returns to 0; below 59 the second rises; at 59 the tick is a minute tick, which moves the
minute and day with their carries, marks schedule work and queues the signs that want another page (R71, R88, R89, R103).
The counter of a heartbeat RUNNING in RUNNING falls; where it reaches 0 the heartbeat lapses at this tick, with
HEARTBEAT_LAPSED and an evaluation of every enabled sign's wanted page in sign order (R119, R123). In pulse mode the
pulse-missing counter rises to at most 180, and reaching it armed hands PULSE_MISSING and disarms it (R94). Each running
rotation's dwell count rises to at most its dwell while its sign is SHOWN, and the status block is due (R105, R180). The
rows MINUTE_TICK, HEARTBEAT_LAPSE and PULSE_MISSING are the tick at which each comes about.
The model's choices: log 12, 13, 14. -/
def Obligations.SecondAndMinuteTicks : Prop :=
  ∀ s : State, s.resetHeld = false →
    let base : State := { s with clk.prescaler := 0 }
    let turned := if 59 ≤ s.clk.second then base.minuteTurned else { base with clk.second := s.clk.second + 1 }
    let runs := s.dir.part = .running ∧ s.pc.hb = .running
    let lapses := runs ∧ s.pc.hbCounter ≤ 1
    let missing := s.clk.pulseMode = true ∧ s.clk.armed = true ∧ 179 ≤ s.clk.pulseMissing
    let beat : State :=
      if lapses then
        State.takeUp (State.evaluateEach (fun g => g.entry.enabled)
          ({ turned with pc.hb := .lapsed, pc.hbCounter := 0 }.report
            { kind := .heartbeatLapsed, sign := none, page := none, detail := s.settings.heartbeatModulus }))
      else if runs then { turned with pc.hbCounter := s.pc.hbCounter - 1 } else turned
    let counted : State :=
      if s.clk.pulseMode then { beat with clk.pulseMissing := min 180 (s.clk.pulseMissing + 1) } else beat
    let pulsed : State :=
      if missing then
        { counted with clk.armed := false }.report { kind := .pulseMissing, sign := none, page := none, detail := 180 }
      else counted
    let u : State := { pulsed with
      rw.blockDue := true
      signs := Vector.ofFn fun i =>
        let g := pulsed.sign i
        { g with dwellCount :=
            if g.entry.enabled = true ∧ g.job = .shown ∧ g.rotDwell ≠ 0 ∧ g.rotFirst < g.rotLast then
              min g.rotDwell (g.dwellCount + 1)
            else g.dwellCount } }
    exec .secondTick s = .next u.settle ∧
    (s.clk.second = 59 → exec .minuteTick s = .next u.settle) ∧
    (lapses → exec .heartbeatLapse s = .next u.settle) ∧
    (missing → exec .pulseMissing s = .next u.settle)

/-- What a counter's limit brings about. A running heartbeat's counter that falls to 0 lapses the heartbeat in that tick: it
is LAPSED with counter 0, HEARTBEAT_LAPSED carries the modulus, and every enabled sign's wanted page is that of a lapsed
heartbeat (R119, R122, R123). The pulse-missing counter that reaches 180 armed disarms, with PULSE_MISSING handed once
(R94). A dwell count at its dwell returns to 0 and the rotation moves one page, from its last to its first, with the
schedule page and the wanted page following (R98, R106). The model's choices: log 12, 13, 14, 31. -/
def Obligations.CountersReachTheirLimits : Prop :=
  ∀ s : State, s.resetHeld = false →
    let lapses := s.dir.part = .running ∧ s.pc.hb = .running ∧ s.pc.hbCounter ≤ 1
    let missing := s.clk.pulseMode = true ∧ s.clk.armed = true ∧ 179 ≤ s.clk.pulseMissing
    (lapses → s.clk.second < 59 →
      ∃ u : State, exec .heartbeatLapse s = .next u.settle ∧
        u.pc = { s.pc with hb := .lapsed, hbCounter := 0 } ∧
        ({ s with clk.second := s.clk.second + 1 }.report
          { kind := .heartbeatLapsed, sign := none, page := none, detail := s.settings.heartbeatModulus }).rw.entries <+:
            u.rw.entries ∧
        ∀ i, (s.sign i).entry.enabled = true → (u.sign i).wanted = some (u.wantedFor (u.sign i))) ∧
    (missing → ¬lapses → s.clk.second < 59 →
      ∃ u : State, exec .pulseMissing s = .next u.settle ∧ u.clk =
          { s.clk with second := s.clk.second + 1, prescaler := 0, pulseMissing := 180, armed := false } ∧
        u.rw = { ({ s with clk.second := s.clk.second + 1 }.report
          { kind := .pulseMissing, sign := none, page := none, detail := 180 }).rw with blockDue := true } ∧
        u.pc.hb = s.pc.hb) ∧
    ∀ i : SignNo,
      let g := s.sign i
      let next := if g.rotPos = g.rotLast then g.rotFirst else g.rotPos + 1
      let page := if s.clk.unset || g.curEntry.isNone then 0 else next
      g.entry.enabled = true → g.rotDwell ≠ 0 → g.rotFirst < g.rotLast → g.rotDwell ≤ g.dwellCount →
        ∃ u : State, exec (.rotationAdvance i) s = .next u.settle ∧ { u with signs := s.signs, pl := s.pl } = s ∧
          { u.sign i with
            rotPos := g.rotPos, dwellCount := g.dwellCount, schedulePage := g.schedulePage, wanted := g.wanted
            activation := g.activation, recordDue := g.recordDue } = g ∧
          (u.sign i).rotPos = next ∧ (u.sign i).dwellCount = 0 ∧ (u.sign i).schedulePage = page ∧
          (u.sign i).wanted = (if page = g.schedulePage then g.wanted else some (s.wantedFor (u.sign i))) ∧
          ∀ j, j ≠ i → u.sign j = s.sign j

/-! ## Lines and the wanted page (chapter 6) -/

/-- The wanted page of a sign: the page, clamped to its page count, of the lowest-numbered line whose active alert covers its
zone, with reason ALERT; else its fallback page while the heartbeat has lapsed; else its schedule page (R122). An
evaluation gives an enabled sign that page and reason, and hands it to the page loader: where the sign is IDLE and the
page differs from its active page it joins the tail of the activation queue. A disabled sign is not evaluated (R71,
R123). -/
def Obligations.WantedPageIsChosen : Prop :=
  (∀ (s : State) (g : SignState),
    (∀ n : LineNo, (s.line n).alert = true → (s.line n).entry.zones.getLsbD g.entry.zone = true →
      (∀ m, m < n → ¬((s.line m).alert = true ∧ (s.line m).entry.zones.getLsbD g.entry.zone = true)) →
        s.wantedFor g = (min ((s.line n).entry.alertPage.getD 0) (g.entry.pageCount - 1), .alert)) ∧
    ((∀ n : LineNo, ¬((s.line n).alert = true ∧ (s.line n).entry.zones.getLsbD g.entry.zone = true)) →
      s.wantedFor g = (match s.pc.hb, g.entry.fallback with | .lapsed, some p => p | _, _ => g.schedulePage, .page))) ∧
  ∀ (s : State) (i : SignNo),
    let g := s.sign i
    let w := s.modifySign i fun g => { g with wanted := some (s.wantedFor g) }
    (g.entry.enabled = false → s.evaluate i = s) ∧
    (g.entry.enabled = true → g.activation ≠ .idle ∨ g.activePage = some (s.wantedFor g).1 → s.evaluate i = w) ∧
    (g.entry.enabled = true → g.activation = .idle → g.activePage ≠ some (s.wantedFor g).1 →
      s.evaluate i =
        { w with pl.queue := s.pl.queue ++ [i] }.modifySign i fun g => { g with activation := .queued })

/-- A change of a line's raw level starts the filter where it differs from the filtered level and stops it where it does not;
in FAULT_OUTPUT the filter is held; a level that is no change acts on nothing. While RESET_N is asserted the level alone is
seen. At the filter's expiry the filtered level becomes the raw one, and the edge acts by the mode: an alert line becoming
active raises ALERT_ON, a level line becoming inactive ALERT_OFF, each with cause 1 and every covered enabled sign's wanted
page evaluated in sign order; line 3's pulse sets the clock to the nearest minute, handing on the minute tick where it
moves forward, and reports the offset (R92, R93, R94, R110, R111, R112, R115). The model's choices: log 10, 14,
18, 36. -/
def Obligations.LineEdgesActByMode : Prop :=
  (∀ (s : State) (n : LineNo) (high : Bool),
    let x := s.line n
    (s.resetHeld = true → exec (.lineLevelChange n high) s = .next { s with lines := s.lines.set n { x with raw := high } }) ∧
    (s.resetHeld = false →
      let timer :=
        if x.raw = high ∨ x.entry.mode = .faultOutput then x.timer
        else if high = x.filtered then none else some s.settings.lineFilter
      exec (.lineLevelChange n high) s =
        .next (State.settle { s with lines := s.lines.set n { x with raw := high, timer := timer } }))) ∧
  ∀ (s : State) (n : LineNo) (ms : Nat), s.resetHeld = false → (s.line n).timer = some ms →
    let x := s.line n
    let e := x.entry
    let v : State := { s with lines := s.lines.set n { x with filtered := x.raw, timer := none } }
    let active := decide (x.raw = e.activeHigh)
    let turned (on : Bool) : State :=
      State.evaluateEach (fun g => g.entry.enabled && e.zones.getLsbD g.entry.zone)
        ({ s with lines := s.lines.set n { x with filtered := x.raw, timer := none, alert := on } }.report
          { kind := if on then .alertOn else .alertOff, sign := none, page := e.alertPage, detail := n.val * 256 + 1 })
    let sec := s.clk.second
    let offset : Int := if sec < 30 then (sec : Int) else (sec : Int) - 60
    let moved := if sec < 30 then { v with clk.second := 0 } else v.minuteTurned
    let captured : State :=
      { moved with clk.prescaler := 0, clk.lastOffset := offset, clk.pulseMissing := 0, clk.armed := true }.report
        { kind := .pulseCapture, sign := none, page := none, detail := (offset % 65536).toNat }
    exec (.lineFilterExpiry n) s = .next (State.settle
      (match e.mode with
      | .alertLevel => if active = x.alert then v else turned active
      | .alertLatched => if active = true ∧ x.alert = false then turned true else v
      | .minutePulse => if active = true ∧ n = 3 then captured else v
      | .off => v
      | .faultOutput => v))

/-! ## Update jobs (chapter 7) -/

/-- A trigger of class `c`, by the job state. SHOWN, and QUEUED with a lower class: the sign is QUEUED with class c after
every sign of a class at least as high. COLD: the pending class is raised. TRANSFER, no SHOW begun, ALERT or PAGE: the
abort class is raised and, with no exchange of the job in flight, the job stops: plan dropped, FORCE_FULL set, the
pending class raised to the abort class and AGAIN, the sign queued, the job context cleared. TRANSFER otherwise,
REFRESHING, SETTLING: AGAIN is raised. DISABLED, OFFLINE, PANEL_FAULT: ignored (R127, R128, R129, R130, R131, R163). -/
def Obligations.TriggersActByJobState : Prop :=
  ∀ (s : State) (i : SignNo) (c : Machine.Class),
    let g := s.sign i
    let l := g.entry.link
    let k := s.link l
    let u := s.trigger i c
    let raised (x : Option Machine.Class) (c : Machine.Class) : Machine.Class :=
      match x with | none => c | some d => if d.rank < c.rank then c else d
    let queued (d : Machine.Class) (h : SignState) (job : Option JobCtx) : Prop :=
      let rest := k.queue.filter (·.sign ≠ i)
      { u.sign i with recordDue := g.recordDue } = { h with job := .queued, pendingClass := some d } ∧
      (∀ j, j ≠ i → u.sign j = s.sign j) ∧ (∀ m, m ≠ l → u.link m = s.link m) ∧
      u.link l = { k with
        queue := rest.takeWhile (fun e => d.rank ≤ e.cls.rank) ++ [{ sign := i, cls := d }] ++
          rest.dropWhile (fun e => d.rank ≤ e.cls.rank)
        polls := k.polls.filter (·.sign ≠ i), refresh := k.refresh.filter (·.1 ≠ i)
        survey := k.survey.filter (·.sign ≠ i), job := job }
    let joins : Prop := queued c g k.job ∧ { u with signs := s.signs, links := s.links } = s
    let begun := ∃ x, k.job = some x ∧ x.sign = i ∧ x.showSent = true
    let flying := ∃ e, k.exch = some e ∧ e.sign = i ∧ e.discard = false ∧
      (e.purpose = .jobProbe ∨ e.purpose = .jobLoad ∨ e.purpose = .jobShow)
    let again : Prop := u = s.modifySign i fun g => { g with again := some (raised g.again c) }
    match g.job with
    | .shown => joins
    | .queued =>
      ((∀ d, g.pendingClass = some d → d.rank < c.rank) → joins) ∧
      ((∃ d, g.pendingClass = some d ∧ c.rank ≤ d.rank) → u = s)
    | .cold => u = s.modifySign i fun g => { g with pendingClass := some (raised g.pendingClass c) }
    | .transfer =>
      (begun ∨ c = .recover ∨ c = .content → again) ∧
      (¬begun → (c = .alert ∨ c = .page) → flying →
        u = s.modifySign i fun g => { g with abort := some (raised g.abort c) }) ∧
      (¬begun → (c = .alert ∨ c = .page) → ¬flying →
        let b := raised g.pendingClass (raised g.abort c)
        queued (match g.again with | none => b | some e => raised (some b) e)
            { g with plan := none, forceFull := true, again := none, abort := none } none ∧
          { u with signs := s.signs, links := s.links, mp := s.mp } = s ∧
          u.mp.waiting = s.mp.waiting.filter (·.requester ≠ .link l) ∧
          u.mp.running = s.mp.running.map fun x => if x.req.requester = .link l then { x with discard := true } else x)
    | .refreshing => again
    | .settling => again
    | .disabled => u = s
    | .offline => u = s
    | .panelFault => u = s

/-! ## Links (chapter 8) -/

/-- The frames of the part byte by byte: drop, kind code, payload length, payload and CRC. A PROBE has no payload; a LOAD the
slot index, the blank flag and, unless it is set, the tile's bytes; a SHOW the mode and tag. The CRC starts at 0xFFFF and
takes every byte before it, most significant bit first: the remainder is shifted left, and combined with 0x1021 where the
bit shifted out differs from the data bit (R150, R151, R185). Of an answer ten characters are stored, no more once its
kind or length is wrong. Fewer than ten, or a wrong kind or length, is reason 4; then a CRC that differs is reason 2, a
drop that differs reason 3, and a panel state above 2 reason 4; else it is answered, the temperature a signed 16-bit
value (R152, R153, R185). On the line a character is ten levels: a low start bit, the data bits from the least significant
on, a high stop bit; a link that sends puts those of its frame on the line back to back, with SDE asserted, at the bit
rate of its rate code, and otherwise the line rests high (R149). -/
def Obligations.FramesAndAnswerTests : Prop :=
  let byte (n : Nat) : Byte := BitVec.ofNat 8 n
  let bit (crc : BitVec 16) (b : Bool) : BitVec 16 :=
    if crc.getLsbD 15 = b then crc <<< 1 else (crc <<< 1) ^^^ 0x1021
  let crc (bytes : List Byte) : Nat :=
    ((bytes.flatMap fun b => (List.range 8).map fun n => b.getLsbD (7 - n)).foldl bit 0xFFFF).toNat
  let framed (body : List Byte) : List Byte := body ++ [byte (crc body / 256), byte (crc body)]
  (∀ (k : LinkState) (e : Exchange),
    (k.phase = .sending → k.exch = some e →
      k.sde = true ∧ k.sent.length = 10 * e.frame.length ∧
      ∀ (j : Nat) (v : Byte), e.frame[j]? = some v →
        k.sent[10 * j]? = some false ∧ (∀ n < 8, k.sent[10 * j + 1 + n]? = some (v.getLsbD n)) ∧
        k.sent[10 * j + 9]? = some true) ∧
    (k.phase ≠ .sending → k.sde = false ∧ k.sent = [true]) ∧
    (e.rate = 0 → e.bitRate = 115200) ∧ (e.rate = 1 → e.bitRate = 250000) ∧ (e.rate = 2 → e.bitRate = 500000) ∧
    (e.rate = 3 → e.bitRate = 1000000)) ∧
  (∀ drop : Nat, drop < 64 →
    probeFrame drop = framed [byte drop, 0x01, 0, 0] ∧
    (∀ index : Nat, loadFrame drop index none = framed [byte drop, 0x02, 0, 2, byte index, 1]) ∧
    (∀ (index : Nat) (tile : List Byte), tile.length = 256 →
      loadFrame drop index (some tile) = framed ([byte drop, 0x02, 1, 2, byte index, 0] ++ tile)) ∧
    ∀ tag : Nat, showFrame drop .full tag = framed [byte drop, 0x03, 0, 2, 0, byte tag] ∧
      showFrame drop .part tag = framed [byte drop, 0x03, 0, 2, 1, byte tag]) ∧
  (∀ (rx : List Byte) (v : Byte),
    let wrong := (∃ k, rx[1]? = some k ∧ k ≠ 0x81) ∨ (∃ h, rx[2]? = some h ∧ h ≠ 0) ∨ (∃ l, rx[3]? = some l ∧ l ≠ 4)
    (rx.length < 4 → rx[1]? = some 0x81 ∨ rx.length < 2 → rx[2]? = some 0 ∨ rx.length < 3 →
      storeCharacter rx v = rx ++ [v]) ∧
    (4 ≤ rx.length → rx.length < 10 → ¬wrong → storeCharacter rx v = rx ++ [v]) ∧
    (wrong ∨ 10 ≤ rx.length → storeCharacter rx v = rx)) ∧
  ∀ (drop : Nat) (rx : List Byte),
    (rx.length ≠ 10 → judge drop rx = .failed 4) ∧
    ∀ d k h l p t1 t0 g c1 c0 : Byte, rx = [d, k, h, l, p, t1, t0, g, c1, c0] →
      let temp : Int := (t1.toNat : Int) * 256 + t0.toNat - (if 128 ≤ t1.toNat then 65536 else 0)
      let passes := c1.toNat * 256 + c0.toNat = crc [d, k, h, l, p, t1, t0, g]
      (¬(k = 0x81 ∧ h = 0 ∧ l = 4) → judge drop rx = .failed 4) ∧
      (k = 0x81 → h = 0 → l = 4 →
        (¬passes → judge drop rx = .failed 2) ∧
        (passes → d.toNat ≠ drop → judge drop rx = .failed 3) ∧
        (passes → d.toNat = drop → 2 < p.toNat → judge drop rx = .failed 4) ∧
        (passes → d.toNat = drop → p.toNat ≤ 2 → judge drop rx = .answered
          { state := match p.toNat with | 0 => .ready | 1 => .busy | _ => .error, temp := temp, tag := g.toNat }))

/-- An idle link serves the poll that is due earliest, of equal ones the lowest drop, with a PROBE. With no poll due and no
job it takes the head of its update queue: the sign leaves the queue and becomes TRANSFER, its abort class none, its
poll, timer and survey entries gone, and its PROBE is sent. A frame is sent at the applied rate; a first attempt has the
applied answer window, a retry the one taken when it was scheduled. A link that sends, awaits or receives, or is OFF, does
not choose (R127, R132, R154, R156, R157, R158, R169). The model's choices: log 10, 11, 14, 34. -/
def Obligations.LinkServesPollsThenNewJobs : Prop :=
  ∀ (s : State) (l : LinkNo) (t : Nat), s.resetHeld = false →
    let k := s.link l
    let drop (i : SignNo) : Nat := (s.sign i).entry.drop
    let probe (i : SignNo) (p : Purpose) (n : Nat) (window : Option Nat) (x : LinkState) : LinkState := { x with
      phase := .sending
      exch := some { sign := i, drop := drop i, purpose := p, attempt := n, frame := probeFrame (drop i),
                     rate := s.settings.rates[l], discard := false }
      window := window.getD s.settings.answerWindow }
    (k.exch ≠ none ∨ (k.phase ≠ .gap ∧ k.phase ≠ .idle) → exec (.linkIdle l t) s = .next s) ∧
    (k.exch = none → k.phase = .gap ∨ k.phase = .idle →
      (∀ p ∈ k.polls, p.passed = true →
        (∀ q ∈ k.polls, q.passed = true → q = p ∨ p.due < q.due ∨ (p.due = q.due ∧ drop p.sign < drop q.sign)) →
        exec (.linkIdle l t) s =
          .next (State.settle { s with links := s.links.set l (probe p.sign .poll (p.attempts + 1) p.window k) })) ∧
      (∀ e rest, (∀ p ∈ k.polls, p.passed = false) → k.job = none → k.queue = e :: rest →
        (s.sign e.sign).job = .queued → (s.sign e.sign).entry.link = l →
        ∃ u : State, exec (.linkIdle l t) s = .next u.settle ∧
          { u with signs := s.signs, links := s.links } = s ∧ (∀ j, j ≠ e.sign → u.sign j = s.sign j) ∧
          { u.sign e.sign with recordDue := (s.sign e.sign).recordDue } =
            { s.sign e.sign with job := .transfer, abort := none } ∧
          (∀ m, m ≠ l → u.link m = s.link m) ∧
          u.link l = probe e.sign .jobProbe 1 none { k with
            queue := k.queue.filter (·.sign ≠ e.sign)
            polls := k.polls.filter (·.sign ≠ e.sign), refresh := k.refresh.filter (·.1 ≠ e.sign)
            survey := k.survey.filter (·.sign ≠ e.sign)
            job := some { sign := e.sign, step := .probe, attempts := 0, wait := .ready, held := [], busyStart := none,
                          showSent := false, window := none } }))

/-- An idle link with no poll due carries on its job when its step is eligible: the PROBE; the LOAD of a planned slot, blank
or with the bytes held for it; the SHOW of the plan's mode and tag while the check allows it. Where the check fails, before
a first attempt below the freeze threshold the job ends as a HOLD with FORCE_FULL set, and for a PART plan that has to be
FULL it stops and is queued again; at a retry the picture is lost and the sign becomes SETTLING; each leaves the link
without job, and the choice is made again at once. With no job and no sign queued, and while the job waits for a back-off,
a busy LOAD's repeat or the bytes of its LOAD, whoever is queued, the link probes for the survey: a held probe when it is
eligible, and nothing while it backs off; else, with survey due, the sign of the first drop after the pointer that is SHOWN,
COLD, OFFLINE or PANEL_FAULT, once only for an OFFLINE one (R141, R154, R155, R156, R158, R159, R161, R162, R167).
The model's choices: log 10, 11, 14, 16, 34. -/
def Obligations.LinkCarriesOnJobsAndSurvey : Prop :=
  ∀ (s : State) (l : LinkNo) (t : Nat), s.resetHeld = false →
    let k := s.link l
    k.exch = none → k.phase = .gap ∨ k.phase = .idle → (∀ p ∈ k.polls, p.passed = false) →
    let drop (i : SignNo) : Nat := (s.sign i).entry.drop
    let send (i : SignNo) (p : Purpose) (n : Nat) (window : Option Nat) (f : List Byte) (x : LinkState) : Prop :=
      exec (.linkIdle l t) s = .next (State.settle { s with links := s.links.set l { x with
        phase := .sending
        exch := some { sign := i, drop := drop i, purpose := p, attempt := n, frame := f, rate := s.settings.rates[l],
                       discard := false }
        window := window.getD s.settings.answerWindow } })
    (∀ c, k.job = some c → c.wait = .ready →
      let g := s.sign c.sign
      let below (x : Int) : Prop := ∃ a, g.average = some a ∧ a < x
      (c.step = .probe → send c.sign .jobProbe (c.attempts + 1) c.window (probeFrame (drop c.sign)) k) ∧
      (∀ j p q, c.step = .load j → g.plan = some p → p.planned[j]? = some q →
        (q.tile = none →
          send c.sign .jobLoad (c.attempts + 1) c.window (loadFrame (drop c.sign) q.index none) k) ∧
        ∀ b, q.tile ≠ none → c.held.find? (·.1 = j) = some (j, b) →
          send c.sign .jobLoad (c.attempts + 1) c.window (loadFrame (drop c.sign) q.index (some b)) k) ∧
      ∀ p, c.step = .showStep → g.plan = some p →
        let hold := below s.settings.freezeThreshold
        let full := p.mode = .part ∧
          (g.forceFull = true ∨ g.entry.ghostLimit ≤ g.partialCount ∨ below s.settings.coldThreshold)
        (¬hold → ¬full →
          send c.sign .jobShow (c.attempts + 1) c.window (showFrame (drop c.sign) p.mode p.tag)
            { k with job := some { c with showSent := true } }) ∧
        (hold ∨ full → g.entry.link = l → g.job = .transfer →
          ∃ u : State, exec (.linkIdle l t) s = exec (.linkIdle l t) u ∧ u.resetHeld = false ∧
            (u.link l).job = none ∧ (u.link l).phase = .idle ∧ (u.link l).exch = none ∧
            (∀ j, j ≠ c.sign → u.sign j = s.sign j) ∧ (∀ m, m ≠ l → u.link m = s.link m) ∧
            (u.sign c.sign).plan = none ∧ (u.sign c.sign).forceFull = true ∧ (u.sign c.sign).again = none ∧
            (c.showSent = false → hold →
              (u.sign c.sign).job = .cold ∧ (u.sign c.sign).slots = g.slots ∧
              (u.sign c.sign).pendingClass = raise g.pendingClass g.again ∧
              u.rw = (s.report { kind := .coldHold, sign := some c.sign, page := g.activePage,
                                 detail := ((g.average.getD 0) % 65536).toNat }).rw) ∧
            (c.showSent = false → ¬hold →
              (u.sign c.sign).job = .queued ∧ (u.sign c.sign).slots = g.slots ∧ (u.sign c.sign).abort = none ∧
              (u.sign c.sign).pendingClass =
                some ((raise (raise g.pendingClass g.abort) g.again).getD .content) ∧
              (∃ e ∈ (u.link l).queue, e.sign = c.sign) ∧ u.rw = s.rw) ∧
            (c.showSent = true →
              (u.sign c.sign).job = .settling ∧ (u.sign c.sign).pendingClass = raise g.pendingClass g.again ∧
              (u.sign c.sign).slots = g.slots.map (fun x => { x with delivered := 0, dirty := true }) ∧
              (u.link l).polls = k.polls.filter (·.sign ≠ c.sign) ++
                [{ sign := c.sign, due := t + s.settings.pollInterval * 10000, passed := false, attempts := 0,
                   window := none }] ∧
              u.rw = s.rw))) ∧
    ((k.job = none ∧ k.queue = []) ∨ (∃ c, k.job = some c ∧ (c.wait ≠ .ready ∨
        ∃ j p q, c.step = .load j ∧ (s.sign c.sign).plan = some p ∧ p.planned[j]? = some q ∧ q.tile ≠ none ∧
          ∀ h ∈ c.held, h.1 ≠ j)) →
      let surveyed (i : SignNo) : Prop :=
        (s.sign i).entry.enabled = true ∧ (s.sign i).entry.link = l ∧
          ((s.sign i).job = .shown ∨ (s.sign i).job = .cold ∨ (s.sign i).job = .offline ∨ (s.sign i).job = .panelFault)
      let far (i : SignNo) : Nat := (drop i + 127 - k.surveyPointer) % 64
      (∀ v, k.survey = some v → v.wait = .ready →
        send v.sign .survey (v.attempts + 1) v.window (probeFrame (drop v.sign)) k) ∧
      (∀ v, k.survey = some v → v.wait ≠ .ready →
        exec (.linkIdle l t) s = .next (State.settle { s with links := s.links.set l { k with phase := .idle } })) ∧
      (k.survey = none → k.surveyDue = false →
        exec (.linkIdle l t) s = .next (State.settle { s with links := s.links.set l { k with phase := .idle } })) ∧
      (k.survey = none → k.surveyDue = true →
        ((∀ i, ¬surveyed i) → exec (.linkIdle l t) s =
          .next (State.settle { s with links := s.links.set l { k with phase := .idle, surveyDue := false } })) ∧
        ∀ i, surveyed i → (∀ j, surveyed j → j = i ∨ far i < far j) →
          send i .survey 1 none (probeFrame (drop i)) { k with
            surveyDue := false, surveyPointer := drop i
            survey := some
              { sign := i, attempts := 0, single := decide ((s.sign i).job = .offline), wait := .ready,
                window := none } }))

/-- The small events of a link. The frame sent: the answer window opens. A character: in the window it begins the answer, in
the answer it is stored, on an IDLE link it restarts the gap, and otherwise it is discarded. A back-off wait, a poll's due
time, a busy LOAD's wait end: the claimant is eligible. The survey timer expires: survey due is set and the timer starts
again. A tile read ends: its bytes fill a buffer of the job. At the end of every event a link whose job has LOADs to send,
a free buffer of its two and no tile read of its own places the read of the first planned tile it does not hold; a job
context whose sign has been moved to another link places none (R149, R152, R154, R157, R159, R160, R166,
R170). The model's choices: log 10, 14, 20. -/
def Obligations.LinkTimersAndCharacters : Prop :=
  (∀ (s : State) (l : LinkNo), s.resetHeld = false →
    let k := s.link l
    let ends (c : Instr) (v : State) (x : LinkState) : Prop :=
      exec c s = .next (State.settle { v with links := v.links.set l x })
    (k.phase = .sending → ends (.frameSent l) s { k with phase := .awaiting, rx := [] }) ∧
    (∀ b, ends (.characterReceived l b) s
      (match k.phase with
      | .awaiting => { k with phase := .receiving, rx := [b] }
      | .receiving => { k with rx := storeCharacter k.rx b }
      | .idle => { k with phase := .gap }
      | _ => k)) ∧
    (∀ c ms, k.job = some c → c.wait = .backoff ms →
      ends (.backoffExpiry l .job) s { k with job := some { c with wait := .ready } }) ∧
    (∀ v ms, k.survey = some v → v.wait = .backoff ms →
      ends (.backoffExpiry l .survey) s { k with survey := some { v with wait := .ready } }) ∧
    (∀ p ∈ k.polls, p.passed = false →
      let x := { k with polls := k.polls.map fun q => if q.sign = p.sign then { q with passed := true } else q }
      (0 < p.attempts → ends (.backoffExpiry l (.poll p.sign)) s x) ∧
      ((s.sign p.sign).entry.link = l → ends (.pollDue p.sign) s x)) ∧
    (∀ c ms, k.job = some c → c.wait = .busyRepeat ms →
      ends (.loadBusyRepeatDue l) s { k with job := some { c with wait := .ready } }) ∧
    (k.surveyTimer ≠ none → ends (.surveyTimerExpiry l) s
      { k with surveyTimer := some s.settings.surveyInterval, surveyDue := true }) ∧
    ∀ j bytes c, s.OwnEnds (.tileRead l j) bytes → k.job = some c →
      ends (.linkTileReadEnd l) s.portFreed { k with job := some { c with held := c.held ++ [(j, bytes)] } }) ∧
  ∀ (s : State) (l : LinkNo),
    let k := s.link l
    (s.mp.load (.link l) ≠ 0 ∨ k.job = none ∨
        (∃ c, k.job = some c ∧ (2 ≤ c.held.length ∨ (∀ j, c.step ≠ .load j) ∨ (s.sign c.sign).plan = none ∨
          (s.sign c.sign).entry.link ≠ l ∨
          ∃ j p, c.step = .load j ∧ (s.sign c.sign).plan = some p ∧
            ∀ q x, j ≤ q → p.planned[q]? = some x → x.tile = none ∨ ∃ h ∈ c.held, h.1 = q)) →
      s.placeTile l = s) ∧
    ∀ c j p q x n, s.mp.load (.link l) = 0 → k.job = some c → c.step = .load j → (s.sign c.sign).plan = some p →
      (s.sign c.sign).entry.link = l →
      c.held.length < 2 → j ≤ q → p.planned[q]? = some x → x.tile = some n → (∀ h ∈ c.held, h.1 ≠ q) →
      (∀ m y, j ≤ m → m < q → p.planned[m]? = some y → y.tile = none ∨ ∃ h ∈ c.held, h.1 = m) →
      s.placeTile l = s.place
        { kind := .tileRead l q, addr := (s.settings.tileBase + n * 256) % 16777216, len := 256, data := [] }

/-- A failed attempt: its answer window expired, reason 1, or its answer failed a test of R153, reason 2, 3 or 4.
With retries left the job's step, the poll or the survey
probe waits 5 ms × 2 to the power of the retry's number less 1, capped, and the retry keeps the answer window applied now;
a job that an abort class has stopped is queued again instead. With none left, and for the single attempt at an OFFLINE
sign, the sign is silent: OFFLINE, its plan and classes none, its picture lost unless it was in PANEL_FAULT, with
SIGN_OFFLINE by purpose and reason. A refresh timer's expiry makes its sign OFFLINE too: the planned slots lost where
the page's generation is the plan's, FORCE_FULL set, REFRESH_TIMEOUT handed (R131, R135, R136, R137, R152, R153, R154,
R155, R157, R164, R167, R168). The end of an exchange marked for discarding, by its window or by an answer, passing its
tests or not, hands nothing on: no sample, no retry, no sign changed; a job's context is cleared with its tile read, and
the link falls into its gap, or is OFF (R31, R40, R169, R170, R171). The model's choices: log 10, 14. -/
def Obligations.FailuresAreRetriedOrSilent : Prop :=
  (∀ (s : State) (l : LinkNo) (t : Nat) (e : Exchange) (event : Instr) (reason : Nat), s.resetHeld = false →
    (s.link l).exch = some e → (s.sign e.sign).entry.link = l →
    (event = .answerWindowExpiry l t ∧ (s.link l).phase = .awaiting ∧ reason = 1) ∨
      (∃ bytes, event = .stateAnswer l bytes t ∧
        ((s.link l).phase = .receiving ∨ ((s.link l).phase = .awaiting ∧ bytes ≠ [])) ∧
        judge e.drop (bytes.foldl storeCharacter (s.link l).rx) = .failed reason) →
    let k := s.link l
    let i := e.sign
    let g := s.sign i
    let x : LinkState := { k with
      phase := if s.settings.linkEnable.getLsbD l then .gap else .off, exch := none, rx := [], window := 0 }
    let put (x : LinkState) : State := { s with links := s.links.set l x }
    let limit := s.settings.retryLimit
    let wait (n : Nat) : Nat := 5 * 2 ^ min (n - 1) s.settings.backoffCap
    let lose (y : Slot) : Slot := { y with delivered := 0, dirty := true }
    let ofJob := e.purpose = .jobProbe ∨ e.purpose = .jobLoad ∨ e.purpose = .jobShow
    ∃ u : State, exec event s = .next u.settle ∧
      let silent (code : Nat) (lost : Bool) : Prop :=
        { u.sign i with recordDue := g.recordDue } = { g with
          job := .offline, plan := none, pendingClass := none, again := none, abort := none
          slots := if lost then g.slots.map lose else g.slots, forceFull := lost || g.forceFull } ∧
        (∀ j, j ≠ i → u.sign j = s.sign j) ∧
        u.rw = (s.report
          { kind := .signOffline, sign := some i, page := g.activePage, detail := code * 256 + reason }).rw ∧
        u.pc.faultCount = if g.job = .panelFault then s.pc.faultCount else s.pc.faultCount + 1
      (e.discard = false →
        (∀ c, ofJob → g.job = .transfer → k.job = some c →
          (g.abort ≠ none → (u.sign i).job = .queued ∧ (u.sign i).plan = none ∧ (u.sign i).forceFull = true ∧
            (u.sign i).abort = none ∧ (u.sign i).again = none ∧ (u.link l).job = none ∧ u.rw = s.rw) ∧
          (g.abort = none → c.attempts + 1 ≤ limit →
            u = put { x with
              job := some { c with attempts := c.attempts + 1, wait := .backoff (wait (c.attempts + 1))
                                   window := some s.settings.answerWindow } }) ∧
          (g.abort = none → limit < c.attempts + 1 → (u.link l).job = none ∧
            silent (match e.purpose with | .jobProbe => 1 | .jobLoad => 2 | _ => 3) true)) ∧
        (∀ p, e.purpose = .poll → (g.job = .refreshing ∨ g.job = .settling) → k.polls.find? (·.sign = i) = some p →
          (p.attempts + 1 ≤ limit →
            u = put { x with polls := k.polls.map fun q =>
              if q.sign = i then
                { q with attempts := q.attempts + 1, due := t + wait (q.attempts + 1) * 1000, passed := false
                         window := some s.settings.answerWindow }
              else q }) ∧
          (limit < p.attempts + 1 → (u.link l).polls = k.polls.filter (·.sign ≠ i) ∧ silent 4 true)) ∧
        (e.purpose = .poll → (∀ p ∈ k.polls, p.sign ≠ i) → u = put x) ∧
        (e.purpose = .survey → k.survey = none → u = put x) ∧
        ∀ v, e.purpose = .survey → k.survey = some v →
          (v.single = false → v.attempts + 1 ≤ limit →
            u = put { x with
              survey := some { v with attempts := v.attempts + 1, wait := .backoff (wait (v.attempts + 1))
                                      window := some s.settings.answerWindow } }) ∧
          (v.single = true ∨ limit < v.attempts + 1 →
            (u.link l).survey = none ∧
            ((g.job = .shown ∨ g.job = .cold) → silent 5 true) ∧ (g.job = .panelFault → silent 5 false) ∧
            (g.job = .offline → u = put { x with survey := none })))) ∧
  (∀ (s : State) (l : LinkNo) (t : Nat) (e : Exchange) (event : Instr), s.resetHeld = false →
    (s.link l).exch = some e → e.discard = true →
    (event = .answerWindowExpiry l t ∧ (s.link l).phase = .awaiting) ∨
      (∃ bytes, event = .stateAnswer l bytes t ∧
        ((s.link l).phase = .receiving ∨ ((s.link l).phase = .awaiting ∧ bytes ≠ []))) →
    let v : State := { s with links := s.links.set l { s.link l with
      phase := if s.settings.linkEnable.getLsbD l then .gap else .off, exch := none, rx := [], window := 0 } }
    let left := s.mp.waiting.filter (·.requester ≠ .link l)
    exec event s = .next (State.settle
      (if e.purpose = .jobProbe ∨ e.purpose = .jobLoad ∨ e.purpose = .jobShow then { v with
        links := v.links.set l { v.link l with job := none }
        mp.waiting := left
        mp.grantCount := if left = [] then 0 else s.mp.grantCount
        mp.running := s.mp.running.map fun x => if x.req.requester = .link l then { x with discard := true } else x }
      else v))) ∧
  ∀ (s : State) (i : SignNo) (p : Plan), s.resetHeld = false →
    let g := s.sign i
    let l := g.entry.link
    g.job = .refreshing → (∃ y ∈ (s.link l).refresh, y.1 = i) → g.plan = some p →
    ∃ u : State, exec (.refreshLimitExpiry i) s = .next u.settle ∧
      { u.sign i with recordDue := g.recordDue } = { g with
        job := .offline, plan := none, pendingClass := none, again := none, abort := none, forceFull := true
        slots := if g.generation = p.generation then
            g.slots.mapIdx fun k y => if ∃ q ∈ p.planned, q.index = k then { y with delivered := 0, dirty := true } else y
          else g.slots } ∧
      (∀ j, j ≠ i → u.sign j = s.sign j) ∧ (u.link l).polls = (s.link l).polls.filter (·.sign ≠ i) ∧
      (u.link l).refresh = (s.link l).refresh.filter (·.1 ≠ i) ∧ u.pc.faultCount = s.pc.faultCount + 1 ∧
      u.rw = (s.report { kind := .refreshTimeout, sign := some i, page := some p.page, detail := p.tag }).rw

/-- An answer that passes its tests ends the attempt and gives its temperature sample, clamped, to the ring: all four places
of an empty one, else over the oldest. Then it acts by the job state, the exchange and the panel state: a job's PROBE
makes the plan, or settles; a LOAD moves the job to its next step, or is repeated one poll interval later; a SHOW and a
poll of a REFRESHING sign complete the job on the plan's tag and fail it on another, or go on; a SETTLING sign is queued
again; a job with an abort class stops, its picture lost on another tag; a sign without a job, surveyed or polled too late,
keeps still on its tag, loses its picture on another, is re-checked when COLD, and returns from OFFLINE and PANEL_FAULT by
RECOVER; in any other state the sample alone counts. An ERROR makes the sign PANEL_FAULT with its picture lost (R131,
R133, R134, R135, R136, R137, R139, R158, R160, R161, R165, R168). The model's choices: log 10, 14, 23. -/
def Obligations.AnswersActByJobState : Prop :=
  ∀ (s : State) (l : LinkNo) (bytes : List Byte) (t : Nat) (e : Exchange) (a : Answer), s.resetHeld = false →
    let k := s.link l
    let i := e.sign
    let g := s.sign i
    k.phase = .receiving ∨ (k.phase = .awaiting ∧ bytes ≠ []) → k.exch = some e → e.discard = false → g.entry.link = l →
    judge e.drop (bytes.foldl storeCharacter k.rx) = .answered a →
    let temp := max (-80) (min 170 a.temp)
    let x : LinkState := { k with
      phase := if s.settings.linkEnable.getLsbD l then .gap else .off, exch := none, rx := [], window := 0 }
    let put (x : LinkState) : State := State.modifySign i
      (fun g => { g with ring := match g.ring with | [] => [temp, temp, temp, temp] | _ :: rest => rest ++ [temp] })
      { s with links := s.links.set l x }
    let polled (y : LinkState) : LinkState := { y with
      polls := y.polls.filter (·.sign ≠ i) ++
        [{ sign := i, due := t + s.settings.pollInterval * 10000, passed := false, attempts := 0, window := none }] }
    let seen (v : State) : State := if a.tag = g.shownTag then v else v.loss i (some a.tag)
    ∃ u : State, exec (.stateAnswer l bytes t) s = .next u.settle ∧
      let fault (code : Nat) (lost : Bool) : Prop :=
        (u.sign i).job = .panelFault ∧ (u.sign i).plan = none ∧ (u.sign i).pendingClass = none ∧
        (u.sign i).again = none ∧ (u.sign i).abort = none ∧
        (u.sign i).slots = (if lost then g.slots.map (fun y => { y with delivered := 0, dirty := true }) else g.slots) ∧
        (u.sign i).forceFull = (lost || g.forceFull) ∧
        u.rw = (s.report { kind := .panelError, sign := some i, page := g.activePage, detail := code * 256 }).rw
      let quiet (code : Nat) (y : LinkState) : Prop :=
        let recovers : Prop := u = State.report
          { kind := .signOnline, sign := some i, page := g.activePage, detail := a.tag }
          (((put y).loss i none).joinQueue i .recover)
        match g.job, a.state with
        | .shown, .ready =>
          u = if a.tag = g.shownTag then put y else ((put y).loss i (some a.tag)).trigger i .recover
        | .shown, .busy => u = put y
        | .shown, .error => fault code true
        | .cold, .ready =>
          u = State.coldRecheck i
            (if a.tag = g.shownTag then put y else ((put y).loss i (some a.tag)).trigger i .recover)
        | .cold, .busy => u = (put y).coldRecheck i
        | .cold, .error => fault code true
        | .offline, .ready => recovers
        | .offline, .busy => u = put y
        | .offline, .error => fault code false
        | .panelFault, .ready => recovers
        | .panelFault, _ => u = put y
        | _, _ => u = put y
      (∀ c, g.job = .transfer → g.abort = none → k.job = some c →
        (e.purpose = .jobProbe → match a.state with
          | .ready => u = (seen (put x)).makePlan i
          | .busy => (u.sign i).job = .settling ∧ (u.sign i).pendingClass = raise g.pendingClass g.again ∧
            (u.sign i).again = none ∧ (u.link l).job = none ∧ (u.link l).polls = (polled k).polls
          | .error => fault 1 true ∧ (u.link l).job = none) ∧
        (∀ j p, e.purpose = .jobLoad → c.step = .load j → g.plan = some p → match a.state with
          | .ready =>
            u = if a.tag = g.shownTag then
                put { x with job := some { c with
                  step := if j + 1 < p.planned.length then .load (j + 1) else .showStep
                  attempts := 0, wait := .ready, busyStart := none, window := none
                  held := c.held.filter (·.1 ≠ j) } }
              else ((put x).loss i (some a.tag)).stopJob i (some .recover)
          | .busy =>
            let start := c.busyStart.getD t
            (t - start < s.settings.refreshLimit * 1000000 → u = put { x with job := some { c with
              attempts := 0, wait := .busyRepeat (s.settings.pollInterval * 10), busyStart := some start
              window := none } }) ∧
            (s.settings.refreshLimit * 1000000 ≤ t - start →
              (u.sign i).job = .offline ∧ (u.sign i).plan = none ∧ (u.link l).job = none ∧
              u.rw = (s.report { kind := .signOffline, sign := some i, page := g.activePage, detail := 2 * 256 + 5 }).rw)
          | .error => fault 2 true ∧ (u.link l).job = none) ∧
        (∀ p, e.purpose = .jobShow → g.plan = some p → match a.state with
          | .ready =>
            u = (if a.tag = p.tag then (put x).complete i p else (put x).failedRefresh i a.tag).clearJob l
          | .busy => (u.sign i).job = .refreshing ∧ (u.sign i).plan = some p ∧ (u.link l).job = none ∧
            (u.link l).polls = (polled k).polls ∧
            (u.link l).refresh = k.refresh.filter (·.1 ≠ i) ++ [(i, s.settings.refreshLimit)]
          | .error => fault 3 true ∧ (u.link l).job = none)) ∧
      (g.job = .transfer → g.abort ≠ none →
        e.purpose = .jobProbe ∨ e.purpose = .jobLoad ∨ e.purpose = .jobShow → match a.state with
          | .ready => u = (seen (put x)).stopJob i none
          | .busy => u = (put x).stopJob i none
          | .error => fault (match e.purpose with | .jobProbe => 1 | .jobLoad => 2 | _ => 3) true ∧
            (u.link l).job = none) ∧
      (∀ p, g.job = .refreshing → g.plan = some p → e.purpose = .poll → match a.state with
        | .ready => u = if a.tag = p.tag then (put x).complete i p else (put x).failedRefresh i a.tag
        | .busy => u = put (polled x)
        | .error => fault 4 true) ∧
      (g.job = .settling → e.purpose = .poll → match a.state with
        | .ready =>
          let c := raise (raise g.pendingClass g.again) (if a.tag = g.shownTag then none else some .recover)
          u = State.joinQueue i (c.getD .content) ((seen (put x)).modifySign i fun g => { g with again := none })
        | .busy => u = put (polled x)
        | .error => fault 4 true) ∧
      (g.job ≠ .refreshing → g.job ≠ .settling → e.purpose = .poll → quiet 4 x) ∧
      (e.purpose = .survey → k.survey ≠ none → quiet 5 { x with survey := none }) ∧
      (e.purpose = .survey → k.survey = none → u = put x)

/-- A plan, by R138's tests in order: HOLD below the freeze threshold, NOTHING without an active page, FULL with FORCE_FULL,
NOTHING without a sendable slot, FULL at the ghost limit, below the cold threshold or above the fraction, else PART. It is
made after the pending class has been raised to AGAIN. A FULL plan lists every slot, a PART one the sendable ones, with the
signatures then held; its tag is the next after the last issued. A completion records what was delivered on the slots that
still name the planned tiles, counts partial refreshes, and queues the sign again for AGAIN or a sendable slot; a failed
refresh loses the picture and queues it under RECOVER or a higher AGAIN. A COLD sign whose average is not below the freeze
threshold joins its pending class again; any other is left (R56, R135, R138, R139, R140, R142, R143). -/
def Obligations.PlansAndCompletions : Prop :=
  ∀ (s : State) (i : SignNo),
    let g := s.sign i
    let l := g.entry.link
    let sig (tile : Option Nat) : Option Signature :=
      match tile with
      | none => some 0xFFFFFFFE
      | some n => match s.watched n with
        | some e => if e.state = .clean then some e.sig else none
        | none => none
    let sendable (x : Slot) : Bool := x.dirty && (sig x.tile).isSome
    let d := g.slots.countP sendable
    let below (x : Int) : Prop := ∃ a, g.average = some a ∧ a < x
    let u := s.makePlan i
    let hold := below s.settings.freezeThreshold
    let nothing := ¬hold ∧ (g.activePage = none ∨ (g.forceFull = false ∧ d = 0))
    let full := ¬hold ∧ g.activePage ≠ none ∧ (g.forceFull = true ∨ (0 < d ∧
      (g.entry.ghostLimit ≤ g.partialCount ∨ below s.settings.coldThreshold ∨
        g.slots.length * min s.settings.fraction 8 < 8 * d)))
    let tag := if 255 ≤ g.lastTag then 1 else g.lastTag + 1
    let planned : List PlannedSlot := (List.range g.slots.length).zipWith
      (fun k x => { index := k, tile := x.tile, sig := (sig x.tile).getD 0 }) g.slots
    let list (m : RefreshMode) : List PlannedSlot :=
      match m with
      | .full => planned
      | .part => planned.filter fun q => decide (∃ x, g.slots[q.index]? = some x ∧ sendable x = true)
    let starts (m : RefreshMode) : Prop :=
      (u.sign i).plan = some { mode := m, page := g.activePage.getD 0, generation := g.generation, tag := tag,
                               planned := list m } ∧
      (u.sign i).lastTag = tag ∧ (u.sign i).job = g.job ∧
      (u.sign i).pendingClass = raise g.pendingClass g.again ∧ (u.sign i).again = none ∧ u.rw = s.rw ∧
      (u.link l).job = (s.link l).job.map fun c => { c with step := .load 0, attempts := 0, wait := .ready, window := none }
    (hold → (u.sign i).job = .cold ∧ (u.sign i).pendingClass = raise g.pendingClass g.again ∧ (u.sign i).again = none ∧
      (u.sign i).plan = none ∧ (u.link l).job = none ∧
      u.rw = (s.report { kind := .coldHold, sign := some i, page := g.activePage,
                         detail := ((g.average.getD 0) % 65536).toNat }).rw) ∧
    (nothing → (u.sign i).job = .shown ∧ (u.sign i).pendingClass = none ∧ (u.sign i).again = none ∧
      (u.link l).job = none ∧ u.rw = s.rw) ∧
    (full → starts .full) ∧ (¬hold → ¬nothing → ¬full → starts .part) ∧
    (∀ p : Plan, (p.planned.map (·.index)).Nodup →
      let c := s.complete i p
      let same := g.generation = p.generation
      let again := g.again.isSome || (c.sign i).slots.any sendable
      (c.sign i).partialCount = (if p.mode = .full then 0 else g.partialCount + 1) ∧
      (c.sign i).forceFull = (if same then false else g.forceFull) ∧ (c.sign i).shownTag = p.tag ∧
      (c.sign i).lastUpdate = some { day := s.clk.day, minute := s.clk.minute, second := s.clk.second } ∧
      (c.sign i).plan = none ∧ (c.sign i).again = none ∧ (c.sign i).slots.length = g.slots.length ∧
      (c.sign i).job = (if again then .queued else .shown) ∧
      (c.sign i).pendingClass = (if again then some (g.again.getD .content) else none) ∧
      (¬same → (c.sign i).slots = g.slots) ∧
      (same → ∀ k x, g.slots[k]? = some x →
        (∀ q ∈ p.planned, q.index = k → q.tile = x.tile →
          (c.sign i).slots[k]? = some { x with delivered := q.sig, dirty := decide (sig x.tile ≠ some q.sig) }) ∧
        ((∀ q ∈ p.planned, q.index = k → q.tile ≠ x.tile) → (c.sign i).slots[k]? = some x)) ∧
      c.rw = (s.report { kind := .updateDone, sign := some i, page := some p.page,
                         detail := p.planned.length + (if p.mode = .part then 0x8000 else 0) }).rw) ∧
    (g.job = .cold → ¬hold → s.coldRecheck i = s.joinQueue i (g.pendingClass.getD .content)) ∧
    (g.job ≠ .cold ∨ hold → s.coldRecheck i = s) ∧
    ∀ tag : Nat,
      let f := s.failedRefresh i tag
      (f.sign i).job = .queued ∧ (f.sign i).plan = none ∧ (f.sign i).again = none ∧ (f.sign i).shownTag = tag ∧
      (f.sign i).forceFull = true ∧ (f.sign i).slots = g.slots.map (fun x => { x with delivered := 0, dirty := true }) ∧
      (f.sign i).pendingClass =
        some (match g.again with | some .alert => .alert | some .page => .page | _ => .recover) ∧
      (f.sign i).partialCount = g.partialCount ∧ f.rw = s.rw

/-! ## Promises of the whole part -/

/-- Every step keeps the stores in canonical form, the clock and the host-grant count in their ranges, every temperature
sample within −80..170, and the watch table within its capacity (R11, R42, R88, R134). -/
def Obligations.EveryStepKeepsTheRanges : Prop := ∀ s t : State, s.Sound → step s = .next t → t.Sound

/-- Every step keeps at most one own request per requester, with the directory quiet while its load waits for the ring (R10,
R173), and no two enabled signs on one link and drop (R32). -/
def Obligations.EveryStepKeepsTheUniquePlaces : Prop :=
  (∀ s t : State, s.mp.OneEach → s.RingWaitQuiet → step s = .next t → t.mp.OneEach ∧ t.RingWaitQuiet) ∧
  ∀ s t : State, s.DropsDistinct → step s = .next t → t.DropsDistinct

/-- The state after device reset keeps every promise that each step keeps. -/
def Obligations.ResetKeepsThePromises : Prop :=
  State.reset.Sound ∧ State.reset.mp.OneEach ∧ State.reset.RingWaitQuiet ∧ State.reset.DropsDistinct

/-- Every command answers a next state and leaves the queue alone. Memory changes only by a host write, by the end of a
write of the report writer, and by a reset that cuts one; the window base only at the release of RESET_N; and RESET_N is
held or released only by its own commands (R1, R2, R6, R13). What the blocks take up at the end of an event changes neither
memory, the directory, the links, the lines nor the clock's time, and of a sign only its activation, its schedule position
with what follows from it, and its record due; accepted reports and placed requests stay (R10, R47, R72, R99, R177).
The model's choices: log 2, 9, 14. -/
def Obligations.OnlyWritesChangeMemory : Prop :=
  (∀ (c : Instr) (s : State), ∃ t, exec c s = .next t ∧ t.pending = s.pending ∧
    (t.mem ≠ s.mem → (∃ addr data, c ∈ writeRows addr data) ∨ c = .reportEntryWriteEnd ∨ c = .producerIndexWriteEnd ∨
      c = .statusWriteEnd ∨ ∃ n m, c = .resetAsserted n m) ∧
    (t.mp.windowBase ≠ s.mp.windowBase → ∃ straps, c = .resetReleased straps) ∧
    (t.resetHeld ≠ s.resetHeld → (∃ straps, c = .resetReleased straps) ∨ ∃ n m, c = .resetAsserted n m)) ∧
  ∀ s : State, SameButTaken s s.takeAll
end

