-- ==== Sys2Proof/Laws/Memory.lean ====
section
/-! SUPPORT. The laws of byte stores: a read after a write, the canonical form kept by every write, and equal stores from equal
reads. -/

namespace Sys2Proof.Machine

/-- A lower bound of the listed addresses may be lowered or dropped. -/
theorem Memory.wfFrom_weaken {lo lo' : Option Nat} (h : ∀ a, (∀ l ∈ lo, l < a) → ∀ l ∈ lo', l < a) (m : Memory)
    (hm : Memory.wfFrom lo m = true) : Memory.wfFrom lo' m = true := by
  cases m with
  | nil => rfl
  | cons x rest =>
    obtain ⟨a, v⟩ := x
    simp only [Memory.wfFrom, Bool.and_eq_true, decide_eq_true_eq] at hm ⊢
    refine ⟨⟨?_, hm.1.2⟩, hm.2⟩
    have := h a (by intro l hl; cases hl; simpa using hm.1.1)
    cases lo' with
    | none => rfl
    | some l => simpa using this l rfl

/-- A write at or above the lower bound keeps the canonical form. -/
theorem Memory.wfFrom_write {lo : Option Nat} {a : Nat} (v : Byte) (ha : ∀ l ∈ lo, l < a) (m : Memory)
    (hm : Memory.wfFrom lo m = true) : Memory.wfFrom lo (m.write a v) = true := by
  induction m generalizing lo with
  | nil =>
    unfold Memory.write
    split
    · rfl
    · rename_i hv
      cases lo <;> simp_all [Memory.wfFrom]
  | cons x rest ih =>
    obtain ⟨b, w⟩ := x
    have hm' := hm
    simp only [Memory.wfFrom, Bool.and_eq_true, decide_eq_true_eq] at hm
    unfold Memory.write
    split
    · rename_i hab
      split
      · exact hm'
      · rename_i hv
        simp only [Memory.wfFrom, Bool.and_eq_true, decide_eq_true_eq]
        refine ⟨⟨?_, hv⟩, ⟨hab, hm.1.2⟩, hm.2⟩
        cases lo <;> simp_all
    · split
      · split
        · refine Memory.wfFrom_weaken ?_ rest hm.2
          intro c hc l hl
          have := hc b rfl
          cases lo with
          | none => cases hl
          | some k => cases hl; have := hm.1.1; simp at this; omega
        · rename_i hab hv
          subst hab
          simp only [Memory.wfFrom, Bool.and_eq_true, decide_eq_true_eq]
          exact ⟨⟨hm.1.1, hv⟩, hm.2⟩
      · simp only [Memory.wfFrom, Bool.and_eq_true, decide_eq_true_eq]
        exact ⟨hm.1, ih (by intro l hl; cases hl; omega) hm.2⟩

/-- Every write keeps the canonical form. -/
theorem Memory.wf_write (a : Nat) (v : Byte) (m : Memory) (hm : m.wf = true) : (m.write a v).wf = true :=
  Memory.wfFrom_write v (by intro l hl; cases hl) m hm

/-- Every burst keeps the canonical form. -/
theorem Memory.wf_writeBytes (a : Nat) (bytes : List Byte) (m : Memory) (hm : m.wf = true) :
    (m.writeBytes a bytes).wf = true := by
  induction bytes generalizing a m with
  | nil => exact hm
  | cons v rest ih => exact ih _ _ (Memory.wf_write _ _ _ hm)

/-- A listed address is above the lower bound, so an address at or below it is unlisted. -/
theorem Memory.read_of_le {lo a : Nat} (h : a ≤ lo) (m : Memory) (hm : Memory.wfFrom (some lo) m = true) :
    m.read a = Config.powerOnByte := by
  induction m generalizing lo with
  | nil => rfl
  | cons x rest ih =>
    obtain ⟨b, w⟩ := x
    simp only [Memory.wfFrom, Bool.and_eq_true, decide_eq_true_eq] at hm
    unfold Memory.read
    rw [if_neg (by omega)]
    exact ih (by omega) hm.2

/-- A read after a write, on a store in canonical form: the byte written at its address, the old byte elsewhere. -/
theorem Memory.read_write (a : Nat) (v : Byte) (m : Memory) (hm : m.wf = true) (c : Nat) :
    (m.write a v).read c = if c = a then v else m.read c := by
  suffices ∀ lo, Memory.wfFrom lo m = true → (m.write a v).read c = if c = a then v else m.read c from this _ hm
  clear hm
  intro lo hm
  induction m generalizing lo with
  | nil =>
    unfold Memory.write
    by_cases hv : v = 0#8 <;> by_cases hc : c = a <;> simp [hv, hc, Memory.read]
  | cons x rest ih =>
    obtain ⟨b, w⟩ := x
    simp only [Memory.wfFrom, Bool.and_eq_true, decide_eq_true_eq] at hm
    unfold Memory.write
    by_cases hab : a < b
    · rw [if_pos hab]
      by_cases hv : v = Config.powerOnByte
      · rw [if_pos hv]
        by_cases hc : c = a
        · rw [if_pos hc, hc, hv]
          simp only [Memory.read]
          rw [if_neg (by omega)]
          exact Memory.read_of_le (by omega) rest hm.2
        · rw [if_neg hc]
      · rw [if_neg hv]
        simp only [Memory.read]
    · rw [if_neg hab]
      by_cases hab' : a = b
      · rw [if_pos hab']
        subst hab'
        by_cases hv : v = Config.powerOnByte
        · rw [if_pos hv]
          by_cases hc : c = a
          · rw [if_pos hc, hc, hv]
            exact Memory.read_of_le (le_refl _) rest hm.2
          · simp [Memory.read, hc]
        · rw [if_neg hv]
          by_cases hc : c = a <;> simp [Memory.read, hc]
      · rw [if_neg hab']
        simp only [Memory.read]
        rw [ih _ hm.2]
        by_cases hcb : c = b
        · simp only [hcb, if_true]
          rw [if_neg (by omega)]
        · simp [hcb]

/-- The byte a burst leaves at an address: one outside it reads as before. -/
theorem Memory.read_writeBytes_outside (a : Nat) (bytes : List Byte) (m : Memory) (hm : m.wf = true) (c : Nat)
    (h : ∀ k < bytes.length, c ≠ (a + k) % Config.memorySize) : (m.writeBytes a bytes).read c = m.read c := by
  induction bytes generalizing a m with
  | nil => rfl
  | cons v rest ih =>
    show (Memory.writeBytes (a + 1) rest _).read c = _
    rw [ih _ _ (Memory.wf_write _ _ _ hm), Memory.read_write _ _ _ hm, if_neg]
    · simpa using h 0 (by simp)
    · intro k hk
      have := h (k + 1) (by simpa using hk)
      rwa [show a + 1 + k = a + (k + 1) by omega]

/-- The last pass of a burst over an address leaves its byte there (R4). -/
theorem Memory.read_writeBytes_inside (a : Nat) (bytes : List Byte) (m : Memory) (hm : m.wf = true) (k : Nat)
    (hk : k < bytes.length) (hlen : bytes.length ≤ k + Config.memorySize) :
    (m.writeBytes a bytes).read ((a + k) % Config.memorySize) = bytes[k] := by
  induction bytes generalizing a m k with
  | nil => simp at hk
  | cons v rest ih =>
    show (Memory.writeBytes (a + 1) rest _).read _ = _
    cases k with
    | zero =>
      rw [Memory.read_writeBytes_outside _ _ _ (Memory.wf_write _ _ _ hm), Memory.read_write _ _ _ hm]
      · simp
      · intro j hj
        simp only [List.length_cons, Config.memorySize] at *
        omega
    | succ k =>
      have := ih (a + 1) (m.write (a % Config.memorySize) v) (Memory.wf_write _ _ _ hm) k (by simpa using hk)
        (by simp only [List.length_cons] at hlen; omega)
      rw [show a + (k + 1) = a + 1 + k by omega]
      simpa using this

end Sys2Proof.Machine
end

