-- ==== Sys2Proof/Laws/State.lean ====
section
/-! SUPPORT. What each named update of the state leaves, field by field; reading one sign, link or line after an update of
one. -/

namespace Sys2Proof.Machine

/-! ### setLink -/

@[simp] theorem State.setLink_pending (l : LinkNo) (x : LinkState) (s : State) : (s.setLink l x).pending = s.pending := rfl
@[simp] theorem State.setLink_resetHeld (l : LinkNo) (x : LinkState) (s : State) : (s.setLink l x).resetHeld = s.resetHeld := rfl
@[simp] theorem State.setLink_mem (l : LinkNo) (x : LinkState) (s : State) : (s.setLink l x).mem = s.mem := rfl
@[simp] theorem State.setLink_mp (l : LinkNo) (x : LinkState) (s : State) : (s.setLink l x).mp = s.mp := rfl
@[simp] theorem State.setLink_dir (l : LinkNo) (x : LinkState) (s : State) : (s.setLink l x).dir = s.dir := rfl
@[simp] theorem State.setLink_tm (l : LinkNo) (x : LinkState) (s : State) : (s.setLink l x).tm = s.tm := rfl
@[simp] theorem State.setLink_pl (l : LinkNo) (x : LinkState) (s : State) : (s.setLink l x).pl = s.pl := rfl
@[simp] theorem State.setLink_clk (l : LinkNo) (x : LinkState) (s : State) : (s.setLink l x).clk = s.clk := rfl
@[simp] theorem State.setLink_pc (l : LinkNo) (x : LinkState) (s : State) : (s.setLink l x).pc = s.pc := rfl
@[simp] theorem State.setLink_rw (l : LinkNo) (x : LinkState) (s : State) : (s.setLink l x).rw = s.rw := rfl
@[simp] theorem State.setLink_lines (l : LinkNo) (x : LinkState) (s : State) : (s.setLink l x).lines = s.lines := rfl
@[simp] theorem State.setLink_signs (l : LinkNo) (x : LinkState) (s : State) : (s.setLink l x).signs = s.signs := rfl

/-! ### setLine -/

@[simp] theorem State.setLine_pending (n : LineNo) (x : LineState) (s : State) : (s.setLine n x).pending = s.pending := rfl
@[simp] theorem State.setLine_resetHeld (n : LineNo) (x : LineState) (s : State) : (s.setLine n x).resetHeld = s.resetHeld := rfl
@[simp] theorem State.setLine_mem (n : LineNo) (x : LineState) (s : State) : (s.setLine n x).mem = s.mem := rfl
@[simp] theorem State.setLine_mp (n : LineNo) (x : LineState) (s : State) : (s.setLine n x).mp = s.mp := rfl
@[simp] theorem State.setLine_dir (n : LineNo) (x : LineState) (s : State) : (s.setLine n x).dir = s.dir := rfl
@[simp] theorem State.setLine_tm (n : LineNo) (x : LineState) (s : State) : (s.setLine n x).tm = s.tm := rfl
@[simp] theorem State.setLine_pl (n : LineNo) (x : LineState) (s : State) : (s.setLine n x).pl = s.pl := rfl
@[simp] theorem State.setLine_clk (n : LineNo) (x : LineState) (s : State) : (s.setLine n x).clk = s.clk := rfl
@[simp] theorem State.setLine_pc (n : LineNo) (x : LineState) (s : State) : (s.setLine n x).pc = s.pc := rfl
@[simp] theorem State.setLine_rw (n : LineNo) (x : LineState) (s : State) : (s.setLine n x).rw = s.rw := rfl
@[simp] theorem State.setLine_links (n : LineNo) (x : LineState) (s : State) : (s.setLine n x).links = s.links := rfl
@[simp] theorem State.setLine_signs (n : LineNo) (x : LineState) (s : State) : (s.setLine n x).signs = s.signs := rfl

/-! ### modifyLink -/

@[simp] theorem State.modifyLink_pending (l : LinkNo) (f : LinkState → LinkState) (s : State) : (s.modifyLink l f).pending = s.pending := rfl
@[simp] theorem State.modifyLink_resetHeld (l : LinkNo) (f : LinkState → LinkState) (s : State) : (s.modifyLink l f).resetHeld = s.resetHeld := rfl
@[simp] theorem State.modifyLink_mem (l : LinkNo) (f : LinkState → LinkState) (s : State) : (s.modifyLink l f).mem = s.mem := rfl
@[simp] theorem State.modifyLink_mp (l : LinkNo) (f : LinkState → LinkState) (s : State) : (s.modifyLink l f).mp = s.mp := rfl
@[simp] theorem State.modifyLink_dir (l : LinkNo) (f : LinkState → LinkState) (s : State) : (s.modifyLink l f).dir = s.dir := rfl
@[simp] theorem State.modifyLink_tm (l : LinkNo) (f : LinkState → LinkState) (s : State) : (s.modifyLink l f).tm = s.tm := rfl
@[simp] theorem State.modifyLink_pl (l : LinkNo) (f : LinkState → LinkState) (s : State) : (s.modifyLink l f).pl = s.pl := rfl
@[simp] theorem State.modifyLink_clk (l : LinkNo) (f : LinkState → LinkState) (s : State) : (s.modifyLink l f).clk = s.clk := rfl
@[simp] theorem State.modifyLink_pc (l : LinkNo) (f : LinkState → LinkState) (s : State) : (s.modifyLink l f).pc = s.pc := rfl
@[simp] theorem State.modifyLink_rw (l : LinkNo) (f : LinkState → LinkState) (s : State) : (s.modifyLink l f).rw = s.rw := rfl
@[simp] theorem State.modifyLink_lines (l : LinkNo) (f : LinkState → LinkState) (s : State) : (s.modifyLink l f).lines = s.lines := rfl
@[simp] theorem State.modifyLink_signs (l : LinkNo) (f : LinkState → LinkState) (s : State) : (s.modifyLink l f).signs = s.signs := rfl

/-! ### modifyLine -/

@[simp] theorem State.modifyLine_pending (n : LineNo) (f : LineState → LineState) (s : State) : (s.modifyLine n f).pending = s.pending := rfl
@[simp] theorem State.modifyLine_resetHeld (n : LineNo) (f : LineState → LineState) (s : State) : (s.modifyLine n f).resetHeld = s.resetHeld := rfl
@[simp] theorem State.modifyLine_mem (n : LineNo) (f : LineState → LineState) (s : State) : (s.modifyLine n f).mem = s.mem := rfl
@[simp] theorem State.modifyLine_mp (n : LineNo) (f : LineState → LineState) (s : State) : (s.modifyLine n f).mp = s.mp := rfl
@[simp] theorem State.modifyLine_dir (n : LineNo) (f : LineState → LineState) (s : State) : (s.modifyLine n f).dir = s.dir := rfl
@[simp] theorem State.modifyLine_tm (n : LineNo) (f : LineState → LineState) (s : State) : (s.modifyLine n f).tm = s.tm := rfl
@[simp] theorem State.modifyLine_pl (n : LineNo) (f : LineState → LineState) (s : State) : (s.modifyLine n f).pl = s.pl := rfl
@[simp] theorem State.modifyLine_clk (n : LineNo) (f : LineState → LineState) (s : State) : (s.modifyLine n f).clk = s.clk := rfl
@[simp] theorem State.modifyLine_pc (n : LineNo) (f : LineState → LineState) (s : State) : (s.modifyLine n f).pc = s.pc := rfl
@[simp] theorem State.modifyLine_rw (n : LineNo) (f : LineState → LineState) (s : State) : (s.modifyLine n f).rw = s.rw := rfl
@[simp] theorem State.modifyLine_links (n : LineNo) (f : LineState → LineState) (s : State) : (s.modifyLine n f).links = s.links := rfl
@[simp] theorem State.modifyLine_signs (n : LineNo) (f : LineState → LineState) (s : State) : (s.modifyLine n f).signs = s.signs := rfl

/-! ### modifySign -/

@[simp] theorem State.modifySign_pending (i : SignNo) (f : SignState → SignState) (s : State) : (s.modifySign i f).pending = s.pending := rfl
@[simp] theorem State.modifySign_resetHeld (i : SignNo) (f : SignState → SignState) (s : State) : (s.modifySign i f).resetHeld = s.resetHeld := rfl
@[simp] theorem State.modifySign_mem (i : SignNo) (f : SignState → SignState) (s : State) : (s.modifySign i f).mem = s.mem := rfl
@[simp] theorem State.modifySign_mp (i : SignNo) (f : SignState → SignState) (s : State) : (s.modifySign i f).mp = s.mp := rfl
@[simp] theorem State.modifySign_dir (i : SignNo) (f : SignState → SignState) (s : State) : (s.modifySign i f).dir = s.dir := rfl
@[simp] theorem State.modifySign_tm (i : SignNo) (f : SignState → SignState) (s : State) : (s.modifySign i f).tm = s.tm := rfl
@[simp] theorem State.modifySign_pl (i : SignNo) (f : SignState → SignState) (s : State) : (s.modifySign i f).pl = s.pl := rfl
@[simp] theorem State.modifySign_clk (i : SignNo) (f : SignState → SignState) (s : State) : (s.modifySign i f).clk = s.clk := rfl
@[simp] theorem State.modifySign_pc (i : SignNo) (f : SignState → SignState) (s : State) : (s.modifySign i f).pc = s.pc := rfl
@[simp] theorem State.modifySign_rw (i : SignNo) (f : SignState → SignState) (s : State) : (s.modifySign i f).rw = s.rw := rfl
@[simp] theorem State.modifySign_lines (i : SignNo) (f : SignState → SignState) (s : State) : (s.modifySign i f).lines = s.lines := rfl
@[simp] theorem State.modifySign_links (i : SignNo) (f : SignState → SignState) (s : State) : (s.modifySign i f).links = s.links := rfl

/-! ### place -/

@[simp] theorem State.place_pending (q : OwnReq) (s : State) : (s.place q).pending = s.pending := rfl
@[simp] theorem State.place_resetHeld (q : OwnReq) (s : State) : (s.place q).resetHeld = s.resetHeld := rfl
@[simp] theorem State.place_mem (q : OwnReq) (s : State) : (s.place q).mem = s.mem := rfl
@[simp] theorem State.place_dir (q : OwnReq) (s : State) : (s.place q).dir = s.dir := rfl
@[simp] theorem State.place_tm (q : OwnReq) (s : State) : (s.place q).tm = s.tm := rfl
@[simp] theorem State.place_pl (q : OwnReq) (s : State) : (s.place q).pl = s.pl := rfl
@[simp] theorem State.place_clk (q : OwnReq) (s : State) : (s.place q).clk = s.clk := rfl
@[simp] theorem State.place_pc (q : OwnReq) (s : State) : (s.place q).pc = s.pc := rfl
@[simp] theorem State.place_rw (q : OwnReq) (s : State) : (s.place q).rw = s.rw := rfl
@[simp] theorem State.place_lines (q : OwnReq) (s : State) : (s.place q).lines = s.lines := rfl
@[simp] theorem State.place_links (q : OwnReq) (s : State) : (s.place q).links = s.links := rfl
@[simp] theorem State.place_signs (q : OwnReq) (s : State) : (s.place q).signs = s.signs := rfl

/-! ### withdraw -/

@[simp] theorem State.withdraw_pending (rs : Requester → Bool) (s : State) : (s.withdraw rs).pending = s.pending := rfl
@[simp] theorem State.withdraw_resetHeld (rs : Requester → Bool) (s : State) : (s.withdraw rs).resetHeld = s.resetHeld := rfl
@[simp] theorem State.withdraw_mem (rs : Requester → Bool) (s : State) : (s.withdraw rs).mem = s.mem := rfl
@[simp] theorem State.withdraw_dir (rs : Requester → Bool) (s : State) : (s.withdraw rs).dir = s.dir := rfl
@[simp] theorem State.withdraw_tm (rs : Requester → Bool) (s : State) : (s.withdraw rs).tm = s.tm := rfl
@[simp] theorem State.withdraw_pl (rs : Requester → Bool) (s : State) : (s.withdraw rs).pl = s.pl := rfl
@[simp] theorem State.withdraw_clk (rs : Requester → Bool) (s : State) : (s.withdraw rs).clk = s.clk := rfl
@[simp] theorem State.withdraw_pc (rs : Requester → Bool) (s : State) : (s.withdraw rs).pc = s.pc := rfl
@[simp] theorem State.withdraw_rw (rs : Requester → Bool) (s : State) : (s.withdraw rs).rw = s.rw := rfl
@[simp] theorem State.withdraw_lines (rs : Requester → Bool) (s : State) : (s.withdraw rs).lines = s.lines := rfl
@[simp] theorem State.withdraw_links (rs : Requester → Bool) (s : State) : (s.withdraw rs).links = s.links := rfl
@[simp] theorem State.withdraw_signs (rs : Requester → Bool) (s : State) : (s.withdraw rs).signs = s.signs := rfl

/-! ### evalAttn -/

@[simp] theorem State.evalAttn_pending (s : State) : (s.evalAttn).pending = s.pending := rfl
@[simp] theorem State.evalAttn_resetHeld (s : State) : (s.evalAttn).resetHeld = s.resetHeld := rfl
@[simp] theorem State.evalAttn_mem (s : State) : (s.evalAttn).mem = s.mem := rfl
@[simp] theorem State.evalAttn_mp (s : State) : (s.evalAttn).mp = s.mp := rfl
@[simp] theorem State.evalAttn_dir (s : State) : (s.evalAttn).dir = s.dir := rfl
@[simp] theorem State.evalAttn_tm (s : State) : (s.evalAttn).tm = s.tm := rfl
@[simp] theorem State.evalAttn_pl (s : State) : (s.evalAttn).pl = s.pl := rfl
@[simp] theorem State.evalAttn_clk (s : State) : (s.evalAttn).clk = s.clk := rfl
@[simp] theorem State.evalAttn_pc (s : State) : (s.evalAttn).pc = s.pc := rfl
@[simp] theorem State.evalAttn_lines (s : State) : (s.evalAttn).lines = s.lines := rfl
@[simp] theorem State.evalAttn_links (s : State) : (s.evalAttn).links = s.links := rfl
@[simp] theorem State.evalAttn_signs (s : State) : (s.evalAttn).signs = s.signs := rfl

/-! ### evalDrives -/

@[simp] theorem State.evalDrives_pending (s : State) : (s.evalDrives).pending = s.pending := rfl
@[simp] theorem State.evalDrives_resetHeld (s : State) : (s.evalDrives).resetHeld = s.resetHeld := rfl
@[simp] theorem State.evalDrives_mem (s : State) : (s.evalDrives).mem = s.mem := rfl
@[simp] theorem State.evalDrives_mp (s : State) : (s.evalDrives).mp = s.mp := rfl
@[simp] theorem State.evalDrives_dir (s : State) : (s.evalDrives).dir = s.dir := rfl
@[simp] theorem State.evalDrives_tm (s : State) : (s.evalDrives).tm = s.tm := rfl
@[simp] theorem State.evalDrives_pl (s : State) : (s.evalDrives).pl = s.pl := rfl
@[simp] theorem State.evalDrives_clk (s : State) : (s.evalDrives).clk = s.clk := rfl
@[simp] theorem State.evalDrives_pc (s : State) : (s.evalDrives).pc = s.pc := rfl
@[simp] theorem State.evalDrives_rw (s : State) : (s.evalDrives).rw = s.rw := rfl
@[simp] theorem State.evalDrives_links (s : State) : (s.evalDrives).links = s.links := rfl
@[simp] theorem State.evalDrives_signs (s : State) : (s.evalDrives).signs = s.signs := rfl

/-! ### modifyWatch -/

@[simp] theorem State.modifyWatch_pending (t : Nat) (f : WatchEntry → WatchEntry) (s : State) : (s.modifyWatch t f).pending = s.pending := rfl
@[simp] theorem State.modifyWatch_resetHeld (t : Nat) (f : WatchEntry → WatchEntry) (s : State) : (s.modifyWatch t f).resetHeld = s.resetHeld := rfl
@[simp] theorem State.modifyWatch_mem (t : Nat) (f : WatchEntry → WatchEntry) (s : State) : (s.modifyWatch t f).mem = s.mem := rfl
@[simp] theorem State.modifyWatch_mp (t : Nat) (f : WatchEntry → WatchEntry) (s : State) : (s.modifyWatch t f).mp = s.mp := rfl
@[simp] theorem State.modifyWatch_dir (t : Nat) (f : WatchEntry → WatchEntry) (s : State) : (s.modifyWatch t f).dir = s.dir := rfl
@[simp] theorem State.modifyWatch_pl (t : Nat) (f : WatchEntry → WatchEntry) (s : State) : (s.modifyWatch t f).pl = s.pl := rfl
@[simp] theorem State.modifyWatch_clk (t : Nat) (f : WatchEntry → WatchEntry) (s : State) : (s.modifyWatch t f).clk = s.clk := rfl
@[simp] theorem State.modifyWatch_pc (t : Nat) (f : WatchEntry → WatchEntry) (s : State) : (s.modifyWatch t f).pc = s.pc := rfl
@[simp] theorem State.modifyWatch_rw (t : Nat) (f : WatchEntry → WatchEntry) (s : State) : (s.modifyWatch t f).rw = s.rw := rfl
@[simp] theorem State.modifyWatch_lines (t : Nat) (f : WatchEntry → WatchEntry) (s : State) : (s.modifyWatch t f).lines = s.lines := rfl
@[simp] theorem State.modifyWatch_links (t : Nat) (f : WatchEntry → WatchEntry) (s : State) : (s.modifyWatch t f).links = s.links := rfl
@[simp] theorem State.modifyWatch_signs (t : Nat) (f : WatchEntry → WatchEntry) (s : State) : (s.modifyWatch t f).signs = s.signs := rfl

/-! ### endHost -/

@[simp] theorem State.endHost_pending (s : State) : (s.endHost).pending = s.pending := rfl
@[simp] theorem State.endHost_resetHeld (s : State) : (s.endHost).resetHeld = s.resetHeld := rfl
@[simp] theorem State.endHost_mem (s : State) : (s.endHost).mem = s.mem := rfl
@[simp] theorem State.endHost_dir (s : State) : (s.endHost).dir = s.dir := rfl
@[simp] theorem State.endHost_tm (s : State) : (s.endHost).tm = s.tm := rfl
@[simp] theorem State.endHost_pl (s : State) : (s.endHost).pl = s.pl := rfl
@[simp] theorem State.endHost_clk (s : State) : (s.endHost).clk = s.clk := rfl
@[simp] theorem State.endHost_pc (s : State) : (s.endHost).pc = s.pc := rfl
@[simp] theorem State.endHost_rw (s : State) : (s.endHost).rw = s.rw := rfl
@[simp] theorem State.endHost_lines (s : State) : (s.endHost).lines = s.lines := rfl
@[simp] theorem State.endHost_links (s : State) : (s.endHost).links = s.links := rfl
@[simp] theorem State.endHost_signs (s : State) : (s.endHost).signs = s.signs := rfl

/-! ### The memory path after placing and withdrawing -/

@[simp] theorem State.place_mp_windowBase (q : OwnReq) (s : State) : (s.place q).mp.windowBase = s.mp.windowBase := rfl
@[simp] theorem State.place_mp_host (q : OwnReq) (s : State) : (s.place q).mp.host = s.mp.host := rfl
@[simp] theorem State.place_mp_grantCount (q : OwnReq) (s : State) : (s.place q).mp.grantCount = s.mp.grantCount := rfl
@[simp] theorem State.place_mp_linkPointer (q : OwnReq) (s : State) : (s.place q).mp.linkPointer = s.mp.linkPointer := rfl
@[simp] theorem State.place_mp_running (q : OwnReq) (s : State) : (s.place q).mp.running = s.mp.running := rfl
@[simp] theorem State.place_mp_hostData (q : OwnReq) (s : State) : (s.place q).mp.hostData = s.mp.hostData := rfl
@[simp] theorem State.place_mp_waiting (q : OwnReq) (s : State) : (s.place q).mp.waiting = s.mp.waiting ++ [q] := rfl
@[simp] theorem State.withdraw_mp_windowBase (rs : Requester → Bool) (s : State) : (s.withdraw rs).mp.windowBase = s.mp.windowBase := rfl
@[simp] theorem State.withdraw_mp_host (rs : Requester → Bool) (s : State) : (s.withdraw rs).mp.host = s.mp.host := rfl
@[simp] theorem State.withdraw_mp_linkPointer (rs : Requester → Bool) (s : State) : (s.withdraw rs).mp.linkPointer = s.mp.linkPointer := rfl
@[simp] theorem State.withdraw_mp_hostData (rs : Requester → Bool) (s : State) : (s.withdraw rs).mp.hostData = s.mp.hostData := rfl
@[simp] theorem State.withdraw_mp_waiting (rs : Requester → Bool) (s : State) :
    (s.withdraw rs).mp.waiting = s.mp.waiting.filter (fun q => !rs q.requester) := rfl

/-! ### Report writer fields after an ATTN evaluation -/

@[simp] theorem State.evalAttn_rw_ring (s : State) : s.evalAttn.rw.ring = s.rw.ring := rfl
@[simp] theorem State.evalAttn_rw_placed (s : State) : s.evalAttn.rw.placed = s.rw.placed := rfl
@[simp] theorem State.evalAttn_rw_entries (s : State) : s.evalAttn.rw.entries = s.rw.entries := rfl
@[simp] theorem State.evalAttn_rw_suppressing (s : State) : s.evalAttn.rw.suppressing = s.rw.suppressing := rfl
@[simp] theorem State.evalAttn_rw_blockDue (s : State) : s.evalAttn.rw.blockDue = s.rw.blockDue := rfl
@[simp] theorem State.evalAttn_rw_owedIndex (s : State) : s.evalAttn.rw.owedIndex = s.rw.owedIndex := rfl

/-! ### One sign, link or line -/

theorem State.sign_def (s : State) (i : SignNo) : s.sign i = s.signs[i] := rfl
theorem State.link_def (s : State) (l : LinkNo) : s.link l = s.links[l] := rfl
theorem State.line_def (s : State) (n : LineNo) : s.line n = s.lines[n] := rfl

/-- The sign changed is the changed one, its record marked; every other sign is as before. -/
theorem State.sign_modifySign (i j : SignNo) (f : SignState → SignState) (s : State) :
    (s.modifySign i f).sign j = if i = j then (s.sign i).markDue (f (s.sign i)) else s.sign j := by
  simp only [State.sign, State.modifySign, Fin.getElem_fin, Vector.getElem_set, Fin.ext_iff]

@[simp] theorem State.sign_modifySign_self (i : SignNo) (f : SignState → SignState) (s : State) :
    (s.modifySign i f).sign i = (s.sign i).markDue (f (s.sign i)) := by simp [State.sign_modifySign]

theorem State.link_setLink (l m : LinkNo) (x : LinkState) (s : State) :
    (s.setLink l x).link m = if l = m then x else s.link m := by
  simp only [State.link, State.setLink, Fin.getElem_fin, Vector.getElem_set, Fin.ext_iff]

@[simp] theorem State.link_setLink_self (l : LinkNo) (x : LinkState) (s : State) : (s.setLink l x).link l = x := by
  simp [State.link_setLink]

theorem State.link_modifyLink (l m : LinkNo) (f : LinkState → LinkState) (s : State) :
    (s.modifyLink l f).link m = if l = m then f (s.link l) else s.link m := State.link_setLink _ _ _ _

@[simp] theorem State.link_modifyLink_self (l : LinkNo) (f : LinkState → LinkState) (s : State) :
    (s.modifyLink l f).link l = f (s.link l) := State.link_setLink_self _ _ _

theorem State.line_setLine (n m : LineNo) (x : LineState) (s : State) :
    (s.setLine n x).line m = if n = m then x else s.line m := by
  simp only [State.line, State.setLine, Fin.getElem_fin, Vector.getElem_set, Fin.ext_iff]

@[simp] theorem State.line_setLine_self (n : LineNo) (x : LineState) (s : State) : (s.setLine n x).line n = x := by
  simp [State.line_setLine]

theorem State.line_modifyLine (n m : LineNo) (f : LineState → LineState) (s : State) :
    (s.modifyLine n f).line m = if n = m then f (s.line n) else s.line m := State.line_setLine _ _ _ _

@[simp] theorem State.line_modifyLine_self (n : LineNo) (f : LineState → LineState) (s : State) :
    (s.modifyLine n f).line n = f (s.line n) := State.line_setLine_self _ _ _

/-! ### Marking a record due changes nothing else of a sign -/

@[simp] theorem SignState.markDue_entry (g h : SignState) : (g.markDue h).entry = h.entry := by unfold SignState.markDue; split <;> rfl
@[simp] theorem SignState.markDue_job (g h : SignState) : (g.markDue h).job = h.job := by unfold SignState.markDue; split <;> rfl
@[simp] theorem SignState.markDue_pendingClass (g h : SignState) : (g.markDue h).pendingClass = h.pendingClass := by unfold SignState.markDue; split <;> rfl
@[simp] theorem SignState.markDue_again (g h : SignState) : (g.markDue h).again = h.again := by unfold SignState.markDue; split <;> rfl
@[simp] theorem SignState.markDue_abort (g h : SignState) : (g.markDue h).abort = h.abort := by unfold SignState.markDue; split <;> rfl
@[simp] theorem SignState.markDue_forceFull (g h : SignState) : (g.markDue h).forceFull = h.forceFull := by unfold SignState.markDue; split <;> rfl
@[simp] theorem SignState.markDue_partialCount (g h : SignState) : (g.markDue h).partialCount = h.partialCount := by unfold SignState.markDue; split <;> rfl
@[simp] theorem SignState.markDue_ring (g h : SignState) : (g.markDue h).ring = h.ring := by unfold SignState.markDue; split <;> rfl
@[simp] theorem SignState.markDue_shownTag (g h : SignState) : (g.markDue h).shownTag = h.shownTag := by unfold SignState.markDue; split <;> rfl
@[simp] theorem SignState.markDue_lastTag (g h : SignState) : (g.markDue h).lastTag = h.lastTag := by unfold SignState.markDue; split <;> rfl
@[simp] theorem SignState.markDue_plan (g h : SignState) : (g.markDue h).plan = h.plan := by unfold SignState.markDue; split <;> rfl
@[simp] theorem SignState.markDue_lastUpdate (g h : SignState) : (g.markDue h).lastUpdate = h.lastUpdate := by unfold SignState.markDue; split <;> rfl
@[simp] theorem SignState.markDue_slots (g h : SignState) : (g.markDue h).slots = h.slots := by unfold SignState.markDue; split <;> rfl
@[simp] theorem SignState.markDue_activePage (g h : SignState) : (g.markDue h).activePage = h.activePage := by unfold SignState.markDue; split <;> rfl
@[simp] theorem SignState.markDue_generation (g h : SignState) : (g.markDue h).generation = h.generation := by unfold SignState.markDue; split <;> rfl
@[simp] theorem SignState.markDue_activation (g h : SignState) : (g.markDue h).activation = h.activation := by unfold SignState.markDue; split <;> rfl
@[simp] theorem SignState.markDue_incoming (g h : SignState) : (g.markDue h).incoming = h.incoming := by unfold SignState.markDue; split <;> rfl
@[simp] theorem SignState.markDue_staged (g h : SignState) : (g.markDue h).staged = h.staged := by unfold SignState.markDue; split <;> rfl
@[simp] theorem SignState.markDue_lastRefused (g h : SignState) : (g.markDue h).lastRefused = h.lastRefused := by unfold SignState.markDue; split <;> rfl
@[simp] theorem SignState.markDue_rangeReported (g h : SignState) : (g.markDue h).rangeReported = h.rangeReported := by unfold SignState.markDue; split <;> rfl
@[simp] theorem SignState.markDue_curEntry (g h : SignState) : (g.markDue h).curEntry = h.curEntry := by unfold SignState.markDue; split <;> rfl
@[simp] theorem SignState.markDue_nextEntry (g h : SignState) : (g.markDue h).nextEntry = h.nextEntry := by unfold SignState.markDue; split <;> rfl
@[simp] theorem SignState.markDue_rotFirst (g h : SignState) : (g.markDue h).rotFirst = h.rotFirst := by unfold SignState.markDue; split <;> rfl
@[simp] theorem SignState.markDue_rotLast (g h : SignState) : (g.markDue h).rotLast = h.rotLast := by unfold SignState.markDue; split <;> rfl
@[simp] theorem SignState.markDue_rotDwell (g h : SignState) : (g.markDue h).rotDwell = h.rotDwell := by unfold SignState.markDue; split <;> rfl
@[simp] theorem SignState.markDue_rotPos (g h : SignState) : (g.markDue h).rotPos = h.rotPos := by unfold SignState.markDue; split <;> rfl
@[simp] theorem SignState.markDue_dwellCount (g h : SignState) : (g.markDue h).dwellCount = h.dwellCount := by unfold SignState.markDue; split <;> rfl
@[simp] theorem SignState.markDue_workDue (g h : SignState) : (g.markDue h).workDue = h.workDue := by unfold SignState.markDue; split <;> rfl
@[simp] theorem SignState.markDue_redo (g h : SignState) : (g.markDue h).redo = h.redo := by unfold SignState.markDue; split <;> rfl
@[simp] theorem SignState.markDue_orderReported (g h : SignState) : (g.markDue h).orderReported = h.orderReported := by unfold SignState.markDue; split <;> rfl
@[simp] theorem SignState.markDue_schedulePage (g h : SignState) : (g.markDue h).schedulePage = h.schedulePage := by unfold SignState.markDue; split <;> rfl
@[simp] theorem SignState.markDue_wanted (g h : SignState) : (g.markDue h).wanted = h.wanted := by unfold SignState.markDue; split <;> rfl

end Sys2Proof.Machine
end

