-- ==== Sys2Proof/Laws/Moved.lean ====
section
/-! SUPPORT. What every operation of the blocks leaves: frame memory, the host port, the directory shadow and the applied
entries are untouched, and the ranges of Safety.lean are kept. One lemma per operation; an operation composed of others takes its
lemma from theirs. -/

namespace Sys2Proof.Machine

/-- Operations outside the memory path led from `s` to `t`: frame memory and the host port are untouched, own requests stay
at most one for each requester with none more for the directory load, and the ranges are kept. -/
structure Calm (s t : State) : Prop where
  pending : t.pending = s.pending
  resetHeld : t.resetHeld = s.resetHeld
  mem : t.mem = s.mem
  windowBase : t.mp.windowBase = s.mp.windowBase
  linkPointer : t.mp.linkPointer = s.mp.linkPointer
  hostData : t.mp.hostData = s.mp.hostData
  host : t.mp.host = s.mp.host
  image : s.dir.image.wf = true → t.dir.image.wf = true
  clock : s.clk.InRange → t.clk.InRange
  count : s.mp.CountInRange → t.mp.CountInRange
  one : s.mp.OneEach → t.mp.OneEach
  directory : t.mp.load .directory ≤ s.mp.load .directory
  samples : (∀ i, (s.sign i).SamplesInRange) → ∀ i, (t.sign i).SamplesInRange
  watch : s.tm.WithinCapacity → t.tm.WithinCapacity

/-- A calm change that leaves the directory shadow and every applied sign entry. -/
structure Moved (s t : State) : Prop extends Calm s t where
  dir : t.dir = s.dir
  entry : ∀ i, (t.sign i).entry = (s.sign i).entry

theorem Calm.refl (s : State) : Calm s s := by constructor <;> simp

theorem Calm.trans {s t u : State} (h : Calm s t) (k : Calm t u) : Calm s u where
  pending := k.pending.trans h.pending
  resetHeld := k.resetHeld.trans h.resetHeld
  mem := k.mem.trans h.mem
  windowBase := k.windowBase.trans h.windowBase
  linkPointer := k.linkPointer.trans h.linkPointer
  hostData := k.hostData.trans h.hostData
  host := k.host.trans h.host
  image := k.image ∘ h.image
  clock := k.clock ∘ h.clock
  count := k.count ∘ h.count
  one := k.one ∘ h.one
  directory := k.directory.trans h.directory
  samples := k.samples ∘ h.samples
  watch := k.watch ∘ h.watch

theorem Moved.refl (s : State) : Moved s s := { Calm.refl s with dir := rfl, entry := fun _ => rfl }

theorem Moved.trans {s t u : State} (h : Moved s t) (k : Moved t u) : Moved s u :=
  { h.toCalm.trans k.toCalm with
    dir := k.dir.trans h.dir
    entry := fun i => (k.entry i).trans (h.entry i) }

/-! ## Requests -/

/-- A requester is busy exactly when it has a request waiting or in progress. -/
theorem State.busy_eq_false (s : State) (r : Requester) : s.busy r = false ↔ s.mp.load r = 0 := by
  unfold State.busy MemPath.load
  rw [Bool.or_eq_false_iff, Nat.add_eq_zero_iff, List.countP_eq_zero, List.any_eq_false]
  cases s.mp.running with
  | none => simp
  | some x => by_cases h : x.req.requester = r <;> simp [h]

/-- Placing a request adds one to its requester's load and to no other's. -/
theorem State.place_load (q : OwnReq) (s : State) (r : Requester) :
    (s.place q).mp.load r = s.mp.load r + if q.requester = r then 1 else 0 := by
  simp only [MemPath.load, State.place_mp_waiting, State.place_mp_running, List.countP_append, List.countP_singleton,
    beq_iff_eq]
  omega

theorem State.place_count (q : OwnReq) {s : State} (h : s.mp.CountInRange) : (s.place q).mp.CountInRange :=
  ⟨h.1, fun he => by simp at he⟩

theorem State.place_oneEach (q : OwnReq) {s : State} (hq : s.busy q.requester = false) (h : s.mp.OneEach) :
    (s.place q).mp.OneEach := by
  intro r
  rw [State.place_load]
  have h0 := (State.busy_eq_false s q.requester).mp hq
  have := h r
  split
  · rename_i hr
    subst hr
    omega
  · omega

/-! ## Primitive updates -/

/-- A sign's change keeps its applied entry and its samples. -/
def KeepsEntry (f : SignState → SignState) : Prop :=
  ∀ g, (f g).entry = g.entry ∧ (g.SamplesInRange → (f g).SamplesInRange)

theorem Calm.sign {s t : State} (i : SignNo) (f : SignState → SignState)
    (hf : ∀ g, g.SamplesInRange → (f g).SamplesInRange) (h : Calm s t) : Calm s (t.modifySign i f) :=
  h.trans { Calm.refl t with
    samples := fun ht j => by
      rw [State.sign_modifySign]
      split
      · simpa [SignState.SamplesInRange] using hf _ (ht i)
      · exact ht j }

theorem Moved.sign {s t : State} (i : SignNo) (f : SignState → SignState) (hf : KeepsEntry f) (h : Moved s t) :
    Moved s (t.modifySign i f) :=
  h.trans { Calm.sign i f (fun g => (hf g).2) (Calm.refl t) with
    dir := rfl
    entry := fun j => by
      rw [State.sign_modifySign]
      split
      · rename_i hij
        subst hij
        simpa using (hf _).1
      · rfl }

/-- Any change of the links alone. -/
theorem Moved.links {s t : State} (x : Vector LinkState 4) (h : Moved s t) : Moved s { t with links := x } :=
  h.trans { Moved.refl t with }

theorem Moved.link {s t : State} (l : LinkNo) (f : LinkState → LinkState) (h : Moved s t) : Moved s (t.modifyLink l f) :=
  Moved.links _ h

/-- Any change of the lines alone. -/
theorem Moved.lines {s t : State} (x : Vector LineState 4) (h : Moved s t) : Moved s { t with lines := x } :=
  h.trans { Moved.refl t with }

theorem Moved.line {s t : State} (n : LineNo) (f : LineState → LineState) (h : Moved s t) : Moved s (t.modifyLine n f) :=
  Moved.lines _ h

theorem Moved.setLine {s t : State} (n : LineNo) (x : LineState) (h : Moved s t) : Moved s (t.setLine n x) :=
  Moved.lines _ h

theorem Moved.drives {s t : State} (h : Moved s t) : Moved s t.evalDrives := Moved.lines _ h

/-- Any change of the report writer alone. -/
theorem Moved.rw {s t : State} (x : ReportWriter) (h : Moved s t) : Moved s { t with rw := x } :=
  h.trans { Moved.refl t with }

theorem Moved.attn {s t : State} (h : Moved s t) : Moved s t.evalAttn := Moved.rw _ h

/-- Any change of the page chooser's counts alone. -/
theorem Moved.pc {s t : State} (x : Chooser) (h : Moved s t) : Moved s { t with pc := x } :=
  h.trans { Moved.refl t with }

/-- Any change of the page loader's queue alone. -/
theorem Moved.pl {s t : State} (x : PageLoader) (h : Moved s t) : Moved s { t with pl := x } :=
  h.trans { Moved.refl t with }

/-- A change of the tile monitor that keeps to its capacity. -/
theorem Moved.tm {s t : State} (x : TileMonitor) (hx : t.tm.WithinCapacity → x.WithinCapacity) (h : Moved s t) :
    Moved s { t with tm := x } :=
  h.trans { Moved.refl t with watch := hx }

/-- A change of the clock that keeps to its ranges. -/
theorem Moved.clk {s t : State} (x : Clock) (hx : t.clk.InRange → x.InRange) (h : Moved s t) : Moved s { t with clk := x } :=
  h.trans { Moved.refl t with clock := hx }

theorem MemPath.load_filter_le (m : MemPath) (p : OwnReq → Bool) (c : Nat) (g : Running → Running)
    (hg : ∀ x, (g x).req = x.req) (r : Requester) :
    MemPath.load { m with waiting := m.waiting.filter p, grantCount := c, running := m.running.map g } r ≤ m.load r := by
  unfold MemPath.load
  apply Nat.add_le_add
  · exact List.Sublist.countP_le List.filter_sublist
  · cases hm : m.running <;> simp [hg]

theorem Calm.withdraw {s t : State} (rs : Requester → Bool) (h : Calm s t) : Calm s (t.withdraw rs) :=
  h.trans { Calm.refl t with
    count := fun ht => by
      refine ⟨?_, ?_⟩
      · show (if _ then _ else _) ≤ _
        split
        · exact Nat.zero_le _
        · exact ht.1
      · intro he
        show (if (List.filter _ _).isEmpty then _ else _) = _
        rw [State.withdraw_mp_waiting] at he
        rw [he]
        rfl
    one := fun ht r => (MemPath.load_filter_le t.mp _ _ _ (by intro x; split <;> rfl) r).trans (ht r)
    directory := MemPath.load_filter_le t.mp _ _ _ (by intro x; split <;> rfl) _ }

theorem Moved.withdraw {s t : State} (rs : Requester → Bool) (h : Moved s t) : Moved s (t.withdraw rs) :=
  h.trans { Calm.withdraw rs (Calm.refl t) with dir := rfl, entry := fun _ => rfl }

/-- Placing a request for an idle requester other than the directory load. -/
theorem Moved.place {s t : State} (q : OwnReq) (hq : t.busy q.requester = false) (hd : q.requester ≠ .directory)
    (h : Moved s t) : Moved s (t.place q) :=
  h.trans { Moved.refl t with
    count := State.place_count q
    one := State.place_oneEach q hq
    directory := by rw [State.place_load, if_neg hd]; omega }

theorem forSigns_moved {s : State} {f : SignNo → State → State} (hf : ∀ i t, Moved s t → Moved s (f i t))
    (is : List SignNo) : ∀ {t : State}, Moved s t → Moved s (forSigns f is t) := by
  induction is with
  | nil => exact fun h => h
  | cons i rest ih => exact fun h => ih (hf i _ h)

/-- A record update of a sign that names neither its entry nor its samples. -/
theorem KeepsEntry.of_eq {f : SignState → SignState} (h : ∀ g, (f g).entry = g.entry ∧ (f g).ring = g.ring) :
    KeepsEntry f := fun g => ⟨(h g).1, fun hg => by simpa [SignState.SamplesInRange, (h g).2] using hg⟩


/-! ## Flags -/

/-! ## Reports -/

theorem State.acceptEntry_moved (r : Ring) (rep : Report) {s u : State} (h : Moved s u) :
    Moved s (u.acceptEntry r rep) := by
  unfold State.acceptEntry
  dsimp -failIfUnchanged only
  all_goals repeat' first | with_reducible exact h | with_reducible apply Moved.rw

theorem State.startSuppression_moved {s u : State} (h : Moved s u) : Moved s (u.startSuppression) := by
  unfold State.startSuppression
  dsimp -failIfUnchanged only
  repeat' split
  all_goals repeat' first
    | with_reducible exact h | with_reducible apply State.acceptEntry_moved | with_reducible apply Moved.rw

theorem State.report_moved (rep : Report) {s u : State} (h : Moved s u) : Moved s (u.report rep) := by
  unfold State.report
  repeat' split
  all_goals repeat' first
    | with_reducible exact h | with_reducible apply State.acceptEntry_moved
    | with_reducible apply State.startSuppression_moved

theorem State.endSuppression_moved {s u : State} (h : Moved s u) : Moved s (u.endSuppression) := by
  unfold State.endSuppression
  dsimp -failIfUnchanged only
  repeat' split
  all_goals repeat' first
    | with_reducible exact h | with_reducible apply State.report_moved | with_reducible apply Moved.rw

theorem State.evalSuppression_moved {s u : State} (h : Moved s u) : Moved s (u.evalSuppression) := by
  unfold State.evalSuppression
  repeat' split
  all_goals repeat' first
    | with_reducible exact h | with_reducible apply State.endSuppression_moved
    | with_reducible apply State.startSuppression_moved

theorem State.takeConsumer_moved (v : Nat) {s u : State} (h : Moved s u) : Moved s (u.takeConsumer v) := by
  unfold State.takeConsumer
  dsimp -failIfUnchanged only
  repeat' split
  all_goals repeat' first
    | with_reducible exact h | with_reducible apply State.evalSuppression_moved | with_reducible apply Moved.attn
    | with_reducible apply Moved.rw

theorem State.placeRing_moved (v : Nat) {s u : State} (h : Moved s u) : Moved s (u.placeRing v) := by
  unfold State.placeRing
  dsimp -failIfUnchanged only
  repeat' split
  all_goals repeat' first
    | with_reducible exact h | with_reducible apply State.evalSuppression_moved | with_reducible apply Moved.attn
    | with_reducible apply Moved.rw

theorem State.unplaceRing_moved {s u : State} (h : Moved s u) : Moved s (u.unplaceRing) := by
  unfold State.unplaceRing
  dsimp -failIfUnchanged only
  all_goals repeat' first | with_reducible exact h | with_reducible apply Moved.attn | with_reducible apply Moved.rw

/-! ## Jobs -/

theorem State.setJob_moved (i : SignNo) (j : Job) {s u : State} (h : Moved s u) : Moved s (u.setJob i j) := by
  unfold State.setJob
  dsimp -failIfUnchanged only
  repeat' split
  all_goals repeat' first
    | with_reducible exact h | with_reducible apply Moved.sign | with_reducible apply Moved.link
    | with_reducible apply Moved.drives | with_reducible apply Moved.pc | exact KeepsEntry.of_eq fun _ => ⟨rfl, rfl⟩

theorem State.leaveQueue_moved (i : SignNo) {s u : State} (h : Moved s u) : Moved s (u.leaveQueue i) := by
  unfold State.leaveQueue
  all_goals repeat' first | with_reducible exact h | with_reducible apply Moved.link

theorem State.joinQueue_moved (i : SignNo) (c : Class) {s u : State} (h : Moved s u) : Moved s (u.joinQueue i c) := by
  unfold State.joinQueue
  dsimp -failIfUnchanged only
  all_goals repeat' first
    | with_reducible exact h | with_reducible apply State.setJob_moved | with_reducible apply Moved.sign
    | with_reducible apply Moved.link | exact KeepsEntry.of_eq fun _ => ⟨rfl, rfl⟩

theorem State.clearJob_moved (l : LinkNo) {s u : State} (h : Moved s u) : Moved s (u.clearJob l) := by
  unfold State.clearJob
  all_goals repeat' first
    | with_reducible exact h | with_reducible apply Moved.link | with_reducible apply Moved.withdraw

theorem State.stopJob_moved (i : SignNo) (extra : Option Class) {s u : State} (h : Moved s u) :
    Moved s (u.stopJob i extra) := by
  unfold State.stopJob
  dsimp -failIfUnchanged only
  all_goals repeat' first
    | with_reducible exact h | with_reducible apply Moved.sign | with_reducible apply State.joinQueue_moved
    | with_reducible apply State.clearJob_moved | exact KeepsEntry.of_eq fun _ => ⟨rfl, rfl⟩

theorem State.trigger_moved (i : SignNo) (c : Class) {s u : State} (h : Moved s u) : Moved s (u.trigger i c) := by
  unfold State.trigger
  dsimp -failIfUnchanged only
  repeat' split
  all_goals repeat' first
    | with_reducible exact h | with_reducible apply Moved.sign | with_reducible apply State.joinQueue_moved
    | with_reducible apply State.stopJob_moved | exact KeepsEntry.of_eq fun _ => ⟨rfl, rfl⟩

theorem State.sample_moved (i : SignNo) (x : Int) {s u : State} (h : Moved s u) : Moved s (u.sample i x) := by
  refine Moved.sign i _ (fun g => ⟨rfl, fun hg y hy => ?_⟩) h
  have hc : -80 ≤ clampTemp x ∧ clampTemp x ≤ 170 := by unfold clampTemp; omega
  unfold SignState.addSample at hy
  split at hy
  · rw [List.eq_of_mem_replicate hy]; exact hc
  · rename_i z rest hr
    rcases List.mem_append.mp hy with hy | hy
    · exact hg y (hr ▸ List.mem_cons_of_mem _ hy)
    · rw [List.mem_singleton.mp hy]; exact hc

theorem State.loss_moved (i : SignNo) (tag : Option Nat) {s u : State} (h : Moved s u) : Moved s (u.loss i tag) := by
  unfold State.loss
  all_goals repeat' first
    | with_reducible exact h | with_reducible apply Moved.sign | exact KeepsEntry.of_eq fun _ => ⟨rfl, rfl⟩

theorem State.lossPlanned_moved (i : SignNo) (p : Plan) {s u : State} (h : Moved s u) :
    Moved s (u.lossPlanned i p) := by
  unfold State.lossPlanned
  all_goals repeat' first
    | with_reducible exact h | with_reducible apply Moved.sign | exact KeepsEntry.of_eq fun _ => ⟨rfl, rfl⟩

theorem State.dropWork_moved (i : SignNo) {s u : State} (h : Moved s u) : Moved s (u.dropWork i) := by
  unfold State.dropWork
  all_goals repeat' first
    | with_reducible exact h | with_reducible apply Moved.sign | exact KeepsEntry.of_eq fun _ => ⟨rfl, rfl⟩

theorem State.reportSign_moved (i : SignNo) (k : ReportKind) (detail : Nat) {s u : State} (h : Moved s u) :
    Moved s (u.reportSign i k detail) := by
  unfold State.reportSign
  all_goals repeat' first | with_reducible exact h | with_reducible apply State.report_moved

theorem State.goOffline_moved (i : SignNo) (lose : Bool) (p : Purpose) (reason : Nat) {s u : State} (h : Moved s u) :
    Moved s (u.goOffline i lose p reason) := by
  unfold State.goOffline
  dsimp -failIfUnchanged only
  repeat' split
  all_goals repeat' first
    | with_reducible exact h | with_reducible apply State.loss_moved | with_reducible apply State.dropWork_moved
    | with_reducible apply State.setJob_moved | with_reducible apply State.reportSign_moved

theorem State.goFault_moved (i : SignNo) (lose : Bool) (p : Purpose) {s u : State} (h : Moved s u) :
    Moved s (u.goFault i lose p) := by
  unfold State.goFault
  dsimp -failIfUnchanged only
  repeat' split
  all_goals repeat' first
    | with_reducible exact h | with_reducible apply State.loss_moved | with_reducible apply State.dropWork_moved
    | with_reducible apply State.setJob_moved | with_reducible apply State.reportSign_moved

theorem State.recover_moved (i : SignNo) (tag : Nat) {s u : State} (h : Moved s u) : Moved s (u.recover i tag) := by
  unfold State.recover
  all_goals repeat' first
    | with_reducible exact h | with_reducible apply State.loss_moved | with_reducible apply State.joinQueue_moved
    | with_reducible apply State.reportSign_moved

theorem State.holdJob_moved (i : SignNo) {s u : State} (h : Moved s u) : Moved s (u.holdJob i) := by
  unfold State.holdJob
  dsimp -failIfUnchanged only
  all_goals repeat' first
    | with_reducible exact h | with_reducible apply Moved.sign | with_reducible apply State.setJob_moved
    | with_reducible apply State.reportSign_moved | with_reducible apply State.clearJob_moved
    | exact KeepsEntry.of_eq fun _ => ⟨rfl, rfl⟩

theorem State.nothingJob_moved (i : SignNo) {s u : State} (h : Moved s u) : Moved s (u.nothingJob i) := by
  unfold State.nothingJob
  dsimp -failIfUnchanged only
  all_goals repeat' first
    | with_reducible exact h | with_reducible apply Moved.sign | with_reducible apply State.setJob_moved
    | with_reducible apply State.clearJob_moved | exact KeepsEntry.of_eq fun _ => ⟨rfl, rfl⟩

theorem State.startPlan_moved (i : SignNo) (m : RefreshMode) {s u : State} (h : Moved s u) :
    Moved s (u.startPlan i m) := by
  unfold State.startPlan
  dsimp -failIfUnchanged only
  all_goals repeat' first
    | with_reducible exact h | with_reducible apply Moved.sign | with_reducible apply Moved.link
    | exact KeepsEntry.of_eq fun _ => ⟨rfl, rfl⟩

theorem State.makePlan_moved (i : SignNo) {s u : State} (h : Moved s u) : Moved s (u.makePlan i) := by
  unfold State.makePlan
  dsimp -failIfUnchanged only
  repeat' split
  all_goals repeat' first
    | with_reducible exact h | with_reducible apply Moved.sign | with_reducible apply State.holdJob_moved
    | with_reducible apply State.nothingJob_moved | with_reducible apply State.startPlan_moved
    | exact KeepsEntry.of_eq fun _ => ⟨rfl, rfl⟩

theorem State.coldRecheck_moved (i : SignNo) {s u : State} (h : Moved s u) : Moved s (u.coldRecheck i) := by
  unfold State.coldRecheck
  dsimp -failIfUnchanged only
  repeat' split
  all_goals repeat' first | with_reducible exact h | with_reducible apply State.joinQueue_moved

theorem State.requeue_moved (i : SignNo) {s u : State} (h : Moved s u) : Moved s (u.requeue i) := by
  unfold State.requeue
  dsimp -failIfUnchanged only
  repeat' split
  all_goals repeat' first
    | with_reducible exact h | with_reducible apply Moved.sign | with_reducible apply State.joinQueue_moved
    | exact KeepsEntry.of_eq fun _ => ⟨rfl, rfl⟩

theorem State.complete_moved (i : SignNo) (p : Plan) {s u : State} (h : Moved s u) : Moved s (u.complete i p) := by
  unfold State.complete
  dsimp -failIfUnchanged only
  repeat' split
  all_goals repeat' first
    | with_reducible exact h | with_reducible apply Moved.sign | with_reducible apply State.setJob_moved
    | with_reducible apply State.report_moved | with_reducible apply State.requeue_moved
    | exact KeepsEntry.of_eq fun _ => ⟨rfl, rfl⟩

theorem State.failedRefresh_moved (i : SignNo) (tag : Nat) {s u : State} (h : Moved s u) :
    Moved s (u.failedRefresh i tag) := by
  unfold State.failedRefresh
  dsimp -failIfUnchanged only
  all_goals repeat' first
    | with_reducible exact h | with_reducible apply State.loss_moved | with_reducible apply Moved.sign
    | with_reducible apply State.joinQueue_moved | with_reducible apply State.recover_moved
    | exact KeepsEntry.of_eq fun _ => ⟨rfl, rfl⟩

/-! ## Links -/

theorem State.beginFrame_moved (l : LinkNo) (i : SignNo) (p : Purpose) (attempt : Nat) (w : Option Nat) (f : List Byte)
    {s u : State} (h : Moved s u) :
    Moved s (u.beginFrame l i p attempt w f) := by
  unfold State.beginFrame
  all_goals repeat' first | with_reducible exact h | with_reducible apply Moved.link

theorem State.endAttempt_moved (l : LinkNo) {s u : State} (h : Moved s u) : Moved s (u.endAttempt l) := by
  unfold State.endAttempt
  repeat' split
  all_goals repeat' first | with_reducible exact h | with_reducible apply Moved.link

theorem State.addPoll_moved (i : SignNo) (t : Nat) {s u : State} (h : Moved s u) : Moved s (u.addPoll i t) := by
  unfold State.addPoll
  all_goals repeat' first | with_reducible exact h | with_reducible apply Moved.link

theorem State.becomeSettling_moved (i : SignNo) (t : Nat) {s u : State} (h : Moved s u) :
    Moved s (u.becomeSettling i t) := by
  unfold State.becomeSettling
  dsimp -failIfUnchanged only
  all_goals repeat' first
    | with_reducible exact h | with_reducible apply Moved.sign | with_reducible apply State.clearJob_moved
    | with_reducible apply State.setJob_moved | with_reducible apply State.addPoll_moved
    | exact KeepsEntry.of_eq fun _ => ⟨rfl, rfl⟩

theorem State.fillBuffer_moved (l : LinkNo) (j : Nat) (bytes : List Byte) {s u : State} (h : Moved s u) :
    Moved s (u.fillBuffer l j bytes) := by
  unfold State.fillBuffer
  all_goals repeat' first | with_reducible exact h | with_reducible apply Moved.link

theorem State.sendSurvey_moved (l : LinkNo) (v : Survey) {s u : State} (h : Moved s u) :
    Moved s (u.sendSurvey l v) := by
  unfold State.sendSurvey
  all_goals repeat' first | with_reducible exact h | with_reducible apply State.beginFrame_moved

theorem State.chooseSurvey_moved (l : LinkNo) {s u : State} (h : Moved s u) : Moved s (u.chooseSurvey l) := by
  unfold State.chooseSurvey
  dsimp -failIfUnchanged only
  repeat' split
  all_goals repeat' first
    | with_reducible exact h | with_reducible apply State.sendSurvey_moved | with_reducible apply Moved.link

theorem State.startJob_moved (l : LinkNo) (e : QueueEntry) {s u : State} (h : Moved s u) :
    Moved s (u.startJob l e) := by
  unfold State.startJob
  dsimp -failIfUnchanged only
  all_goals repeat' first
    | with_reducible exact h | with_reducible apply State.leaveQueue_moved | with_reducible apply State.setJob_moved
    | with_reducible apply Moved.sign | with_reducible apply Moved.link | with_reducible apply State.beginFrame_moved
    | exact KeepsEntry.of_eq fun _ => ⟨rfl, rfl⟩

theorem State.chooseNew_moved (l : LinkNo) {s u : State} (h : Moved s u) : Moved s (u.chooseNew l) := by
  unfold State.chooseNew
  repeat' split
  all_goals repeat' first
    | with_reducible exact h | with_reducible apply State.startJob_moved
    | with_reducible apply State.chooseSurvey_moved

theorem State.endAtShow_moved (i : SignNo) (hold : Bool) {s u : State} (h : Moved s u) :
    Moved s (u.endAtShow i hold) := by
  unfold State.endAtShow
  repeat' split
  all_goals repeat' first
    | with_reducible exact h | with_reducible apply Moved.sign | with_reducible apply State.holdJob_moved
    | with_reducible apply State.stopJob_moved | exact KeepsEntry.of_eq fun _ => ⟨rfl, rfl⟩

theorem State.abandonShow_moved (i : SignNo) (t : Nat) {s u : State} (h : Moved s u) : Moved s (u.abandonShow i t) := by
  unfold State.abandonShow
  dsimp -failIfUnchanged only
  all_goals repeat' first
    | with_reducible exact h | with_reducible apply State.loss_moved | with_reducible apply Moved.sign
    | with_reducible apply State.becomeSettling_moved | exact KeepsEntry.of_eq fun _ => ⟨rfl, rfl⟩

theorem State.sendShow_moved (l : LinkNo) (c : JobCtx) (p : Plan) {s u : State} (h : Moved s u) :
    Moved s (u.sendShow l c p) := by
  unfold State.sendShow
  dsimp -failIfUnchanged only
  all_goals repeat' first
    | with_reducible exact h | with_reducible apply Moved.link | with_reducible apply State.beginFrame_moved

theorem State.choose_moved (l : LinkNo) (t : Nat) {s u : State} (h : Moved s u) : Moved s (u.choose l t) := by
  unfold State.choose
  dsimp -failIfUnchanged only
  repeat' split
  all_goals repeat' first
    | with_reducible exact h | with_reducible apply State.beginFrame_moved
    | with_reducible apply State.chooseNew_moved | with_reducible apply State.sendShow_moved
    | with_reducible apply State.abandonShow_moved | with_reducible apply State.endAtShow_moved

theorem State.jobSilent_moved (i : SignNo) (p : Purpose) (reason : Nat) {s u : State} (h : Moved s u) :
    Moved s (u.jobSilent i p reason) := by
  unfold State.jobSilent
  all_goals repeat' first
    | with_reducible exact h | with_reducible apply State.goOffline_moved
    | with_reducible apply State.clearJob_moved

theorem State.jobFailed_moved (l : LinkNo) (i : SignNo) (p : Purpose) (reason : Nat) {s u : State} (h : Moved s u) :
    Moved s (u.jobFailed l i p reason) := by
  unfold State.jobFailed
  repeat' split
  all_goals repeat' first
    | with_reducible exact h | with_reducible apply State.stopJob_moved | with_reducible apply Moved.link
    | with_reducible apply State.jobSilent_moved

theorem State.pollFailed_moved (l : LinkNo) (i : SignNo) (reason t : Nat) {s u : State} (h : Moved s u) :
    Moved s (u.pollFailed l i reason t) := by
  unfold State.pollFailed
  repeat' split
  all_goals repeat' first
    | with_reducible exact h | with_reducible apply Moved.link | with_reducible apply State.goOffline_moved

theorem State.surveySilent_moved (i : SignNo) (reason : Nat) {s u : State} (h : Moved s u) :
    Moved s (u.surveySilent i reason) := by
  unfold State.surveySilent
  repeat' split
  all_goals repeat' first | with_reducible exact h | with_reducible apply State.goOffline_moved

theorem State.surveyFailed_moved (l : LinkNo) (i : SignNo) (reason : Nat) {s u : State} (h : Moved s u) :
    Moved s (u.surveyFailed l i reason) := by
  unfold State.surveyFailed
  repeat' split
  all_goals repeat' first
    | with_reducible exact h | with_reducible apply Moved.link | with_reducible apply State.surveySilent_moved

theorem State.quietAnswer_moved (i : SignNo) (a : Answer) (p : Purpose) {s u : State} (h : Moved s u) :
    Moved s (u.quietAnswer i a p) := by
  unfold State.quietAnswer
  dsimp -failIfUnchanged only
  repeat' split
  all_goals repeat' first
    | with_reducible exact h | with_reducible apply State.loss_moved | with_reducible apply State.trigger_moved
    | with_reducible apply State.recover_moved | with_reducible apply State.goFault_moved
    | with_reducible apply State.coldRecheck_moved

theorem State.pollAgain_moved (i : SignNo) (t : Nat) {s u : State} (h : Moved s u) : Moved s (u.pollAgain i t) := by
  unfold State.pollAgain
  all_goals repeat' first | with_reducible exact h | with_reducible apply State.addPoll_moved

theorem State.pollAnswer_moved (i : SignNo) (a : Answer) (t : Nat) {s u : State} (h : Moved s u) :
    Moved s (u.pollAnswer i a t) := by
  unfold State.pollAnswer
  dsimp -failIfUnchanged only
  repeat' split
  all_goals repeat' first
    | with_reducible exact h | with_reducible apply State.complete_moved
    | with_reducible apply State.failedRefresh_moved | with_reducible apply State.pollAgain_moved
    | with_reducible apply State.goFault_moved | with_reducible apply State.loss_moved
    | with_reducible apply State.recover_moved | with_reducible apply Moved.sign
    | with_reducible apply State.joinQueue_moved | with_reducible apply State.quietAnswer_moved
    | exact KeepsEntry.of_eq fun _ => ⟨rfl, rfl⟩

theorem State.abortAnswer_moved (i : SignNo) (a : Answer) (p : Purpose) {s u : State} (h : Moved s u) :
    Moved s (u.abortAnswer i a p) := by
  unfold State.abortAnswer
  repeat' split
  all_goals repeat' first
    | with_reducible exact h | with_reducible apply State.goFault_moved | with_reducible apply State.clearJob_moved
    | with_reducible apply State.stopJob_moved | with_reducible apply State.loss_moved

theorem State.probeAnswer_moved (i : SignNo) (a : Answer) (t : Nat) {s u : State} (h : Moved s u) :
    Moved s (u.probeAnswer i a t) := by
  unfold State.probeAnswer
  repeat' split
  all_goals repeat' first
    | with_reducible exact h | with_reducible apply State.loss_moved | with_reducible apply State.makePlan_moved
    | with_reducible apply State.becomeSettling_moved | with_reducible apply State.goFault_moved
    | with_reducible apply State.clearJob_moved

theorem State.loadBusy_moved (l : LinkNo) (i : SignNo) (c : JobCtx) (t : Nat) {s u : State} (h : Moved s u) :
    Moved s (u.loadBusy l i c t) := by
  unfold State.loadBusy
  dsimp -failIfUnchanged only
  repeat' split
  all_goals repeat' first
    | with_reducible exact h | with_reducible apply State.jobSilent_moved | with_reducible apply Moved.link

theorem State.loadAnswer_moved (l : LinkNo) (i : SignNo) (a : Answer) (t : Nat) {s u : State} (h : Moved s u) :
    Moved s (u.loadAnswer l i a t) := by
  unfold State.loadAnswer
  dsimp -failIfUnchanged only
  repeat' split
  all_goals repeat' first
    | with_reducible exact h | with_reducible apply Moved.link | with_reducible apply State.loss_moved
    | with_reducible apply State.stopJob_moved | with_reducible apply State.recover_moved
    | with_reducible apply State.loadBusy_moved | with_reducible apply State.goFault_moved
    | with_reducible apply State.clearJob_moved

theorem State.startRefresh_moved (i : SignNo) {s u : State} (h : Moved s u) : Moved s (u.startRefresh i) := by
  unfold State.startRefresh
  all_goals repeat' first | with_reducible exact h | with_reducible apply Moved.link

theorem State.showAnswer_moved (l : LinkNo) (i : SignNo) (a : Answer) (t : Nat) {s u : State} (h : Moved s u) :
    Moved s (u.showAnswer l i a t) := by
  unfold State.showAnswer
  repeat' split
  all_goals repeat' first
    | with_reducible exact h | with_reducible apply State.complete_moved
    | with_reducible apply State.failedRefresh_moved | with_reducible apply State.clearJob_moved
    | with_reducible apply State.setJob_moved | with_reducible apply State.startRefresh_moved
    | with_reducible apply State.addPoll_moved | with_reducible apply State.goFault_moved

theorem State.jobAnswered_moved (l : LinkNo) (e : Exchange) (a : Answer) (t : Nat) {s u : State} (h : Moved s u) :
    Moved s (u.jobAnswered l e a t) := by
  unfold State.jobAnswered
  dsimp -failIfUnchanged only
  repeat' split
  all_goals repeat' first
    | with_reducible exact h | with_reducible apply State.sample_moved
    | with_reducible apply State.abortAnswer_moved | with_reducible apply State.probeAnswer_moved
    | with_reducible apply State.loadAnswer_moved | with_reducible apply State.showAnswer_moved

theorem State.attemptOut_moved (l : LinkNo) (e : Exchange) (v : Verdict) (t : Nat) {s u : State} (h : Moved s u) :
    Moved s (u.attemptOut l e v t) := by
  unfold State.attemptOut
  dsimp -failIfUnchanged only
  repeat' split
  all_goals repeat' first
    | with_reducible exact h | with_reducible apply State.sample_moved | with_reducible apply State.pollAnswer_moved
    | with_reducible apply State.pollFailed_moved | with_reducible apply Moved.link
    | with_reducible apply State.quietAnswer_moved | with_reducible apply State.surveyFailed_moved
    | with_reducible apply State.jobAnswered_moved | with_reducible apply State.jobFailed_moved

theorem State.attemptEnds_moved (l : LinkNo) (v : Verdict) (t : Nat) {s u : State} (h : Moved s u) :
    Moved s (u.attemptEnds l v t) := by
  unfold State.attemptEnds
  dsimp -failIfUnchanged only
  repeat' split
  all_goals repeat' first
    | with_reducible exact h | with_reducible apply State.endAttempt_moved
    | with_reducible apply State.clearJob_moved | with_reducible apply State.attemptOut_moved

theorem State.refreshExpires_moved (i : SignNo) {s u : State} (h : Moved s u) : Moved s (u.refreshExpires i) := by
  unfold State.refreshExpires
  dsimp -failIfUnchanged only
  repeat' split
  all_goals repeat' first
    | with_reducible exact h | with_reducible apply State.dropWork_moved | with_reducible apply State.setJob_moved
    | with_reducible apply State.lossPlanned_moved | with_reducible apply Moved.sign
    | with_reducible apply State.report_moved | exact KeepsEntry.of_eq fun _ => ⟨rfl, rfl⟩

theorem State.signLinkOff_moved (i : SignNo) {s u : State} (h : Moved s u) : Moved s (u.signLinkOff i) := by
  unfold State.signLinkOff
  all_goals repeat' first
    | with_reducible exact h | with_reducible apply State.loss_moved | with_reducible apply State.dropWork_moved
    | with_reducible apply State.leaveQueue_moved | with_reducible apply State.setJob_moved

theorem State.linkOff_moved (l : LinkNo) {s u : State} (h : Moved s u) : Moved s (u.linkOff l) := by
  unfold State.linkOff
  dsimp -failIfUnchanged only
  all_goals repeat' first
    | with_reducible exact h | with_reducible apply State.signLinkOff_moved
    | with_reducible apply State.clearJob_moved | with_reducible apply Moved.link
    | with_reducible apply forSigns_moved | exact KeepsEntry.of_eq fun _ => ⟨rfl, rfl⟩ | intro _ _ h

theorem State.linkOnSet_moved (l : LinkNo) {s u : State} (h : Moved s u) : Moved s (u.linkOnSet l) := by
  unfold State.linkOnSet
  all_goals repeat' first | with_reducible exact h | with_reducible apply Moved.link

theorem State.linkDisable_moved (i : SignNo) {s u : State} (h : Moved s u) : Moved s (u.linkDisable i) := by
  unfold State.linkDisable
  dsimp -failIfUnchanged only
  repeat' split
  all_goals repeat' first
    | with_reducible exact h | with_reducible apply Moved.link | with_reducible apply State.clearJob_moved

/-! ## Tiles -/

theorem State.modifyWatch_moved (t : Nat) (f : WatchEntry → WatchEntry) {s u : State} (h : Moved s u) :
    Moved s (u.modifyWatch t f) :=
  Moved.tm _ (fun hw => by simpa [TileMonitor.WithinCapacity] using hw) h

theorem insertWatch_length (e : WatchEntry) (l : List WatchEntry) : (insertWatch e l).length = l.length + 1 := by
  induction l with
  | nil => rfl
  | cons x rest ih => unfold insertWatch; split <;> simp [ih]

theorem State.addTile_moved (t : Nat) (slot : SignNo × Nat) {s u : State} (h : Moved s u) :
    Moved s (u.addTile t slot) := by
  unfold State.addTile
  split
  · exact State.modifyWatch_moved _ _ h
  · split
    · exact h
    · rename_i hw hr
      refine Moved.tm _ (fun _ => ?_) h
      simp only [State.addRefused, Bool.and_eq_true, decide_eq_true_eq, not_and, not_le] at hr
      have := hr (by simpa using hw)
      simp only [TileMonitor.WithinCapacity, insertWatch_length]
      omega

theorem State.dropTile_moved (t : Nat) (slot : SignNo × Nat) {s u : State} (h : Moved s u) :
    Moved s (u.dropTile t slot) := by
  unfold State.dropTile
  split
  · exact h
  · split
    · exact Moved.tm _ (fun hw => (List.length_filter_le _ _).trans hw) h
    · exact State.modifyWatch_moved _ _ h

theorem State.addSlot_moved (tile : Option Nat) (slot : SignNo × Nat) {s u : State} (h : Moved s u) :
    Moved s (u.addSlot tile slot) := by
  unfold State.addSlot
  repeat' split
  all_goals repeat' first | with_reducible exact h | with_reducible apply State.addTile_moved

theorem State.dropSlot_moved (tile : Option Nat) (slot : SignNo × Nat) {s u : State} (h : Moved s u) :
    Moved s (u.dropSlot tile slot) := by
  unfold State.dropSlot
  repeat' split
  all_goals repeat' first | with_reducible exact h | with_reducible apply State.dropTile_moved

theorem State.tileWritten_moved (n : Nat) {s u : State} (h : Moved s u) : Moved s (u.tileWritten n) := by
  unfold State.tileWritten
  split
  · exact h
  · split
    · exact Moved.tm _ (fun hw => hw) (State.modifyWatch_moved _ _ h)
    · exact State.modifyWatch_moved _ _ h
    · exact h
    · exact h

theorem State.takeStale_moved {s u : State} (h : Moved s u) : Moved s u.takeStale := by
  unfold State.takeStale
  split
  · exact Moved.tm _ (fun hw => hw) (State.modifyWatch_moved _ _ h)
  · exact h

theorem State.compareSlot_moved (sig : Signature) (slot : SignNo × Nat) {s u : State} (h : Moved s u) :
    Moved s (u.compareSlot sig slot) := by
  unfold State.compareSlot
  all_goals repeat' first
    | with_reducible exact h | with_reducible apply Moved.sign | exact KeepsEntry.of_eq fun _ => ⟨rfl, rfl⟩

theorem State.compareChain_moved (sig : Signature) (chain : List (SignNo × Nat)) {s u : State} (h : Moved s u) :
    Moved s (u.compareChain sig chain) := by
  induction chain generalizing u with
  | nil => exact h
  | cons x rest ih => exact ih (State.compareSlot_moved sig x h)

theorem State.applySignature_moved (t : Nat) (sig : Signature) (chain : List (SignNo × Nat)) {s u : State}
    (h : Moved s u) : Moved s (u.applySignature t sig chain) :=
  forSigns_moved (fun i _ hh => State.trigger_moved i .content hh) _
    (State.compareChain_moved sig chain (State.modifyWatch_moved _ _ h))

theorem State.completeSignature_moved {s u : State} (h : Moved s u) : Moved s u.completeSignature := by
  unfold State.completeSignature
  split
  · rename_i t bytes a b _
    have h1 : Moved s { u with tm.engine := .idle } := Moved.tm _ (fun hw => hw) h
    dsimp only
    split
    · exact h1
    · split
      · exact State.applySignature_moved _ _ _ h1
      · exact Moved.tm _ (fun hw => hw) (State.modifyWatch_moved _ _ h1)
      · exact h1
      · exact h1
  · exact h

/-! ## Pages -/

theorem State.reportRange_moved (i : SignNo) (k : Nat) {s u : State} (h : Moved s u) : Moved s (u.reportRange i k) := by
  unfold State.reportRange
  all_goals repeat' first
    | with_reducible exact h | with_reducible apply Moved.sign | with_reducible apply State.report_moved
    | exact KeepsEntry.of_eq fun _ => ⟨rfl, rfl⟩

theorem State.joinActivation_moved (i : SignNo) {s u : State} (h : Moved s u) : Moved s (u.joinActivation i) := by
  unfold State.joinActivation
  dsimp -failIfUnchanged only
  all_goals repeat' first
    | with_reducible exact h | with_reducible apply Moved.sign | with_reducible apply Moved.pl
    | exact KeepsEntry.of_eq fun _ => ⟨rfl, rfl⟩

theorem State.queueActivation_moved (i : SignNo) {s u : State} (h : Moved s u) : Moved s (u.queueActivation i) := by
  unfold State.queueActivation
  dsimp -failIfUnchanged only
  repeat' split
  all_goals repeat' first | with_reducible exact h | with_reducible apply State.joinActivation_moved

theorem State.refuseActivation_moved (i : SignNo) (p cause : Nat) {s u : State} (h : Moved s u) :
    Moved s (u.refuseActivation i p cause) := by
  have key : ∀ (v : State) (b : Prop) [Decidable b] (rep : Report), Moved s v → Moved s
      (if ((if b then v else v.report rep).sign i).wanted.map (·.1) ≠ some p then
        (if b then v else v.report rep).queueActivation i else (if b then v else v.report rep)) := by
    intro v b _ rep hv
    have h2 : Moved s (if b then v else v.report rep) := by
      split
      · exact hv
      · exact State.report_moved _ hv
    generalize (if b then v else v.report rep) = w at h2 ⊢
    split
    · exact State.queueActivation_moved i h2
    · exact h2
  exact key _ _ _ (Moved.pl _ (Moved.sign i _ (KeepsEntry.of_eq fun _ => ⟨rfl, rfl⟩) h))

theorem State.dropSlots_moved (i : SignNo) (k : Nat) (slots : List Slot) {s u : State} (h : Moved s u) :
    Moved s (u.dropSlots i k slots) := by
  induction slots generalizing k u with
  | nil => exact h
  | cons x rest ih => exact ih _ (State.dropSlot_moved _ _ h)

theorem State.addSlots_moved (i : SignNo) (k : Nat) (slots : List Slot) {s u : State} (h : Moved s u) :
    Moved s (u.addSlots i k slots) := by
  induction slots generalizing k u with
  | nil => exact h
  | cons x rest ih => exact ih _ (State.addSlot_moved _ _ h)

theorem State.releaseSlots_moved (i : SignNo) {s u : State} (h : Moved s u) : Moved s (u.releaseSlots i) :=
  Moved.sign i _ (KeepsEntry.of_eq fun _ => ⟨rfl, rfl⟩) (State.dropSlots_moved i 0 _ h)

theorem State.acceptActivation_moved (i : SignNo) (p : Nat) (r : Reason) {s u : State} (h : Moved s u) :
    Moved s (u.acceptActivation i p r) := by
  unfold State.acceptActivation
  refine State.queueActivation_moved i (Moved.pl _ (Moved.sign i _ (KeepsEntry.of_eq fun _ => ⟨rfl, rfl⟩)
    (State.report_moved _ (State.trigger_moved i _ (Moved.sign i _ (KeepsEntry.of_eq fun _ => ⟨rfl, rfl⟩) ?_)))))
  have h1 := State.addSlots_moved i 0 (List.map (u.releaseSlots i).newSlot (List.map (·.value) (u.sign i).staged))
    (Moved.sign i (fun g => { g with
        generation := g.generation + 1, activePage := some p,
        slots := List.map (u.releaseSlots i).newSlot (List.map (·.value) (u.sign i).staged), rangeReported := false })
      (KeepsEntry.of_eq fun _ => ⟨rfl, rfl⟩) (State.releaseSlots_moved i h))
  split
  · exact State.reportRange_moved i _ h1
  · exact h1

theorem State.changeSlot_moved (i : SignNo) (k v : Nat) (tile : Option Nat) {s u : State} (h : Moved s u) :
    Moved s (u.changeSlot i k v tile) := by
  unfold State.changeSlot
  all_goals repeat' first
    | with_reducible exact h | with_reducible apply Moved.sign | exact KeepsEntry.of_eq fun _ => ⟨rfl, rfl⟩

theorem State.rangeWrite_moved (i : SignNo) (k v : Nat) {s u : State} (h : Moved s u) :
    Moved s (u.rangeWrite i k v) := by
  unfold State.rangeWrite
  repeat' split
  all_goals repeat' first | with_reducible exact h | with_reducible apply State.reportRange_moved

theorem State.mapEntryWritten_moved (i : SignNo) (e : Nat × Option Byte × Option Byte) {s u : State} (h : Moved s u) :
    Moved s (u.mapEntryWritten i e).1 := by
  unfold State.mapEntryWritten
  split
  · exact h
  · rename_i x _
    dsimp only
    split
    · exact h
    · split
      · exact State.rangeWrite_moved i _ _ (Moved.sign i _ (KeepsEntry.of_eq fun _ => ⟨rfl, rfl⟩) h)
      · have h1 := State.dropSlot_moved x.tile (i, e.1) h
        split
        · exact State.rangeWrite_moved i _ _ (State.changeSlot_moved i _ _ _ h1)
        · split
          · exact State.report_moved _ (State.changeSlot_moved i _ _ _ h1)
          · exact State.changeSlot_moved i _ _ _ (State.addTile_moved _ _ h1)

theorem State.mapEntriesWritten_moved (i : SignNo) (es : List (Nat × Option Byte × Option Byte)) {s u : State}
    (h : Moved s u) : Moved s (u.mapEntriesWritten i es).1 := by
  induction es generalizing u with
  | nil => exact h
  | cons e rest ih => exact ih (State.mapEntryWritten_moved i e h)

theorem State.mapRunWritten_moved (i : SignNo) (p : Nat) (bytes : List (Nat × Byte)) {s u : State} (h : Moved s u) :
    Moved s (u.mapRunWritten i p bytes) := by
  have key : ∀ v, Moved s v → Moved s
      (if (v.sign i).activePage = some p then
        (if (v.mapEntriesWritten i (mapEntries bytes)).2 then (v.mapEntriesWritten i (mapEntries bytes)).1.trigger i .content
          else (v.mapEntriesWritten i (mapEntries bytes)).1)
      else v) := by
    intro v hv
    split
    · split
      · exact State.trigger_moved i _ (State.mapEntriesWritten_moved i _ hv)
      · exact State.mapEntriesWritten_moved i _ hv
    · exact hv
  unfold State.mapRunWritten
  dsimp only
  split
  · exact key _ (Moved.sign i _ (KeepsEntry.of_eq fun _ => ⟨rfl, rfl⟩) h)
  · exact key _ h

theorem State.loaderDisable_moved (i : SignNo) {s u : State} (h : Moved s u) : Moved s (u.loaderDisable i) := by
  unfold State.loaderDisable
  dsimp -failIfUnchanged only
  repeat' split
  all_goals repeat' first
    | with_reducible exact h | with_reducible apply Moved.withdraw | with_reducible apply State.releaseSlots_moved
    | with_reducible apply Moved.sign | with_reducible apply Moved.pl | exact KeepsEntry.of_eq fun _ => ⟨rfl, rfl⟩

/-! ## Chooser -/

theorem State.evaluate_moved (i : SignNo) {s u : State} (h : Moved s u) : Moved s (u.evaluate i) := by
  unfold State.evaluate
  repeat' split
  all_goals repeat' first
    | with_reducible exact h | with_reducible apply Moved.sign | with_reducible apply State.queueActivation_moved
    | exact KeepsEntry.of_eq fun _ => ⟨rfl, rfl⟩

theorem State.evaluateAll_moved {s u : State} (h : Moved s u) : Moved s (u.evaluateAll) := by
  unfold State.evaluateAll
  all_goals repeat' first
    | with_reducible exact h | with_reducible apply State.evaluate_moved | with_reducible apply forSigns_moved
    | exact KeepsEntry.of_eq fun _ => ⟨rfl, rfl⟩ | intro _ _ h

theorem State.sweep_moved (zones : BitVec 64) {s u : State} (h : Moved s u) : Moved s (u.sweep zones) := by
  unfold State.sweep
  all_goals repeat' first
    | with_reducible exact h | with_reducible apply State.evaluate_moved | with_reducible apply forSigns_moved
    | exact KeepsEntry.of_eq fun _ => ⟨rfl, rfl⟩ | intro _ _ h

theorem State.setAlert_moved (n : LineNo) (on : Bool) (cause : Nat) (zones : BitVec 64) {s u : State} (h : Moved s u) :
    Moved s (u.setAlert n on cause zones) := by
  unfold State.setAlert
  dsimp -failIfUnchanged only
  repeat' split
  all_goals repeat' first
    | with_reducible exact h | with_reducible apply Moved.line | with_reducible apply State.report_moved
    | with_reducible apply State.sweep_moved

theorem State.startHeartbeat_moved {s u : State} (h : Moved s u) : Moved s (u.startHeartbeat) := by
  unfold State.startHeartbeat
  dsimp -failIfUnchanged only
  repeat' split
  all_goals repeat' first | with_reducible exact h | with_reducible apply Moved.pc

theorem State.lapse_moved {s u : State} (h : Moved s u) : Moved s (u.lapse) := by
  unfold State.lapse
  dsimp -failIfUnchanged only
  all_goals repeat' first
    | with_reducible exact h | with_reducible apply State.report_moved
    | with_reducible apply State.evaluateAll_moved | with_reducible apply Moved.pc

theorem State.restoreHeartbeat_moved (detail : Nat) {s u : State} (h : Moved s u) :
    Moved s (u.restoreHeartbeat detail) := by
  unfold State.restoreHeartbeat
  all_goals repeat' first
    | with_reducible exact h | with_reducible apply State.report_moved
    | with_reducible apply State.evaluateAll_moved

theorem State.serveHeartbeat_moved (v : Nat) {s u : State} (h : Moved s u) : Moved s (u.serveHeartbeat v) := by
  unfold State.serveHeartbeat
  dsimp -failIfUnchanged only
  repeat' split
  all_goals repeat' first
    | with_reducible exact h | with_reducible apply State.restoreHeartbeat_moved | with_reducible apply Moved.pc

theorem State.changeModulus_moved {s u : State} (h : Moved s u) : Moved s (u.changeModulus) := by
  unfold State.changeModulus
  dsimp -failIfUnchanged only
  repeat' split
  all_goals repeat' first
    | with_reducible exact h | with_reducible apply State.restoreHeartbeat_moved | with_reducible apply Moved.pc

/-! ## Schedules -/

theorem State.refreshSchedulePage_moved (i : SignNo) {s u : State} (h : Moved s u) :
    Moved s (u.refreshSchedulePage i) := by
  unfold State.refreshSchedulePage
  dsimp -failIfUnchanged only
  repeat' split
  all_goals repeat' first
    | with_reducible exact h | with_reducible apply Moved.sign | with_reducible apply State.evaluate_moved
    | exact KeepsEntry.of_eq fun _ => ⟨rfl, rfl⟩

theorem State.markResync_moved (i : SignNo) {s u : State} (h : Moved s u) : Moved s (u.markResync i) := by
  unfold State.markResync
  repeat' split
  all_goals repeat' first
    | with_reducible exact h | with_reducible apply Moved.sign | with_reducible apply Moved.clk
    | exact KeepsEntry.of_eq fun _ => ⟨rfl, rfl⟩

theorem State.markAllResync_moved {s u : State} (h : Moved s u) : Moved s (u.markAllResync) := by
  unfold State.markAllResync
  all_goals repeat' first
    | with_reducible exact h | with_reducible apply State.markResync_moved | with_reducible apply forSigns_moved
    | exact KeepsEntry.of_eq fun _ => ⟨rfl, rfl⟩ | intro _ _ h

theorem State.markAdvance_moved (i : SignNo) {s u : State} (h : Moved s u) : Moved s (u.markAdvance i) := by
  unfold State.markAdvance
  dsimp only
  split
  · exact Moved.sign i _ (KeepsEntry.of_eq fun _ => ⟨rfl, rfl⟩) h
  · exact h

theorem State.markAdvances_moved {s u : State} (h : Moved s u) : Moved s u.markAdvances := by
  unfold State.markAdvances
  split
  · exact h
  · exact forSigns_moved (fun i _ hh => State.markAdvance_moved i hh) _ h

theorem State.queueDiffering_moved {s u : State} (h : Moved s u) : Moved s (u.queueDiffering) := by
  unfold State.queueDiffering
  all_goals repeat' first
    | with_reducible exact h | with_reducible apply State.queueActivation_moved
    | with_reducible apply forSigns_moved | exact KeepsEntry.of_eq fun _ => ⟨rfl, rfl⟩ | intro _ _ h

theorem Clock.nextMinute_inRange {c : Clock} (h : c.InRange) : c.nextMinute.InRange := by
  obtain ⟨hd, hm, hs, hp⟩ := h
  unfold Clock.nextMinute
  split
  · refine ⟨?_, ?_, ?_, hp⟩ <;> dsimp only <;> (try split) <;> omega
  · exact ⟨hd, by dsimp only; omega, by dsimp only; omega, hp⟩

theorem State.setClock_moved (t : TimeOfDay) (ht : t.day < 65536 ∧ t.minute < 1440 ∧ t.second < 60) (seq : Byte)
    {s u : State} (h : Moved s u) : Moved s (u.setClock t seq) :=
  State.report_moved _ (State.markAllResync_moved (Moved.clk _ (fun _ => ⟨ht.1, ht.2.1, ht.2.2, by simp⟩) h))

theorem State.setPulseMode_moved (on : Bool) {s u : State} (h : Moved s u) : Moved s (u.setPulseMode on) := by
  unfold State.setPulseMode
  dsimp -failIfUnchanged only
  repeat' split
  all_goals repeat' first
    | with_reducible exact h | with_reducible apply Moved.clk | exact KeepsEntry.of_eq fun _ => ⟨rfl, rfl⟩
    | exact fun hc => hc

theorem State.rotate_moved (i : SignNo) {s u : State} (h : Moved s u) : Moved s (u.rotate i) := by
  unfold State.rotate
  all_goals repeat' first
    | with_reducible exact h | with_reducible apply Moved.sign
    | with_reducible apply State.refreshSchedulePage_moved | exact KeepsEntry.of_eq fun _ => ⟨rfl, rfl⟩

theorem State.endResync_moved (i : SignNo) (cand : Option Candidate) (next : Option (Nat × Nat)) {s u : State}
    (h : Moved s u) : Moved s (u.endResync i cand next) := by
  have h1 : Moved s { u with clk.engine := .idle } := Moved.clk _ (fun hc => hc) h
  unfold State.endResync
  dsimp only
  split
  · exact h1
  · refine State.refreshSchedulePage_moved i (Moved.sign i _ (KeepsEntry.of_eq fun g => ?_) h1)
    unfold SignState.resynced
    split
    · exact ⟨rfl, rfl⟩
    · split <;> exact ⟨rfl, rfl⟩

theorem State.reportOrder_moved (i : SignNo) (k : Nat) {s u : State} (h : Moved s u) : Moved s (u.reportOrder i k) := by
  unfold State.reportOrder
  split
  · exact h
  · refine State.report_moved _ (Moved.sign i _ (KeepsEntry.of_eq fun g => ?_) h)
    unfold SignState.orderMet
    split <;> exact ⟨rfl, rfl⟩

theorem State.applyAdvance_moved (i : SignNo) (k : Nat) (e : SchedEntry) (next : Option (Nat × Nat))
    {s u : State} (h : Moved s u) :
    Moved s (u.applyAdvance i k e next) := by
  unfold State.applyAdvance
  dsimp -failIfUnchanged only
  all_goals repeat' first
    | with_reducible exact h | with_reducible apply Moved.sign
    | with_reducible apply State.refreshSchedulePage_moved | exact KeepsEntry.of_eq fun _ => ⟨rfl, rfl⟩

theorem State.advanceReadEnds_moved (bytes : List Byte) {s u : State} (h : Moved s u) :
    Moved s (u.advanceReadEnds bytes) := by
  have h1 : Moved s { u with clk.engine := .idle } := Moved.clk _ (fun hc => hc) h
  unfold State.advanceReadEnds
  split
  · dsimp only
    split
    · exact h1
    · split
      · exact h1
      · exact State.applyAdvance_moved _ _ _ _ h1
      · split
        · exact State.applyAdvance_moved _ _ _ _ (State.reportOrder_moved _ _ h1)
        · split
          · exact State.applyAdvance_moved _ _ _ _ h1
          · exact State.markResync_moved _ h1
  · exact h

theorem State.scheduleWritten_moved (i : SignNo) {s u : State} (h : Moved s u) : Moved s (u.scheduleWritten i) := by
  unfold State.scheduleWritten
  repeat' split
  all_goals repeat' first
    | with_reducible exact h | with_reducible apply State.markResync_moved | with_reducible apply Moved.sign
    | exact KeepsEntry.of_eq fun _ => ⟨rfl, rfl⟩

theorem State.scheduleDisable_moved (i : SignNo) {s u : State} (h : Moved s u) : Moved s (u.scheduleDisable i) := by
  unfold State.scheduleDisable
  dsimp only
  refine Moved.sign i _ (KeepsEntry.of_eq fun _ => ⟨rfl, rfl⟩) ?_
  split
  · exact Moved.withdraw _ (Moved.clk _ (fun hc => hc) h)
  · exact h

/-! ## Lines -/

theorem State.applyLine_moved (n : LineNo) (e : LineEntry) {s u : State} (h : Moved s u) :
    Moved s (u.applyLine n e) := by
  have key : ∀ v (a : Bool) (z : BitVec 64) (b c : Bool), Moved s v → Moved s
      (if b = true then v.setAlert n a 3 z else if c = true then v.sweep z else v) := by
    intro v a z b c hv
    split
    · exact State.setAlert_moved n a 3 z hv
    · split
      · exact State.sweep_moved z hv
      · exact hv
  have h1 := Moved.setLine n ((u.line n).applied e u.pc.faultCount u.settings.lineFilter) h
  unfold State.applyLine
  dsimp only
  by_cases hn : n = 3
  · simp only [hn, if_true] at h1 key ⊢
    exact key _ _ _ _ _ (State.setPulseMode_moved _ h1)
  · simp only [hn, if_false] at h1 ⊢
    exact key _ _ _ _ _ h1

theorem State.reportLineMode_moved (n : LineNo) {s u : State} (h : Moved s u) : Moved s (u.reportLineMode n) := by
  unfold State.reportLineMode
  dsimp -failIfUnchanged only
  repeat' split
  all_goals repeat' first | with_reducible exact h | with_reducible apply State.report_moved

theorem State.commitLine_moved (n : LineNo) {s u : State} (h : Moved s u) : Moved s (u.commitLine n) := by
  unfold State.commitLine
  all_goals repeat' first
    | with_reducible exact h | with_reducible apply State.reportLineMode_moved
    | with_reducible apply State.applyLine_moved

theorem State.clearLine_moved (n : LineNo) {s u : State} (h : Moved s u) : Moved s (u.clearLine n) := by
  unfold State.clearLine
  dsimp -failIfUnchanged only
  repeat' split
  all_goals repeat' first | with_reducible exact h | with_reducible apply State.setAlert_moved

/-! ## Taking up work -/

theorem State.readResync_moved (i : SignNo) (offset : Nat) (prev : Option Nat) (cand : Option Candidate)
    {s u : State} (hb : u.busy .schedule = false) (h : Moved s u) :
    Moved s (u.readResync i offset prev cand) :=
  Moved.place _ hb (by exact fun h => nomatch h) (Moved.clk _ (fun hc => hc) h)

theorem State.startWork_moved (i : SignNo) {s u : State} (hb : u.busy .schedule = false) (h : Moved s u) :
    Moved s (u.startWork i) := by
  have h1 : Moved s (u.modifySign i fun g => { g with workDue := .none, redo := false }) :=
    Moved.sign i _ (KeepsEntry.of_eq fun _ => ⟨rfl, rfl⟩) h
  unfold State.startWork
  dsimp only
  split
  · split
    · exact State.endResync_moved i none none h1
    · exact State.readResync_moved i _ _ _ hb h1
  · exact Moved.place _ hb (by exact fun h => nomatch h) (Moved.clk _ (fun hc => hc) h1)
  · exact h1
  · exact h1

theorem State.takeWork_moved (n : Nat) {s u : State} (h : Moved s u) : Moved s (State.takeWork n u) := by
  induction n generalizing u with
  | zero => exact h
  | succ n ih =>
    unfold State.takeWork
    split
    · exact h
    · rename_i hg
      split
      · exact h
      · simp only [not_or, Bool.not_eq_true] at hg
        exact ih (State.startWork_moved _ hg.2.2 h)

theorem State.startActivation_moved (i : SignNo) (p : Nat) (r : Reason) {s u : State} (hb : u.busy .pageMap = false)
    (h : Moved s u) : Moved s (u.startActivation i p r) :=
  Moved.place _ hb (by exact fun h => nomatch h)
    (Moved.pl _ (Moved.sign i _ (KeepsEntry.of_eq fun _ => ⟨rfl, rfl⟩) h))

theorem State.takeActivation_moved (n : Nat) {s u : State} (h : Moved s u) : Moved s (State.takeActivation n u) := by
  induction n generalizing u with
  | zero => exact h
  | succ n ih =>
    unfold State.takeActivation
    split
    · exact h
    · rename_i hg
      simp only [Bool.or_eq_true, not_or, Bool.not_eq_true] at hg
      split
      · exact h
      · rename_i i rest _
        have h1 := Moved.sign i (fun g => { g with activation := .idle }) (KeepsEntry.of_eq fun _ => ⟨rfl, rfl⟩)
          (Moved.pl { u.pl with queue := rest } h)
        dsimp only
        split
        · exact ih h1
        · split
          · exact ih h1
          · split
            · exact State.startActivation_moved _ _ _ hg.2 h1
            · exact ih (State.refuseActivation_moved _ _ _ h1)

theorem State.placeSignature_moved {s u : State} (h : Moved s u) : Moved s u.placeSignature := by
  unfold State.placeSignature
  split
  · split
    · exact h
    · rename_i hb
      exact Moved.place _ (by simpa [OwnReq.requester, OwnKind.requester] using hb) (by exact fun h => nomatch h) h
  · exact h

theorem State.takeUp_moved {s u : State} (h : Moved s u) : Moved s u.takeUp :=
  State.placeSignature_moved (State.takeStale_moved (State.takeActivation_moved _ (State.takeWork_moved _ h)))

theorem State.placeTile_moved (l : LinkNo) {s u : State} (h : Moved s u) : Moved s (u.placeTile l) := by
  unfold State.placeTile
  split
  · exact h
  · rename_i hb
    repeat' split
    all_goals first
      | exact h
      | exact Moved.place _ (by simpa [OwnReq.requester, OwnKind.requester] using hb) (by exact fun h => nomatch h) h

theorem State.placeReport_moved {s u : State} (h : Moved s u) : Moved s u.placeReport := by
  unfold State.placeReport
  split
  · exact h
  · rename_i hb
    have hb' : u.busy .report = false := by simpa using hb
    split
    · exact Moved.place _ hb' (by exact fun h => nomatch h) (Moved.rw _ h)
    · exact Moved.place _ hb' (by exact fun h => nomatch h) h
    · split
      · exact Moved.place _ hb' (by exact fun h => nomatch h) (Moved.rw _ h)
      · split
        · exact h
        · exact Moved.place _ hb' (by exact fun h => nomatch h)
            (Moved.sign _ _ (KeepsEntry.of_eq fun _ => ⟨rfl, rfl⟩) h)

/-- Taking up work and placing requests at the end of an event. -/
theorem State.takeAll_moved {s u : State} (h : Moved s u) : Moved s u.takeAll :=
  State.placeReport_moved (State.placeTile_moved 3 (State.placeTile_moved 2 (State.placeTile_moved 1
    (State.placeTile_moved 0 (State.takeUp_moved h)))))

/-! ## Ticks, pulse captures and filtered edges -/

theorem State.tickHeartbeat_moved {s u : State} (h : Moved s u) : Moved s u.tickHeartbeat := by
  unfold State.tickHeartbeat
  split
  · exact State.takeUp_moved (State.lapse_moved h)
  · split
    · exact Moved.pc _ h
    · exact h

theorem State.tickMinute_moved {s u : State} (h : Moved s u) : Moved s u.tickMinute := by
  have h1 : Moved s { u with clk := u.clk.nextMinute } := Moved.clk _ Clock.nextMinute_inRange h
  unfold State.tickMinute
  dsimp only
  split
  · exact State.takeUp_moved (State.queueDiffering_moved (State.takeUp_moved
      (State.markAdvances_moved (State.markAllResync_moved h1))))
  · exact State.takeUp_moved (State.queueDiffering_moved (State.takeUp_moved (State.markAdvances_moved h1)))

theorem State.tickDwell_moved {s u : State} (h : Moved s u) : Moved s (u.tickDwell) := by
  unfold State.tickDwell
  all_goals repeat' first
    | with_reducible exact h | with_reducible apply Moved.sign | with_reducible apply forSigns_moved
    | exact KeepsEntry.of_eq fun _ => ⟨rfl, rfl⟩ | intro _ _ h

theorem State.missPulse_moved {s u : State} (h : Moved s u) : Moved s (u.missPulse) := by
  unfold State.missPulse
  dsimp -failIfUnchanged only
  all_goals repeat' first
    | with_reducible exact h | with_reducible apply State.report_moved | with_reducible apply Moved.clk
    | exact KeepsEntry.of_eq fun _ => ⟨rfl, rfl⟩ | exact fun hc => hc

theorem State.tickPulse_moved {s u : State} (h : Moved s u) : Moved s u.tickPulse := by
  have key : ∀ v, Moved s v → Moved s (if u.pulseMissingDue then v.missPulse else v) := by
    intro v hv
    split
    · exact State.missPulse_moved hv
    · exact hv
  refine key _ ?_
  split
  · exact Moved.clk _ (fun hc => hc) h
  · exact h

theorem State.tickSecond_moved {s u : State} (h : Moved s u) : Moved s u.tickSecond := by
  have h1 : Moved s { u with clk.prescaler := 0 } :=
    Moved.clk _ (fun hc => ⟨hc.1, hc.2.1, hc.2.2.1, by simp⟩) h
  have key : ∀ v, Moved s v →
      Moved s { v.tickHeartbeat.tickPulse.tickDwell with
        rw := { v.tickHeartbeat.tickPulse.tickDwell.rw with blockDue := true } } := fun v hv =>
    Moved.rw _ (State.tickDwell_moved (State.tickPulse_moved (State.tickHeartbeat_moved hv)))
  unfold State.tickSecond
  dsimp only
  split
  · rename_i hs
    exact key _ (Moved.clk _ (fun hc => ⟨hc.1, hc.2.1, by dsimp only; omega, by simp⟩) h)
  · exact key _ (State.tickMinute_moved h1)

theorem State.capturePulse_moved {s u : State} (h : Moved s u) : Moved s u.capturePulse := by
  have key : ∀ v (x : Int), Moved s v → Moved s { v with
      clk := { v.clk with prescaler := 0, lastOffset := x, pulseMissing := 0, armed := true } } := fun v x hv =>
    Moved.clk _ (fun hc => ⟨hc.1, hc.2.1, hc.2.2.1, by simp⟩) hv
  unfold State.capturePulse
  dsimp only
  refine State.report_moved _ ?_
  split
  · exact key _ _ (Moved.clk _ (fun hc => ⟨hc.1, hc.2.1, by simp, hc.2.2.2⟩) h)
  · exact key _ _ (State.tickMinute_moved h)

theorem State.filteredEdge_moved (n : LineNo) {s u : State} (h : Moved s u) : Moved s (u.filteredEdge n) := by
  unfold State.filteredEdge
  dsimp -failIfUnchanged only
  repeat' split
  all_goals repeat' first
    | with_reducible exact h | with_reducible apply State.setAlert_moved
    | with_reducible apply State.capturePulse_moved

theorem State.filterExpires_moved (n : LineNo) {s u : State} (h : Moved s u) : Moved s (u.filterExpires n) := by
  unfold State.filterExpires
  dsimp -failIfUnchanged only
  all_goals repeat' first
    | with_reducible exact h | with_reducible apply Moved.setLine | with_reducible apply State.filteredEdge_moved

end Sys2Proof.Machine
end

