-- ==== Sys2Proof/Laws/Signs.lean ====
section
/-! SUPPORT. Finding signs: `signsWhere` lists exactly the signs that satisfy a predicate, `findSign` finds the lowest of them. -/

namespace Sys2Proof.Machine

/-- The signs listed are exactly those that satisfy the predicate. -/
theorem State.mem_signsWhere (s : State) (p : SignState → Bool) (i : SignNo) :
    i ∈ s.signsWhere p ↔ p (s.sign i) = true := by
  simp only [State.signsWhere, List.mem_filterMap, Prod.exists]
  constructor
  · rintro ⟨a, b, hab, h⟩
    obtain ⟨n, hn, he⟩ := List.getElem_of_mem hab
    simp only [List.getElem_zip, List.getElem_finRange, Prod.mk.injEq] at he
    obtain ⟨ha, hb⟩ := he
    split at h
    · rename_i hp
      cases h
      subst ha hb
      simpa [State.sign] using hp
    · cases h
  · intro h
    refine ⟨i, s.sign i, ?_, by simp [h]⟩
    have hl : i.val < ((List.finRange 256).zip s.signs.toList).length := by simp
    have := List.getElem_mem hl
    simpa [State.sign] using this

/-- No sign is found exactly when none satisfies the predicate. -/
theorem State.findSign_eq_none (s : State) (p : SignState → Bool) :
    s.findSign p = none ↔ ∀ i, p (s.sign i) = false := by
  rw [State.findSign, List.head?_eq_none_iff, List.eq_nil_iff_forall_not_mem]
  simp [State.mem_signsWhere]

/-- A sign that is found satisfies the predicate. -/
theorem State.findSign_some {s : State} {p : SignState → Bool} {i : SignNo} (h : s.findSign p = some i) :
    p (s.sign i) = true :=
  (s.mem_signsWhere p i).mp (List.mem_of_mem_head? h)

end Sys2Proof.Machine
end

