-- ==== Sys2Proof/Laws/Directory.lean ====
section
/-! SUPPORT. What the operations of the directory shadow leave, and that they keep the drops of enabled signs distinct. -/

namespace Sys2Proof.Machine

/-! ## Primitive updates -/

/-- A calm change that leaves every applied entry but sign `i`'s. -/
structure MovedBut (i : SignNo) (s t : State) : Prop extends Calm s t where
  dir : t.dir = s.dir
  entry : ∀ j, j ≠ i → (t.sign j).entry = (s.sign j).entry

theorem MovedBut.refl (i : SignNo) (s : State) : MovedBut i s s :=
  { Calm.refl s with dir := rfl, entry := fun _ _ => rfl }

theorem MovedBut.trans {i : SignNo} {s t u : State} (h : MovedBut i s t) (k : MovedBut i t u) : MovedBut i s u :=
  { h.toCalm.trans k.toCalm with
    dir := k.dir.trans h.dir
    entry := fun j hj => (k.entry j hj).trans (h.entry j hj) }

theorem Moved.but (i : SignNo) {s t : State} (h : Moved s t) : MovedBut i s t :=
  { h.toCalm with dir := h.dir, entry := fun j _ => h.entry j }

/-- A change of sign `i` that keeps its samples in range. -/
theorem MovedBut.sign {s t : State} (i : SignNo) (f : SignState → SignState)
    (hf : ∀ g, g.SamplesInRange → (f g).SamplesInRange) (h : MovedBut i s t) : MovedBut i s (t.modifySign i f) :=
  h.trans { Calm.sign i f hf (Calm.refl t) with
    dir := rfl
    entry := fun j hj => by rw [State.sign_modifySign, if_neg (Ne.symm hj)] }

theorem State.setEntry_moved (i : SignNo) (e : SignEntry) {s t : State} (h : MovedBut i s t) :
    MovedBut i s (t.setEntry i e) := MovedBut.sign i _ (fun _ hg => hg) h

@[simp] theorem State.setEntry_entry (i : SignNo) (e : SignEntry) (s : State) : ((s.setEntry i e).sign i).entry = e := by
  simp [State.setEntry]

/-- A change of the directory shadow that keeps the image canonical. -/
theorem Calm.dir {s t : State} (x : Directory) (hx : t.dir.image.wf = true → x.image.wf = true) (h : Calm s t) :
    Calm s { t with dir := x } :=
  h.trans { Calm.refl t with image := hx }

theorem Calm.dirRw {s t : State} (x : Directory) (y : ReportWriter) (hx : t.dir.image.wf = true → x.image.wf = true)
    (h : Calm s t) : Calm s { t with dir := x, rw := y } :=
  h.trans { Calm.refl t with image := hx }

theorem Calm.links {s t : State} (x : Vector LinkState 4) (h : Calm s t) : Calm s { t with links := x } :=
  h.trans { Calm.refl t with }

/-! ## Disable and enable -/

theorem State.disableSign_moved (i : SignNo) (s : State) : MovedBut i s (s.disableSign i) := by
  refine MovedBut.sign i _ (fun g _ => ?_) (Moved.but i ?_)
  · intro x hx
    simp [SignState.dropped] at hx
  · exact State.scheduleDisable_moved i (State.loaderDisable_moved i (State.setJob_moved i .disabled
      (State.leaveQueue_moved i (State.linkDisable_moved i (Moved.refl s)))))

/-- A disabled sign is DISABLED. -/
theorem State.disableSign_enabled (i : SignNo) (s : State) : ((s.disableSign i).sign i).entry.enabled = false := by
  simp [State.disableSign, SignState.dropped]

theorem State.disableIfEnabled_moved (i : SignNo) (s : State) : MovedBut i s (s.disableIfEnabled i) := by
  unfold State.disableIfEnabled
  split
  · exact State.disableSign_moved i s
  · exact MovedBut.refl i s

theorem State.disableIfEnabled_enabled (i : SignNo) (s : State) :
    ((s.disableIfEnabled i).sign i).entry.enabled = false := by
  unfold State.disableIfEnabled
  split
  · exact State.disableSign_enabled i s
  · rename_i h
    simpa using h

theorem State.resyncCommitted_moved (i : SignNo) {s t : State} (h : Moved s t) : Moved s (t.resyncCommitted i) :=
  Moved.sign i _ (KeepsEntry.of_eq fun _ => ⟨rfl, rfl⟩) (State.markResync_moved i h)

/-- What an enable does to the applied entries: refused, the entry is off; accepted, no enabled sign holds the link and
drop, and the entry stands. -/
theorem State.enableSign_moved (i : SignNo) (e : SignEntry) (s : State) :
    MovedBut i s (s.enableSign i e) ∧
      (((s.enableSign i e).sign i).entry.enabled = false ∨
        (((s.enableSign i e).sign i).entry = e ∧
          ∀ j, (s.sign j).entry.enabled = true → (s.sign j).entry.link = e.link → (s.sign j).entry.drop ≠ e.drop)) := by
  unfold State.enableSign
  split
  · refine ⟨(State.setEntry_moved i _ (MovedBut.refl i s)).trans (Moved.but i (State.report_moved _ (Moved.refl _))), .inl ?_⟩
    rw [(State.report_moved _ (Moved.refl _)).entry i]
    simp
  · rename_i hn
    have h1 : MovedBut i s (s.modifySign i (SignState.enabledWith e)) :=
      MovedBut.sign i _ (fun g _ x hx => by simp [SignState.enabledWith] at hx) (MovedBut.refl i s)
    have h2 := State.evaluate_moved i (State.resyncCommitted_moved i (State.setJob_moved i
      (if (s.modifySign i (SignState.enabledWith e)).linkOn e.link then .shown else .offline)
      (Moved.refl (s.modifySign i (SignState.enabledWith e)))))
    refine ⟨h1.trans (Moved.but i h2), .inr ⟨?_, ?_⟩⟩
    · show (State.sign (State.evaluate i _) i).entry = e
      rw [h2.entry i]
      simp [SignState.enabledWith]
    · rw [State.dropHolder, State.findSign_eq_none] at hn
      intro j hj hl hd
      have := hn j
      simp [hj, hl, hd] at this

theorem State.updateSign_moved (i : SignNo) (e : SignEntry) (s : State) :
    MovedBut i s (s.updateSign i e) ∧ ((s.updateSign i e).sign i).entry = e := by
  have h1 : MovedBut i s (s.setEntry i e) := State.setEntry_moved i e (MovedBut.refl i s)
  unfold State.updateSign
  dsimp only
  split
  · have h2 := State.resyncCommitted_moved i (Moved.refl (s.setEntry i e))
    exact ⟨h1.trans (Moved.but i h2), by rw [h2.entry i]; simp⟩
  · have h2 := State.resyncCommitted_moved i (State.evaluate_moved i (Moved.refl (s.setEntry i e)))
    exact ⟨h1.trans (Moved.but i h2), by rw [h2.entry i]; simp⟩

/-! ## Sign-entry commits -/

/-- A change of sign `i` alone keeps the drops distinct if it leaves the sign DISABLED or at a drop no other enabled sign
holds. -/
theorem State.DropsDistinct.of_but {i : SignNo} {s t : State} (h : MovedBut i s t) (hs : s.DropsDistinct)
    (hi : (t.sign i).entry.enabled = false ∨
      ∀ j, j ≠ i → (s.sign j).entry.enabled = true → (s.sign j).entry.link = (t.sign i).entry.link →
        (s.sign j).entry.drop ≠ (t.sign i).entry.drop) : t.DropsDistinct := by
  intro a b ha hb hl hd
  by_cases hai : a = i
  · by_cases hbi : b = i
    · rw [hai, hbi]
    · subst hai
      rw [h.entry b hbi] at hb hl hd
      rcases hi with hi | hi
      · simp [hi] at ha
      · exact absurd hd.symm (hi b hbi hb hl.symm)
  · by_cases hbi : b = i
    · subst hbi
      rw [h.entry a hai] at ha hl hd
      rcases hi with hi | hi
      · simp [hi] at hb
      · exact absurd hd (hi a hai ha hl)
    · rw [h.entry a hai] at ha hl hd
      rw [h.entry b hbi] at hb hl hd
      exact hs a b ha hb hl hd

theorem State.DropsDistinct.of_moved {s t : State} (h : Moved s t) (hs : s.DropsDistinct) : t.DropsDistinct := by
  intro a b
  rw [h.entry a, h.entry b]
  exact hs a b

theorem State.commitSign_moved (i : SignNo) (s : State) : MovedBut i s (s.commitSign i) := by
  unfold State.commitSign
  dsimp only
  split
  · split
    · exact State.setEntry_moved i _ ((Moved.but i (State.report_moved _ (Moved.refl s))).trans
        (State.disableIfEnabled_moved i _))
    · split
      · exact (State.enableSign_moved i _ s).1
      · split
        · exact (State.updateSign_moved i _ s).1
        · exact ((State.disableSign_moved i s).trans (Moved.but i (State.takeUp_moved (Moved.refl _)))).trans
            (State.enableSign_moved i _ _).1
  · exact State.setEntry_moved i _ (State.disableIfEnabled_moved i s)

/-- A sign-entry commit keeps the drops of enabled signs distinct (R32). -/
theorem State.commitSign_drops (i : SignNo) (s : State) (hs : s.DropsDistinct) : (s.commitSign i).DropsDistinct := by
  have hm := State.commitSign_moved i s
  refine hs.of_but hm ?_
  unfold State.commitSign
  dsimp only
  split
  · split
    · exact .inl (by simp)
    · split
      · rcases (State.enableSign_moved i (rawSign s.dir.image i).clamped s).2 with h | h
        · exact .inl h
        · refine .inr fun j _ hj hl => ?_
          rw [h.1] at hl ⊢
          exact h.2 j hj hl
      · rename_i hen
        have hen' : (s.sign i).entry.enabled = true := by simpa using hen
        split
        · rename_i hp
          refine .inr fun j hji hj hl hd => hji ?_
          rw [(State.updateSign_moved i _ s).2] at hl hd
          simp only [SignEntry.samePanel, Bool.and_eq_true, beq_iff_eq] at hp
          exact hs j i hj hen' (hl.trans hp.1.1.1.1.symm) (hd.trans hp.1.1.1.2.symm)
        · rcases (State.enableSign_moved i (rawSign s.dir.image i).clamped (s.disableSign i).takeUp).2 with h | h
          · exact .inl h
          · refine .inr fun j hji hj hl => ?_
            rw [h.1] at hl ⊢
            have he := ((State.takeUp_moved (Moved.refl _)).entry j).trans ((State.disableSign_moved i s).entry j hji)
            have := h.2 j
            rw [he] at this
            exact this hj hl
  · rename_i hen
    refine .inl ?_
    rw [State.setEntry_entry]
    simpa [SignEntry.clamped] using hen

/-! ## Words, emptying and header commits -/

theorem parseClockSet_inRange (m : Memory) :
    (parseClockSet m).day < 65536 ∧ (parseClockSet m).minute < 1440 ∧ (parseClockSet m).second < 60 := by
  refine ⟨?_, ?_, ?_⟩
  · have h1 := (m.read 0x200).isLt
    have h2 := (m.read 0x201).isLt
    simp only [parseClockSet, Memory.word, be16]
    omega
  · simp only [parseClockSet]
    omega
  · simp only [parseClockSet]
    omega

theorem State.commitClock_calm (q : Byte) (s : State) : Calm s (s.commitClock q) := by
  unfold State.commitClock
  split
  · exact Calm.refl s
  · exact (Calm.dir { s.dir with lastClockSeq := some q } (fun h => h) (Calm.refl s)).trans
      (State.setClock_moved _ (parseClockSet_inRange _) q (Moved.refl _)).toCalm

theorem State.clearBlocks_calm (s : State) : Calm s s.clearBlocks :=
  { Calm.refl s with
    clock := fun h => h
    samples := fun _ i x hx => by simp [State.clearBlocks, State.sign, SignState.reset] at hx
    watch := fun _ => by simp [State.clearBlocks, TileMonitor.WithinCapacity, TileMonitor.reset] }

theorem State.emptyWorking_calm (s : State) : Calm s s.emptyWorking :=
  (Calm.withdraw _ (Calm.refl s)).trans ((State.clearBlocks_calm _).trans (State.unplaceRing_moved (Moved.refl _)).toCalm)

/-- Emptying disables every sign. -/
theorem State.emptyWorking_entry (s : State) (i : SignNo) : (s.emptyWorking.sign i).entry = SignEntry.cleared := by
  simp [State.emptyWorking, State.unplaceRing, State.evalAttn, State.clearBlocks, State.sign, SignState.reset]

theorem State.DropsDistinct.of_cleared {s : State} (h : ∀ i, (s.sign i).entry = SignEntry.cleared) : s.DropsDistinct := by
  intro a b ha
  rw [h a] at ha
  cases ha

theorem State.reportRefused_moved (c : Nat) {s t : State} (h : Moved s t) : Moved s (t.reportRefused c) := by
  unfold State.reportRefused
  split
  · exact State.report_moved _ h
  · exact h

theorem State.refuseHeader_calm (c : Nat) (s : State) : Calm s (s.refuseHeader c) :=
  Calm.dirRw _ _ (fun h => h) ((State.reportRefused_moved c (Moved.refl s)).toCalm.trans (State.emptyWorking_calm _))

theorem State.enterLoading_calm (s : State) : Calm s s.enterLoading :=
  Calm.dirRw _ _ (fun h => h) (Calm.refl s)

theorem State.changeLink_moved (old new : Header) (l : LinkNo) {s t : State} (h : Moved s t) :
    Moved s (t.changeLink old new l) := by
  unfold State.changeLink
  split
  · exact State.linkOff_moved l h
  · split
    · exact State.linkOnSet_moved l h
    · exact h

theorem forLinks_moved {f : LinkNo → State → State} (hf : ∀ {s t : State} (l : LinkNo), Moved s t → Moved s (f l t))
    {s t : State} (h : Moved s t) : Moved s (forLinks f t) := hf 3 (hf 2 (hf 1 (hf 0 h)))

/-- Applying settings in place: only the header of the directory shadow changes, and no applied entry. -/
theorem State.applySettings_calm (h : Header) (s : State) :
    Calm s (s.applySettings h) ∧ (∀ i, ((s.applySettings h).sign i).entry = (s.sign i).entry) ∧
      (s.applySettings h).dir = { s.dir with header := some h } := by
  have h1 : Calm s { s with dir := { s.dir with header := some h } } := Calm.dir _ (fun hi => hi) (Calm.refl s)
  have h2 := forLinks_moved (fun l => State.changeLink_moved s.settings h l) (Moved.refl { s with dir := { s.dir with header := some h } })
  have h3 : Moved { s with dir := { s.dir with header := some h } } (s.applySettings h) := by
    unfold State.applySettings
    dsimp only
    refine Moved.attn ?_
    split
    · exact State.changeModulus_moved h2
    · exact h2
  exact ⟨h1.trans h3.toCalm, h3.entry, h3.dir⟩

/-- A header commit: a calm change that either leaves every applied entry or clears them all. -/
theorem State.commitHeader_calm (s : State) :
    Calm s s.commitHeader ∧
      ((∀ i, (s.commitHeader.sign i).entry = (s.sign i).entry) ∨
        ∀ i, (s.commitHeader.sign i).entry = SignEntry.cleared) := by
  have hr : ∀ c, Calm s (s.refuseHeader c) ∧ ((∀ i, ((s.refuseHeader c).sign i).entry = (s.sign i).entry) ∨
      ∀ i, ((s.refuseHeader c).sign i).entry = SignEntry.cleared) := fun c =>
    ⟨State.refuseHeader_calm c s, .inr fun i => State.emptyWorking_entry (s.reportRefused c) i⟩
  have ha : Calm s s.loadAgain ∧ ((∀ i, (s.loadAgain.sign i).entry = (s.sign i).entry) ∨
      ∀ i, (s.loadAgain.sign i).entry = SignEntry.cleared) :=
    ⟨Calm.dir _ (fun h => h) (State.emptyWorking_calm s), .inr fun i => State.emptyWorking_entry s i⟩
  have hs : Calm s s.restart ∧ ((∀ i, (s.restart.sign i).entry = (s.sign i).entry) ∨
      ∀ i, (s.restart.sign i).entry = SignEntry.cleared) :=
    ⟨(State.emptyWorking_calm s).trans (State.enterLoading_calm _), .inr fun i => State.emptyWorking_entry s i⟩
  have hp : ∀ h, Calm s (s.applySettings h) ∧ ((∀ i, ((s.applySettings h).sign i).entry = (s.sign i).entry) ∨
      ∀ i, ((s.applySettings h).sign i).entry = SignEntry.cleared) := fun h =>
    ⟨(State.applySettings_calm h s).1, .inl (State.applySettings_calm h s).2.1⟩
  have hn : Calm s s ∧ ((∀ i, (s.sign i).entry = (s.sign i).entry) ∨ ∀ i, (s.sign i).entry = SignEntry.cleared) :=
    ⟨Calm.refl s, .inl fun _ => rfl⟩
  unfold State.commitHeader
  dsimp only
  repeat' split
  all_goals first
    | exact hn | exact hr _ | exact ha | exact hs | exact hp _ | exact ⟨State.enterLoading_calm s, .inl fun _ => rfl⟩

/-- A header commit leaves no load waiting for the ring that did not wait for it before. -/
theorem State.commitHeader_ring (s : State) (h : s.commitHeader.dir.load.ringIndex.isSome = true) :
    s.dir.load.ringIndex.isSome = true := by
  have hp : ∀ h : Header, (s.applySettings h).dir.load = s.dir.load := fun h => by
    rw [(State.applySettings_calm h s).2.2]
  unfold State.commitHeader at h
  dsimp only at h
  repeat' split at h
  all_goals first
    | exact h
    | (rw [hp] at h; exact h)
    | cases h

/-! ## Window runs -/

/-- What handing bytes of a snoop to the owners keeps: a calm change, the drops of enabled signs stay distinct, and no load
comes to wait for the ring. -/
structure Handed (s t : State) : Prop extends Calm s t where
  drops : s.DropsDistinct → t.DropsDistinct
  ring : t.dir.load.ringIndex.isSome = true → s.dir.load.ringIndex.isSome = true

theorem Handed.trans {s t u : State} (h : Handed s t) (k : Handed t u) : Handed s u :=
  { h.toCalm.trans k.toCalm with drops := k.drops ∘ h.drops, ring := h.ring ∘ k.ring }

theorem Moved.handed {s t : State} (h : Moved s t) : Handed s t :=
  { h.toCalm with drops := fun hs => hs.of_moved h, ring := fun hr => by rwa [h.dir] at hr }

theorem Handed.refl (s : State) : Handed s s := (Moved.refl s).handed

theorem State.commitSign_handed (i : SignNo) (s : State) : Handed s (s.commitSign i) :=
  { (State.commitSign_moved i s).toCalm with
    drops := State.commitSign_drops i s
    ring := fun h => by rwa [(State.commitSign_moved i s).dir] at h }

/-- A byte's action. -/
theorem State.windowAction_handed (off : Nat) (v : Byte) (s : State) : Handed s (s.windowAction off v) := by
  have hh : Handed s s.commitHeader := by
    refine { (State.commitHeader_calm s).1 with drops := fun hs => ?_, ring := State.commitHeader_ring s }
    rcases (State.commitHeader_calm s).2 with h | h
    · intro a b
      rw [h a, h b]
      exact hs a b
    · exact .of_cleared h
  have hk : Handed s (s.commitClock v) := by
    have hm := State.setClock_moved _ (parseClockSet_inRange s.dir.image) v
      (Moved.refl { s with dir.lastClockSeq := some v })
    refine { State.commitClock_calm v s with drops := fun hs => ?_, ring := fun h => ?_ }
    · unfold State.commitClock
      split
      · exact hs
      · intro a b
        rw [hm.entry a, hm.entry b]
        exact hs a b
    · unfold State.commitClock at h
      split at h
      · exact h
      · rwa [hm.dir] at h
  unfold State.windowAction
  dsimp only
  repeat' split
  all_goals first
    | exact hh
    | exact hk
    | exact Handed.refl s
    | exact (State.clearLine_moved _ (Moved.refl s)).handed
    | exact (State.commitLine_moved _ (Moved.refl s)).handed
    | exact (State.serveHeartbeat_moved _ (Moved.refl s)).handed
    | exact (State.takeConsumer_moved _ (Moved.refl s)).handed
    | exact State.commitSign_handed _ s

theorem State.windowByte_handed (off : Nat) (v : Byte) (s : State) : Handed s (s.windowByte off v) := by
  unfold State.windowByte
  split
  · have h := State.windowAction_handed off v { s with dir.image := s.dir.image.write off v }
    exact { (Calm.dir _ (Memory.wf_write off v _) (Calm.refl s)).trans h.toCalm with
      drops := fun hs => h.drops hs, ring := fun hr => h.ring hr }
  · exact Handed.refl s

theorem State.windowRun_handed (bytes : List (Nat × Byte)) (s : State) : Handed s (s.windowRun bytes) := by
  induction bytes generalizing s with
  | nil => exact Handed.refl s
  | cons x rest ih =>
    obtain ⟨off, v⟩ := x
    have h1 := State.windowByte_handed off v s
    unfold State.windowRun
    split
    · exact (h1.trans (State.takeUp_moved (Moved.refl _)).handed).trans (ih _)
    · exact h1.trans (ih _)

theorem State.handRun_handed (r : Run) (s : State) : Handed s (s.handRun r) := by
  cases r with
  | window bytes => exact State.windowRun_handed bytes s
  | tile n => exact (State.tileWritten_moved n (Moved.refl s)).handed
  | map i p bytes => exact (State.mapRunWritten_moved i p bytes (Moved.refl s)).handed
  | schedule i => exact (State.scheduleWritten_moved i (Moved.refl s)).handed
  | dropped => exact Handed.refl s

theorem State.handRuns_handed (rs : List Run) (s : State) : Handed s (s.handRuns rs) := by
  induction rs generalizing s with
  | nil => exact Handed.refl s
  | cons r rest ih =>
    have h1 := State.handRun_handed r s
    cases rest with
    | nil => exact h1
    | cons q more => exact (h1.trans (State.takeUp_moved (Moved.refl _)).handed).trans (ih _)

/-- A snoop. -/
theorem State.snoop_handed (addr : Nat) (data : List Byte) (s : State) : Handed s (s.snoop addr data) :=
  State.handRuns_handed _ s

/-! ## Entries applied by the load -/

/-- The sign entries of a step 4 transaction. -/
theorem State.applySigns_handed (is : List SignNo) (s : State) : Handed s (State.applySigns is s) := by
  induction is generalizing s with
  | nil => exact Handed.refl s
  | cons i rest ih =>
    have h1 := State.commitSign_handed i s
    cases rest with
    | nil => exact h1
    | cons j more => exact (h1.trans (State.takeUp_moved (Moved.refl _)).handed).trans (ih _)

end Sys2Proof.Machine
end

