-- ==== Sys2Proof/Laws/Settle.lean ====
section
/-! SUPPORT. What the end of an event may change beside the snoop of a write it grants (`State.takeAll`): one lemma per operation
it is made of, and one for the whole. -/

namespace Sys2Proof.Machine

theorem SameButTaken.refl (s : State) : SameButTaken s s := by constructor <;> intros <;> rfl

theorem SameButTaken.trans {s t u : State} (h : SameButTaken s t) (k : SameButTaken t u) : SameButTaken s u where
  pending := k.pending.trans h.pending
  resetHeld := k.resetHeld.trans h.resetHeld
  mem := k.mem.trans h.mem
  mp := k.mp.trans h.mp
  dir := k.dir.trans h.dir
  clk := k.clk.trans h.clk
  pc := k.pc.trans h.pc
  lines := k.lines.trans h.lines
  links := k.links.trans h.links
  rw := k.rw.trans h.rw
  watch := k.watch.trans h.watch
  signs i := (k.signs i).trans (h.signs i)
  entries := h.entries.trans k.entries
  waiting := h.waiting.trans k.waiting
  stale := k.stale.trans h.stale

/-! ## Primitive updates -/

@[simp] theorem SignState.markDue_lasting (g h : SignState) : (g.markDue h).lasting = h.lasting := by
  unfold SignState.markDue
  split <;> rfl

/-- A sign's change is one the end of an event may make. -/
theorem SameButTaken.sign {s t : State} (i : SignNo) (f : SignState → SignState)
    (hf : ∀ g, (f g).lasting = g.lasting) (h : SameButTaken s t) : SameButTaken s (t.modifySign i f) :=
  h.trans { SameButTaken.refl t with
    signs := fun j => by
      rw [State.sign_modifySign]
      split
      · rename_i hij
        subst hij
        rw [SignState.markDue_lasting, hf]
      · rfl }

theorem SameButTaken.place {s t : State} (q : OwnReq) (h : SameButTaken s t) : SameButTaken s (t.place q) :=
  h.trans { SameButTaken.refl t with mp := rfl, waiting := List.prefix_append _ _ }

theorem SameButTaken.ofRw {s t : State} (x : ReportWriter) (hx : x.lasting = t.rw.lasting)
    (he : t.rw.entries <+: x.entries) (h : SameButTaken s t) : SameButTaken s { t with rw := x } :=
  h.trans { SameButTaken.refl t with rw := hx, entries := he }

theorem SameButTaken.pl {s t : State} (x : PageLoader) (h : SameButTaken s t) : SameButTaken s { t with pl := x } :=
  h.trans { SameButTaken.refl t with }

theorem SameButTaken.engine {s t : State} (x : SchedEngine) (h : SameButTaken s t) :
    SameButTaken s { t with clk.engine := x } :=
  h.trans { SameButTaken.refl t with clk := rfl }

theorem SameButTaken.tm {s t : State} (x : TileMonitor)
    (hx : x.watch.map WatchEntry.lasting = t.tm.watch.map WatchEntry.lasting) (hs : x.stale <:+ t.tm.stale)
    (h : SameButTaken s t) : SameButTaken s { t with tm := x } :=
  h.trans { SameButTaken.refl t with watch := hx, stale := hs }

theorem State.grantHost_taken {s t : State} (h : SameButTaken s t) : SameButTaken s t.grantHost := by
  unfold State.grantHost
  split
  · exact h
  · rename_i c hc
    split
    · refine h.trans { SameButTaken.refl t with mp := ?_ }
      simp [MemPath.lasting, hc]
    · exact h

/-! ## Reports -/

theorem State.acceptEntry_taken (r : Ring) (rep : Report) {s t : State} (hr : t.rw.ring = some r)
    (h : SameButTaken s t) : SameButTaken s (t.acceptEntry r rep) :=
  SameButTaken.ofRw _ (by simp [ReportWriter.lasting, hr]) (List.prefix_append _ _) h

theorem State.startSuppression_taken {s t : State} (h : SameButTaken s t) : SameButTaken s t.startSuppression := by
  unfold State.startSuppression
  split
  · exact h
  · rename_i r hr
    have h1 : SameButTaken s { t with rw.suppressing := true } := SameButTaken.ofRw _ rfl List.prefix_rfl h
    split
    · dsimp only
      split
      · exact State.acceptEntry_taken r _ hr h1
      · exact h1
    · exact h

theorem State.report_taken (rep : Report) {s t : State} (h : SameButTaken s t) : SameButTaken s (t.report rep) := by
  unfold State.report
  split
  · exact h
  · rename_i r hr
    split
    · exact State.startSuppression_taken (State.acceptEntry_taken r rep hr h)
    · exact h

/-! ## The page loader -/

theorem State.joinActivation_taken (i : SignNo) {s t : State} (h : SameButTaken s t) :
    SameButTaken s (t.joinActivation i) :=
  SameButTaken.pl _ (SameButTaken.sign i _ (fun _ => rfl) h)

theorem State.queueActivation_taken (i : SignNo) {s t : State} (h : SameButTaken s t) :
    SameButTaken s (t.queueActivation i) := by
  unfold State.queueActivation
  dsimp only
  split
  · exact State.joinActivation_taken i h
  · exact h

theorem State.evaluate_taken (i : SignNo) {s t : State} (h : SameButTaken s t) : SameButTaken s (t.evaluate i) := by
  unfold State.evaluate
  split
  · exact State.queueActivation_taken i (SameButTaken.sign i _ (fun _ => rfl) h)
  · exact h

theorem State.refuseActivation_taken (i : SignNo) (p cause : Nat) {s t : State} (h : SameButTaken s t) :
    SameButTaken s (t.refuseActivation i p cause) := by
  have key : ∀ (v : State) (b : Prop) [Decidable b] (rep : Report), SameButTaken s v → SameButTaken s
      (if ((if b then v else v.report rep).sign i).wanted.map (·.1) ≠ some p then
        (if b then v else v.report rep).queueActivation i else (if b then v else v.report rep)) := by
    intro v b _ rep hv
    have h2 : SameButTaken s (if b then v else v.report rep) := by
      split
      · exact hv
      · exact State.report_taken _ hv
    generalize (if b then v else v.report rep) = w at h2 ⊢
    split
    · exact State.queueActivation_taken i h2
    · exact h2
  exact key _ _ _ (SameButTaken.pl _ (SameButTaken.sign i _ (fun _ => rfl) h))

theorem State.startActivation_taken (i : SignNo) (p : Nat) (r : Reason) {s t : State} (h : SameButTaken s t) :
    SameButTaken s (t.startActivation i p r) :=
  SameButTaken.place _ (SameButTaken.pl _ (SameButTaken.sign i _ (fun _ => rfl) h))

theorem State.takeActivation_taken (n : Nat) {s t : State} (h : SameButTaken s t) :
    SameButTaken s (State.takeActivation n t) := by
  induction n generalizing t with
  | zero => exact h
  | succ n ih =>
    unfold State.takeActivation
    split
    · exact h
    · split
      · exact h
      · rename_i i rest _
        have h1 : SameButTaken s ({ t with pl.queue := rest }.modifySign i fun g => { g with activation := .idle }) :=
          SameButTaken.sign i _ (fun _ => rfl) (SameButTaken.pl _ h)
        dsimp only
        split
        · exact ih h1
        · split
          · exact ih h1
          · split
            · exact State.startActivation_taken _ _ _ h1
            · exact ih (State.refuseActivation_taken _ _ _ h1)

/-! ## The schedule engine -/

theorem State.refreshSchedulePage_taken (i : SignNo) {s t : State} (h : SameButTaken s t) :
    SameButTaken s (t.refreshSchedulePage i) := by
  unfold State.refreshSchedulePage
  dsimp only
  split
  · exact h
  · exact State.evaluate_taken i (SameButTaken.sign i _ (fun _ => rfl) h)

theorem SignState.resynced_lasting (cand : Option Candidate) (next : Option (Nat × Nat)) (g : SignState) :
    (g.resynced cand next).lasting = g.lasting := by
  unfold SignState.resynced
  split
  · rfl
  · split <;> rfl

theorem State.endResync_taken (i : SignNo) (cand : Option Candidate) (next : Option (Nat × Nat)) {s t : State}
    (h : SameButTaken s t) : SameButTaken s (t.endResync i cand next) := by
  unfold State.endResync
  dsimp only
  split
  · exact SameButTaken.engine _ h
  · exact State.refreshSchedulePage_taken i
      (SameButTaken.sign i _ (SignState.resynced_lasting cand next) (SameButTaken.engine _ h))

theorem State.startWork_taken (i : SignNo) {s t : State} (h : SameButTaken s t) : SameButTaken s (t.startWork i) := by
  have h1 : SameButTaken s (t.modifySign i fun g => { g with workDue := .none, redo := false }) :=
    SameButTaken.sign i _ (fun _ => rfl) h
  unfold State.startWork
  dsimp only
  split
  · split
    · exact State.endResync_taken i none none h1
    · exact SameButTaken.place _ (SameButTaken.engine _ h1)
  · exact SameButTaken.place _ (SameButTaken.engine _ h1)
  · exact h1
  · exact h1

theorem State.takeWork_taken (n : Nat) {s t : State} (h : SameButTaken s t) : SameButTaken s (State.takeWork n t) := by
  induction n generalizing t with
  | zero => exact h
  | succ n ih =>
    unfold State.takeWork
    split
    · exact h
    · split
      · exact h
      · exact ih (State.startWork_taken _ h)

/-! ## The signature engine, tile reads and reports -/

theorem State.takeStale_taken {s t : State} (h : SameButTaken s t) : SameButTaken s t.takeStale := by
  unfold State.takeStale
  split
  · rename_i t rest _ hs
    refine SameButTaken.tm _ ?_ ?_ (SameButTaken.tm _ ?_ (List.suffix_rfl) h)
    · rfl
    · exact hs ▸ List.suffix_cons t rest
    · simp only [List.map_map]
      refine List.map_congr_left fun e _ => ?_
      simp only [Function.comp]
      split <;> rfl
  · exact h

theorem State.placeSignature_taken {s t : State} (h : SameButTaken s t) : SameButTaken s t.placeSignature := by
  unfold State.placeSignature
  split
  · split
    · exact h
    · exact SameButTaken.place _ h
  · exact h

theorem State.placeTile_taken (l : LinkNo) {s t : State} (h : SameButTaken s t) : SameButTaken s (t.placeTile l) := by
  unfold State.placeTile
  repeat' split
  all_goals first | exact h | exact SameButTaken.place _ h

theorem State.placeReport_taken {s t : State} (h : SameButTaken s t) : SameButTaken s t.placeReport := by
  unfold State.placeReport
  split
  · exact h
  · split
    · exact SameButTaken.place _ (SameButTaken.ofRw _ rfl List.prefix_rfl h)
    · exact SameButTaken.place _ h
    · split
      · exact SameButTaken.place _ (SameButTaken.ofRw _ rfl List.prefix_rfl h)
      · split
        · exact h
        · exact SameButTaken.place _ (SameButTaken.sign _ _ (fun _ => rfl) h)

/-! ## The end of an event -/

theorem State.takeUp_taken {s t : State} (h : SameButTaken s t) : SameButTaken s t.takeUp :=
  State.placeSignature_taken (State.takeStale_taken (State.takeActivation_taken _ (State.takeWork_taken _ h)))

/-- Taking up work and placing requests changes at most what `SameButTaken` allows. -/
theorem State.takeAll_taken (s : State) : SameButTaken s s.takeAll :=
  State.placeReport_taken (State.placeTile_taken 3 (State.placeTile_taken 2 (State.placeTile_taken 1
    (State.placeTile_taken 0 (State.takeUp_taken (SameButTaken.refl s))))))

theorem State.snoopHost_of_not {s : State} (h : s.snoopDue = false) : s.snoopHost = s := by
  unfold State.snoopDue at h
  unfold State.snoopHost
  split
  · rfl
  · rename_i c hc
    rw [hc] at h
    rw [if_neg (by simpa using h)]

/-- Granting the host leaves a write to be snooped only where it grants one. -/
theorem State.grantHost_snoopDue {s : State} (h : s.grantHost.snoopDue = true) (hs : s.snoopDue = false) :
    ∃ c, s.mp.host = some c ∧ c.granted = false ∧ c.kind = .write ∧ s.hostMayGo = true := by
  unfold State.grantHost at h
  split at h
  · rw [hs] at h
    cases h
  · rename_i c hc
    split at h
    · rename_i hg
      simp only [Bool.and_eq_true, Bool.not_eq_true'] at hg
      refine ⟨c, hc, hg.1, ?_, hg.2⟩
      simp only [State.snoopDue, HostClaim.unsnooped, Bool.and_eq_true, beq_iff_eq] at h
      exact h.1.2
    · rw [hs] at h
      cases h

/-- Without a write to snoop, the end of an event changes at most what `SameButTaken` allows. -/
theorem State.settle_taken {s : State} (h : s.grantHost.snoopDue = false) : SameButTaken s s.settle := by
  unfold State.settle
  rw [State.snoopHost_of_not h]
  exact (State.grantHost_taken (SameButTaken.refl s)).trans (State.takeAll_taken _)

/-! ## The tile monitor at the end of an event -/

theorem State.report_tm (r : Report) (s : State) : (s.report r).tm = s.tm := by
  unfold State.report State.startSuppression
  repeat' (first | rfl | split | dsimp only)

theorem State.queueActivation_tm (i : SignNo) (s : State) : (s.queueActivation i).tm = s.tm := by
  unfold State.queueActivation State.joinActivation
  dsimp only
  split <;> rfl

theorem State.evaluate_tm (i : SignNo) (s : State) : (s.evaluate i).tm = s.tm := by
  unfold State.evaluate
  split
  · rw [State.queueActivation_tm]
    rfl
  · rfl

theorem State.refreshSchedulePage_tm (i : SignNo) (s : State) : (s.refreshSchedulePage i).tm = s.tm := by
  unfold State.refreshSchedulePage
  dsimp only
  split
  · rfl
  · rw [State.evaluate_tm]
    rfl

theorem State.endResync_tm (i : SignNo) (c : Option Candidate) (n : Option (Nat × Nat)) (s : State) :
    (s.endResync i c n).tm = s.tm := by
  unfold State.endResync
  dsimp only
  split
  · rfl
  · rw [State.refreshSchedulePage_tm]
    rfl

theorem State.startWork_tm (i : SignNo) (s : State) : (s.startWork i).tm = s.tm := by
  unfold State.startWork
  dsimp only
  split
  · split
    · rw [State.endResync_tm]
      rfl
    · rfl
  · rfl
  · rfl
  · rfl

theorem State.takeWork_tm (n : Nat) (s : State) : (State.takeWork n s).tm = s.tm := by
  induction n generalizing s with
  | zero => rfl
  | succ n ih =>
    unfold State.takeWork
    split
    · rfl
    · split
      · rfl
      · rw [ih, State.startWork_tm]

theorem State.refuseActivation_tm (i : SignNo) (p c : Nat) (s : State) : (s.refuseActivation i p c).tm = s.tm := by
  have key : ∀ (v : State) (b d : Prop) [Decidable b] [Decidable d] (r : Report), v.tm = s.tm →
      (if d then (if b then v else v.report r).queueActivation i else if b then v else v.report r).tm = s.tm := by
    intro v b d _ _ r hv
    have h : (if b then v else v.report r).tm = s.tm := by
      split
      · exact hv
      · rw [State.report_tm, hv]
    split
    · rw [State.queueActivation_tm, h]
    · exact h
  exact key _ _ _ _ rfl

theorem State.takeActivation_tm (n : Nat) (s : State) : (State.takeActivation n s).tm = s.tm := by
  induction n generalizing s with
  | zero => rfl
  | succ n ih =>
    unfold State.takeActivation
    dsimp only
    split
    · rfl
    · split
      · rfl
      · split
        · rw [ih]
          rfl
        · split
          · rw [ih]
            rfl
          · split
            · rfl
            · rw [ih, State.refuseActivation_tm]
              rfl

theorem State.placeTile_tm (l : LinkNo) (s : State) : (s.placeTile l).tm = s.tm := by
  unfold State.placeTile
  repeat' (first | rfl | split)

theorem State.placeSignature_tm (s : State) : s.placeSignature.tm = s.tm := by
  unfold State.placeSignature
  repeat' (first | rfl | split)

theorem State.placeReport_tm (s : State) : s.placeReport.tm = s.tm := by
  unfold State.placeReport
  repeat' (first | rfl | split)

theorem State.takeStale_of_tm {a b : State} (h : a.tm = b.tm) : a.takeStale.tm = b.takeStale.tm := by
  unfold State.takeStale
  rw [h]
  split
  · simp only [State.modifyWatch, h]
  · exact h

/-- Of the tile monitor taking up work takes the head of the stale queue alone (R47). -/
theorem State.takeUp_tm (s : State) : s.takeUp.tm = s.takeStale.tm := by
  unfold State.takeUp
  dsimp only
  rw [State.placeSignature_tm]
  exact State.takeStale_of_tm (by rw [State.takeActivation_tm, State.takeWork_tm])

theorem State.takeAll_tm (s : State) : s.takeAll.tm = s.takeStale.tm := by
  unfold State.takeAll forLinks
  rw [State.placeReport_tm, State.placeTile_tm, State.placeTile_tm, State.placeTile_tm, State.placeTile_tm,
    State.takeUp_tm]

/-! ## A sign with no schedule work due at the end of an event -/

/-- Signs with no schedule work due keep all but their activation and their record due. -/
def HeldSigns (s t : State) : Prop := ∀ i, (s.sign i).workDue = .none → (t.sign i).held = (s.sign i).held

theorem HeldSigns.refl (s : State) : HeldSigns s s := fun _ _ => rfl

theorem HeldSigns.trans {s t u : State} (h : HeldSigns s t) (k : HeldSigns t u) : HeldSigns s u := fun i hi => by
  have h1 := h i hi
  have h2 : (t.sign i).workDue = .none := by
    have := congrArg SignState.workDue h1
    simpa [SignState.held, hi] using this
  rw [k i h2, h1]

theorem HeldSigns.of_signs {s t : State} (h : t.signs = s.signs) : HeldSigns s t := fun i _ => by
  simp only [State.sign, h]

@[simp] theorem SignState.markDue_held (g h : SignState) : (g.markDue h).held = h.held := by
  unfold SignState.markDue
  split <;> rfl

theorem HeldSigns.sign (i : SignNo) (f : SignState → SignState) (hf : ∀ g, (f g).held = g.held) (s : State) :
    HeldSigns s (s.modifySign i f) := fun j _ => by
  rw [State.sign_modifySign]
  split
  · rename_i hij
    subst hij
    rw [SignState.markDue_held, hf]
  · rfl

/-- `t` differs from `s` at no sign but `i`. -/
def OnlySign (i : SignNo) (s t : State) : Prop := ∀ j, j ≠ i → t.sign j = s.sign j

theorem OnlySign.modify (i : SignNo) (f : SignState → SignState) (s : State) : OnlySign i s (s.modifySign i f) :=
  fun j hj => by rw [State.sign_modifySign, if_neg (Ne.symm hj)]

theorem OnlySign.trans {i : SignNo} {s t u : State} (h : OnlySign i s t) (k : OnlySign i t u) : OnlySign i s u :=
  fun j hj => (k j hj).trans (h j hj)

theorem OnlySign.of_signs {i : SignNo} {s t : State} (h : t.signs = s.signs) : OnlySign i s t := fun j _ => by
  simp only [State.sign, h]

theorem State.queueActivation_only (i : SignNo) (s : State) : OnlySign i s (s.queueActivation i) := by
  unfold State.queueActivation
  dsimp only
  split
  · exact OnlySign.modify i (fun g => { g with activation := .queued }) s
  · exact fun _ _ => rfl

theorem State.evaluate_only (i : SignNo) (s : State) : OnlySign i s (s.evaluate i) := by
  unfold State.evaluate
  split
  · exact (OnlySign.modify i _ s).trans (State.queueActivation_only i _)
  · exact fun _ _ => rfl

theorem State.refreshSchedulePage_only (i : SignNo) (s : State) : OnlySign i s (s.refreshSchedulePage i) := by
  unfold State.refreshSchedulePage
  dsimp only
  split
  · exact fun _ _ => rfl
  · exact (OnlySign.modify i _ s).trans (State.evaluate_only i _)

theorem State.endResync_only (i : SignNo) (c : Option Candidate) (n : Option (Nat × Nat)) (s : State) :
    OnlySign i s (s.endResync i c n) := by
  unfold State.endResync
  dsimp only
  split
  · exact fun _ _ => rfl
  · have h1 : OnlySign i s { s with clk.engine := .idle } := OnlySign.of_signs rfl
    exact (h1.trans (OnlySign.modify i _ _)).trans (State.refreshSchedulePage_only i _)

theorem State.startWork_only (i : SignNo) (s : State) : OnlySign i s (s.startWork i) := by
  have h1 : OnlySign i s (s.modifySign i fun g => { g with workDue := .none, redo := false }) := OnlySign.modify i _ s
  unfold State.startWork
  dsimp only
  split
  · split
    · exact h1.trans (State.endResync_only i none none _)
    · exact h1
  · exact h1
  · exact h1
  · exact h1

theorem State.takeWork_held (n : Nat) (s : State) : HeldSigns s (State.takeWork n s) := by
  induction n generalizing s with
  | zero => exact HeldSigns.refl s
  | succ n ih =>
    unfold State.takeWork
    split
    · exact HeldSigns.refl s
    · split
      · exact HeldSigns.refl s
      · rename_i i hi
        refine HeldSigns.trans (fun j hj => ?_) (ih _)
        have hd := State.findSign_some hi
        have hne : j ≠ i := by
          rintro rfl
          rw [hj] at hd
          simp at hd
        rw [State.startWork_only i s j hne]

theorem State.report_signs (r : Report) (s : State) : (s.report r).signs = s.signs := by
  unfold State.report State.startSuppression
  repeat' (first | rfl | split | dsimp only)

theorem State.queueActivation_held (i : SignNo) (s : State) : HeldSigns s (s.queueActivation i) := by
  unfold State.queueActivation
  dsimp only
  split
  · exact HeldSigns.sign i (fun g => { g with activation := .queued }) (fun _ => rfl) s
  · exact HeldSigns.refl s

theorem State.refuseActivation_held (i : SignNo) (p c : Nat) (s : State) : HeldSigns s (s.refuseActivation i p c) := by
  have key : ∀ (v : State) (b d : Prop) [Decidable b] [Decidable d] (r : Report), HeldSigns s v →
      HeldSigns s (if d then (if b then v else v.report r).queueActivation i else if b then v else v.report r) := by
    intro v b d _ _ r hv
    have h : HeldSigns s (if b then v else v.report r) := by
      split
      · exact hv
      · exact hv.trans (HeldSigns.of_signs (State.report_signs r v))
    split
    · exact h.trans (State.queueActivation_held i _)
    · exact h
  have h1 := HeldSigns.sign i
    (fun g => { g with activation := .idle, incoming := none, staged := [], lastRefused := some p }) (fun _ => rfl) s
  exact key _ _ _ _ (h1.trans (HeldSigns.of_signs rfl))

theorem State.takeActivation_held (n : Nat) (s : State) : HeldSigns s (State.takeActivation n s) := by
  induction n generalizing s with
  | zero => exact HeldSigns.refl s
  | succ n ih =>
    unfold State.takeActivation
    dsimp only
    split
    · exact HeldSigns.refl s
    · split
      · exact HeldSigns.refl s
      · rename_i i rest _
        have h1 : HeldSigns s (State.modifySign i (fun g => { g with activation := .idle }) { s with pl.queue := rest }) :=
          (HeldSigns.of_signs (s := s) (t := { s with pl.queue := rest }) rfl).trans
            (HeldSigns.sign i (fun g => { g with activation := .idle }) (fun _ => rfl) _)
        split
        · exact h1.trans (ih _)
        · split
          · exact h1.trans (ih _)
          · split
            · rename_i p r _ _ _
              have h2 := HeldSigns.sign i
                (fun g => { g with
                  activation := .loadingMap, incoming := some (p, r)
                  staged := List.replicate ((State.modifySign i (fun g => { g with activation := .idle })
                    { s with pl.queue := rest }).sign i).entry.slotCount { value := 0, read := false } })
                (fun _ => rfl) (State.modifySign i (fun g => { g with activation := .idle }) { s with pl.queue := rest })
              exact h1.trans (h2.trans (HeldSigns.of_signs rfl))
            · exact (h1.trans (State.refuseActivation_held i _ _ _)).trans (ih _)

theorem State.placeReport_held (s : State) : HeldSigns s s.placeReport := by
  unfold State.placeReport
  split
  · exact HeldSigns.refl s
  · split
    · exact HeldSigns.of_signs rfl
    · exact HeldSigns.of_signs rfl
    · split
      · exact HeldSigns.of_signs rfl
      · split
        · exact HeldSigns.refl s
        · rename_i i _
          have h1 := HeldSigns.sign i (fun g => { g with recordDue := false }) (fun _ => rfl) s
          exact h1.trans (HeldSigns.of_signs rfl)

theorem State.placeTile_held (l : LinkNo) (s : State) : HeldSigns s (s.placeTile l) := by
  refine HeldSigns.of_signs ?_
  unfold State.placeTile
  repeat' (first | rfl | split)

theorem State.placeSignature_signs (s : State) : s.placeSignature.signs = s.signs := by
  unfold State.placeSignature
  repeat' (first | rfl | split)

theorem State.takeStale_signs (s : State) : s.takeStale.signs = s.signs := by
  unfold State.takeStale
  repeat' (first | rfl | split)

theorem State.takeUp_held (s : State) : HeldSigns s s.takeUp := by
  unfold State.takeUp
  dsimp only
  refine HeldSigns.trans ?_ (HeldSigns.of_signs (State.placeSignature_signs _))
  refine HeldSigns.trans ?_ (HeldSigns.of_signs (State.takeStale_signs _))
  exact (State.takeWork_held _ _).trans (State.takeActivation_held _ _)

/-- A sign with no schedule work due changes at most in its activation and its record due when work is taken up. -/
theorem State.takeAll_held (s : State) (i : SignNo) (h : (s.sign i).workDue = .none) :
    (s.takeAll.sign i).held = (s.sign i).held := by
  have key : HeldSigns s s.takeAll := by
    unfold State.takeAll forLinks
    refine HeldSigns.trans ?_ (State.placeReport_held _)
    iterate 4 refine HeldSigns.trans ?_ (State.placeTile_held _ _)
    exact State.takeUp_held s
  exact key i h

end Sys2Proof.Machine
end

