-- ==== Sys2Proof/Laws/Path.lean ====
section
/-! SUPPORT. What the memory path's operations keep: the ranges, one own request per requester, distinct drops; the host's grant,
the snoop, and the end of an event. -/

namespace Sys2Proof.Machine

/-! ## The host's grant and the snoop -/

theorem State.grantHost_count {s : State} (hs : s.mp.CountInRange) : s.grantHost.mp.CountInRange := by
  unfold State.grantHost
  split
  · exact hs
  · rename_i c hc
    split
    · rename_i hgo
      refine ⟨?_, fun he => ?_⟩
      · show (if _ then _ else _) ≤ _
        simp only [State.hostMayGo, Bool.and_eq_true, Bool.or_eq_true, decide_eq_true_eq] at hgo
        split
        · exact hs.1
        · rename_i hw
          rcases hgo.2.2 with h | h
          · exact absurd h hw
          · exact h
      · show (if _ then _ else _) = _
        have he' : s.mp.waiting = [] := he
        rw [he']
        exact hs.2 he'
    · exact hs

/-- A grant changes the host's claim and the count alone. -/
theorem State.grantHost_eq (s : State) :
    ∃ h g, s.grantHost = { s with mp.host := h, mp.grantCount := g } ∧
      h.map (fun c => { c with granted := true }) = s.mp.host.map fun c => { c with granted := true } := by
  unfold State.grantHost
  split
  · rename_i hn
    exact ⟨none, s.mp.grantCount, by rw [← hn], by rw [hn]⟩
  · rename_i c hc
    split
    · exact ⟨some { c with granted := true }, _, rfl, by simp [hc]⟩
    · exact ⟨s.mp.host, s.mp.grantCount, rfl, rfl⟩

/-- The snoop of a granted write: its claim is marked, and the rest is taking up work and handing its runs on. -/
theorem State.snoopHost_handed (s : State) :
    ∃ h, Handed { s with mp.host := h } s.snoopHost ∧
      h.map (fun c => { c with snooped := true }) = s.mp.host.map fun c => { c with snooped := true } := by
  unfold State.snoopHost
  split
  · rename_i hn
    exact ⟨none, by rw [← hn]; exact Handed.refl s, by rw [hn]⟩
  · rename_i c hc
    split
    · exact ⟨_, (State.takeUp_moved (Moved.refl _)).handed.trans (State.snoop_handed _ _ _), by simp [hc]⟩
    · exact ⟨some c, by rw [← hc]; exact Handed.refl s, by rw [hc]⟩

/-! ## The ranges -/

theorem State.Sound.of_calm {s t : State} (h : Calm s t) (hs : s.Sound) : t.Sound where
  stores := ⟨h.mem ▸ hs.stores.1, h.image hs.stores.2⟩
  clock := h.clock hs.clock
  count := h.count hs.count
  samples := h.samples hs.samples
  watch := h.watch hs.watch

theorem State.Sound.place {s : State} (q : OwnReq) (hs : s.Sound) : (s.place q).Sound where
  stores := hs.stores
  clock := hs.clock
  count := State.place_count q hs.count
  samples := hs.samples
  watch := hs.watch

theorem State.Sound.grantHost {s : State} (hs : s.Sound) : s.grantHost.Sound := by
  have hc := State.grantHost_count hs.count
  obtain ⟨h, g, he, -⟩ := State.grantHost_eq s
  rw [he] at hc ⊢
  exact ⟨hs.stores, hs.clock, hc, hs.samples, hs.watch⟩

theorem State.Sound.snoopHost {s : State} (hs : s.Sound) : s.snoopHost.Sound := by
  obtain ⟨h, hh, -⟩ := State.snoopHost_handed s
  exact State.Sound.of_calm hh.toCalm ⟨hs.stores, hs.clock, hs.count, hs.samples, hs.watch⟩

/-- The end of an event keeps the ranges. -/
theorem State.settle_sound {s : State} (hs : s.Sound) : s.settle.Sound :=
  State.Sound.of_calm (State.takeAll_moved (Moved.refl _)).toCalm hs.grantHost.snoopHost

/-- The end of an event keeps the drops of enabled signs distinct. -/
theorem State.settle_drops {s : State} (hs : s.DropsDistinct) : s.settle.DropsDistinct := by
  obtain ⟨h, g, he, -⟩ := State.grantHost_eq s
  obtain ⟨h', hh, -⟩ := State.snoopHost_handed s.grantHost
  refine State.DropsDistinct.of_moved (State.takeAll_moved (Moved.refl _)) (hh.drops ?_)
  rw [he]
  exact hs

/-- Own requests stay one for each requester, and none comes to a load that waits for the ring. -/
theorem Handed.oneEach {s t : State} (h : Handed s t) (hs : s.mp.OneEach ∧ s.RingWaitQuiet) :
    t.mp.OneEach ∧ t.RingWaitQuiet := by
  refine ⟨h.one hs.1, fun hr => ?_⟩
  have h1 := hs.2 (h.ring hr)
  have h2 := h.directory
  omega

/-- The end of an event keeps one own request for each requester. -/
theorem State.settle_oneEach {s : State} (hs : s.mp.OneEach ∧ s.RingWaitQuiet) :
    s.settle.mp.OneEach ∧ s.settle.RingWaitQuiet := by
  obtain ⟨h, g, he, -⟩ := State.grantHost_eq s
  obtain ⟨h', hh, -⟩ := State.snoopHost_handed s.grantHost
  refine (State.takeAll_moved (Moved.refl _)).handed.oneEach (hh.oneEach ?_)
  rw [he]
  exact hs

/-! ## Writes of frame memory -/

theorem State.Sound.memory {s : State} (a : Nat) (bytes : List Byte) (hs : s.Sound) :
    State.Sound { s with mem := s.mem.writeBytes a bytes } :=
  ⟨⟨Memory.wf_writeBytes a bytes s.mem hs.stores.1, hs.stores.2⟩, hs.clock, hs.count, hs.samples, hs.watch⟩

end Sys2Proof.Machine
end

