-- ==== Sys2Proof/Laws/Events.lean ====
section
/-! SUPPORT. The shape every event has: its own effect, then the end of the event; the carried host write, the end of an own
transaction, and the runs of a burst that stays in one unit. -/

namespace Sys2Proof.Machine

/-! ## Events -/

theorem State.onEvent_of {s : State} {ok : Bool} (f : State → State) (hr : s.resetHeld = false) (ho : ok = true) :
    s.onEvent ok f = (f s).settle := by simp [State.onEvent, hr, ho]

theorem State.onEvent_not {s : State} {ok : Bool} (f : State → State) (h : s.resetHeld = true ∨ ok = false) :
    s.onEvent ok f = s := by
  rcases h with h | h <;> simp [State.onEvent, h]

/-- Any host claim that is the same but for its grant, and any count, are taken at the end of an event. -/
theorem SameButTaken.host (s : State) (h : Option HostClaim) (g : Nat)
    (hh : h.map (fun c => { c with granted := true }) = s.mp.host.map fun c => { c with granted := true }) :
    SameButTaken s { s with mp.host := h, mp.grantCount := g } :=
  { SameButTaken.refl s with mp := by simp [MemPath.lasting, hh] }

/-- The end of an own transaction that was not abandoned: what was read goes to its requester. -/
theorem State.endOwn_delivers {s : State} {x : Running} (f : OwnReq → List Byte → State → State)
    (hx : s.mp.running = some x) (hd : x.discard = false) : s.endOwn f = f x.req x.bytes s.portFreed := by
  unfold State.endOwn State.portFreed
  rw [hx]
  dsimp only
  rw [hd]
  rfl

/-- The end of an abandoned own transaction: the port is free, and nothing else comes of it (R16). -/
theorem State.endOwn_discards {s : State} {x : Running} (f : OwnReq → List Byte → State → State)
    (hx : s.mp.running = some x) (hd : x.discard = true) : s.endOwn f = s.portFreed := by
  unfold State.endOwn State.portFreed
  rw [hx]
  dsimp only
  rw [hd]
  rfl

/-- The end of a read leaves all but the transaction, the host's grant and the count. -/
theorem State.portFreed_read {s : State} {x : Running} (hx : s.mp.running = some x) (hw : x.req.isWrite = false) :
    ∃ h g, s.portFreed = { s with mp := { s.mp with running := none, host := h, grantCount := g } } ∧
      h.map (fun c => { c with granted := true }) = s.mp.host.map fun c => { c with granted := true } := by
  obtain ⟨h, g, he, hh⟩ := State.grantHost_eq { s with mp.running := none }
  refine ⟨h, g, ?_, hh⟩
  unfold State.portFreed
  rw [hx]
  simp only [hw]
  exact he

/-! ## Carried host writes -/

theorem State.issue_of_goes {s : State} {kind : HostKind} {addr n : Nat} (data : List Byte)
    (h : s.HostGoes kind addr n) :
    ∃ c, s.issue kind addr n data = { s with mp.host := some c, mp.grantCount := s.countAfter } ∧
      c.granted = true ∧ c.kind = kind ∧ (kind = .other ∨ (c.addr = addr ∧ n ≤ c.len)) := by
  rcases h.2 with ⟨hn, hg⟩ | ⟨-, c, hc, hc1, hc2, hc3⟩
  · refine ⟨{ kind := kind, addr := addr, len := n, data := data.take n, granted := true, snooped := false }, ?_, rfl,
      rfl, by simp⟩
    have hm : State.hostMayGo { s with
        mp.host := some
          { kind := kind, addr := addr, len := n, data := data.take n, granted := false, snooped := false } } = true := hg
    simp only [State.issue, hn, State.grantHost, hm, State.countAfter]
    cases hw : s.mp.waiting <;> simp
  · refine ⟨c, ?_, hc1, hc2, hc3⟩
    simp only [State.issue, State.countAfter, hc, reduceCtorEq, false_and, if_false]
    rw [← hc]

theorem State.carries_of_goes {s : State} {kind : HostKind} {addr n : Nat} (data : List Byte)
    (h : s.HostGoes kind addr n) : (s.issue kind addr n data).carries kind addr n = true := by
  obtain ⟨c, he, h1, h2, h3⟩ := State.issue_of_goes data h
  rw [he]
  rcases h3 with h3 | ⟨h3, h4⟩
  · simp [State.carries, h1, h2, h3]
  · simp [State.carries, h1, h2, h3, h4]

/-- A host write granted with its command: its bytes in memory, its runs handed to their owners, and the end of the event. -/
theorem State.carryWrite_of_goes {s : State} {addr : Nat} {data : List Byte} (h : s.HostGoes .write addr data.length) :
    s.carryWrite addr data =
      ((s.wrote addr data).handRuns (cutRuns s.mp.windowBase s.dir.header addr data)).settle := by
  have hn : s.mp.host = none := by
    rcases h.2 with h | h
    · exact h.1
    · exact absurd rfl h.1
  have hc := State.carries_of_goes data h
  obtain ⟨c, he, -⟩ := State.issue_of_goes data h
  unfold State.carryWrite
  rw [hn]
  dsimp only
  rw [hc]
  rw [State.onEvent_of _ _ rfl]
  · rw [he]
    rfl
  · rw [he]; exact h.1

/-- The data phase of a write that stands granted, and so snooped, ends: its bytes in memory, and the end of the event. -/
theorem State.carryWrite_of_granted {s : State} {c : HostClaim} (hr : s.resetHeld = false) (hc : s.mp.host = some c)
    (hg : c.granted = true) (hk : c.kind = .write) :
    s.carryWrite c.addr c.data = (s.writeEnds c.addr c.data).settle := by
  unfold State.carryWrite
  rw [hc]
  exact State.onEvent_of _ hr (by simp [HostClaim.isWrite, hg, hk])

/-! ## Regions (R7) -/

/-- Two extents that both hold an address overlap. -/
theorem extentsOverlap_of_both {a b : Nat × Nat} {x : Nat} (hx : x < Config.memorySize) (ha : a.1 < Config.memorySize)
    (hb : b.1 < Config.memorySize) (h1 : offsetFrom a.1 x < a.2) (h2 : offsetFrom b.1 x < b.2) :
    extentsOverlap a b = true := by
  unfold offsetFrom at h1 h2
  unfold extentsOverlap
  rw [Bool.or_eq_true, decide_eq_true_eq, decide_eq_true_eq]
  generalize Config.memorySize = M at *
  have key : ∀ u v, u < M → v < M → (u + M - v) % M = if v ≤ u then u - v else u + M - v := by
    intro u v hu hv
    split
    · rw [show u + M - v = (u - v) + M by omega, Nat.add_mod_right, Nat.mod_eq_of_lt (by omega)]
    · rw [Nat.mod_eq_of_lt (by omega)]
  rw [key _ _ hx ha] at h1
  rw [key _ _ hx hb] at h2
  rw [key _ _ hb ha, key _ _ ha hb]
  split at h1 <;> split at h2 <;> split <;> split <;> omega

/-! ## Runs of a burst in one unit (R8) -/

theorem cutRuns_cons (wb : Nat) (hd : Option Header) (a : Nat) (v : Byte) (rest : List Byte) :
    cutRuns wb hd a (v :: rest) = consRun (classify wb hd (a % Config.memorySize)) v (cutRuns wb hd (a + 1) rest) := by
  rw [cutRuns]

theorem cutRuns_window (wb : Nat) (hd : Option Header) (a : Nat) (off : Nat) (data : List Byte) (hne : data ≠ [])
    (h : ∀ k < data.length, classify wb hd ((a + k) % Config.memorySize) = .window (off + k)) :
    cutRuns wb hd a data = [.window ((List.range' off data.length).zip data)] := by
  induction data generalizing a off with
  | nil => exact absurd rfl hne
  | cons v rest ih =>
    have h0 := h 0 (Nat.succ_pos _)
    rw [Nat.add_zero, Nat.add_zero] at h0
    rw [cutRuns_cons, h0]
    cases rest with
    | nil => rfl
    | cons w more =>
      rw [ih (a + 1) (off + 1) (List.cons_ne_nil _ _) fun k hk => by
        rw [Nat.add_right_comm, Nat.add_right_comm off]
        exact h (k + 1) (Nat.succ_lt_succ hk)]
      exact rfl

theorem cutRuns_tile (wb : Nat) (hd : Option Header) (a : Nat) (n : Nat) (data : List Byte) (hne : data ≠ [])
    (h : ∀ k < data.length, classify wb hd ((a + k) % Config.memorySize) = .tile n) :
    cutRuns wb hd a data = [.tile n] := by
  induction data generalizing a with
  | nil => exact absurd rfl hne
  | cons v rest ih =>
    have h0 := h 0 (Nat.succ_pos _)
    rw [Nat.add_zero] at h0
    rw [cutRuns_cons, h0]
    cases rest with
    | nil => rfl
    | cons w more =>
      rw [ih (a + 1) (List.cons_ne_nil _ _) fun k hk => by
        rw [Nat.add_right_comm]
        exact h (k + 1) (Nat.succ_lt_succ hk)]
      exact if_pos rfl

theorem cutRuns_schedule (wb : Nat) (hd : Option Header) (a : Nat) (i : SignNo) (data : List Byte) (hne : data ≠ [])
    (h : ∀ k < data.length, classify wb hd ((a + k) % Config.memorySize) = .schedule i) :
    cutRuns wb hd a data = [.schedule i] := by
  induction data generalizing a with
  | nil => exact absurd rfl hne
  | cons v rest ih =>
    have h0 := h 0 (Nat.succ_pos _)
    rw [Nat.add_zero] at h0
    rw [cutRuns_cons, h0]
    cases rest with
    | nil => rfl
    | cons w more =>
      rw [ih (a + 1) (List.cons_ne_nil _ _) fun k hk => by
        rw [Nat.add_right_comm]
        exact h (k + 1) (Nat.succ_lt_succ hk)]
      exact if_pos rfl

theorem cutRuns_map (wb : Nat) (hd : Option Header) (a : Nat) (i : SignNo) (p pos : Nat) (data : List Byte) (hne : data ≠ [])
    (h : ∀ k < data.length, classify wb hd ((a + k) % Config.memorySize) = .map i p (pos + k)) :
    cutRuns wb hd a data = [.map i p ((List.range' pos data.length).zip data)] := by
  induction data generalizing a pos with
  | nil => exact absurd rfl hne
  | cons v rest ih =>
    have h0 := h 0 (Nat.succ_pos _)
    rw [Nat.add_zero, Nat.add_zero] at h0
    rw [cutRuns_cons, h0]
    cases rest with
    | nil => rfl
    | cons w more =>
      rw [ih (a + 1) (pos + 1) (List.cons_ne_nil _ _) fun k hk => by
        rw [Nat.add_right_comm, Nat.add_right_comm pos]
        exact h (k + 1) (Nat.succ_lt_succ hk)]
      exact if_pos ⟨rfl, rfl⟩

/-- A burst that meets no owner is dropped whole. -/
theorem handRuns_dropped (wb : Nat) (hd : Option Header) (a : Nat) (data : List Byte) (s : State)
    (h : ∀ k < data.length, classify wb hd ((a + k) % Config.memorySize) = .outside ∨
      classify wb hd ((a + k) % Config.memorySize) = .ring) : s.handRuns (cutRuns wb hd a data) = s := by
  suffices cutRuns wb hd a data = [] ∨ cutRuns wb hd a data = [.dropped] by
    rcases this with h | h <;> rw [h] <;> rfl
  induction data generalizing a with
  | nil => exact .inl rfl
  | cons v rest ih =>
    right
    have h0 := h 0 (Nat.succ_pos _)
    rw [Nat.add_zero] at h0
    have h1 := ih (a + 1) fun k hk => by
      rw [Nat.add_right_comm]
      exact h (k + 1) (Nat.succ_lt_succ hk)
    rw [cutRuns_cons]
    rcases h0 with h0 | h0 <;> rcases h1 with h1 | h1 <;> rw [h0, h1] <;> rfl

/-! ## A run of the window up to a commit byte -/

/-- A window offset at which a byte is imaged and brings nothing else about (R19, R20, R21, R28). -/
def plainOffset (off : Nat) : Prop :=
  off < 0xFF ∨ (0x100 ≤ off ∧ off < 0x140 ∧ off % 16 < 14) ∨ (0x200 ≤ off ∧ off < 0x20F) ∨ off = 0x210 ∨ off = 0x220 ∨
    (0x1000 ≤ off ∧ off < 0x2000 ∧ off % 16 < 15)

theorem State.windowByte_plain {off : Nat} (h : plainOffset off) (v : Byte) (s : State) :
    s.windowByte off v = { s with dir.image := s.dir.image.write off v } := by
  have hi : Sys2Proof.Machine.imaged off = true := by
    unfold Sys2Proof.Machine.imaged plainOffset at *
    simp only [Bool.or_eq_true, Bool.and_eq_true, decide_eq_true_eq]
    omega
  unfold plainOffset at h
  unfold State.windowByte State.windowAction
  rw [if_pos hi, if_neg (by omega)]
  split
  · rw [if_neg (by omega), if_neg (by omega)]
  · rw [if_neg (by omega), if_neg (by omega), if_neg (by omega), if_neg (by omega)]

/-- At a plain offset nothing is handed on. -/
theorem actsAt_plain {off : Nat} (h : plainOffset off) : actsAt off = false := by
  unfold plainOffset at h
  unfold actsAt
  simp only [Bool.or_eq_false_iff, Bool.and_eq_false_iff, beq_eq_false_iff_ne, decide_eq_false_iff_not]
  omega

/-- A run of plain offsets that ends at an imaged offset `c`: its bytes in the image, then what `c` brings about. -/
theorem State.windowRun_record (off : Nat) (front : List Byte) (v : Byte) (s : State)
    (hp : ∀ k < front.length, plainOffset (off + k)) (hc : Sys2Proof.Machine.imaged (off + front.length) = true) :
    s.windowRun ((List.range' off (front ++ [v]).length).zip (front ++ [v])) =
      (s.imaged off (front ++ [v])).windowAction (off + front.length) v := by
  have hlt : off + front.length < Config.memorySize := by
    unfold Sys2Proof.Machine.imaged at hc
    simp only [Bool.or_eq_true, Bool.and_eq_true, decide_eq_true_eq] at hc
    unfold Config.memorySize
    omega
  induction front generalizing off s with
  | nil =>
    simp only [List.nil_append, List.length_nil, Nat.add_zero] at hc hlt ⊢
    have : off % Config.memorySize = off := Nat.mod_eq_of_lt hlt
    simp [State.windowRun, State.windowByte, hc, State.imaged, Memory.writeBytes, this]
  | cons b rest ih =>
    have h0 : plainOffset off := hp 0 (by simp)
    have hmod : off % Config.memorySize = off := Nat.mod_eq_of_lt (by simp at hlt; omega)
    have := ih (off + 1) { s with dir.image := s.dir.image.write off b } (fun k hk => by
        have := hp (k + 1) (by simp; omega)
        rwa [show off + (k + 1) = off + 1 + k by omega] at this)
      (by rwa [show off + 1 + rest.length = off + (b :: rest).length by simp; omega])
      (by simp at hlt ⊢; omega)
    rw [List.cons_append, List.length_cons, List.range'_succ, List.zip_cons_cons, State.windowRun, actsAt_plain h0,
      Bool.false_and, if_neg Bool.false_ne_true, State.windowByte_plain h0, this]
    simp only [List.length_cons, State.imaged, Memory.writeBytes, hmod]
    congr 1
    omega

/-- A carried host write of a record up to its commit byte `c`: the image takes the bytes, and `c` brings its action
about (R19, R20, R21). -/
theorem State.carryWrite_record {s : State} {addr off c : Nat} {data : List Byte} (h : s.HostGoes .write addr data.length)
    (hne : data ≠ []) (ho : off + data.length = c + 1) (hw : s.InWindow addr off data)
    (hp : ∀ o, off ≤ o → o < c → plainOffset o) (hc : Sys2Proof.Machine.imaged c = true) :
    s.carryWrite addr data = (((s.wrote addr data).imaged off data).windowAction c (data.getLast hne)).settle := by
  rw [State.carryWrite_of_goes h, cutRuns_window _ _ _ _ _ hne hw]
  obtain ⟨front, v, rfl⟩ : ∃ front v, data = front ++ [v] := ⟨_, _, (List.dropLast_append_getLast hne).symm⟩
  have hl : off + front.length = c := by
    rw [List.length_append, List.length_singleton] at ho
    omega
  rw [State.handRuns, State.handRun, State.windowRun_record off front v _
    (fun k hk => hp _ (by omega) (by omega)) (by rwa [hl]), hl, List.getLast_append_of_ne_nil _ (by simp)]
  rfl

/-! ## Reports, sweeps -/

theorem State.startSuppression_rw (s : State) : s.startSuppression = { s with rw := s.startSuppression.rw } := by
  unfold State.startSuppression
  split
  · rfl
  · split
    · dsimp only
      split <;> rfl
    · rfl

/-- A report changes the report writer alone. -/
theorem State.report_rw (r : Report) (s : State) : s.report r = { s with rw := (s.report r).rw } := by
  unfold State.report
  split
  · rfl
  · split
    · rw [State.startSuppression_rw]
      rfl
    · rfl

theorem State.reportIf_rw (b : Prop) [Decidable b] (r : Report) (s : State) :
    s.reportIf b r = { s with rw := (s.reportIf b r).rw } := by
  unfold State.reportIf
  split
  · exact State.report_rw r s
  · rfl

theorem forSigns_taken {f : SignNo → State → State}
    (hf : ∀ {s t : State} (i : SignNo), SameButTaken s t → SameButTaken s (f i t)) (is : List SignNo) {s t : State}
    (h : SameButTaken s t) : SameButTaken s (forSigns f is t) := by
  induction is generalizing t with
  | nil => exact h
  | cons i rest ih => exact ih (hf i h)

/-- Evaluating signs changes only what the end of an event may change. -/
theorem State.evaluateAll_taken {s t : State} (h : SameButTaken s t) : SameButTaken s t.evaluateAll :=
  forSigns_taken (fun i h => State.evaluate_taken i h) _ h

theorem State.sweep_taken (zones : BitVec 64) {s t : State} (h : SameButTaken s t) : SameButTaken s (t.sweep zones) :=
  forSigns_taken (fun i h => State.evaluate_taken i h) _ h

/-! ## Emptying (R40) -/

theorem LineState.emptied_eq (x : LineState) : x.emptied = 
    { entry := .cleared, raw := x.raw, filtered := if decide (x.entry.mode = .faultOutput) then true else x.filtered
      timer := if decide (x.entry.mode = .faultOutput) then (if x.raw then none else some 1) else x.timer
      alert := false, drive := false } := by
  unfold LineState.emptied LineState.armFilter
  by_cases h : x.entry.mode = .faultOutput
  · simp [h]
  · simp [h]

/-- Emptying takes the tables' values. -/
theorem State.emptyWorking_eq (s : State) (p : PartState) (l : LoadPos) :
   { s.emptyWorking with dir.part := p, dir.load := l, rw.blockDue := true } = s.emptiedTo {s.dir with header := none, part := p, load := l} := by
  have h1 : s.mp.waiting.filter (fun q => !(q.requester != Requester.report)) = s.mp.waiting.filter (·.requester = .report) := by
    congr 1; funext q; simp [bne, beq_eq_decide]
  have h2 : (s.mp.running.map fun x => if (x.req.requester != Requester.report) = true then { x with discard := true } else x) = s.mp.running.map fun x => if x.req.requester = .report then x else { x with discard := true } := by
    congr 1; funext x; by_cases h : x.req.requester = .report <;> simp [h]
  have h4 : (s.mp.waiting.filter (·.requester = .report)).isEmpty = !(s.mp.waiting.any (·.requester = .report)) := by
    induction s.mp.waiting with
    | nil => rfl
    | cons q r ih => by_cases h : q.requester = .report <;> simp [h]; simpa using ih
  have h3 : ∀ t : State, t.rw.placed = false → t.attnLevel = false := by
    intro t ht; simp only [State.attnLevel]; cases t.rw.ring <;> simp [ht]
  unfold State.emptyWorking State.unplaceRing State.evalAttn
  rw [h3 _ rfl]
  unfold State.clearBlocks State.emptiedTo State.withdraw
  dsimp only
  rw [h1, h2, h4]
  simp only [LineState.emptied_eq]
  cases h : s.mp.waiting.any (·.requester = .report) <;> rfl

end Sys2Proof.Machine
end

