-- ==== Sys2Proof/WellFormed.lean ====
section
/-! DEFINITION. Which command terms can name an event of the part: addresses of 24 bits, bursts of the row's own kind,
answers no longer than a STATE frame. The meanings are total; these checks say which terms speak of a real event. -/

namespace Sys2Proof

/-- The addresses a burst touches, in travel order (R4). -/
def burstAddresses (addr len : Nat) : List Nat :=
  (List.range len).map fun i => (addr + i) % Config.memorySize

/-- The address lies in one of the four possible windows (R6). Every window base is a multiple of 64 KiB, so the window
offset of such an address is its low 16 bits. -/
def inSomeWindow (addr : Nat) : Bool :=
  [0xFF, 0x7F, 0x3F, 0x1F].contains (addr / Config.windowSize)

/-- A burst that covers a window offset that satisfies `p`. -/
def coversOffset (addr : Nat) (data : List Byte) (p : Nat → Bool) : Bool :=
  addr < Config.memorySize &&
    (burstAddresses addr data.length).any fun a => inSomeWindow a && p (a % Config.windowSize)

/-- Every byte such a burst writes at the header's commit offset has bit 0, the restart flag, equal to `flag` (R26). -/
def restartFlagIs (addr : Nat) (data : List Byte) (flag : Bool) : Bool :=
  ((burstAddresses addr data.length).zip data).all fun x =>
    x.1 % Config.windowSize != 0xFF || x.2.getLsbD 0 == flag

/-- A line entry's byte at offset `k` of its 16 (R20, R28). -/
def isLineOffset (k off : Nat) : Bool := 0x100 ≤ off && off < 0x140 && off % 16 == k

/-- A sign entry's commit byte (R20). -/
def isSignCommitOffset (off : Nat) : Bool := 0x1000 ≤ off && off < 0x2000 && off % 16 == 15

/-- A burst of at least one byte at a 24-bit address (R4). -/
def isBurst (addr : Nat) (data : List Byte) : Bool := addr < Config.memorySize && !data.isEmpty

/-- Well-formedness of a command term. A host write may carry no byte at all (R4); a write named for a record covers
that record's byte. -/
def WellFormed : Instr → Bool
  | .resetAsserted _ _ => true
  | .resetReleased _ => true
  | .hostCommandIssue command addr len =>
    addr < Config.memorySize && (command == .other || 1 ≤ len) && decide (command.data.length ≤ len)
  | .hostCommandWithdrawn => true
  | .hostRead _ addr _ => addr < Config.memorySize
  | .otherHostCommand => true
  | .hostWrite addr _ => addr < Config.memorySize
  | .headerCommit addr data => coversOffset addr data (· == 0xFF) && restartFlagIs addr data false
  | .headerRestart addr data => coversOffset addr data (· == 0xFF) && restartFlagIs addr data true
  | .lineEntryCommit addr data => coversOffset addr data (isLineOffset 15)
  | .lineClear addr data => coversOffset addr data (isLineOffset 14)
  | .signEntryCommit addr data => coversOffset addr data isSignCommitOffset
  | .clockSetCommit addr data => coversOffset addr data (· == 0x20F)
  | .heartbeatWord addr data => coversOffset addr data (· == 0x211)
  | .consumerIndex addr data => coversOffset addr data (· == 0x221)
  | .tileWrite addr data => isBurst addr data
  | .mapWrite addr data => isBurst addr data
  | .scheduleWrite addr data => isBurst addr data
  | .ownRequestGrant => true
  | .loadHeaderReadEnd => true
  | .loadConsumerReadEnd => true
  | .loadLineTableReadEnd => true
  | .loadSignTableReadEnd => true
  | .directoryLoadStart => true
  | .ringPlace => true
  | .signatureReadEnd => true
  | .signatureCompletion => true
  | .mapReadEnd => true
  | .scheduleResyncReadEnd => true
  | .scheduleAdvanceReadEnd => true
  | .secondTick => true
  | .minuteTick => true
  | .pulseMissing => true
  | .rotationAdvance _ => true
  | .heartbeatLapse => true
  | .lineLevelChange _ _ => true
  | .lineFilterExpiry _ => true
  | .linkIdle _ _ => true
  | .frameSent _ => true
  | .answerWindowExpiry _ _ => true
  | .stateAnswer _ bytes _ => bytes.length ≤ 10
  | .backoffExpiry _ _ => true
  | .pollDue _ => true
  | .loadBusyRepeatDue _ => true
  | .linkTileReadEnd _ => true
  | .refreshLimitExpiry _ => true
  | .surveyTimerExpiry _ => true
  | .reportEntryWriteEnd => true
  | .producerIndexWriteEnd => true
  | .statusWriteEnd => true
  | .characterReceived _ _ => true

end Sys2Proof
end

