-- ==== Sys2Proof/Laws/PerInstr.lean ====
section
/-! SUPPORT. Statements made once per command, about the command as syntax. -/

namespace Sys2Proof

/-- The frame-memory address a command carries, for the rows that carry one (R4). -/
def Instr.address : Instr → Option Nat
  | .resetAsserted _ _ => none
  | .resetReleased _ => none
  | .hostCommandIssue _ addr _ => some addr
  | .hostCommandWithdrawn => none
  | .hostRead _ addr _ => some addr
  | .otherHostCommand => none
  | .hostWrite addr _ => some addr
  | .headerCommit addr _ => some addr
  | .headerRestart addr _ => some addr
  | .lineEntryCommit addr _ => some addr
  | .lineClear addr _ => some addr
  | .signEntryCommit addr _ => some addr
  | .clockSetCommit addr _ => some addr
  | .heartbeatWord addr _ => some addr
  | .consumerIndex addr _ => some addr
  | .tileWrite addr _ => some addr
  | .mapWrite addr _ => some addr
  | .scheduleWrite addr _ => some addr
  | .ownRequestGrant => none
  | .loadHeaderReadEnd => none
  | .loadConsumerReadEnd => none
  | .loadLineTableReadEnd => none
  | .loadSignTableReadEnd => none
  | .directoryLoadStart => none
  | .ringPlace => none
  | .signatureReadEnd => none
  | .signatureCompletion => none
  | .mapReadEnd => none
  | .scheduleResyncReadEnd => none
  | .scheduleAdvanceReadEnd => none
  | .secondTick => none
  | .minuteTick => none
  | .pulseMissing => none
  | .rotationAdvance _ => none
  | .heartbeatLapse => none
  | .lineLevelChange _ _ => none
  | .lineFilterExpiry _ => none
  | .linkIdle _ _ => none
  | .frameSent _ => none
  | .answerWindowExpiry _ _ => none
  | .stateAnswer _ _ _ => none
  | .backoffExpiry _ _ => none
  | .pollDue _ => none
  | .loadBusyRepeatDue _ => none
  | .linkTileReadEnd _ => none
  | .refreshLimitExpiry _ => none
  | .surveyTimerExpiry _ => none
  | .reportEntryWriteEnd => none
  | .producerIndexWriteEnd => none
  | .statusWriteEnd => none
  | .characterReceived _ _ => none

end Sys2Proof

namespace Sys2Proof.Laws.AddressBound

/-- A well-formed command carries only 24-bit addresses (R4). -/
def Statement (i : Instr) : Prop := WellFormed i = true → ∀ a, i.address = some a → a < Config.memorySize

theorem resetAsserted (ownSent hostSent : Nat) : Statement (.resetAsserted ownSent hostSent) := by
  simp [Statement, Instr.address]

theorem resetReleased (straps : Fin 4) : Statement (.resetReleased straps) := by simp [Statement, Instr.address]

theorem hostCommandIssue (command : HostCommand) (addr len : Nat) :
    Statement (.hostCommandIssue command addr len) := by simp_all [Statement, WellFormed, Instr.address]

theorem hostCommandWithdrawn : Statement .hostCommandWithdrawn := by simp [Statement, Instr.address]

theorem hostRead (fast : Bool) (addr len : Nat) : Statement (.hostRead fast addr len) := by simp_all [Statement, WellFormed, Instr.address]

theorem otherHostCommand : Statement .otherHostCommand := by simp [Statement, Instr.address]

theorem hostWrite (addr : Nat) (data : List Byte) : Statement (.hostWrite addr data) := by simp_all [Statement, WellFormed, Instr.address]

theorem headerCommit (addr : Nat) (data : List Byte) : Statement (.headerCommit addr data) := by simp_all [Statement, WellFormed, Instr.address, coversOffset]

theorem headerRestart (addr : Nat) (data : List Byte) : Statement (.headerRestart addr data) := by simp_all [Statement, WellFormed, Instr.address, coversOffset]

theorem lineEntryCommit (addr : Nat) (data : List Byte) : Statement (.lineEntryCommit addr data) := by simp_all [Statement, WellFormed, Instr.address, coversOffset]

theorem lineClear (addr : Nat) (data : List Byte) : Statement (.lineClear addr data) := by simp_all [Statement, WellFormed, Instr.address, coversOffset]

theorem signEntryCommit (addr : Nat) (data : List Byte) : Statement (.signEntryCommit addr data) := by simp_all [Statement, WellFormed, Instr.address, coversOffset]

theorem clockSetCommit (addr : Nat) (data : List Byte) : Statement (.clockSetCommit addr data) := by simp_all [Statement, WellFormed, Instr.address, coversOffset]

theorem heartbeatWord (addr : Nat) (data : List Byte) : Statement (.heartbeatWord addr data) := by simp_all [Statement, WellFormed, Instr.address, coversOffset]

theorem consumerIndex (addr : Nat) (data : List Byte) : Statement (.consumerIndex addr data) := by simp_all [Statement, WellFormed, Instr.address, coversOffset]

theorem tileWrite (addr : Nat) (data : List Byte) : Statement (.tileWrite addr data) := by simp_all [Statement, WellFormed, Instr.address, isBurst]

theorem mapWrite (addr : Nat) (data : List Byte) : Statement (.mapWrite addr data) := by simp_all [Statement, WellFormed, Instr.address, isBurst]

theorem scheduleWrite (addr : Nat) (data : List Byte) : Statement (.scheduleWrite addr data) := by simp_all [Statement, WellFormed, Instr.address, isBurst]

theorem ownRequestGrant : Statement .ownRequestGrant := by simp [Statement, Instr.address]

theorem loadHeaderReadEnd : Statement .loadHeaderReadEnd := by simp [Statement, Instr.address]

theorem loadConsumerReadEnd : Statement .loadConsumerReadEnd := by simp [Statement, Instr.address]

theorem loadLineTableReadEnd : Statement .loadLineTableReadEnd := by simp [Statement, Instr.address]

theorem loadSignTableReadEnd : Statement .loadSignTableReadEnd := by simp [Statement, Instr.address]

theorem directoryLoadStart : Statement .directoryLoadStart := by simp [Statement, Instr.address]

theorem ringPlace : Statement .ringPlace := by simp [Statement, Instr.address]

theorem signatureReadEnd : Statement .signatureReadEnd := by simp [Statement, Instr.address]

theorem signatureCompletion : Statement .signatureCompletion := by simp [Statement, Instr.address]

theorem mapReadEnd : Statement .mapReadEnd := by simp [Statement, Instr.address]

theorem scheduleResyncReadEnd : Statement .scheduleResyncReadEnd := by simp [Statement, Instr.address]

theorem scheduleAdvanceReadEnd : Statement .scheduleAdvanceReadEnd := by simp [Statement, Instr.address]

theorem secondTick : Statement .secondTick := by simp [Statement, Instr.address]

theorem minuteTick : Statement .minuteTick := by simp [Statement, Instr.address]

theorem pulseMissing : Statement .pulseMissing := by simp [Statement, Instr.address]

theorem rotationAdvance (sign : SignNo) : Statement (.rotationAdvance sign) := by simp [Statement, Instr.address]

theorem heartbeatLapse : Statement .heartbeatLapse := by simp [Statement, Instr.address]

theorem lineLevelChange (line : LineNo) (high : Bool) : Statement (.lineLevelChange line high) := by simp [Statement, Instr.address]

theorem lineFilterExpiry (line : LineNo) : Statement (.lineFilterExpiry line) := by simp [Statement, Instr.address]

theorem linkIdle (link : LinkNo) (t : Nat) : Statement (.linkIdle link t) := by simp [Statement, Instr.address]

theorem frameSent (link : LinkNo) : Statement (.frameSent link) := by simp [Statement, Instr.address]

theorem answerWindowExpiry (link : LinkNo) (t : Nat) : Statement (.answerWindowExpiry link t) := by simp [Statement, Instr.address]

theorem stateAnswer (link : LinkNo) (bytes : List Byte) (t : Nat) : Statement (.stateAnswer link bytes t) := by simp [Statement, Instr.address]

theorem backoffExpiry (link : LinkNo) (retry : Retry) : Statement (.backoffExpiry link retry) := by simp [Statement, Instr.address]

theorem pollDue (sign : SignNo) : Statement (.pollDue sign) := by simp [Statement, Instr.address]

theorem loadBusyRepeatDue (link : LinkNo) : Statement (.loadBusyRepeatDue link) := by simp [Statement, Instr.address]

theorem linkTileReadEnd (link : LinkNo) : Statement (.linkTileReadEnd link) := by simp [Statement, Instr.address]

theorem refreshLimitExpiry (sign : SignNo) : Statement (.refreshLimitExpiry sign) := by simp [Statement, Instr.address]

theorem surveyTimerExpiry (link : LinkNo) : Statement (.surveyTimerExpiry link) := by simp [Statement, Instr.address]

theorem reportEntryWriteEnd : Statement .reportEntryWriteEnd := by simp [Statement, Instr.address]

theorem producerIndexWriteEnd : Statement .producerIndexWriteEnd := by simp [Statement, Instr.address]

theorem statusWriteEnd : Statement .statusWriteEnd := by simp [Statement, Instr.address]

theorem characterReceived (link : LinkNo) (value : Byte) : Statement (.characterReceived link value) := by simp [Statement, Instr.address]

end Sys2Proof.Laws.AddressBound
end

