-- ==== Sys2Proof/Laws/Reset.lean ====
section
/-! SUPPORT. The part with every block cleared: what the status block counts, and what the end of the release leaves. -/

namespace Sys2Proof.Machine

theorem countP_replicate_sign (n : Nat) (g : SignState) (p : SignState → Bool) (h : p g = false) :
    (Vector.replicate n g).toList.countP p = 0 := by
  rw [Vector.toList_replicate, List.countP_replicate, h]
  rfl

theorem slots_replicate_sign (n : Nat) (g : SignState) (h : g.slots = []) :
    ((Vector.replicate n g).toList.map (·.slots.length)).sum = 0 := by
  rw [Vector.toList_replicate, List.map_replicate, h, List.sum_replicate]
  rfl

/-- The status block of the part with every block cleared (R184). -/
theorem State.statusBlock_cleared (s : State) (hdir : s.dir = .reset) (htm : s.tm = .reset) (hclk : s.clk = .reset)
    (hpc : s.pc = .reset) (hs : s.signs = Vector.replicate 256 .reset) : s.statusBlock = resetBlock := by
  have hc : ∀ (l : LinkNo) (j : Job), j ≠ .disabled → s.countOn l j = 0 := by
    intro l j hj
    unfold State.countOn State.countSigns
    rw [hs]
    exact countP_replicate_sign _ _ _ (by cases j <;> first | rfl | exact absurd rfl hj | simp [SignState.reset])
  have hf : s.slotsHeld = 0 := by
    unfold State.slotsHeld
    rw [hs]
    exact slots_replicate_sign _ _ rfl
  simp only [State.statusBlock, hc _ .queued (by decide), hc _ .refreshing (by decide), hc _ .offline (by decide),
    State.freeSlots, hf, State.freeWatch, htm, hdir, hclk, hpc, Directory.reset, TileMonitor.reset, Clock.reset,
    Chooser.reset]
  decide

/-- With every block cleared, all that the end of an event leaves to do is the status block's write. -/
theorem State.settle_cleared (s : State) (hdir : s.dir = .reset) (htm : s.tm = .reset) (hpl : s.pl = .reset)
    (hclk : s.clk = .reset) (hpc : s.pc = .reset) (hrw : s.rw = .reset) (hl : s.links = Vector.replicate 4 .reset)
    (hs : s.signs = Vector.replicate 256 .reset) (hg : s.grantHost = s) (hn : s.snoopHost = s) (hb : s.busy .report = false) :
    s.settle = { s with
      rw := { ReportWriter.reset with blockDue := false }
      mp.waiting := s.mp.waiting ++
        [{ kind := .blockWrite, addr := s.mp.windowBase + 0x6000, len := 64, data := resetBlock }] } := by
  have hlink : ∀ l, s.link l = .reset := by
    intro l
    simp [State.link, hl]
  have h1 : State.takeWork 256 s = s := by
    unfold State.takeWork
    simp [hclk, Clock.reset]
  have h2 : State.takeActivation s.pl.queue.length s = s := by simp [hpl, PageLoader.reset, State.takeActivation]
  have h3 : s.takeStale = s := by simp [State.takeStale, htm, TileMonitor.reset]
  have h4 : s.placeSignature = s := by simp [State.placeSignature, htm, TileMonitor.reset]
  have h5 : ∀ l, s.placeTile l = s := by
    intro l
    simp [State.placeTile, hlink, LinkState.reset]
  unfold State.settle State.takeAll State.takeUp
  rw [hg, hn]
  dsimp only
  rw [h1, h2, h3, h4]
  simp only [forLinks, h5]
  unfold State.placeReport
  rw [hb]
  simp [hrw, ReportWriter.reset, State.place, State.statusBlock_cleared s hdir htm hclk hpc hs]

end Sys2Proof.Machine
end

