-- ==== Sys2Proof/Tests/Slice0.lean ====
section
/-! SUPPORT. Tests: ill-formed terms that `WellFormed` refuses, the spec's worked examples, and, for each statement with
hypotheses, a concrete state and operands that meet them, clause by clause (`witness_…`). Expected values are the spec's. -/

namespace Sys2Proof.Tests

open Sys2Proof.Machine

/-! ## Well-formed terms -/

theorem test_wf_command_data :
    WellFormed (.hostCommandIssue (.write [1, 2]) 5 2) = true ∧ WellFormed (.hostCommandIssue (.write [1, 2, 3]) 5 2) = false := by
  decide

theorem test_wf_command_address :
    WellFormed (.hostCommandIssue (.write [7]) 0xFFFFFF 1) = true ∧
      WellFormed (.hostCommandIssue (.write [7]) 0x1000000 1) = false := by decide

theorem test_wf_command_length :
    WellFormed (.hostCommandIssue .plainRead 0 0) = false ∧ WellFormed (.hostCommandIssue .other 0 0) = true := by decide

theorem test_wf_read_address : WellFormed (.hostRead true 0x1000000 1) = false := by decide

theorem test_wf_write_address : WellFormed (.hostWrite 0x1000000 [1]) = false ∧ WellFormed (.hostWrite 0 []) = true := by decide

theorem test_wf_header_offset :
    WellFormed (.headerCommit 0xFF00FE [0, 0]) = true ∧ WellFormed (.headerCommit 0xFF00FE [0]) = false := by decide

theorem test_wf_header_flag :
    WellFormed (.headerCommit 0xFF00FF [1]) = false ∧ WellFormed (.headerRestart 0xFF00FF [1]) = true ∧
      WellFormed (.headerRestart 0xFF00FF [0]) = false := by decide

theorem test_wf_line_commit :
    WellFormed (.lineEntryCommit 0xFF013F [0]) = true ∧ WellFormed (.lineEntryCommit 0xFF014F [0]) = false := by decide

theorem test_wf_line_clear :
    WellFormed (.lineClear 0xFF010E [0]) = true ∧ WellFormed (.lineClear 0xFF010F [0]) = false := by decide

theorem test_wf_sign_commit :
    WellFormed (.signEntryCommit 0xFF1FFF [0]) = true ∧ WellFormed (.signEntryCommit 0xFF200F [0]) = false := by decide

theorem test_wf_clock_commit :
    WellFormed (.clockSetCommit 0xFF020F [0]) = true ∧ WellFormed (.clockSetCommit 0xFF020E [0]) = false := by decide

theorem test_wf_heartbeat :
    WellFormed (.heartbeatWord 0xFF0210 [0, 0]) = true ∧ WellFormed (.heartbeatWord 0xFF0210 [0]) = false := by decide

theorem test_wf_consumer :
    WellFormed (.consumerIndex 0xFF0221 [0]) = true ∧ WellFormed (.consumerIndex 0xFE0221 [0]) = false := by decide

theorem test_wf_region_burst :
    WellFormed (.tileWrite 0x100000 []) = false ∧ WellFormed (.mapWrite 0x200000 []) = false ∧
      WellFormed (.scheduleWrite 0x1000000 [0]) = false := by decide

theorem test_wf_answer : WellFormed (.stateAnswer 0 (List.replicate 11 0) 0) = false := by decide

/-- No row of the table has bits, so no word spells a command (log 27). -/
theorem test_no_word_decodes : decodeTableWord 32 0x12345678 = none := by decide

/-! ## The spec's worked examples -/

/-- A tile with some words set, the others zero: section 3.6.1. -/
def tileOf (front back : List Byte) : List Byte := front ++ List.replicate (256 - front.length - back.length) 0 ++ back

theorem test_signature_zero : signatureOf (tileOf [] []) = 0x00800001 := by decide +kernel

theorem test_signature_first_word : signatureOf (tileOf [0, 1] []) = 0x01000002 := by decide +kernel

theorem test_signature_last_word : signatureOf (tileOf [] [0, 1]) = 0x00810002 := by decide +kernel

theorem test_signature_two_words : signatureOf (tileOf [0x12, 0x34, 0x00, 0xFF] []) = 0x99881334 := by decide +kernel

theorem test_signature_ones : signatureOf (List.replicate 256 0xFF) = 0xC40F0701 := by decide +kernel

theorem test_signature_computed_zero : signatureOf (tileOf [0xFF, 0xF0] []) = 0xFFFFFFFF := by decide +kernel

/-- The nine characters "123456789" (R151's note). -/
theorem test_crc_check_value : crc16 [0x31, 0x32, 0x33, 0x34, 0x35, 0x36, 0x37, 0x38, 0x39] = 0x29B1 := by decide +kernel

/-- The levels of a character on a link: the start bit low, 0x2C from its least significant bit on, the stop bit high (R149). -/
theorem test_character_bits :
    characterBits 0x2C = [false, false, false, true, true, false, true, false, false, true] := by decide

/-- A PROBE to drop 12 has its five fields and the CRC over the first four bytes (R150, R151, R185). -/
theorem test_probe_frame : (probeFrame 12).take 4 = [12, 0x01, 0, 0] ∧ (probeFrame 12).length = 6 := by decide +kernel

/-- The header of section 1.7. -/
def header17 : Header :=
  { tileBase := 0x100000, tileCount := 2048, mapBase := 0x200000, schedBase := 0x300000, ringBase := 0x380000,
    ringSize := 256, linkEnable := 0xF, rates := #v[0, 1, 2, 3], answerWindow := 4, retryLimit := 3, backoffCap := 2,
    pollInterval := 50, refreshLimit := 6, surveyInterval := 2, coldThreshold := 20, freezeThreshold := 0, fraction := 2,
    heartbeatModulus := 30, lineFilter := 5, attention := true }

/-- Section 1.7: the last tile of the pool, then no region. -/
theorem test_end_of_tile_pool :
    classify 0xFF0000 (some header17) 0x17FF80 = .tile 2047 ∧ classify 0xFF0000 (some header17) 0x17FFFF = .tile 2047 ∧
      classify 0xFF0000 (some header17) 0x180000 = .outside := by decide

/-- Section 1.7: 32 bytes across two page maps make two runs. -/
theorem test_two_page_maps :
    cutRuns 0xFF0000 (some header17) 0x2041F0 (List.replicate 32 7) =
      [.map 4 0 ((List.range' 496 16).map fun p => (p, 7)), .map 4 1 ((List.range' 0 16).map fun p => (p, 7))] := by
  decide +kernel

/-- Section 1.7: the top of memory wraps. -/
theorem test_top_of_memory :
    classify 0xFF0000 (some header17) 0xFFFFFF = .window 0xFFFF ∧ classify 0xFF0000 (some header17) 0 = .outside := by decide

/-- R134's table: averages round toward minus infinity, and a wild sample is clamped. -/
theorem test_averages :
    ({ SignState.reset with ring := [40, 41, 41, 42] } : SignState).average = some 41 ∧
      ({ SignState.reset with ring := [-3, -2, -2, -2] } : SignState).average = some (-3) ∧
      (SignState.reset.addSample 37).average = some 37 ∧
      (({ SignState.reset with ring := [20, 20, 20, 20] } : SignState).addSample 300).average = some 57 := by decide

/-- R154's table: the waits before retries 1, 2, 8 and 15. -/
theorem test_backoff_waits :
    [backoffMs 0 1, backoffMs 2 2, backoffMs 2 8, backoffMs 7 8, backoffMs 7 15] = [5, 10, 20, 640, 640] := by decide

/-! ## States for the tests -/

/-- A part in RUNNING with the header of section 1.7 applied, nothing waiting and a placed ring. -/
def calm : State :=
  { State.reset with
    mp.waiting := []
    dir := { image := [], header := some header17, lastClockSeq := none, part := .running, load := .idle }
    rw := { ring := some { base := 0x380000, size := 256, producer := 0, published := 0, consumer := 0 }, placed := true,
            entries := [], suppressing := false, blockDue := false, owedIndex := false, attn := false } }

/-- The clock at a second of a minute of a day. -/
def atTime (day minute second : Nat) : State :=
  { calm with clk := { Clock.reset with day := day, minute := minute, second := second, unset := false } }

/-- Section 5.3.1: the clock after a capture, and its offset. -/
theorem test_captures :
    (atTime 1200 554 5).capturePulse.clk.second = 0 ∧ (atTime 1200 554 5).capturePulse.clk.lastOffset = 5 ∧
      (atTime 812 1439 47).capturePulse.clk.day = 813 ∧ (atTime 812 1439 47).capturePulse.clk.minute = 0 ∧
      (atTime 812 1439 47).capturePulse.clk.lastOffset = -13 ∧
      (atTime 65535 1439 30).capturePulse.clk.day = 0 ∧ (atTime 65535 1439 30).capturePulse.clk.lastOffset = -30 ∧
      (atTime 4 600 29).capturePulse.clk.lastOffset = 29 := by decide +kernel

/-- `s` with sign `i` changed. -/
def withSign (i : SignNo) (f : SignState → SignState) (s : State) : State := { s with signs := s.signs.set i (f (s.sign i)) }

/-- `s` with link `l` changed. -/
def withLink (l : LinkNo) (f : LinkState → LinkState) (s : State) : State := { s with links := s.links.set l (f (s.link l)) }

/-- `s` with line `n` changed. -/
def withLine (n : LineNo) (f : LineState → LineState) (s : State) : State := { s with lines := s.lines.set n (f (s.line n)) }

/-- `s` with an own transaction of a kind in progress that has taken `bytes`. -/
def running (kind : OwnKind) (bytes : List Byte) (s : State) : State :=
  { s with mp.running := some { req := { kind := kind, addr := 0x400, len := bytes.length, data := [1, 2] }
                                bytes := bytes, discard := false } }

/-- An enabled sign of 8 columns and 6 rows on link 1, drop 5. -/
def entry48 : SignEntry :=
  { enabled := true, link := 1, drop := 5, zone := 2, columns := 8, rows := 6, pageCount := 4, fallback := some 3,
    ghostLimit := 6, scheduleCount := 40 }

/-- The sign of section 7.6.1 with `d` dirty slots of its 48, all BLANK. -/
def sign761 (d partials : Nat) (average : Int) : SignState :=
  { SignState.reset with
    entry := entry48, job := .transfer, partialCount := partials, ring := List.replicate 4 average, activePage := some 1
    slots := (List.range 48).map fun k => { mapValue := 0xFFFF, tile := none, delivered := 0xFFFFFFFE, dirty := decide (k < d) } }

/-- Section 7.6.1, cases a to f. -/
theorem test_worked_plans :
    let kind (d partials : Nat) (average : Int) := (withSign 9 (fun _ => sign761 d partials average) calm).planKind 9
    [kind 7 3 41, kind 13 3 41, kind 0 3 41, kind 7 6 41, kind 7 3 19, kind 7 3 (-1)] =
      [.part, .full, .nothing, .full, .full, .hold] := by decide +kernel

/-- Section 9.10, steps 1 to 3: the report that makes free 4 starts suppression, SUPPRESSED follows, a routine report is
dropped. -/
theorem test_full_ring :
    let s : State :=
      { calm with rw.ring := some { base := 0x380000, size := 16, producer := 10, published := 10, consumer := 0 } }
    let report (k : ReportKind) : Report := { kind := k, sign := none, page := none, detail := 0 }
    let t := s.report (report .updateDone)
    t.rw.suppressing = true ∧ t.rw.ring.map (·.producer) = some 12 ∧
      t.rw.entries.map (fun e => (e.pos, e.report.kind, e.report.detail)) =
        [(10, .updateDone, 0), (11, .suppressed, 4)] ∧
      (t.report (report .pageSwitch)).rw = t.rw ∧
      (t.report (report .signOffline)).rw.ring.map (·.producer) = some 13 := by decide +kernel

/-! ## Hypotheses that can be met -/

theorem goes {s : State} (kind : HostKind) (addr n : Nat)
    (h : s.resetHeld = false ∧ s.mp.host = none ∧ s.hostMayGo = true) : s.HostGoes kind addr n := ⟨h.1, .inl h.2⟩

theorem ends (kind : OwnKind) (bytes : List Byte) {s : State} (h : s.resetHeld = false) :
    (running kind bytes s).OwnEnds kind bytes := ⟨h, _, rfl, rfl, rfl, rfl⟩

theorem witness_StepRunsFrontCommand : ({ calm with pending := [.secondTick, .frameSent 0] } : State).pending =
    .secondTick :: [.frameSent 0] := rfl

theorem witness_IdleStepIsOneCycle :
    calm.pending = [] ∧ ({ calm with resetHeld := true } : State).resetHeld = true ∧ calm.resetHeld = false ∧
      ({ calm with clk.prescaler := 32766 } : State).clk.prescaler + 1 < 32768 ∧
      32768 ≤ ({ calm with clk.prescaler := 32767 } : State).clk.prescaler + 1 := by decide

/-- A held write, a held read, and a write granted and snooped. -/
theorem witness_ReleaseGivesTheResetState :
    let claim (k : HostKind) (snooped : Bool) : HostClaim :=
      { kind := k, addr := 5, len := 1, data := [1], granted := false, snooped := snooped }
    let held (c : HostClaim) : Option HostClaim :=
      (({ calm with resetHeld := true, mp.host := some c } : State).mp.host.filter (!·.granted)).map
        fun c => { c with granted := true }
    ({ calm with resetHeld := true } : State).resetHeld = true ∧
      (∀ c, held (claim .fastRead false) = some c → c.kind ≠ .write ∨ c.snooped = true) ∧
      ∃ c, held (claim .write false) = some c ∧ c.kind = .write ∧ c.snooped = false :=
  ⟨rfl, fun c h => by cases h; exact .inl (by decide), _, rfl, rfl, rfl⟩

/-- A cut report write, a cut read, a cut host write, a granted host read, and no transaction. -/
theorem witness_AssertedResetClearsTheBlocks :
    calm.resetHeld = false ∧ calm.mem.wf = true ∧ calm.mp.running = none ∧ calm.mp.host = none ∧
      (∃ x, (running .entryWrite [] calm).mp.running = some x ∧ x.req.requester = .report) ∧
      (∃ x, (running .sigRead [1] calm).mp.running = some x ∧ x.req.requester ≠ .report) ∧
      (∃ c, (calm.issue .write 5 2 [1, 2]).mp.host = some c ∧ c.granted = true ∧ c.kind = .write) ∧
      ∃ c, (calm.issue .plainRead 5 2 []).mp.host = some c ∧ c.granted = true ∧ c.kind ≠ .write :=
  ⟨rfl, rfl, rfl, rfl, ⟨_, rfl, rfl⟩, ⟨_, rfl, by decide⟩, ⟨_, rfl, rfl, rfl⟩, ⟨_, rfl, rfl, by decide⟩⟩

theorem witness_NothingRunsWhileReset :
    ({ calm with resetHeld := true } : State).resetHeld = true ∧ ∀ straps, Instr.secondTick ≠ .resetReleased straps :=
  ⟨rfl, fun _ h => by cases h⟩

/-- A free host port with the count at 3 and at 4 while a request waits; a held and a granted write and read, and a write whose
snoop has been handed on. -/
theorem witness_HostCommandIsGrantedOrHeld :
    let claim (k : HostKind) (granted snooped : Bool) : HostClaim :=
      { kind := k, addr := 5, len := 2, data := [1, 2], granted := granted, snooped := snooped }
    let port (k : HostKind) (granted snooped : Bool) (count : Nat) : State :=
      { calm with mp.host := some (claim k granted snooped), mp.grantCount := count, mp.waiting := [headerRead 0] }
    let may (s : State) : Prop :=
      s.resetHeld = false ∧ s.mp.running = none ∧ (s.mp.waiting = [] ∨ s.mp.grantCount < 4)
    calm.mp.host = none ∧ may calm ∧ may (port .write false false 3) ∧ ¬may (port .write false false 4) ∧
      HostKind.fastRead ≠ .write ∧
      (∀ k granted snooped n, (port k granted snooped n).mp.host = some (claim k granted snooped)) ∧
      (claim .write true false).kind = .write ∧ (claim .write true true).snooped = true := by
  refine ⟨rfl, ?_, ?_, ?_, by decide, fun _ _ _ _ => rfl, rfl, rfl⟩ <;> decide

/-- A read at a free host port, and one of fewer bytes than a granted command's. -/
theorem witness_HostReadsLeaveThePart :
    calm.HostGoes .fastRead 0xFFFFFF 2 ∧ (calm.issue .plainRead 5 4 []).HostGoes .plainRead 5 0 ∧ calm.HostGoes .other 0 0 :=
  ⟨goes _ _ _ (by decide), ⟨rfl, .inr ⟨by decide, _, rfl, rfl, rfl, .inr ⟨rfl, by decide⟩⟩⟩, goes _ _ _ (by decide)⟩

/-- A write at a free port, one that is held, and one that stands granted with its bytes and with others. -/
theorem witness_HostWritesReachMemory :
    let h : HostClaim :=
      { kind := .write, addr := 0xFFFFFF, len := 2, data := [1, 2], granted := true, snooped := true }
    let busy : State := { calm with mp.waiting := [headerRead 0], mp.grantCount := 4 }
    calm.mem.wf = true ∧ calm.HostGoes .write 0xFFFFFF [(1 : Byte), 2].length ∧
      Instr.tileWrite 0xFFFFFF [1, 2] ∈ writeRows 0xFFFFFF [1, 2] ∧
      (busy.mp.host = none ∧ busy.mp.waiting ≠ [] ∧ 4 ≤ busy.mp.grantCount) ∧
      (({ calm with mp.host := some h } : State).mp.host = some h ∧ calm.resetHeld = false ∧ h.granted = true ∧
        h.kind = .write ∧ h.addr = 0xFFFFFF ∧ h.data = [1, 2]) ∧
      h.data ≠ [1, 3] :=
  ⟨rfl, goes _ _ _ (by decide), by decide, by decide, ⟨rfl, rfl, rfl, rfl, rfl, rfl⟩, by decide⟩

/-- The first and last byte of each region, and the bytes around them. -/
theorem witness_RegionsOwnTheirBytes :
    (0xFF0000 < 16777216 ∧ header17.tileBase < 16777216 ∧ header17.mapBase < 16777216 ∧ header17.schedBase < 16777216 ∧
        header17.ringBase < 16777216) ∧
      anyOverlap (header17.extents 0xFF0000) = false ∧ offsetFrom 0xFF0000 0xFFFFFF = 65535 ∧
      offsetFrom header17.tileBase 0x17FFFF < header17.tileCount * 256 ∧ offsetFrom header17.mapBase 0x2FFFFF < 1048576 ∧
      offsetFrom header17.schedBase 0x37FFFF < 524288 ∧ offsetFrom header17.ringBase 0x380FFF < header17.ringSize * 16 ∧
      (let a : Nat := 0x381000;
        a < 16777216 ∧ 65536 ≤ offsetFrom 0xFF0000 a ∧ header17.tileCount * 256 ≤ offsetFrom header17.tileBase a ∧
          1048576 ≤ offsetFrom header17.mapBase a ∧ 524288 ≤ offsetFrom header17.schedBase a ∧
          header17.ringSize * 16 ≤ offsetFrom header17.ringBase a) ∧
      calm.HostGoes .write 0x380FFF [(1 : Byte), 2].length ∧
      ∀ k < [(1 : Byte), 2].length,
        classify calm.mp.windowBase calm.dir.header ((0x380FFF + k) % 16777216) = .outside ∨
          classify calm.mp.windowBase calm.dir.header ((0x380FFF + k) % 16777216) = .ring := by
  refine ⟨?_, ?_, ?_, ?_, ?_, ?_, ?_, ?_, goes _ _ _ (by decide), ?_⟩ <;> decide

/-- Requests of two classes with the host port free, and with a host transaction held at the count's limit. -/
theorem witness_ArbiterChoosesByClass :
    let q (k : OwnKind) : OwnReq := { kind := k, addr := 0, len := 256, data := [] }
    let s : State := { calm with mp.waiting := [q .sigRead, q (.tileRead 3 0), q (.tileRead 0 0)] }
    let c : HostClaim := { kind := .write, addr := 5, len := 2, data := [1, 2], granted := false, snooped := false }
    let t : State := { s with mp.host := some c, mp.grantCount := 4 }
    s.resetHeld = false ∧ s.mp.running = none ∧ s.mp.waiting ≠ [] ∧ s.mp.host = none ∧
      ∃ c, t.mp.host = some c ∧ c.granted = false ∧ 4 ≤ t.mp.grantCount :=
  ⟨rfl, rfl, by decide, rfl, ⟨_, rfl, rfl, by decide⟩⟩

theorem witness_AbandonedReadsAreDiscarded :
    let s := (running (.mapRead 3 true) [1] calm).withdraw (· == .pageMap)
    s.resetHeld = false ∧ ∃ x, s.mp.running = some x ∧ x.discard = true ∧ x.req.isWrite = false ∧
      endsRead .mapReadEnd x.req.kind = true := ⟨rfl, _, rfl, rfl, rfl, rfl⟩

/-! ### The directory -/

/-- The bytes of the header of section 1.7, with the tile count's high byte, the link enables, the heartbeat modulus and the
attention byte as given. -/
def headerBytes (tiles enables modulus attention : Byte) : List Byte :=
  [0x53, 0x47, 1, 0, 0x10, 0, 0, 0, tiles, 0, 0, 0, 0x20, 0, 0, 0, 0x30, 0, 0, 0, 0x38, 0, 0, 0, 1, 0, 0, 0, 0, 0, 0, 0,
    enables, 0, 0, 0, 0, 1, 2, 3, 4, 3, 2, 50, 6, 2, 2, 5, 0, 20, 0, 0, 0, modulus, attention]

/-- `calm` with header bytes in its image. -/
def withImage (bytes : List Byte) (s : State) : State := { s with dir.image := Memory.writeBytes 0 bytes [] }

/-- The bytes of the image are the header of section 1.7. -/
theorem test_header17_parses : parseHeader (Memory.writeBytes 0 (headerBytes 8 15 30 1) []) = header17 := by decide +kernel

/-- The last byte of the header's record, in the window. -/
theorem commit_inWindow {s : State} (b : Byte) (hb : s.mp.windowBase = 0xFF0000) : s.InWindow 0xFF00FF 0xFF [b] := by
  intro k hk
  obtain rfl : k = 0 := by simpa using hk
  rw [hb]
  unfold classify
  rw [if_pos (by decide)]
  rfl

/-- What every header commit's statement asks of one byte written at the commit offset. -/
theorem witness_header_commit :
    calm.HostGoes .write 0xFF00FF [(0 : Byte)].length ∧ [(0 : Byte)] ≠ [] ∧ 0xFF + [(0 : Byte)].length = 0x100 ∧
      calm.InWindow 0xFF00FF 0xFF [0] :=
  ⟨goes _ _ _ (by decide), by decide, rfl, commit_inWindow _ rfl⟩

/-- The image once the commit byte `b` has been taken. -/
def committed (b : Byte) (s : State) : Memory := ((s.wrote 0xFF00FF [b]).imaged 0xFF [b]).dir.image

/-- An image with no mark, taken in RUNNING, in LOADING after step 1 and before it, and in WAITING; a restart flag with the
regions as applied; changed regions with the flag clear, in RUNNING and in LOADING. -/
theorem witness_HeaderCommitsByPartState :
    let same := withImage (headerBytes 8 15 30 1) calm
    let changed := withImage (headerBytes 7 15 30 1) calm
    let loading : State := { changed with dir.part := .loading, dir.load := .signs 0 }
    headerCause 0xFF0000 (committed 0 calm) = some 1 ∧ calm.headerTaken ∧ loading.headerTaken ∧
      (({ calm with dir.part := .loading, dir.load := .header } : State).headerReached = false ∧
        ({ calm with dir.part := .waiting } : State).dir.part = .waiting) ∧
      (headerCause 0xFF0000 (committed 1 same) = none ∧ ((committed 1 same).read 0xFF).getLsbD 0 = true) ∧
      (headerCause 0xFF0000 (committed 0 changed) = none ∧
        changed.settings.sameRegions (parseHeader (committed 0 changed)) = false ∧ loading.headerReached = true) :=
  ⟨by decide +kernel, .inl rfl, .inr ⟨rfl, by decide⟩, by decide, by decide +kernel, by decide +kernel⟩

theorem witness_HeaderCausesInOrder :
    let m (front : List Byte) : Memory := Memory.writeBytes 0 front []
    (m []).word 0 ≠ 0x5347 ∧ ((m [0x53, 0x47, 2]).word 0 = 0x5347 ∧ (m [0x53, 0x47, 2]).num 2 ≠ 1) ∧
      ((m [0x53, 0x47, 1]).num 2 = 1 ∧ (m [0x53, 0x47, 1]).word 8 = 0) ∧
      ((m (headerBytes 8 15 30 1)).word 0 = 0x5347 ∧ (m (headerBytes 8 15 30 1)).num 2 = 1 ∧
        (m (headerBytes 8 15 30 1)).word 8 ≠ 0) := by decide +kernel

/-- Settings that change, in RUNNING in each heartbeat state and in LOADING after step 1, and a header that changes none. -/
theorem witness_HeaderSettingsApplyInPlace :
    let s := withImage (headerBytes 8 15 0 0) calm
    let h := parseHeader (committed 0 s)
    (s.headerTaken ∧ ({ s with dir.part := .loading, dir.load := .lines } : State).headerTaken ∧ s.dir.header ≠ none) ∧
      (headerCause 0xFF0000 (committed 0 s) = none ∧ s.settings.sameRegions h = true ∧
        ((committed 0 s).read 0xFF).getLsbD 0 = false ∧ h.linkEnable = s.settings.linkEnable ∧ s.settings ≠ h) ∧
      (h.heartbeatModulus = 0 ∧ s.settings.heartbeatModulus = 30 ∧
        ({ s with pc.hb := .lapsed } : State).pc.hb = Heartbeat.lapsed) ∧
      calm.settings = parseHeader (committed 0 (withImage (headerBytes 8 15 30 1) calm)) :=
  ⟨⟨.inl rfl, .inr ⟨rfl, by decide⟩, by decide⟩, by decide +kernel, by decide +kernel, by decide +kernel⟩

/-- Link 0 turned off and link 3 turned on, with an enabled sign on link 0. -/
theorem witness_HeaderTurnsLinksOnAndOff :
    let s0 := withSign 3 (fun g => { g with entry := { entry48 with link := 0 } }) (withImage (headerBytes 8 14 30 1) calm)
    let s : State := { s0 with dir.header := some { header17 with linkEnable := 7 } }
    let h := parseHeader (committed 0 s)
    s.dir.part = .running ∧ s.dir.header ≠ none ∧ headerCause 0xFF0000 (committed 0 s) = none ∧
      s.settings.sameRegions h = true ∧ ((committed 0 s).read 0xFF).getLsbD 0 = false ∧
      h.heartbeatModulus = s.settings.heartbeatModulus ∧
      (s.settings.linkEnable.getLsbD 0 && !h.linkEnable.getLsbD 0) = true ∧
      (!s.settings.linkEnable.getLsbD 3 && h.linkEnable.getLsbD 3) = true ∧ (s.sign 3).entry.enabled = true := by
  decide +kernel

/-- A fallback byte of 0xFF, below the page count and at it. -/
theorem witness_EntryFieldsAreClamped :
    let m (f : Byte) : Memory := Memory.writeBytes 0x1000 [1, 0x45, 2, 17, 16, 4, f, 16, 40] []
    ((m 0xFF).read 0x1006).toNat = 0xFF ∧ ((m 3).read 0x1006).toNat < ((rawSign (m 3) 0).clamped).pageCount ∧
      ((rawSign (m 4) 0).clamped).pageCount ≤ ((m 4).read 0x1006).toNat ∧ ((m 4).read 0x1006).toNat ≠ 0xFF := by
  decide +kernel

/-- A burst in the window of `calm`. -/
theorem witness_window_burst :
    calm.InWindow 0xFF010F 0x10F [1] ∧ calm.InWindow 0xFF013F 0x13F [1] ∧ calm.InWindow 0xFF0100 0x100 (List.replicate 15 1) ∧
      calm.InWindow 0xFF020F 0x20F [1] ∧ calm.InWindow 0xFF0210 0x210 [1, 2] ∧ calm.InWindow 0xFF0221 0x221 [3] ∧
      calm.InWindow 0xFF1FF0 0x1FF0 (List.replicate 16 1) := by
  refine ⟨?_, ?_, ?_, ?_, ?_, ?_, ?_⟩ <;> (unfold State.InWindow; decide)

/-- Lines 0 and 3 commit, reached and not, with a legal code and an illegal one. -/
theorem witness_LineEntryCommitApplies :
    calm.HostGoes .write 0xFF010F 1 ∧ calm.HostGoes .write 0xFF013F 1 ∧ calm.lineReached = true ∧
      ({ calm with dir.part := .waiting } : State).lineReached = false ∧
      (parseLine (Memory.writeBytes 0x100 [2] []) 0).mode = .alertLatched ∧
      5 ≤ (Memory.writeBytes 0x100 [5] []).num 0x100 :=
  ⟨goes _ _ _ (by decide), goes _ _ _ (by decide), by decide, by decide, by decide, by decide⟩

/-- A clear of line 0 from its first byte, while its latched alert is active and while it is not. -/
theorem witness_LineClearEndsALatchedAlert :
    let data : List Byte := List.replicate 15 1
    let s := withLine 0 (fun x => { x with entry := { x.entry with mode := .alertLatched }, alert := true }) calm
    calm.HostGoes .write 0xFF0100 data.length ∧ data ≠ [] ∧ 0x100 + 16 * (0 : LineNo).val ≤ 0x100 ∧
      0x100 + data.length = 0x10F + 16 * (0 : LineNo).val ∧
      (s.lineReached = true ∧ (s.line 0).entry.mode = .alertLatched ∧ (s.line 0).alert = true) ∧ (calm.line 0).alert = false :=
  ⟨goes _ _ _ (by decide), by decide, by decide, by decide, by decide, by decide⟩

/-- A new sequence, the last one again, and WAITING; a sign whose resync is in flight. -/
theorem witness_ClockSetLoadsTheClock :
    let s := withSign 3 (fun g => { g with entry := entry48 }) calm
    calm.HostGoes .write 0xFF020F [(1 : Byte)].length ∧ calm.dir.part ≠ .waiting ∧ calm.dir.lastClockSeq ≠ some 1 ∧
      ({ calm with dir.lastClockSeq := some 1 } : State).dir.lastClockSeq = some 1 ∧
      ({ calm with dir.part := .waiting } : State).dir.part = .waiting ∧ (s.sign 3).entry.enabled = true ∧
      ({ s with clk.engine := .resync 3 0 none none } : State).clk.engine.sign = some 3 :=
  ⟨goes _ _ _ (by decide), by decide, by decide, rfl, rfl, by decide +kernel, rfl⟩

/-- The heartbeat word in each heartbeat state, the last value again, and WAITING. -/
theorem witness_HeartbeatWordServesTheHeartbeat :
    calm.HostGoes .write 0xFF0210 [(1 : Byte), 2].length ∧ calm.dir.part ≠ .waiting ∧ calm.pc.hbLast ≠ some 258 ∧
      ({ calm with pc.hbLast := some 258 } : State).pc.hbLast = some 258 ∧ calm.pc.hb = .off ∧
      ({ calm with pc.hb := .running } : State).pc.hb = .running ∧ ({ calm with pc.hb := .lapsed } : State).pc.hb = .lapsed :=
  ⟨goes _ _ _ (by decide), by decide, by decide, rfl, rfl, rfl, rfl⟩

theorem witness_ConsumerIndexIsTaken :
    calm.HostGoes .write 0xFF0221 [(3 : Byte)].length ∧ calm.dir.part ≠ .waiting ∧ (∃ r, calm.rw.ring = some r) ∧
      calm.rw.placed = true ∧ ({ calm with rw.ring := none } : State).rw.ring = none :=
  ⟨goes _ _ _ (by decide), by decide, ⟨_, rfl⟩, rfl, rfl⟩

/-- The entry of sign 255, by the bytes of its record: refused, off, enabled, moved, changed in place; and not reached. -/
theorem witness_SignEntryCommitByCase :
    let entry (enable columns pages ghosts : Byte) : List Byte :=
      [enable, 0x45, 2, columns, 6, pages, 3, ghosts, 40, 0, 0, 0, 0, 0, 0, 0]
    let raw (bytes : List Byte) : SignEntry := rawSign ((calm.wrote 0xFF1FF0 bytes).imaged 0x1FF0 bytes).dir.image 255
    let old := entry48
    calm.HostGoes .write 0xFF1FF0 (entry 1 8 4 6).length ∧ 0x1000 + 16 * (255 : SignNo).val ≤ 0x1FF0 ∧
      0x1FF0 + (entry 1 8 4 6).length = 0x1010 + 16 * (255 : SignNo).val ∧ calm.signReached 255 = true ∧
      ({ calm with dir.part := .waiting } : State).signReached 255 = false ∧ (raw (entry 0 8 4 6)).enabled = false ∧
      (raw (entry 1 0 4 6)).enabled = true ∧ (raw (entry 1 0 4 6)).columns = 0 ∧ (raw (entry 1 8 0 6)).pageCount = 0 ∧
      ((raw (entry 1 8 4 6)).columns ≠ 0 ∧ (raw (entry 1 8 4 6)).rows ≠ 0 ∧ (raw (entry 1 8 4 6)).pageCount ≠ 0) ∧
      (raw (entry 1 8 4 5)).clamped ≠ old ∧ (raw (entry 1 8 4 6)).clamped.link = old.link ∧
      (raw (entry 1 8 4 6)).clamped.drop = old.drop ∧ (raw (entry 1 8 4 6)).clamped.pageCount = old.pageCount ∧
      (raw (entry 1 7 4 6)).clamped.columns ≠ old.columns := by
  refine ⟨goes _ _ _ (by decide), ?_⟩
  decide +kernel

/-- A sign that counts toward the fault output, and one that does not. -/
theorem witness_DisableDropsTheSign :
    ((withSign 9 (fun g => { g with job := .offline }) calm).sign 9).job = .offline ∧
      ¬((calm.sign 9).job = .offline ∨ (calm.sign 9).job = .panelFault) := by decide

/-- Sign 4 enabled on the drop of sign 3, and on another. -/
theorem witness_EnableStartsTheSign :
    let s := withSign 3 (fun g => { g with entry := entry48, job := .shown }) calm
    (s.sign 4).entry.enabled = false ∧ (s.sign 4).job = .disabled ∧ entry48.enabled = true ∧ s.DropsDistinct ∧
      (s.sign 3).entry.enabled = true ∧ (s.sign 3).entry.link = entry48.link ∧ (s.sign 3).entry.drop = entry48.drop ∧
      ∀ j, (s.sign j).entry.enabled = true → (s.sign j).entry.link = entry48.link → (s.sign j).entry.drop ≠ 6 := by
  have h : ∀ j, ((withSign 3 (fun g => { g with entry := entry48, job := .shown }) calm).sign j).entry.enabled = true →
      j = 3 := by decide +kernel
  refine ⟨by decide +kernel, by decide +kernel, rfl, ?_, by decide +kernel, by decide +kernel, by decide +kernel, ?_⟩
  · intro i j hi hj _ _
    rw [h i hi, h j hj]
  · intro j hj _
    rw [h j hj]
    decide +kernel

/-- Header bytes read that are refused, and that are valid. -/
theorem witness_LoadHeaderReadEnds :
    (running .dirHeader [] calm).OwnEnds .dirHeader [] ∧ headerCause 0xFF0000 (Memory.writeBytes 0 [] []) = some 1 ∧
      (running .dirHeader (headerBytes 8 15 30 1) calm).OwnEnds .dirHeader (headerBytes 8 15 30 1) ∧
      headerCause 0xFF0000 (Memory.writeBytes 0 (headerBytes 8 15 30 1) []) = none :=
  ⟨ends _ _ rfl, by decide +kernel, ends _ _ rfl, by decide +kernel⟩

/-- A valid header in WAITING; a load that waits with the links idle, and with one not. -/
theorem witness_LoadsStartOnceLinksAreIdle :
    let s : State := { withImage (headerBytes 8 15 30 1) calm with dir.part := .waiting }
    let t : State := { calm with dir.part := .loading, dir.load := .awaitLinks }
    let e : Exchange :=
      { sign := 3, drop := 5, purpose := .poll, attempt := 1, frame := [], rate := 0, discard := true }
    headerCause 0xFF0000 (committed 0 s) = none ∧ t.resetHeld = false ∧ t.dir.load = .awaitLinks ∧
      (∀ l, (t.link l).exch = none) ∧ t.mp.load .directory = 0 ∧
      ((withLink 3 (fun k => { k with exch := some e }) t).link 3).exch ≠ none := by decide +kernel

/-- A ring kept from before the restart, another, and none. -/
theorem witness_RingIsPlaced :
    let s : State := { calm with dir.load := .awaitRing 0xFFFF }
    (calm.rw.ring.map (fun r => (r.base, r.size)) = some (calm.settings.ringBase, calm.settings.ringSize) ∧
        { s with dir.header := some { header17 with ringBase := 0x390000 } }.settings.ringBase ≠ 0x380000 ∧
        ({ s with rw.ring := none } : State).rw.ring = none) ∧
    s.resetHeld = false ∧ s.rw.owedIndex = false ∧ s.rw.entries = [] ∧
      (∀ q ∈ s.mp.waiting, q.kind ≠ .entryWrite ∧ ∀ x, q.kind ≠ .indexWrite x) ∧
      (∀ x, s.mp.running = some x → x.req.kind ≠ .entryWrite ∧ ∀ y, x.req.kind ≠ .indexWrite y) :=
  ⟨by decide, rfl, rfl, rfl, fun _ h => absurd h List.not_mem_nil, fun _ h => by cases h⟩

theorem witness_LoadConsumerAndLineTableReadEnd :
    (running .dirConsumer [0, 5] calm).OwnEnds .dirConsumer [0, 5] ∧
      (running .dirLines [4] calm).OwnEnds .dirLines [4] := ⟨ends _ _ rfl, ends _ _ rfl⟩

/-- The first, the last but one and the last transaction of step 4. -/
theorem witness_LoadSignTableReadEnds :
    (running (.dirSigns 0) [1] calm).OwnEnds (.dirSigns 0) [1] ∧ (running (.dirSigns 14) [1] calm).OwnEnds (.dirSigns 14) [1] ∧
      (running (.dirSigns 15) [1] calm).OwnEnds (.dirSigns 15) [1] :=
  ⟨ends _ _ rfl, ends _ _ rfl, ends _ _ rfl⟩

/-- Rings with no, one and a quarter of their positions free, and half of them. -/
theorem witness_ReportsAndSuppression :
    let free (p : Nat) : Nat := 256 - 1 - (p + (256 - 0 % 256)) % 256
    let routine := [ReportKind.updateDone, .pageSwitch, .signOnline, .clockSet, .pulseCapture, .coldHold]
    calm.rw.placed = true ∧ (∃ r, calm.rw.ring = some r ∧ r.size = 256 ∧ r.consumer = 0) ∧ free 255 = 0 ∧ 0 < free 254 ∧
      free 191 = 256 / 4 ∧ free 127 = 256 / 2 ∧ ReportKind.updateDone ∈ routine ∧ ReportKind.alertOn ∉ routine ∧
      calm.rw.suppressing = false ∧ ({ calm with rw.suppressing := true } : State).rw.suppressing = true ∧
      ({ calm with rw.placed := false } : State).rw.placed = false ∧ ({ calm with rw.ring := none } : State).rw.ring = none :=
  ⟨rfl, ⟨_, rfl, rfl, rfl⟩, by decide, by decide, by decide, by decide, by decide, by decide, rfl, rfl, rfl, rfl⟩

theorem witness_ReportWriterWritesEnd :
    (∀ k : OwnKind, ∃ x, (running k [] calm).mp.running = some x ∧ x.discard = false ∧ x.req.kind = k) ∧
      calm.resetHeld = false ∧ calm.mem.wf = true ∧ (∃ r, calm.rw.ring = some r) ∧
      ∀ q ∈ calm.mp.waiting, q.requester ≠ .report :=
  ⟨fun _ => ⟨_, rfl, rfl, rfl⟩, rfl, rfl, ⟨_, rfl⟩, fun _ h => absurd h List.not_mem_nil⟩

/-- A request waiting, an owed index write with entries pending and without, a pending entry, a due block, a due record with
none before it, and nothing due; a change of a record's field, and a change of another. -/
theorem witness_ReportWriterChoosesItsWrite :
    let e : PendingEntry :=
      { pos := 3, report := { kind := .alertOn, sign := none, page := some 2, detail := 300 }
        stamp := { day := 1, minute := 2, second := 3 } }
    let quiet : State := { calm with signs := calm.signs.map fun g => { g with recordDue := false } }
    let due := withSign 9 (fun g => { g with recordDue := true }) quiet
    (({ calm with mp.waiting := [{ kind := .entryWrite, addr := 0, len := 16, data := [] }] } : State).mp.load .report ≠ 0 ∧
        calm.mp.load .report = 0 ∧ ∃ r, calm.rw.ring = some r) ∧
      (({ calm with rw.owedIndex := true } : State).rw.owedIndex = true ∧ calm.rw.owedIndex = false ∧
        ({ calm with rw.entries := [e] } : State).rw.entries = e :: []) ∧
      (calm.rw.entries = [] ∧ ({ calm with rw.blockDue := true } : State).rw.blockDue = true ∧ calm.rw.blockDue = false) ∧
      (∀ i, (quiet.sign i).recordDue = false) ∧
      ((due.sign 9).recordDue = true ∧ ∀ j, j < 9 → (due.sign j).recordDue = false) ∧
      (({ calm.sign 9 with job := .offline } : SignState).job ≠ (calm.sign 9).job ∧
        ({ calm.sign 9 with redo := true } : SignState).average = (calm.sign 9).average) := by
  refine ⟨⟨by decide, by decide, _, rfl⟩, ?_, ?_, ?_, ?_, ?_⟩ <;> decide +kernel

/-! ### Tiles, pages, schedules and the clock -/

/-- A watch entry with one slot of sign 9 on its chain. -/
def watch1 (tile : Nat) (state : WatchState) : WatchEntry := { tile := tile, state := state, sig := 5, chain := [(9, 0)] }

/-- `s` with these watch entries. -/
def watching (es : List WatchEntry) (s : State) : State := { s with tm.watch := es }

/-- Both ends of the tile pool; a tile without entry, and one with an entry in each state. -/
theorem witness_TileWriteByEntryState :
    calm.HostGoes .write 0x100000 [(1 : Byte), 2].length ∧ calm.HostGoes .write 0x17FFFE [(1 : Byte), 2].length ∧
      (∀ k < 2, classify calm.mp.windowBase calm.dir.header ((0x100000 + k) % 16777216) = .tile 0) ∧
      (∀ k < 2, classify calm.mp.windowBase calm.dir.header ((0x17FFFE + k) % 16777216) = .tile 2047) ∧
      (∀ e ∈ calm.tm.watch, e.tile ≠ 0) ∧
      ∀ st : WatchState, (watching [watch1 2047 st] calm).watched 2047 = some (watch1 2047 st) :=
  ⟨goes _ _ _ (by decide), goes _ _ _ (by decide), by decide, by decide, fun _ h => absurd h List.not_mem_nil, fun _ => rfl⟩

/-- A watched tile with one slot and with two, and an unwatched tile with a full and a free table. -/
theorem witness_AddAndDropRequests :
    let e := watch1 7 .clean
    (watching [e] calm).watched 7 = some e ∧ e.chain.erase (9, 0) = [] ∧ e.chain.erase (9, 1) ≠ [] ∧
      calm.watched 7 = none ∧ calm.tm.watch.length < 4096 ∧
      (watching (List.replicate 4096 e) calm).watched 8 = none ∧
      (watching (List.replicate 4096 e) calm).tm.watch.length = 4096 := by
  refine ⟨rfl, rfl, by decide, rfl, by decide, ?_, List.length_replicate⟩
  have h : ∀ n, (List.replicate n (watch1 7 .clean)).find? (·.tile == 8) = none := by
    intro n
    exact List.find?_eq_none.mpr fun e he => by rw [List.eq_of_mem_replicate he]; decide
  exact h 4096

/-- An idle engine with a stale tile, a busy one, a read that ends, and completions without an entry and in each state. -/
theorem witness_SignatureEngineCycle :
    let stale : State := { watching [watch1 7 .stale] calm with tm.stale := [7] }
    let fetch : State := { calm with tm.engine := .fetch 7 }
    let acc : State := { calm with tm.engine := .accumulate 7 [0, 1] 1 0 }
    (stale.tm.engine = .idle ∧ stale.tm.stale = 7 :: []) ∧ calm.tm.stale = [] ∧ fetch.tm.engine ≠ .idle ∧
      fetch.takeUp.tm.engine = .fetch 7 ∧ fetch.mp.load .signature = 0 ∧
      (running .sigRead [0, 1] fetch).OwnEnds .sigRead [0, 1] ∧ (running .sigRead [0, 1] fetch).tm.engine = .fetch 7 ∧
      acc.resetHeld = false ∧ acc.watched 7 = none ∧
      ∀ st : WatchState, (watching [watch1 7 st] acc).watched 7 = some (watch1 7 st) :=
  ⟨⟨rfl, rfl⟩, rfl, by decide, by decide +kernel, by decide, ends _ _ rfl, rfl, rfl, rfl, fun _ => rfl⟩

/-- A tile that has just joined the queue of the IDLE engine is taken before a write to it, granted by the same event, is
snooped: the write finds COMPUTING (R45, R47). -/
theorem test_taken_before_the_snoop :
    let s : State := { watching [watch1 7 .stale] calm with
      tm.stale := [7]
      mp.host := some { kind := .write, addr := 0x100700, len := 1, data := [1], granted := false, snooped := false } }
    s.settle.tm.engine = .fetch 7 ∧ s.settle.tm.watch.map (·.state) = [.restale] ∧ s.settle.tm.stale = [] := by
  decide +kernel

/-- 256 bytes whose sums are both zero, and 256 whose are not (section 3.6.1). -/
theorem witness_SignatureArithmetic :
    (tileOf [0xFF, 0xF0] []).length = 256 ∧ (tileOf [] []).length = 256 ∧ sums 1 0 (tileOf [0xFF, 0xF0] []) = (0, 0) ∧
      sums 1 0 (tileOf [] []) = (1, 128) := by decide +kernel

/-- `s` with sign 9 loading page 2, its staged map of `n` entries not yet read. -/
def loading9 (columns n : Nat) (s : State) : State :=
  withSign 9 (fun g => { g with
    entry := { entry48 with columns := columns, rows := 16 }, incoming := some (2, .page), activation := .loadingMap
    staged := List.replicate n { value := 0, read := false } }) s

/-- The read of a page of 128 entries, both reads of one of 144, and a page that finds no free watch entry. -/
theorem witness_MapReadEndDecides :
    let first (s : State) : State := running (.mapRead 9 false) (List.replicate 256 0) s
    let second (s : State) : State := running (.mapRead 9 true) (List.replicate 32 0) s
    let small := loading9 8 128 calm
    let large := loading9 9 144 calm
    ((first small).OwnEnds (.mapRead 9 false) (List.replicate 256 0) ∧
        ((first small).sign 9).incoming = some (2, .page) ∧ 128 ≤ ((first small).sign 9).staged.length) ∧
      ((first large).OwnEnds (.mapRead 9 false) (List.replicate 256 0) ∧
        ((first large).sign 9).incoming = some (2, .page) ∧
        128 < ((first large).sign 9).entry.columns * ((first large).sign 9).entry.rows) ∧
      ((second large).OwnEnds (.mapRead 9 true) (List.replicate 32 0) ∧
        ((second large).sign 9).incoming = some (2, .page) ∧ 128 + 16 ≤ ((second large).sign 9).staged.length) ∧
      (watching (List.replicate 4096 { watch1 7 .clean with chain := [(3, 0)] }) calm).tm.watch.length = 4096 ∧
      ({ watch1 7 .clean with chain := [(3, 0)] } : WatchEntry).chain.all (·.1 = 9) = false := by
  refine ⟨⟨ends _ _ rfl, ?_⟩, ⟨ends _ _ rfl, ?_⟩, ⟨ends _ _ rfl, ?_⟩, List.length_replicate, ?_⟩
  all_goals decide +kernel

/-- The take: a busy loader, a read of its own on the port, an empty queue; a queued sign whose page is active, one that fits
and one for which the store has too few slots. -/
theorem witness_MapReadEndDecides_take :
    let g (page : Nat) : SignState :=
      { SignState.reset with entry := entry48, wanted := some (2, .page), activePage := some page, activation := .queued }
    let s (page : Nat) : State := { withSign 9 (fun _ => g page) calm with pl.queue := [9] }
    let big : SignState := { SignState.reset with slots := List.replicate 8192 ⟨0xFFFF, none, 0, false⟩ }
    (({ calm with pl.loading := some 9 } : State).pl.loading ≠ none ∧
        ({ calm with mp.waiting := [{ kind := .mapRead 9 false, addr := 0, len := 2, data := [] }] } : State).mp.load .pageMap
          ≠ 0 ∧ calm.pl.queue = []) ∧
      ((s 1).pl.loading = none ∧ (s 1).mp.load .pageMap = 0 ∧ (s 1).pl.queue = 9 :: [] ∧
        ((s 2).sign 9).wanted = some (2, .page) ∧ ((s 2).sign 9).activePage = some 2 ∧ ((s 1).sign 9).activePage ≠ some 2) ∧
      entry48.columns * entry48.rows ≤ 8192 - ((s 1).signs.toList.map (·.slots.length)).sum ∧
      8192 - ((withSign 3 (fun _ => big) (s 1)).signs.toList.map (·.slots.length)).sum + ((g 1).slots).length <
        entry48.columns * entry48.rows := by
  refine ⟨?_, ?_, ?_, ?_⟩ <;> decide +kernel

/-- A sign that wants another page than the one loaded and the one active, and one that wants the loaded page. -/
theorem witness_ActivationsEnd :
    let g : SignState := { SignState.reset with entry := entry48, wanted := some (3, .page), activePage := some 1 }
    (∃ w, g.wanted = some w ∧ some w.1 ≠ g.activePage) ∧ (∃ w, g.wanted = some w ∧ some w.1 ≠ some 2) ∧
      ¬∃ w, g.wanted = some w ∧ some w.1 ≠ some 3 :=
  ⟨⟨_, rfl, by decide⟩, ⟨_, rfl, by decide⟩, by rintro ⟨w, h, h'⟩; cases h; exact h' rfl⟩

/-- `calm` with page 1 of sign 9 active, its slot 0 naming tile 7. -/
def active9 : State :=
  withSign 9 (fun g => { g with
    entry := entry48, job := .shown, activePage := some 1
    slots := [{ mapValue := 7, tile := some 7, delivered := 5, dirty := false },
      { mapValue := 0xFFFF, tile := none, delivered := 5, dirty := false }] }) (watching [watch1 7 .clean] calm)

/-- Entry 0 of page 1 of sign 9 written whole, and by each half; a page that is not active, and an index without a slot. -/
theorem witness_MapWriteChangesOneSlot :
    let addr := 0x200000 + 9 * 4096 + 512
    let at' (a k n : Nat) (p : Nat) : Prop :=
      ∀ m < n, classify active9.mp.windowBase active9.dir.header ((a + m) % 16777216) = .map 9 p (k + m)
    (active9.HostGoes .write addr ((some (0 : Byte)).toList ++ (some (8 : Byte)).toList).length ∧ at' addr 0 2 1) ∧
      (active9.HostGoes .write addr ((some (0 : Byte)).toList ++ (none : Option Byte).toList).length ∧ at' addr 0 1 1) ∧
      (active9.HostGoes .write (addr + 1) ((none : Option Byte).toList ++ (some (8 : Byte)).toList).length ∧
        at' (addr + 1) 1 1 1) ∧
      (at' (addr + 512) 0 2 2 ∧ (active9.sign 9).activePage ≠ some 2) ∧
      (at' (addr + 510) 510 2 1 ∧ (active9.sign 9).slots[255]? = none) ∧ (active9.sign 9).activePage = some 1 ∧
      ([(0 : Byte), 8, 0, 9].length = 2 * 2 ∧ at' addr 0 4 1) := by
  refine ⟨⟨goes _ _ _ ?_, ?_⟩, ⟨goes _ _ _ ?_, ?_⟩, ⟨goes _ _ _ ?_, ?_⟩, ?_⟩
  all_goals decide +kernel

/-- What the entry becomes in each case: the same value, the same tile, BLANK, a tile with an entry to be had, and a tile for
which the table is full. -/
theorem witness_MapWriteChangesOneSlot_cases :
    let tile (v : Nat) : Option Nat := if v < active9.settings.tileCount then some v else none
    let full := watching (List.replicate 4096 { watch1 7 .clean with chain := [(3, 0)] }) active9
    let d := active9.dropSlot (some 7) (9, 0)
    let e := full.dropSlot none (9, 1)
    (active9.sign 9).slots[0]?.map (·.mapValue) = some 7 ∧ (active9.sign 9).slots[1]?.map (·.mapValue) = some 0xFFFF ∧
      (0x900 ≠ 0xFFFF ∧ tile 0x900 = none) ∧ (tile 0xFFFF = none ∧ tile 0xFFFF ≠ some 7) ∧
      (tile 8 = some 8 ∧ tile 8 ≠ some 7 ∧ tile 8 ≠ none) ∧ d.tm.watch.length < 4096 ∧ d.watched 8 = none ∧
      e.tm.watch.length = 4096 := by
  refine ⟨?_, ?_, ?_, ?_, ?_, ?_, ?_, List.length_replicate⟩ <;> decide +kernel

/-- A schedule list written, its sign enabled and not; the engine idle with a resync and an advance due; a busy engine. -/
theorem witness_ScheduleWorkIsMarkedAndTaken :
    let on (w : Work) : State :=
      withSign 9 (fun g => { g with entry := entry48, workDue := w, nextEntry := some (5, 3) }) (atTime 0 0 0)
    let addr := 0x300000 + 9 * 2048
    (calm.HostGoes .write addr [(1 : Byte), 2].length ∧ calm.HostGoes .write (addr + 2046) [(1 : Byte), 2].length) ∧
      (∀ k < 2, classify calm.mp.windowBase calm.dir.header ((addr + k) % 16777216) = .schedule 9) ∧
      (∀ k < 2, classify calm.mp.windowBase calm.dir.header ((addr + 2046 + k) % 16777216) = .schedule 9) ∧
      ((on .resync).sign 9).entry.enabled = true ∧ (calm.sign 9).entry.enabled = false ∧
      ((on .resync).clk.engine = .idle ∧ (on .resync).clk.unset = false ∧ (on .resync).mp.load .schedule = 0) ∧
      (∀ j, j < 9 → ((on .resync).sign j).entry.enabled = true → ((on .resync).sign j).workDue = .none) ∧
      ((on .resync).sign 9).workDue = .resync ∧ 0 < ((on .resync).sign 9).entry.scheduleCount ∧
      ((on .advance).sign 9).workDue = .advance ∧ ((on .advance).sign 9).nextEntry = some (5, 3) ∧
      calm.clk.unset = true ∧ ({ calm with clk.engine := .advance 3 4 } : State).clk.engine ≠ .idle ∧
      ((withSign 9 (fun g => { g with entry := { entry48 with scheduleCount := 0 } }) (on .resync)).sign 9).entry.scheduleCount
        = 0 := by
  refine ⟨⟨goes _ _ _ (by decide), goes _ _ _ (by decide)⟩, ?_, ?_, ?_, ?_, ⟨rfl, rfl, ?_⟩, ?_⟩
  all_goals decide +kernel

/-- The bytes of a schedule entry for a day and a minute, pages 1 to 2. -/
def sched (day minute : Byte) : List Byte := [0, day, 0, minute, 1, 2, 0, 9]

/-- Reads at day 2, minute 0: an entry not later than its predecessor, one later than now, and a read that is all due, at the
list's end, before it and past it. -/
theorem witness_ResyncReadIsExamined :
    let time (b : List Byte) (m : Nat) : Nat :=
      ((b[8 * m]?.getD 0).toNat * 256 + (b[8 * m + 1]?.getD 0).toNat) * 1440 +
        min 1439 ((b[8 * m + 2]?.getD 0).toNat * 256 + (b[8 * m + 3]?.getD 0).toNat)
    let now := (atTime 2 0 0).clk.day * 1440 + (atTime 2 0 0).clk.minute
    let counted (count : Nat) (bytes : List Byte) : State :=
      running (.schedResync 9) bytes
        { withSign 9 (fun g => { g with entry := { entry48 with scheduleCount := count } }) (atTime 2 0 0) with
          clk.engine := .resync 9 0 none none }
    let s := counted 40
    let broken := sched 1 5 ++ sched 1 5
    let later := sched 1 5 ++ sched 2 1
    let due := sched 1 5 ++ sched 2 0
    (∀ bytes, (s bytes).OwnEnds (.schedResync 9) bytes ∧ (s bytes).clk.engine = .resync 9 0 none none) ∧
      (time broken 0 ≤ now ∧ time broken 1 ≤ time broken 0) ∧
      (time later 0 ≤ now ∧ ¬time later 1 ≤ time later 0 ∧ now < time later 1) ∧
      (time due 0 ≤ now ∧ ¬time due 1 ≤ time due 0 ∧ time due 1 ≤ now ∧ due.length / 8 = 2) ∧
      (0 + due.length < 8 * ((s due).sign 9).entry.scheduleCount ∧ 8 * ((counted 2 due).sign 9).entry.scheduleCount ≤ due.length ∧
        min (due.length / 8) (((counted 1 due).sign 9).entry.scheduleCount - 0 / 8) = 1) ∧
      (((s broken).sign 9).orderReported ≠ some 1 ∧ ((s broken).sign 9).redo = false ∧
        ((withSign 9 (fun g => { g with redo := true }) (s broken)).sign 9).redo = true ∧
        ((withSign 9 (fun g => { g with orderReported := some 1 }) (s broken)).sign 9).orderReported = some 1) :=
  ⟨fun bytes => ⟨ends _ _ rfl, rfl⟩, by decide, by decide, by decide, by decide +kernel, by decide +kernel⟩

/-- A commit that lowers the schedule count to 1 while a read of two entries is in progress: the second is not examined,
and no further read is placed; with a count of 40 the next read begins at the third entry (R96, R101). -/
theorem test_resync_follows_the_count :
    let s (count : Nat) : State :=
      { withSign 9 (fun g => { g with entry := { entry48 with scheduleCount := count }, redo := true }) (atTime 2 0 0) with
        clk.engine := .resync 9 0 none none }
    let due := sched 1 5 ++ sched 1 5
    (((s 1).resyncReadEnds due).clk.engine = .idle ∧ ((s 1).resyncReadEnds due).mp.waiting = [] ∧
      ((s 1).resyncReadEnds due).rw.entries = []) ∧
      ((s 40).resyncReadEnds (sched 1 5 ++ sched 1 6)).mp.waiting =
        [{ kind := .schedResync 9, addr := 0x300000 + 9 * 2048 + 16, len := 256, data := [] }] := by decide +kernel

/-- A flag set for the break at entry 2 does not hold back a report of one at entry 1, and is then set for that; it holds
back another of the same break; and a resync that will be discarded leaves it (R97, R102). -/
theorem test_order_reported_for_its_break :
    let s := withSign 9 (fun g => { g with orderReported := some 2 }) calm
    let redone := withSign 9 (fun g => { g with redo := true }) s
    (s.reportOrder 9 1).rw.entries.length = 1 ∧ ((s.reportOrder 9 1).sign 9).orderReported = some 1 ∧
      (s.reportOrder 9 2).rw.entries.length = 0 ∧
      (redone.reportOrder 9 1).rw.entries.length = 1 ∧ ((redone.reportOrder 9 1).sign 9).orderReported = some 2 := by
  decide +kernel

/-- A redo flag set and clear; no candidate, one that is current with its fields, and another. -/
theorem witness_ResyncResultIsApplied :
    let g : SignState :=
      { SignState.reset with entry := entry48, curEntry := some 2, rotFirst := 1, rotLast := 3, rotDwell := 9, rotPos := 2 }
    let page (p : Nat) : Nat := min p (g.entry.pageCount - 1)
    let c : Candidate := { index := 2, first := 1, last := 200, dwell := 9 }
    ({ g with redo := true } : SignState).redo = true ∧ g.redo = false ∧
      (g.curEntry = some c.index ∧ g.rotFirst = page c.first ∧ g.rotLast = page c.last ∧ g.rotDwell = c.dwell) ∧
      g.curEntry ≠ some ({ c with index := 3 } : Candidate).index := by decide

/-- Advances with one entry read, with a next entry that is later, due and broken, and with the redo flag set. -/
theorem witness_AdvanceReadIsApplied :
    let time (b : List Byte) (m : Nat) : Nat :=
      ((b[8 * m]?.getD 0).toNat * 256 + (b[8 * m + 1]?.getD 0).toNat) * 1440 +
        min 1439 ((b[8 * m + 2]?.getD 0).toNat * 256 + (b[8 * m + 3]?.getD 0).toNat)
    let now := (atTime 2 0 0).clk.day * 1440 + (atTime 2 0 0).clk.minute
    let s (bytes : List Byte) : State :=
      running (.schedAdvance 9) bytes { withSign 9 (fun g => { g with entry := entry48 }) (atTime 2 0 0) with
        clk.engine := .advance 9 39 }
    (∀ bytes, (s bytes).OwnEnds (.schedAdvance 9) bytes ∧ (s bytes).clk.engine = .advance 9 39) ∧
      (sched 1 5).length = 8 ∧ (sched 1 5 ++ sched 2 1).length = 16 ∧
      (let later := sched 1 5 ++ sched 2 1; time later 0 < time later 1 ∧ ¬time later 1 ≤ now) ∧
      (let due := sched 1 5 ++ sched 2 0; time due 0 < time due 1 ∧ time due 1 ≤ now) ∧
      (let broken := sched 1 5 ++ sched 1 5; time broken 1 ≤ time broken 0) ∧ ((s (sched 1 5)).sign 9).redo = false ∧
      ((withSign 9 (fun g => { g with redo := true }) (s (sched 1 5))).sign 9).redo = true :=
  ⟨fun bytes => ⟨ends _ _ rfl, rfl⟩, by decide, by decide, by decide, by decide, by decide, by decide +kernel,
    by decide +kernel⟩

/-- Second 58, second 59, and the last minute of the last day; a heartbeat and a pulse counter one short of their limits. -/
theorem witness_SecondAndMinuteTicks :
    let h : State := { calm with pc := { calm.pc with hb := .running, hbCounter := 1 } }
    let p : State := { calm with clk := { calm.clk with pulseMode := true, armed := true, pulseMissing := 179 } }
    ((atTime 3 4 58).resetHeld = false ∧ ¬59 ≤ (atTime 3 4 58).clk.second ∧ (atTime 3 4 59).clk.second = 59 ∧
        (atTime 65535 1439 59).clk.minute = 1439 ∧ (atTime 65535 1439 59).clk.day = 65535) ∧
      (h.dir.part = .running ∧ h.pc.hb = .running ∧ h.pc.hbCounter ≤ 1) ∧
      (p.clk.pulseMode = true ∧ p.clk.armed = true ∧ 179 ≤ p.clk.pulseMissing) := by decide

/-- A heartbeat counter at 1 and a pulse counter at 179, within a minute; a dwell reached at the last page and before it. -/
theorem witness_CountersReachTheirLimits :
    let p : State := { calm with clk := { calm.clk with pulseMode := true, armed := true, pulseMissing := 179 } }
    let r (pos : Nat) : SignState :=
      { SignState.reset with entry := entry48, rotFirst := 1, rotLast := 3, rotDwell := 9, dwellCount := 9, rotPos := pos }
    let h : State := { calm with pc := { calm.pc with hb := .running, hbCounter := 1 } }
    (p.resetHeld = false ∧ p.clk.pulseMode = true ∧ p.clk.armed = true ∧ 179 ≤ p.clk.pulseMissing ∧ p.clk.second < 59 ∧
        p.pc.hb ≠ .running) ∧
      ((r 3).entry.enabled = true ∧ (r 3).rotDwell ≠ 0 ∧ (r 3).rotFirst < (r 3).rotLast ∧
        (r 3).rotDwell ≤ (r 3).dwellCount ∧ (r 3).rotPos = (r 3).rotLast) ∧
      (r 2).rotPos ≠ (r 2).rotLast ∧
      (h.dir.part = .running ∧ h.pc.hb = .running ∧ h.pc.hbCounter ≤ 1 ∧ h.clk.second < 59) := by decide

/-! ### Lines, jobs and links -/

/-- Lines 0 and 3 both alert for zone 2; only line 3 does; none does. -/
theorem witness_WantedPageIsChosen :
    let raise (n : LineNo) (s : State) : State :=
      withLine n (fun x => { x with entry := { x.entry with zones := 0xFFFFFFFFFFFFFFFF, alertPage := some 9 }, alert := true }) s
    let s := raise 3 calm
    ((s.line 3).alert = true ∧ (s.line 3).entry.zones.getLsbD entry48.zone = true ∧
        ∀ m, m < 3 → ¬((s.line m).alert = true ∧ (s.line m).entry.zones.getLsbD entry48.zone = true)) ∧
      (((raise 0 s).line 0).alert = true ∧ ((raise 0 s).line 0).entry.zones.getLsbD 63 = true) ∧
      (∀ n, ¬((calm.line n).alert = true ∧ (calm.line n).entry.zones.getLsbD entry48.zone = true)) ∧
      ((calm.sign 9).entry.enabled = false ∧ entry48.enabled = true ∧ SignState.reset.activation = .idle ∧
        ({ SignState.reset with activation := .queued } : SignState).activation ≠ .idle ∧
        SignState.reset.activePage ≠ some (calm.wantedFor { SignState.reset with entry := entry48 }).1) := by decide +kernel

/-- A level change with RESET_N released and asserted; a filter that expires in each mode, the line active and not. -/
theorem witness_LineEdgesActByMode :
    let s (n : LineNo) (m : LineMode) (raw : Bool) : State :=
      withLine n (fun x => { x with entry := { x.entry with mode := m, activeHigh := true }, raw := raw, filtered := !raw,
                                    timer := some 5 }) calm
    calm.resetHeld = false ∧ ({ calm with resetHeld := true } : State).resetHeld = true ∧
      (∀ m ∈ [LineMode.off, .alertLevel, .alertLatched, .minutePulse, .faultOutput], ∀ raw,
        (s 3 m raw).resetHeld = false ∧ ((s 3 m raw).line 3).timer = some 5 ∧ ((s 3 m raw).line 3).entry.mode = m ∧
          ((s 3 m raw).line 3).alert = false ∧
          (decide (((s 3 m raw).line 3).raw = ((s 3 m raw).line 3).entry.activeHigh) = raw)) := by decide

/-- A sign in each job state; QUEUED below and above the trigger's class; a job with no SHOW begun, one begun, and one whose
exchange is in flight. -/
theorem witness_TriggersActByJobState :
    let g (j : Job) : SignState := { SignState.reset with entry := entry48, job := j, pendingClass := some .page }
    let ctx (b : Bool) : JobCtx :=
      { sign := 9, step := .load 0, attempts := 0, wait := .ready, held := [], busyStart := none, showSent := b,
        window := none }
    let e : Exchange :=
      { sign := 9, drop := 5, purpose := .jobLoad, attempt := 1, frame := [], rate := 0, discard := false }
    let s (b : Bool) (x : Option Exchange) : State :=
      withLink 1 (fun k => { k with job := some (ctx b), exch := x }) (withSign 9 (fun _ => g .transfer) calm)
    (∀ d, (g .queued).pendingClass = some d → d.rank < Machine.Class.alert.rank) ∧
      (∃ d, (g .queued).pendingClass = some d ∧ Machine.Class.content.rank ≤ d.rank) ∧
      (((s true none).sign 9).job = .transfer ∧ ((s true none).sign 9).entry.link = 1) ∧
      (∃ x, ((s true none).link 1).job = some x ∧ x.sign = 9 ∧ x.showSent = true) ∧
      (¬∃ x, ((s false none).link 1).job = some x ∧ x.sign = 9 ∧ x.showSent = true) ∧
      (¬∃ x, ((s false none).link 1).exch = some x ∧ x.sign = 9 ∧ x.discard = false ∧
        (x.purpose = .jobProbe ∨ x.purpose = .jobLoad ∨ x.purpose = .jobShow)) ∧
      ∃ x, ((s false (some e)).link 1).exch = some x ∧ x.sign = 9 ∧ x.discard = false ∧
        (x.purpose = .jobProbe ∨ x.purpose = .jobLoad ∨ x.purpose = .jobShow) := by
  refine ⟨?_, ⟨_, rfl, by decide⟩, by decide +kernel, ⟨_, rfl, rfl, rfl⟩, ?_, ?_, ⟨_, rfl, rfl, rfl, .inr (.inl rfl)⟩⟩
  · intro d h
    cases h
    decide
  · rintro ⟨x, h, -, h'⟩
    cases h
    cases h'
  · rintro ⟨x, h, -⟩
    cases h

/-- `calm` with sign 9 of link 1 in a job state under the plan given, the link changed by `f`. -/
def link9 (job : Job) (f : LinkState → LinkState) : State :=
  withLink 1 (fun k => f { k with phase := .idle }) (withSign 9 (fun _ => { sign761 7 3 41 with job := job }) calm)

/-- A job context of sign 9. -/
def job9 (step : JobStep) (wait : StepWait) : JobCtx :=
  { sign := 9, step := step, attempts := 0, wait := wait, held := [(1, [0x12])], busyStart := none, showSent := false,
    window := none }

/-- A poll of sign 9. -/
def poll9 (passed : Bool) (attempts : Nat) : Poll := 
  { sign := 9, due := 4000, passed := passed, attempts := attempts, window := none }

/-- An exchange of sign 9. -/
def exch9 (p : Purpose) (discard : Bool) : Exchange :=
  { sign := 9, drop := 5, purpose := p, attempt := 1, frame := probeFrame 5, rate := 1, discard := discard }

/-- A link that sends, and one that does not; the bounds of a drop, and characters and answers for each test: short, long, a wrong kind, and each outcome. -/
theorem witness_FramesAndAnswerTests :
    let rx (k p : Byte) : List Byte := [5, k, 0, 4, p, 0, 25, 9, 1, 2]
    ((link9 .transfer fun k => { k with phase := .sending, exch := some (exch9 .jobProbe false) }).link 1).exch =
        some (exch9 .jobProbe false) ∧ (exch9 .jobProbe false).frame[5]?.isSome = true ∧ (calm.link 1).phase ≠ .sending ∧
    (0 < 64 ∧ 63 < 64 ∧ (List.replicate 256 (0 : Byte)).length = 256) ∧
      ((rx 0x81 0).take 3).length < 4 ∧ (rx 0x81 0)[1]? = some 0x81 ∧ (rx 0x81 0)[2]? = some 0 ∧
      (4 ≤ ((rx 0x81 0).take 9).length ∧ ((rx 0x81 0).take 9).length < 10) ∧ 10 ≤ (rx 0x81 0).length ∧
      ((rx 0x80 0)[1]? = some 0x80 ∧ (0x80 : Byte) ≠ 0x81) ∧ ((rx 0x81 0).take 9).length ≠ 10 := by decide +kernel

/-- A busy link, a due poll alone, and a queued sign. -/
theorem witness_LinkServesPollsThenNewJobs :
    let p := link9 .refreshing fun k => { k with polls := [poll9 true 0] }
    let q := link9 .queued fun k => { k with queue := [{ sign := 9, cls := .page }] }
    (calm.resetHeld = false ∧ (calm.link 1).phase ≠ .gap ∧ (calm.link 1).phase ≠ .idle) ∧
      (p.resetHeld = false ∧ (p.link 1).exch = none ∧ (p.link 1).phase = .idle ∧ poll9 true 0 ∈ (p.link 1).polls ∧
        (poll9 true 0).passed = true ∧ ∀ r ∈ (p.link 1).polls, r = poll9 true 0) ∧
      ((q.link 1).exch = none ∧ (q.link 1).phase = .idle ∧ (∀ r ∈ (q.link 1).polls, r.passed = false) ∧
        (q.link 1).job = none ∧ (q.link 1).queue = { sign := 9, cls := .page } :: [] ∧ (q.sign 9).job = .queued ∧
        (q.sign 9).entry.link = 1) := by decide +kernel

/-- A plan of sign 9: a blank slot, and a tile whose bytes are held. -/
def plan9 (mode : RefreshMode) : Plan :=
  { mode := mode, page := 1, generation := 0, tag := 4,
    planned := [{ index := 0, tile := none, sig := 0 }, { index := 1, tile := some 7, sig := 5 }] }

/-- Jobs at a PROBE, at the LOAD of a blank slot and of a tile, and at the SHOW; jobs that wait, with a sign queued; survey
held, held in back-off, not due, due with nobody and with sign 9 to probe. -/
theorem witness_LinkCarriesOnJobsAndSurvey :
    let j (st : JobStep) := withSign 9 (fun g => { g with plan := some (plan9 .part) })
      (link9 .transfer fun k => { k with job := some (job9 st .ready) })
    let v := link9 .shown fun k => { k with surveyDue := true }
    let h := link9 .shown fun k => { k with survey := some { sign := 9, attempts := 0, single := false, wait := .ready, window := none } }
    let w (st : JobStep) (wait : StepWait) (x : StepWait) :=
      withLink 1 (fun k => { k with
        job := some { job9 st wait with held := [] }, queue := [{ sign := 4, cls := .page }]
        survey := some { sign := 3, attempts := 0, single := false, wait := x, window := none } }) (j st)
    (∀ st ∈ [JobStep.probe, .load 0, .load 1, .showStep],
        (j st).resetHeld = false ∧ ((j st).link 1).exch = none ∧ ((j st).link 1).phase = .idle ∧ ((j st).link 1).polls = [] ∧
          ((j st).link 1).job = some (job9 st .ready)) ∧
      ((j (.load 0)).sign 9).plan = some (plan9 .part) ∧ ((plan9 .part).planned[0]?.map (·.tile)) = some none ∧
      ((plan9 .part).planned[1]?.map (·.tile)) = some (some 7) ∧ (job9 (.load 1) .ready).held.find? (·.1 = 1) = some (1, [0x12]) ∧
      (((j .showStep).sign 9).average = some 41 ∧ ((j .showStep).sign 9).forceFull = false ∧
        ((j .showStep).sign 9).partialCount < ((j .showStep).sign 9).entry.ghostLimit) ∧
      ((calm.link 1).job = none ∧ (calm.link 1).queue = [] ∧ (calm.link 1).survey = none ∧ (calm.link 1).surveyDue = false) ∧
      (((w .probe (.backoff 5) .ready).link 1).job.map (·.wait) = some (.backoff 5) ∧
        ((w (.load 1) .ready (.backoff 5)).link 1).job = some { job9 (.load 1) .ready with held := [] } ∧
        ((w (.load 1) .ready (.backoff 5)).sign 9).plan = some (plan9 .part) ∧
        ((w (.load 1) .ready (.backoff 5)).link 1).survey.map (·.wait) = some (.backoff 5)) ∧
      (∃ x, (h.link 1).survey = some x ∧ x.wait = .ready) ∧ (v.link 1).survey = none ∧ (v.link 1).surveyDue = true ∧
      (∀ i, (v.sign i).entry.enabled = true → i = 9) ∧ (v.sign 9).entry.link = 1 ∧ (v.sign 9).job = .shown ∧
      ∀ i, (calm.sign i).entry.enabled = false := by
  refine ⟨?_, ?_, ?_, ?_, ?_, ?_, ?_, ?_, ⟨_, rfl, rfl⟩, ?_⟩ <;> decide +kernel

/-- A SHOW whose check fails: below the freeze threshold, and for a PART plan that has to be FULL; before its first attempt and
at a retry. -/
theorem witness_LinkCarriesOnJobsAndSurvey_check :
    let j (shown force : Bool) (average : Int) : State :=
      withSign 9 (fun g => { g with plan := some (plan9 .part), forceFull := force, ring := List.replicate 4 average })
        (link9 .transfer fun k => { k with job := some { job9 .showStep .ready with showSent := shown } })
    ((∀ b c a, ((j b c a).sign 9).plan = some (plan9 .part) ∧ ((j b c a).sign 9).entry.link = 1 ∧
        ((j b c a).sign 9).job = .transfer ∧ ((j b c a).link 1).polls = []) ∧
      ((j false false (-1)).sign 9).average = some (-1) ∧ -1 < calm.settings.freezeThreshold ∧
      ((j false true 41).sign 9).forceFull = true ∧ ((j true true 41).link 1).job.map (·.showSent) = some true) := by
  refine ⟨fun b c a => ⟨rfl, rfl, rfl, rfl⟩, ?_⟩
  decide +kernel

/-- A frame being sent; a job and a survey in back-off; polls in back-off and not yet due; a busy LOAD; a survey timer; a
tile read. -/
theorem witness_LinkTimersAndCharacters :
    let s (f : LinkState → LinkState) : State := link9 .transfer f
    ((s fun k => { k with phase := .sending }).link 1).phase = .sending ∧
      ((s fun k => { k with job := some (job9 .probe (.backoff 5)) }).link 1).job = some (job9 .probe (.backoff 5)) ∧
      (∃ v, ((s fun k => { k with survey := some { sign := 9, attempts := 1, single := false, wait := .backoff 5, window := none } }).link 1).survey
        = some v ∧ v.wait = .backoff 5) ∧
      (poll9 false 1 ∈ ((s fun k => { k with polls := [poll9 false 1] }).link 1).polls ∧ 0 < (poll9 false 1).attempts ∧
        (poll9 false 0).passed = false ∧ ((s id).sign 9).entry.link = 1) ∧
      ((s fun k => { k with job := some (job9 (.load 0) (.busyRepeat 500)) }).link 1).job =
        some (job9 (.load 0) (.busyRepeat 500)) ∧
      ((s fun k => { k with surveyTimer := some 2 }).link 1).surveyTimer ≠ none ∧
      (running (.tileRead 1 0) [9] (s fun k => { k with job := some (job9 (.load 0) .ready) })).OwnEnds (.tileRead 1 0) [9] := by
  refine ⟨?_, ?_, ⟨_, rfl, rfl⟩, ?_, ?_, ?_, ends _ _ rfl⟩ <;> decide +kernel

/-- A link with a read of its own, without a job, with both buffers held, without a plan, with a sign moved away, with every
planned tile held, and one that reads the second planned tile. -/
theorem witness_LinkTimersAndCharacters_tiles :
    let plan : Plan :=
      { plan9 .part with planned := [{ index := 0, tile := none, sig := 0 }, { index := 1, tile := some 7, sig := 5 }] }
    let s (held : List (Nat × List Byte)) : State :=
      withSign 9 (fun g => { g with plan := some plan })
        (link9 .transfer fun k => { k with job := some { job9 (.load 0) .ready with held := held } })
    (({ calm with mp.waiting := [{ kind := .tileRead 1 0, addr := 0, len := 256, data := [] }] } : State).mp.load (.link 1) ≠ 0 ∧
        (calm.link 1).job = none ∧ 2 ≤ [(0, [(1 : Byte)]), (1, [2])].length) ∧
      ((withSign 9 (fun g => { g with plan := none }) (s [])).sign 9).plan = none ∧
      ((withSign 9 (fun g => { g with entry.link := 2 }) (s [])).sign 9).entry.link ≠ 1 ∧
      (∃ h ∈ [(1, [(2 : Byte)])], h.1 = 1) ∧
      ((s []).mp.load (.link 1) = 0 ∧ ((s []).link 1).job = some { job9 (.load 0) .ready with held := [] } ∧
        ((s []).sign 9).plan = some plan ∧ plan.planned[1]?.map (·.tile) = some (some 7) ∧
        plan.planned[0]?.map (·.tile) = some none) := by decide +kernel

/-- A sign whose LOAD is in flight is moved to another link and gets a new plan there: the old link keeps the context until
the exchange ends and reads no tile for the new plan; at the end of the exchange the context goes (R31, R159, R170). -/
theorem test_moved_sign_reads_no_tile :
    let s := (link9 .transfer fun k => { k with
      phase := .sending, exch := some (exch9 .jobLoad false), job := some { job9 (.load 0) .ready with held := [] } })
    let moved := withSign 9 (fun g => { g with entry := { entry48 with link := 2 }, plan := some (plan9 .full) }) (s.disableSign 9)
    (moved.link 1).job.isSome = true ∧ (moved.placeTile 1).mp.waiting = moved.mp.waiting ∧
      ((moved.attemptEnds 1 (.failed 1) 0).link 1).job = none := by decide +kernel

/-- Windows that expire, and an answer that passes its tests, on a discarded exchange; windows that expire on a job's first attempt and its last
one, stopped and not, on a poll and on survey probes, held, single and ended meanwhile; a refresh limit. -/
theorem witness_FailuresAreRetriedOrSilent :
    let s (j : Job) (p : Purpose) (d : Bool) (f : LinkState → LinkState) : State :=
      link9 j fun k => f { k with phase := .awaiting, exch := some (exch9 p d) }
    let limit := calm.settings.retryLimit
    let jobs (n : Nat) := s .transfer .jobLoad false fun k => { k with job := some { job9 (.load 0) .ready with attempts := n } }
    let polls (n : Nat) := s .settling .poll false fun k => { k with polls := [poll9 true n] }
    let probe (n : Nat) (b : Bool) := s .offline .survey false fun k =>
      { k with survey := some { sign := 9, attempts := n, single := b, wait := .ready, window := none } }
    let r := withSign 9 (fun g => { g with plan := some (plan9 .full) })
      (link9 .refreshing fun k => { k with refresh := [(9, 6)] })
    limit = 3 ∧ (((s .shown .survey true id).link 1).phase = .awaiting ∧
        ((s .shown .survey true id).link 1).exch = some (exch9 .survey true)) ∧
      (∀ n ∈ [2, 3], (jobs n).resetHeld = false ∧ ((jobs n).sign 9).job = .transfer ∧ ((jobs n).sign 9).abort = none ∧
        ((jobs n).link 1).phase = .awaiting ∧ ((jobs n).link 1).exch = some (exch9 .jobLoad false) ∧
        ((jobs n).link 1).job = some { job9 (.load 0) .ready with attempts := n }) ∧
      ((withSign 9 (fun g => { g with abort := some .alert }) (jobs 0)).sign 9).abort ≠ none ∧
      (∀ n ∈ [2, 3], ((polls n).link 1).polls.find? (·.sign = 9) = some (poll9 true n)) ∧
      (∃ v, ((probe 2 false).link 1).survey = some v ∧ v.attempts + 1 ≤ limit ∧ v.single = false) ∧
      (∃ v, ((probe 0 true).link 1).survey = some v ∧ v.single = true) ∧
      (((s .queued .survey false id).link 1).survey = none ∧ ((s .disabled .jobLoad true id).link 1).exch = some (exch9 .jobLoad true) ∧
        [(5 : Byte)] ≠ [] ∧ (exch9 .jobLoad true).discard = true) ∧
      ((r.sign 9).job = .refreshing ∧ (∃ y ∈ (r.link 1).refresh, y.1 = 9) ∧ (r.sign 9).plan = some (plan9 .full)) := by
  refine ⟨rfl, ?_, ?_, ?_, ?_, ⟨_, rfl, by decide, rfl⟩, ⟨_, rfl, rfl⟩, ?_, ?_⟩ <;> decide +kernel

/-- A STATE answer of drop 5: five bytes of fields and their CRC-16. -/
def stateBytes (front : List Byte) : List Byte :=
  let c := crc16 front
  front ++ [BitVec.ofNat 8 (c.toNat / 256), BitVec.ofNat 8 c.toNat]

/-- Answers to drop 5 that fail: the CRC, the drop, the panel state, a character short, and a wrong kind. -/
theorem witness_FailuresAreRetriedOrSilent_answers :
    let judged (bytes : List Byte) : Verdict := judge 5 (bytes.foldl storeCharacter [])
    judged [5, 0x81, 0, 4, 0, 0, 25, 9, 1, 2] = .failed 2 ∧ judged (stateBytes [6, 0x81, 0, 4, 0, 0, 25, 9]) = .failed 3 ∧
      judged (stateBytes [5, 0x81, 0, 4, 3, 0, 25, 9]) = .failed 4 ∧
      judged ((stateBytes [5, 0x81, 0, 4, 0, 0, 25, 9]).take 9) = .failed 4 ∧
      judged (stateBytes [5, 0x80, 0, 4, 0, 0, 25, 9]) = .failed 4 := by decide +kernel

/-- Answers of each panel state in RECEIVING, to each exchange, of a sign with a job and without one. -/
theorem witness_AnswersActByJobState :
    let answer (state tag : Byte) : List Byte := stateBytes [5, 0x81, 0, 4, state, 0, 25, tag]
    let s (j : Job) (p : Purpose) (f : LinkState → LinkState) : State :=
      withSign 9 (fun g => { g with plan := some (plan9 .part) })
        (link9 j fun k => f { k with phase := .receiving, exch := some (exch9 p false) })
    (judge 5 ((answer 0 4).foldl storeCharacter []) = .answered { state := .ready, temp := 25, tag := 4 } ∧
        judge 5 ((answer 1 0).foldl storeCharacter []) = .answered { state := .busy, temp := 25, tag := 0 } ∧
        judge 5 ((answer 2 0).foldl storeCharacter []) = .answered { state := .error, temp := 25, tag := 0 }) ∧
      (∀ p ∈ [Purpose.jobProbe, .jobLoad, .jobShow],
        let u := s .transfer p fun k => { k with job := some (job9 (.load 0) .ready) }
        u.resetHeld = false ∧ (u.link 1).phase = .receiving ∧ (u.link 1).exch = some (exch9 p false) ∧ (u.link 1).rx = [] ∧
          (u.sign 9).entry.link = 1 ∧ (u.sign 9).job = .transfer ∧ (u.sign 9).abort = none ∧
          (u.link 1).job = some (job9 (.load 0) .ready) ∧ (u.sign 9).plan = some (plan9 .part) ∧ (u.sign 9).shownTag = 0) ∧
      (∀ j ∈ [Job.refreshing, .settling], ((s j .poll id).sign 9).job = j ∧
        ((s j .poll id).link 1).exch = some (exch9 .poll false) ∧ ((s j .poll id).sign 9).plan = some (plan9 .part)) ∧
      (let u := withSign 9 (fun g => { g with abort := some .alert })
          (s .transfer .jobLoad fun k => { k with job := some (job9 (.load 0) .ready) });
        (u.sign 9).job = .transfer ∧ (u.sign 9).abort ≠ none ∧ (u.link 1).exch = some (exch9 .jobLoad false)) ∧
      (((s .shown .poll id).sign 9).job = .shown ∧ ((s .shown .poll id).link 1).exch = some (exch9 .poll false) ∧
        ((s .shown .survey id).link 1).survey = none) ∧
      ∀ j ∈ [Job.shown, .cold, .offline, .panelFault],
        let u := s j .survey fun k => { k with survey := some { sign := 9, attempts := 0, single := false, wait := .ready, window := none } }
        (u.sign 9).job = j ∧ (u.link 1).exch = some (exch9 .survey false) ∧ (u.link 1).survey ≠ none := by
  decide +kernel

/-- Section 7.6.1: signs for HOLD, NOTHING, FULL and PART; a plan of the page's generation and one of another. -/
theorem witness_PlansAndCompletions :
    let g (d : Nat) (a : Int) : SignState := sign761 d 3 a
    ((g 7 (-1)).average = some (-1) ∧ -1 < calm.settings.freezeThreshold) ∧
      ((g 0 41).average = some 41 ∧ ¬(41 : Int) < calm.settings.freezeThreshold ∧ (g 0 41).forceFull = false ∧
        (g 0 41).slots.countP (fun x => x.dirty) = 0) ∧
      ((g 13 41).activePage = some 1 ∧ (g 13 41).slots.countP (fun x => x.dirty) = 13 ∧ (g 13 41).slots.length = 48 ∧
        48 * min calm.settings.fraction 8 < 8 * 13) ∧
      ((g 7 41).slots.countP (fun x => x.dirty) = 7 ∧ ¬48 * min calm.settings.fraction 8 < 8 * 7 ∧
        ¬(41 : Int) < calm.settings.coldThreshold ∧ ¬(g 7 41).entry.ghostLimit ≤ (g 7 41).partialCount) ∧
      ((plan9 .part).planned.map (·.index)).Nodup ∧ (g 7 41).generation = (plan9 .part).generation ∧
      ({ g 7 41 with generation := 1 } : SignState).generation ≠ (plan9 .part).generation ∧
      ((withSign 9 (fun _ => { g 7 41 with job := .cold }) calm).sign 9).job = .cold := by decide +kernel

/-! ### Promises of the whole part -/

theorem calm_sound : calm.Sound where
  stores := by unfold State.StoresCanonical; decide
  clock := by unfold Clock.InRange; decide
  count := by unfold MemPath.CountInRange; decide
  samples := by
    have h : ∀ i, (calm.sign i).ring = [] := by decide +kernel
    intro i x hx
    rw [h i] at hx
    exact absurd hx List.not_mem_nil
  watch := by unfold TileMonitor.WithinCapacity; decide

theorem witness_EveryStepKeepsTheRanges :
    ({ calm with pending := [.secondTick] } : State).Sound ∧
      ∃ t, step ({ calm with pending := [.secondTick] } : State) = .next t :=
  ⟨⟨calm_sound.stores, calm_sound.clock, calm_sound.count, calm_sound.samples, calm_sound.watch⟩, _, rfl⟩

theorem witness_EveryStepKeepsTheUniquePlaces :
    let s : State := { calm with pending := [.secondTick], mp.waiting := [headerRead 0] }
    s.mp.OneEach ∧ s.RingWaitQuiet ∧ s.DropsDistinct ∧ ∃ t, step s = .next t := by
  have h : ∀ i, (calm.sign i).entry.enabled = false := by decide +kernel
  refine ⟨fun r => ?_, fun (h : false = true) => absurd h (by decide), fun i j hi => ?_, _, rfl⟩
  · have h := List.countP_le_length (p := fun q : OwnReq => q.requester == r) (l := [headerRead 0])
    simpa [MemPath.load, calm, State.reset, MemPath.reset] using h
  · have hs : (calm.sign i).entry.enabled = true := hi
    rw [h i] at hs
    cases hs

theorem witness_OnlyWritesChangeMemory :
    Instr.hostWrite 5 [1] ∈ writeRows 5 [1] ∧ ∃ t, exec (.hostWrite 5 [1]) calm = .next t ∧ t.mem = [(5, 1)] :=
  ⟨by decide, _, rfl, by decide +kernel⟩

end Sys2Proof.Tests
end

section
/-! PROOFS. What every command keeps: the ranges, one own request per requester, distinct drops, and frame memory but for the
rows that write it. One lemma per kind of change, one walk over the command table. -/

namespace Sys2Proof.Machine

/-! ## What a change of the part keeps -/

/-- What every step promises of the change from `s` to `t`. Where the change places an own request, that requests stay one
for each requester asks `idle`, that the requester had none. -/
structure Keeps (idle : Prop) (s t : State) : Prop where
  pending : t.pending = s.pending
  sound : s.Sound → t.Sound
  one : idle → s.mp.OneEach ∧ s.RingWaitQuiet → t.mp.OneEach ∧ t.RingWaitQuiet
  drops : s.DropsDistinct → t.DropsDistinct

/-- A change that keeps the promises and leaves frame memory, the window base and RESET_N. -/
structure Frames (idle : Prop) (s t : State) : Prop extends Keeps idle s t where
  mem : t.mem = s.mem
  windowBase : t.mp.windowBase = s.mp.windowBase
  resetHeld : t.resetHeld = s.resetHeld

theorem Frames.trans {p q : Prop} {s t u : State} (h : Frames p s t) (hpq : p → q) (k : Frames q t u) :
    Frames p s u where
  pending := k.pending.trans h.pending
  sound := k.sound ∘ h.sound
  one hp := k.one (hpq hp) ∘ h.one hp
  drops := k.drops ∘ h.drops
  mem := k.mem.trans h.mem
  windowBase := k.windowBase.trans h.windowBase
  resetHeld := k.resetHeld.trans h.resetHeld

theorem Handed.frames {p : Prop} {s t : State} (h : Handed s t) : Frames p s t where
  pending := h.pending
  sound := State.Sound.of_calm h.toCalm
  one _ := h.oneEach
  drops := h.drops
  mem := h.mem
  windowBase := h.windowBase
  resetHeld := h.resetHeld

theorem Moved.frames {p : Prop} {s t : State} (h : Moved s t) : Frames p s t := h.handed.frames

theorem Frames.refl {p : Prop} (s : State) : Frames p s s := (Moved.refl s).frames

/-- What stands on the host port, and what was last carried back to it, are under no promise. -/
theorem Frames.host {p : Prop} (s : State) (h : Option HostClaim) (data : List Byte) :
    Frames p s { s with mp.host := h, mp.hostData := data } where
  pending := rfl
  sound hs := ⟨hs.stores, hs.clock, hs.count, hs.samples, hs.watch⟩
  one _ hs := hs
  drops hs := hs
  mem := rfl
  windowBase := rfl
  resetHeld := rfl

theorem State.grantHost_frames {p : Prop} (s : State) : Frames p s s.grantHost := by
  have hsound : s.Sound → s.grantHost.Sound := State.Sound.grantHost
  obtain ⟨h, g, he, -⟩ := State.grantHost_eq s
  rw [he] at hsound ⊢
  exact ⟨⟨rfl, hsound, fun _ hs => hs, fun hs => hs⟩, rfl, rfl, rfl⟩

theorem State.snoopHost_frames {p : Prop} (s : State) : Frames p s s.snoopHost := by
  obtain ⟨h, hh, -⟩ := State.snoopHost_handed s
  exact (Frames.host s h s.mp.hostData).trans id hh.frames

/-- The end of an event. -/
theorem State.settle_frames {p : Prop} (s : State) : Frames p s s.settle :=
  ((State.grantHost_frames s).trans id (State.snoopHost_frames _)).trans id
    (State.takeAll_moved (Moved.refl _)).frames

theorem State.onEvent_frames (s : State) {ok : Bool} {f : State → State} (hf : ok = true → Frames True s (f s)) :
    Frames True s (s.onEvent ok f) := by
  unfold State.onEvent
  split
  · rename_i h
    rw [Bool.and_eq_true] at h
    exact (hf h.2).trans id (State.settle_frames _)
  · exact Frames.refl s

/-- An event whose own effect stays within the blocks. -/
theorem State.onEvent_moved_frames (s : State) {ok : Bool} {f : State → State} (hf : Moved s (f s)) :
    Frames True s (s.onEvent ok f) :=
  s.onEvent_frames fun _ => hf.frames

/-! ## Placing and granting own requests (R10, R12) -/

/-- A request is placed for a requester that has none; a directory request while the load does not wait for the ring. -/
theorem State.place_frames (q : OwnReq) (s : State)
    (hq : q.requester = .directory → s.dir.load.ringIndex = none) :
    Frames (s.mp.load q.requester = 0) s (s.place q) where
  pending := rfl
  sound := State.Sound.place q
  one idle hs := by
    refine ⟨State.place_oneEach q ((State.busy_eq_false s _).mpr idle) hs.1, fun hring => ?_⟩
    have hne : q.requester ≠ .directory := fun h => by
      rw [State.place_dir, hq h] at hring
      cases hring
    rw [State.place_load, if_neg hne, Nat.add_zero]
    exact hs.2 hring
  drops hs := hs
  mem := rfl
  windowBase := rfl
  resetHeld := rfl

/-- The load goes on to another position: it may come to wait for the ring where the directory has no request. -/
theorem State.setLoad_frames (pos : LoadPos) (s : State) :
    Frames (s.mp.load .directory = 0) s { s with dir.load := pos } where
  pending := rfl
  sound hs := ⟨hs.stores, hs.clock, hs.count, hs.samples, hs.watch⟩
  one idle hs := ⟨hs.1, fun _ => idle⟩
  drops hs := hs
  mem := rfl
  windowBase := rfl
  resetHeld := rfl

theorem State.placeLoad_frames (kind : OwnKind) (hk : kind.requester = .directory) (off len : Nat) (s : State)
    (hs : s.dir.load.ringIndex = none) : Frames (s.mp.load .directory = 0) s (s.placeLoad kind off len) := by
  have h := State.place_frames
    { kind := kind, addr := (s.mp.windowBase + off) % Config.memorySize, len := len, data := [] } s fun _ => hs
  rwa [OwnReq.requester, hk] at h

/-- The load goes on and places its next read. -/
theorem State.nextLoad_frames (pos : LoadPos) (hpos : pos.ringIndex = none) (kind : OwnKind)
    (hk : kind.requester = .directory) (off len : Nat) (s : State) :
    Frames (s.mp.load .directory = 0) s ({ s with dir.load := pos }.placeLoad kind off len) := by
  have h := State.placeLoad_frames kind hk off len { s with dir.load := pos } hpos
  exact (State.setLoad_frames pos s).trans id h

/-- The arbiter chooses among the requests that wait. -/
theorem chooseOwn_mem {pointer : LinkNo} {waiting : List OwnReq} {q : OwnReq} (h : chooseOwn pointer waiting = some q) :
    q ∈ waiting := by
  obtain ⟨r, -, hr⟩ := List.exists_of_findSome?_eq_some h
  exact List.mem_of_find?_eq_some hr

/-- A grant moves a request from the waiting to the transaction in progress. -/
theorem State.grantOwn_load {q : OwnReq} {s : State} (hq : q ∈ s.mp.waiting) (hr : s.mp.running = none) (r : Requester) :
    (s.grantOwn q).mp.load r = s.mp.load r := by
  unfold MemPath.load State.grantOwn
  dsimp only
  rw [hr, List.countP_erase]
  by_cases h : q.requester = r
  · have : 0 < s.mp.waiting.countP (·.requester == r) := List.countP_pos_iff.mpr ⟨q, hq, by simpa using h⟩
    simp only [hq, h, beq_self_eq_true, and_self, if_true]
    omega
  · simp [h]

theorem State.grantOwn_frames {q : OwnReq} {s : State} (hq : q ∈ s.mp.waiting) (hr : s.mp.running = none) :
    Frames True s (s.grantOwn q) where
  pending := rfl
  sound hs := ⟨hs.stores, hs.clock, ⟨Nat.zero_le _, fun _ => rfl⟩, hs.samples, hs.watch⟩
  one _ hs := ⟨fun r => (State.grantOwn_load hq hr r).trans_le (hs.1 r),
    fun hring => (State.grantOwn_load hq hr _).trans (hs.2 hring)⟩
  drops hs := hs
  mem := rfl
  windowBase := rfl
  resetHeld := rfl

/-! ## The end of an own transaction (R10, R16) -/

/-- Memory at the end of the own transaction in progress: a write's bytes stand in it (log 8). -/
def State.endedMem (s : State) : Memory :=
  match s.mp.running with
  | none => s.mem
  | some x => if x.req.isWrite then s.mem.writeBytes x.req.addr x.req.data else s.mem

theorem State.endedMem_wf {s : State} (h : s.mem.wf = true) : s.endedMem.wf = true := by
  unfold State.endedMem
  split
  · exact h
  · split
    · exact Memory.wf_writeBytes _ _ _ h
    · exact h

/-- Once the transaction in progress is over, its requester has one request fewer. -/
theorem State.portFreed_load {s : State} {x : Running} (hx : s.mp.running = some x) (r : Requester) :
    s.portFreed.mp.load r + (if x.req.requester = r then 1 else 0) = s.mp.load r := by
  have hp : s.portFreed = State.grantHost { s with mp.running := none, mem := s.endedMem } := by
    unfold State.portFreed State.endedMem
    rw [hx]
  obtain ⟨h, g, he, -⟩ := State.grantHost_eq { s with mp.running := none, mem := s.endedMem }
  rw [hp, he]
  simp [MemPath.load, hx]

theorem State.portFreed_frames {p : Prop} (s : State) : Frames p { s with mem := s.endedMem } s.portFreed := by
  cases hx : s.mp.running with
  | none =>
    have h1 : s.portFreed = s := by unfold State.portFreed; rw [hx]
    have h2 : s.endedMem = s.mem := by unfold State.endedMem; rw [hx]
    rw [h1, h2]
    exact Frames.refl s
  | some x =>
    have hp : s.portFreed = State.grantHost { s with mp.running := none, mem := s.endedMem } := by
      unfold State.portFreed State.endedMem
      rw [hx]
    have hle : ∀ r, MemPath.load { s.mp with running := none } r ≤ s.mp.load r := fun r => by simp [MemPath.load]
    rw [hp]
    refine Frames.trans ?_ id (State.grantHost_frames _)
    exact
      { pending := rfl
        sound := fun hs => ⟨hs.stores, hs.clock, hs.count, hs.samples, hs.watch⟩
        one := fun _ hs => ⟨fun r => (hle r).trans (hs.1 r), fun hring => Nat.le_zero.mp ((hle _).trans_eq (hs.2 hring))⟩
        drops := fun hs => hs
        mem := rfl
        windowBase := rfl
        resetHeld := rfl }

/-- The end of an own transaction, whose requester may place its next request where what was read reaches it. -/
theorem State.endOwn_frames {s : State} {x : Running} {f : OwnReq → List Byte → State → State}
    (hx : s.mp.running = some x)
    (hf : Frames (s.portFreed.mp.load x.req.requester = 0) s.portFreed (f x.req x.bytes s.portFreed)) :
    Frames True { s with mem := s.endedMem } (s.endOwn f) := by
  have hfree := State.portFreed_frames (p := True) s
  cases hd : x.discard with
  | true => rwa [State.endOwn_discards f hx hd]
  | false =>
    rw [State.endOwn_delivers f hx hd]
    have hidle : s.mp.OneEach → s.portFreed.mp.load x.req.requester = 0 := fun hone => by
      have h1 := State.portFreed_load hx x.req.requester
      have h2 := hone x.req.requester
      rw [if_pos rfl] at h1
      omega
    exact
      { pending := hf.pending.trans hfree.pending
        sound := hf.sound ∘ hfree.sound
        one := fun _ hs => hf.one (hidle hs.1) (hfree.one trivial hs)
        drops := hf.drops ∘ hfree.drops
        mem := hf.mem.trans hfree.mem
        windowBase := hf.windowBase.trans hfree.windowBase
        resetHeld := hf.resetHeld.trans hfree.resetHeld }

end Sys2Proof.Machine
end

section
/-! PROOFS. Each command's change: the blocks' events, the ends of own transactions, the host port, the resets. -/

namespace Sys2Proof.Machine

/-! ## The directory's events -/

/-- A change of the directory shadow and the report writer that leaves the load where it is, or not waiting for the ring. -/
theorem Frames.dirRw {p : Prop} (s : State) (x : Directory) (y : ReportWriter)
    (himage : s.dir.image.wf = true → x.image.wf = true)
    (hload : x.load.ringIndex.isSome = true → s.dir.load.ringIndex.isSome = true) :
    Frames p s { s with dir := x, rw := y } where
  pending := rfl
  sound hs := ⟨⟨hs.stores.1, himage hs.stores.2⟩, hs.clock, hs.count, hs.samples, hs.watch⟩
  one _ hs := ⟨hs.1, fun hring => hs.2 (hload hring)⟩
  drops hs := hs
  mem := rfl
  windowBase := rfl
  resetHeld := rfl

theorem State.loadImage_frames {p : Prop} (off : Nat) (bytes : List Byte) (s : State) :
    Frames p s (s.loadImage off bytes) :=
  Frames.dirRw s { s.dir with image := s.dir.image.writeBytes off bytes } s.rw (Memory.wf_writeBytes off bytes _) id

theorem State.refuseHeader_handed (c : Nat) (s : State) : Handed s (s.refuseHeader c) where
  toCalm := State.refuseHeader_calm c s
  drops _ := .of_cleared fun i => State.emptyWorking_entry (s.reportRefused c) i
  ring h := by cases h

theorem State.linksOn_moved {s t : State} (h : Moved s t) : Moved s t.linksOn :=
  forLinks_moved (f := fun l s => if s.linkOn l then s.linkOnSet l else s)
    (fun l h => by
      split
      · exact State.linkOnSet_moved l h
      · exact h) h

/-- Work within the blocks, after which the load goes on and places its next read. -/
theorem Handed.nextLoad_frames {s t : State} (h : Handed s t) (pos : LoadPos) (hpos : pos.ringIndex = none)
    (kind : OwnKind) (hk : kind.requester = .directory) (off len : Nat) :
    Frames (s.mp.load .directory = 0) s ({ t with dir.load := pos }.placeLoad kind off len) :=
  h.frames.trans (fun h0 => Nat.le_zero.mp (h.directory.trans_eq h0))
    (State.nextLoad_frames pos hpos kind hk off len t)

theorem State.loadHeader_frames (s : State) : Frames (s.mp.load .directory = 0) s s.loadHeader := by
  unfold State.loadHeader
  split
  · exact (State.refuseHeader_handed _ s).frames
  · have hheader : Frames (s.mp.load .directory = 0) s { s with dir.header := some (parseHeader s.dir.image) } :=
      Frames.dirRw s { s.dir with header := some (parseHeader s.dir.image) } s.rw id id
    have hlinks := State.linksOn_moved (Moved.refl { s with dir.header := some (parseHeader s.dir.image) })
    dsimp only
    generalize State.linksOn { s with dir.header := some (parseHeader s.dir.image) } = t at hlinks ⊢
    exact hheader.trans id (hlinks.handed.nextLoad_frames .consumer rfl .dirConsumer rfl 0x220 2)

theorem State.loadConsumer_frames (s : State) : Frames (s.mp.load .directory = 0) s s.loadConsumer :=
  State.setLoad_frames _ s

theorem State.loadLines_frames (s : State) : Frames (s.mp.load .directory = 0) s s.loadLines := by
  have hlines := State.commitLine_moved 3 (State.commitLine_moved 2 (State.commitLine_moved 1
    (State.commitLine_moved 0 (Moved.refl s))))
  unfold State.loadLines
  generalize (((s.commitLine 0).commitLine 1).commitLine 2).commitLine 3 = t at hlines ⊢
  exact hlines.handed.nextLoad_frames (.signs 0) rfl (.dirSigns 0) rfl 0x1000 256

theorem State.endLoad_frames {p : Prop} (s : State) : Frames p s s.endLoad := by
  have hdir : Frames p s { s with dir.part := .running, dir.load := .idle, rw.blockDue := true } :=
    Frames.dirRw s { s.dir with part := .running, load := .idle } { s.rw with blockDue := true } id
      (fun h => by cases h)
  exact hdir.trans id (State.startHeartbeat_moved (State.report_moved _ (Moved.refl _))).frames

theorem State.loadSigns_frames (k : Nat) (s : State) : Frames (s.mp.load .directory = 0) s (s.loadSigns k) := by
  have hsigns := State.applySigns_handed (signsOf k) s
  unfold State.loadSigns
  dsimp only
  split
  · exact hsigns.nextLoad_frames (.signs (k + 1)) rfl (.dirSigns (k + 1)) rfl _ _
  · exact hsigns.frames.trans id (State.endLoad_frames _)

theorem State.takeRing_frames (v : Nat) (s : State) : Frames (s.mp.load .directory = 0) s (s.takeRing v) :=
  (State.placeRing_moved v (Moved.refl s)).handed.nextLoad_frames .lines rfl .dirLines rfl 0x100 64

theorem State.startLoad_frames (s : State) : Frames (s.mp.load .directory = 0) s s.startLoad := by
  have h := State.place_frames (headerRead s.mp.windowBase) { s with dir.load := .header } fun _ => rfl
  exact (State.setLoad_frames .header s).trans id h

/-! ## The other readers' events -/

theorem State.decideActivation_moved (i : SignNo) (p : Nat) (r : Reason) {s u : State} (h : Moved s u) :
    Moved s (u.decideActivation i p r) := by
  unfold State.decideActivation
  split
  · exact State.acceptActivation_moved i p r h
  · exact State.refuseActivation_moved i p 2 h

theorem State.mapReadEnds_frames (i : SignNo) (second : Bool) (bytes : List Byte) (s : State) :
    Frames (s.mp.load .pageMap = 0) s (s.mapReadEnds i second bytes) := by
  have key : ∀ (u : State) (b : Bool) (p n : Nat) (r : Reason), Moved s u → u.mp = s.mp →
      Frames (s.mp.load .pageMap = 0) s (if b then u.place (u.mapReadOf i p n true) else u.decideActivation i p r) := by
    intro u b p n r hu hmp
    split
    · exact hu.frames.trans (fun h => hmp ▸ h) (State.place_frames (u.mapReadOf i p n true) u fun h => by cases h)
    · exact (State.decideActivation_moved i p r hu).frames
  unfold State.mapReadEnds
  split
  · exact Frames.refl s
  · exact key _ _ _ _ _ (Moved.sign i _ (KeepsEntry.of_eq fun _ => ⟨rfl, rfl⟩) (Moved.refl s)) rfl

theorem State.readResync_frames (i : SignNo) (offset : Nat) (prev : Option Nat) (cand : Option Candidate) (s : State) :
    Frames (s.mp.load .schedule = 0) s (s.readResync i offset prev cand) := by
  have hengine : Moved s { s with clk.engine := .resync i offset prev cand } :=
    Moved.clk _ (fun hc => hc) (Moved.refl s)
  have hplace := State.place_frames
    (s.listRead i (.schedResync i) offset (min 256 (8 * (s.sign i).entry.scheduleCount - offset)))
    { s with clk.engine := .resync i offset prev cand } fun h => by cases h
  exact hengine.frames.trans id hplace

theorem State.resyncReadEnds_frames (bytes : List Byte) (s : State) :
    Frames (s.mp.load .schedule = 0) s (s.resyncReadEnds bytes) := by
  unfold State.resyncReadEnds
  split
  · rename_i i _ _ _ _
    dsimp only
    split
    · exact (State.endResync_moved i _ none (State.reportOrder_moved i _ (Moved.refl s))).frames
    · exact (State.endResync_moved i _ _ (Moved.refl s)).frames
    · split
      · exact (State.endResync_moved i _ none (Moved.refl s)).frames
      · exact State.readResync_frames i _ _ _ s
  · exact Frames.refl s

theorem State.startAccumulate_moved (bytes : List Byte) (s : State) : Moved s (s.startAccumulate bytes) := by
  unfold State.startAccumulate
  split
  · exact Moved.tm _ (fun hw => hw) (Moved.refl s)
  · exact Moved.refl s

theorem State.publish_moved (v : Nat) (s : State) : Moved s (s.publish v) := Moved.attn (Moved.rw _ (Moved.refl s))

/-- The event of the end of an own transaction of a kind, its bytes in memory where it is a write. -/
theorem State.ownEnd_frames (s : State) {ofKind : OwnKind → Bool} {f : OwnReq → List Byte → State → State}
    (hf : ∀ q bytes u, ofKind q.kind = true → Frames (u.mp.load q.requester = 0) u (f q bytes u)) :
    s.onEvent (s.inProgress ofKind) (State.endOwn f) = s ∨
      Frames True { s with mem := s.endedMem } (s.onEvent (s.inProgress ofKind) (State.endOwn f)) := by
  unfold State.onEvent
  split
  · rename_i h
    have hkind := (Bool.and_eq_true_iff.mp h).2
    unfold State.inProgress at hkind
    split at hkind
    · rename_i x hx
      exact .inr ((State.endOwn_frames hx (hf _ _ _ hkind)).trans id (State.settle_frames _))
    · cases hkind
  · exact .inl rfl

/-- The end of an own read: what was read may have its requester place its next. -/
theorem State.readEnd_frames (s : State) {ofKind : OwnKind → Bool} {f : OwnReq → List Byte → State → State}
    (r : Requester) (hr : r ≠ .report) (hkind : ∀ k, ofKind k = true → k.requester = r)
    (hf : ∀ q bytes u, ofKind q.kind = true → Frames (u.mp.load r = 0) u (f q bytes u)) :
    Frames True s (s.onEvent (s.inProgress ofKind) (State.endOwn f)) := by
  have hf' : ∀ q bytes u, ofKind q.kind = true → Frames (u.mp.load q.requester = 0) u (f q bytes u) := by
    intro q bytes u hq
    rw [OwnReq.requester, hkind _ hq]
    exact hf q bytes u hq
  rcases State.ownEnd_frames s hf' with h | h
  · rw [h]
    exact Frames.refl s
  · have hmem : s.inProgress ofKind = true → s.endedMem = s.mem := by
      unfold State.inProgress State.endedMem
      cases s.mp.running with
      | none => exact fun _ => rfl
      | some x => exact fun hk => if_neg (by simpa [OwnReq.isWrite, OwnReq.requester, hkind _ hk] using hr)
    by_cases hk : s.inProgress ofKind = true
    · rwa [hmem hk] at h
    · rw [State.onEvent_not _ (.inr (by simpa using hk))]
      exact Frames.refl s

/-! ## The host port -/

theorem State.issue_frames {p : Prop} (kind : HostKind) (addr len : Nat) (data : List Byte) (s : State) :
    Frames p s (s.issue kind addr len data) := by
  unfold State.issue
  split
  · exact Frames.refl s
  · exact (Frames.host s _ s.mp.hostData).trans id (State.grantHost_frames _)

theorem State.issueHost_frames (kind : HostKind) (addr len : Nat) (data : List Byte) (s : State) :
    Frames True s (s.issueHost kind addr len data) := by
  unfold State.issueHost
  split
  · exact Frames.refl s
  · split
    · exact (State.issue_frames kind addr len data s).trans id (State.settle_frames _)
    · exact State.issue_frames kind addr len data s

theorem State.carryRead_frames (kind : HostKind) (addr len : Nat) (s : State) :
    Frames True s (s.carryRead kind addr len) := by
  have hissue := State.issue_frames (p := True) kind addr len [] s
  unfold State.carryRead
  dsimp only
  split
  · exact hissue.trans id (Frames.host _ none _)
  · exact hissue

theorem State.carryOther_frames (s : State) : Frames True s s.carryOther := by
  have hissue := State.issue_frames (p := True) .other 0 0 [] s
  unfold State.carryOther
  dsimp only
  split
  · exact hissue.trans id (Frames.host (s.issue .other 0 0 []) none (s.issue .other 0 0 []).mp.hostData)
  · exact hissue

/-- The arbiter does not look at memory. -/
theorem State.issue_setMem (kind : HostKind) (addr len : Nat) (data : List Byte) (m : Memory) (s : State) :
    State.issue kind addr len data { s with mem := m } = { s.issue kind addr len data with mem := m } := by
  unfold State.issue
  cases hh : s.mp.host with
  | some c => rfl
  | none =>
    cases hgo : s.hostMayGo
    all_goals
      unfold State.hostMayGo at hgo
      simp [State.grantHost, State.hostMayGo, hgo]

/-- A row that is a host write: its bytes in memory, or nothing; the rest is the end of an event. -/
theorem State.carryWrite_frames (addr : Nat) (data : List Byte) (s : State) :
    ∃ m, (s.mem.wf = true → m.wf = true) ∧ Frames True { s with mem := m } (s.carryWrite addr data) := by
  have hwf := Memory.wf_writeBytes addr data s.mem
  unfold State.carryWrite
  split
  · have hissue := State.issue_frames (p := True) .write addr data.length data s
    dsimp only
    unfold State.onEvent
    split
    · refine ⟨_, hwf, ?_⟩
      have h := State.issue_frames (p := True) .write addr data.length data { s with mem := s.mem.writeBytes addr data }
      rw [State.issue_setMem] at h
      have hends := h.trans id (Frames.host _ none (s.issue .write addr data.length data).mp.hostData)
      rw [show s.mem = (s.issue .write addr data.length data).mem from hissue.mem.symm] at hends
      rw [show s.mem = (s.issue .write addr data.length data).mem from hissue.mem.symm]
      exact (hends.trans id (State.snoop_handed addr data _).frames).trans id (State.settle_frames _)
    · exact ⟨s.mem, id, hissue⟩
  · unfold State.onEvent
    split
    · refine ⟨_, hwf, ?_⟩
      exact (Frames.host { s with mem := s.mem.writeBytes addr data } none s.mp.hostData).trans id (State.settle_frames _)
    · exact ⟨s.mem, id, Frames.refl s⟩

/-! ## The resets (R13, R14, R39) -/

/-- With every block cleared the promises hold, whatever frame memory in canonical form holds. -/
theorem State.promises_of_cleared {t : State} (hmem : t.mem.wf = true) (hdir : t.dir = .reset) (htm : t.tm = .reset)
    (hclk : t.clk = .reset) (hcount : t.mp.grantCount = 0) (hsigns : ∀ i, t.sign i = .reset) :
    t.Sound ∧ t.RingWaitQuiet ∧ t.DropsDistinct := by
  refine ⟨⟨⟨hmem, by rw [hdir]; rfl⟩, ?_, ?_, ?_, ?_⟩, ?_, .of_cleared fun i => by rw [hsigns i]; rfl⟩
  · rw [hclk]
    unfold Clock.InRange
    decide
  · exact ⟨hcount ▸ Nat.zero_le _, fun _ => hcount⟩
  · intro i x hx
    rw [hsigns i] at hx
    cases hx
  · rw [htm]
    exact Nat.zero_le _
  · intro hring
    rw [hdir] at hring
    cases hring

theorem State.sign_of_replicate {t : State} {g : SignState} (h : t.signs = Vector.replicate 256 g) (i : SignNo) :
    t.sign i = g := by simp [State.sign, h]

theorem State.link_of_replicate {t : State} {k : LinkState} (h : t.links = Vector.replicate 4 k) (l : LinkNo) :
    t.link l = k := by simp [State.link, h]

theorem State.cutMemory_wf (ownSent hostSent : Nat) {s : State} (h : s.mem.wf = true) :
    (s.cutMemory ownSent hostSent).wf = true := by
  unfold State.cutMemory
  cases s.mp.running with
  | some x =>
    dsimp only
    split
    · exact Memory.wf_writeBytes _ _ _ h
    · exact h
  | none =>
    cases s.mp.host with
    | none => exact h
    | some c =>
      dsimp only
      split
      · exact Memory.wf_writeBytes _ _ _ h
      · exact h

/-- Blocks cleared, requests gone: nothing is asked of what stood before but memory's canonical form. -/
theorem State.cleared_keeps {p : Prop} {s t : State} (hpending : t.pending = s.pending)
    (hmem : s.mem.wf = true → t.mem.wf = true) (hdir : t.dir = .reset) (htm : t.tm = .reset) (hclk : t.clk = .reset)
    (hcount : t.mp.grantCount = 0) (hsigns : t.signs = Vector.replicate 256 .reset) (hwait : t.mp.waiting = [])
    (hrun : t.mp.running = none) : Keeps p s t := by
  have hall : ∀ m : Memory, m.wf = true → State.Sound { t with mem := m } ∧ t.RingWaitQuiet ∧ t.DropsDistinct :=
    fun m hm => State.promises_of_cleared (t := { t with mem := m }) hm hdir htm hclk hcount
      fun i => State.sign_of_replicate hsigns i
  have hload : ∀ r, t.mp.load r = 0 := fun r => by simp [MemPath.load, hwait, hrun]
  exact
    { pending := hpending
      sound := fun hs => (hall t.mem (hmem hs.stores.1)).1
      one := fun _ _ => ⟨fun r => (hload r).trans_le (Nat.zero_le _), (hall [] rfl).2.1⟩
      drops := fun _ => (hall [] rfl).2.2 }

theorem State.assertReset_keeps (ownSent hostSent : Nat) (s : State) : Keeps True s (s.assertReset ownSent hostSent) :=
  State.cleared_keeps rfl (State.cutMemory_wf ownSent hostSent) rfl rfl rfl rfl rfl rfl rfl

/-- From cleared blocks a held host command is granted, and the load places its first read. -/
theorem State.firstRead_frames {u : State} (hdir : u.dir = .reset) (hload : u.mp.load .directory = 0) :
    Frames True u (u.grantHost.place (headerRead u.grantHost.mp.windowBase)).settle := by
  have hgrant := State.grantHost_frames (p := True) u
  obtain ⟨h, g, he, -⟩ := State.grantHost_eq u
  have hdir' : u.grantHost.dir = .reset := by rw [he, hdir]
  have hload' : u.grantHost.mp.load .directory = 0 := by rw [he]; exact hload
  have hplace := State.place_frames (headerRead u.grantHost.mp.windowBase) u.grantHost fun _ => by rw [hdir']; rfl
  exact (hgrant.trans (fun _ => hload') hplace).trans (fun _ => trivial) (State.settle_frames _)

theorem State.releaseReset_keeps (straps : Fin 4) (s : State) :
    Keeps True s (s.releaseReset straps) ∧ (s.releaseReset straps).mem = s.mem := by
  have hclear : Keeps True s { s.cleared with resetHeld := false, mp.windowBase := Config.windowBase straps } :=
    State.cleared_keeps rfl (fun h => h) rfl rfl rfl rfl rfl rfl rfl
  have hread : Frames True { s.cleared with resetHeld := false, mp.windowBase := Config.windowBase straps }
      (s.releaseReset straps) := State.firstRead_frames rfl rfl
  exact
    ⟨{ pending := hread.pending.trans hclear.pending
       sound := hread.sound ∘ hclear.sound
       one := fun h => hread.one h ∘ hclear.one h
       drops := hread.drops ∘ hclear.drops }, hread.mem⟩

end Sys2Proof.Machine
end

section
/-! PROOFS. The walk over the command table, and the promises of the whole part. -/

namespace Sys2Proof.Machine

/-! ## Every command's change -/

/-- The commands by which frame memory may change. -/
def Instr.MayWrite (c : Instr) : Prop :=
  (∃ addr data, c ∈ writeRows addr data) ∨ c = .reportEntryWriteEnd ∨ c = .producerIndexWriteEnd ∨
    c = .statusWriteEnd ∨ ∃ n m, c = .resetAsserted n m

/-- What a command's change keeps, and the commands that alone may change frame memory, the window base and RESET_N. -/
structure Changes (c : Instr) (s t : State) : Prop extends Keeps True s t where
  mem : t.mem ≠ s.mem → Instr.MayWrite c
  windowBase : t.mp.windowBase ≠ s.mp.windowBase → ∃ straps, c = .resetReleased straps
  resetHeld : t.resetHeld ≠ s.resetHeld → (∃ straps, c = .resetReleased straps) ∨ ∃ n m, c = .resetAsserted n m

theorem Frames.changes {c : Instr} {s t : State} (h : Frames True s t) : Changes c s t :=
  { h.toKeeps with
    mem := fun hne => absurd h.mem hne
    windowBase := fun hne => absurd h.windowBase hne
    resetHeld := fun hne => absurd h.resetHeld hne }

/-- A write of frame memory, and a change that leaves it. -/
theorem Frames.changes_write {c : Instr} {s t : State} {m : Memory} (hc : Instr.MayWrite c)
    (hm : s.mem.wf = true → m.wf = true) (h : Frames True { s with mem := m } t) : Changes c s t where
  pending := h.pending
  sound hs := h.sound ⟨⟨hm hs.stores.1, hs.stores.2⟩, hs.clock, hs.count, hs.samples, hs.watch⟩
  one idle hs := h.one idle hs
  drops hs := h.drops hs
  mem _ := hc
  windowBase hne := absurd h.windowBase hne
  resetHeld hne := absurd h.resetHeld hne

theorem State.carryWrite_changes {c : Instr} {addr : Nat} {data : List Byte} (hc : c ∈ writeRows addr data)
    (s : State) : Changes c s (s.carryWrite addr data) := by
  obtain ⟨m, hm, h⟩ := State.carryWrite_frames addr data s
  exact h.changes_write (.inl ⟨addr, data, hc⟩) hm

theorem State.reportEnd_changes {c : Instr} (hc : Instr.MayWrite c) (s : State) {ofKind : OwnKind → Bool}
    {f : OwnReq → List Byte → State → State} (hf : ∀ q bytes u, Moved u (f q bytes u)) :
    Changes c s (s.onEvent (s.inProgress ofKind) (State.endOwn f)) := by
  rcases State.ownEnd_frames s (ofKind := ofKind) (f := f) (fun q bytes u _ => (hf q bytes u).frames) with h | h
  · rw [h]
    exact (Frames.refl s).changes
  · exact h.changes_write hc State.endedMem_wf

theorem State.assertReset_changes (ownSent hostSent : Nat) (s : State) :
    Changes (.resetAsserted ownSent hostSent) s (s.assertReset ownSent hostSent) :=
  { State.assertReset_keeps ownSent hostSent s with
    mem := fun _ => .inr (.inr (.inr (.inr ⟨_, _, rfl⟩)))
    windowBase := fun hne => absurd rfl hne
    resetHeld := fun _ => .inr ⟨_, _, rfl⟩ }

theorem State.releaseReset_changes (straps : Fin 4) (s : State) :
    Changes (.resetReleased straps) s (s.releaseReset straps) :=
  { (State.releaseReset_keeps straps s).1 with
    mem := fun hne => absurd (State.releaseReset_keeps straps s).2 hne
    windowBase := fun _ => ⟨_, rfl⟩
    resetHeld := fun _ => .inl ⟨_, rfl⟩ }

theorem State.tickCycle_frames (s : State) : Frames True s s.tickCycle := by
  unfold State.tickCycle
  split
  · exact Frames.refl s
  · split
    · rename_i h
      exact (Moved.clk { s.clk with prescaler := s.clk.prescaler + 1 } (fun hc => ⟨hc.1, hc.2.1, hc.2.2.1, h⟩)
        (Moved.refl s)).frames
    · exact s.onEvent_moved_frames (State.tickSecond_moved (Moved.refl s))

/-! ## Whose read ends -/

theorem OwnKind.signsStep_requester {k : OwnKind} (h : k.signsStep.isSome = true) : k.requester = .directory := by
  cases k with
  | dirSigns _ => rfl
  | _ => cases h

theorem OwnKind.mapOf_requester {k : OwnKind} (h : k.mapOf.isSome = true) : k.requester = .pageMap := by
  cases k with
  | mapRead _ _ => rfl
  | _ => cases h

theorem OwnKind.isResync_requester {k : OwnKind} (h : k.isResync = true) : k.requester = .schedule := by
  cases k with
  | schedResync _ => rfl
  | _ => cases h

theorem OwnKind.isAdvance_requester {k : OwnKind} (h : k.isAdvance = true) : k.requester = .schedule := by
  cases k with
  | schedAdvance _ => rfl
  | _ => cases h

theorem OwnKind.tileFor_requester {l : LinkNo} {k : OwnKind} (h : (k.tileFor l).isSome = true) :
    k.requester = .link l := by
  cases k with
  | tileRead m j =>
    simp only [OwnKind.tileFor, Option.isSome_ite] at h
    rw [OwnKind.requester, h]
  | _ => cases h

/-! ## The commands that place requests -/

theorem execOwnRequestGrant_frames (s : State) : ∃ t, execOwnRequestGrant s = .next t ∧ Frames True s t := by
  unfold execOwnRequestGrant
  split
  · exact ⟨s, rfl, Frames.refl s⟩
  · rename_i q hq
    refine ⟨_, rfl, ?_⟩
    split
    · rename_i hgo
      refine State.grantOwn_frames (chooseOwn_mem hq) ?_
      simp only [State.partMayGo, Bool.and_eq_true, Option.isNone_iff_eq_none] at hgo
      exact hgo.1.2
    · exact Frames.refl s

theorem execRingPlace_frames (s : State) : ∃ t, execRingPlace s = .next t ∧ Frames True s t := by
  unfold execRingPlace
  split
  · exact ⟨s, rfl, Frames.refl s⟩
  · rename_i v hv
    refine ⟨_, rfl, s.onEvent_frames fun _ => ?_⟩
    have h := State.takeRing_frames v s
    exact { h with one := fun _ hs => h.one (hs.2 (by rw [hv]; rfl)) hs }

theorem execDirectoryLoadStart_frames (s : State) : Frames True s (s.onEvent s.loadMayStart State.startLoad) :=
  s.onEvent_frames fun hstart => by
    have h := State.startLoad_frames s
    simp only [State.loadMayStart, Bool.and_eq_true, Bool.not_eq_true'] at hstart
    exact { h with one := fun _ hs => h.one ((State.busy_eq_false s _).mp hstart.2) hs }

/-- A directory read's bytes enter the image, and the load goes on from there. -/
theorem State.loadImage_then {f : State → State} (hf : ∀ u, Frames (u.mp.load .directory = 0) u (f u)) (off : Nat)
    (bytes : List Byte) (s : State) : Frames (s.mp.load .directory = 0) s (f (s.loadImage off bytes)) :=
  (s.loadImage_frames off bytes).trans (fun h => h) (hf (s.loadImage off bytes))

theorem execLoadHeaderReadEnd_frames (s : State) : ∃ t, execLoadHeaderReadEnd s = .next t ∧ Frames True s t :=
  ⟨_, rfl, s.readEnd_frames .directory nofun (fun k hk => by rw [eq_of_beq hk]; rfl) fun _ bytes u _ =>
    State.loadImage_then State.loadHeader_frames 0 bytes u⟩

theorem execLoadConsumerReadEnd_frames (s : State) : ∃ t, execLoadConsumerReadEnd s = .next t ∧ Frames True s t :=
  ⟨_, rfl, s.readEnd_frames .directory nofun (fun k hk => by rw [eq_of_beq hk]; rfl) fun _ bytes u _ =>
    State.loadImage_then State.loadConsumer_frames 0x220 bytes u⟩

theorem execLoadLineTableReadEnd_frames (s : State) : ∃ t, execLoadLineTableReadEnd s = .next t ∧ Frames True s t :=
  ⟨_, rfl, s.readEnd_frames .directory nofun (fun k hk => by rw [eq_of_beq hk]; rfl) fun _ bytes u _ =>
    State.loadImage_then State.loadLines_frames 0x100 bytes u⟩

theorem execLoadSignTableReadEnd_frames (s : State) : ∃ t, execLoadSignTableReadEnd s = .next t ∧ Frames True s t := by
  refine ⟨_, rfl, s.readEnd_frames .directory nofun (fun _ => OwnKind.signsStep_requester) fun q bytes u _ => ?_⟩
  split
  · rename_i k _
    exact State.loadImage_then (State.loadSigns_frames k) _ bytes u
  · exact Frames.refl u

theorem execMapReadEnd_frames (s : State) : ∃ t, execMapReadEnd s = .next t ∧ Frames True s t := by
  refine ⟨_, rfl, s.readEnd_frames .pageMap nofun (fun _ => OwnKind.mapOf_requester) fun q bytes u _ => ?_⟩
  split
  · exact u.mapReadEnds_frames _ _ bytes
  · exact Frames.refl u

theorem execScheduleResyncReadEnd_frames (s : State) :
    ∃ t, execScheduleResyncReadEnd s = .next t ∧ Frames True s t :=
  ⟨_, rfl, s.readEnd_frames .schedule nofun (fun _ => OwnKind.isResync_requester) fun _ bytes u _ =>
    u.resyncReadEnds_frames bytes⟩

theorem execScheduleAdvanceReadEnd_frames (s : State) :
    ∃ t, execScheduleAdvanceReadEnd s = .next t ∧ Frames True s t :=
  ⟨_, rfl, s.readEnd_frames .schedule nofun (fun _ => OwnKind.isAdvance_requester) fun _ bytes u _ =>
    (State.advanceReadEnds_moved bytes (Moved.refl u)).frames⟩

theorem execSignatureReadEnd_frames (s : State) : ∃ t, execSignatureReadEnd s = .next t ∧ Frames True s t :=
  ⟨_, rfl, s.readEnd_frames .signature nofun (fun k hk => by rw [eq_of_beq hk]; rfl) fun _ bytes u _ =>
    (u.startAccumulate_moved bytes).frames⟩

theorem execLinkTileReadEnd_frames (l : LinkNo) (s : State) :
    ∃ t, execLinkTileReadEnd l s = .next t ∧ Frames True s t := by
  refine ⟨_, rfl, s.readEnd_frames (.link l) nofun (fun _ => OwnKind.tileFor_requester) fun q bytes u _ => ?_⟩
  split
  · exact (State.fillBuffer_moved l _ bytes (Moved.refl u)).frames
  · exact Frames.refl u

/-! ## The command table -/

/-- The outcome is a next state to which command `c` may lead from `s`. -/
def Answers (c : Instr) (s : State) (o : Host.Outcome State Fault Refusal) : Prop := ∃ t, o = .next t ∧ Changes c s t

theorem Changes.answers {c : Instr} {s t : State} (h : Changes c s t) : Answers c s (.next t) := ⟨t, rfl, h⟩

theorem Frames.answers {c : Instr} {s t : State} (h : Frames True s t) : Answers c s (.next t) := h.changes.answers

theorem Answers.of_frames {c : Instr} {s : State} {o : Host.Outcome State Fault Refusal}
    (h : ∃ t, o = .next t ∧ Frames True s t) : Answers c s o := by
  obtain ⟨t, rfl, ht⟩ := h
  exact ht.answers

/-- An event whose own effect stays within the blocks. -/
theorem Moved.answers {c : Instr} {s : State} {ok : Bool} {f : State → State} (hf : Moved s (f s)) :
    Answers c s (.next (s.onEvent ok f)) := (s.onEvent_moved_frames hf).answers

/-- A row that is a host write. -/
theorem State.carryWrite_answers {c : Instr} {addr : Nat} {data : List Byte} (hc : c ∈ writeRows addr data)
    (s : State) : Answers c s (.next (s.carryWrite addr data)) := (s.carryWrite_changes hc).answers

/-- Every command answers a next state, and its change keeps what every step promises. -/
theorem exec_answers (c : Instr) (s : State) : Answers c s (exec c s) := by
  have hs := Moved.refl s
  cases c with
  | resetAsserted n m =>
    refine Changes.answers ?_
    split
    · exact (Frames.refl s).changes
    · exact s.assertReset_changes n m
  | resetReleased straps =>
    refine Changes.answers ?_
    split
    · exact s.releaseReset_changes straps
    · exact (Frames.refl s).changes
  | hostCommandIssue command addr len => exact (s.issueHost_frames _ _ _ _).answers
  | hostCommandWithdrawn => exact (Frames.host s _ s.mp.hostData).answers
  | hostRead fast addr len => exact (s.carryRead_frames _ _ _).answers
  | otherHostCommand => exact s.carryOther_frames.answers
  | hostWrite addr data => exact s.carryWrite_answers (by simp [writeRows])
  | headerCommit addr data => exact s.carryWrite_answers (by simp [writeRows])
  | headerRestart addr data => exact s.carryWrite_answers (by simp [writeRows])
  | lineEntryCommit addr data => exact s.carryWrite_answers (by simp [writeRows])
  | lineClear addr data => exact s.carryWrite_answers (by simp [writeRows])
  | signEntryCommit addr data => exact s.carryWrite_answers (by simp [writeRows])
  | clockSetCommit addr data => exact s.carryWrite_answers (by simp [writeRows])
  | heartbeatWord addr data => exact s.carryWrite_answers (by simp [writeRows])
  | consumerIndex addr data => exact s.carryWrite_answers (by simp [writeRows])
  | tileWrite addr data => exact s.carryWrite_answers (by simp [writeRows])
  | mapWrite addr data => exact s.carryWrite_answers (by simp [writeRows])
  | scheduleWrite addr data => exact s.carryWrite_answers (by simp [writeRows])
  | ownRequestGrant => exact .of_frames (execOwnRequestGrant_frames s)
  | loadHeaderReadEnd => exact .of_frames (execLoadHeaderReadEnd_frames s)
  | loadConsumerReadEnd => exact .of_frames (execLoadConsumerReadEnd_frames s)
  | loadLineTableReadEnd => exact .of_frames (execLoadLineTableReadEnd_frames s)
  | loadSignTableReadEnd => exact .of_frames (execLoadSignTableReadEnd_frames s)
  | directoryLoadStart => exact (execDirectoryLoadStart_frames s).answers
  | ringPlace => exact .of_frames (execRingPlace_frames s)
  | signatureReadEnd => exact .of_frames (execSignatureReadEnd_frames s)
  | signatureCompletion => exact (State.completeSignature_moved hs).answers
  | mapReadEnd => exact .of_frames (execMapReadEnd_frames s)
  | scheduleResyncReadEnd => exact .of_frames (execScheduleResyncReadEnd_frames s)
  | scheduleAdvanceReadEnd => exact .of_frames (execScheduleAdvanceReadEnd_frames s)
  | secondTick => exact (State.tickSecond_moved hs).answers
  | minuteTick => exact (State.tickSecond_moved hs).answers
  | pulseMissing => exact (State.tickSecond_moved hs).answers
  | rotationAdvance i => exact (State.rotate_moved i hs).answers
  | heartbeatLapse => exact (State.tickSecond_moved hs).answers
  | lineLevelChange n high =>
    refine Frames.answers ?_
    split
    · exact (Moved.line n _ hs).frames
    · exact s.onEvent_moved_frames (Moved.line n _ hs)
  | lineFilterExpiry n => exact (State.filterExpires_moved n hs).answers
  | linkIdle l t => exact Moved.answers (State.choose_moved l t (Moved.link l _ hs))
  | frameSent l => exact (Moved.link l _ hs).answers
  | answerWindowExpiry l t => exact (State.attemptEnds_moved l _ t hs).answers
  | stateAnswer l bytes t => exact (State.attemptEnds_moved l _ t hs).answers
  | backoffExpiry l retry => exact Moved.answers (Moved.link l _ hs)
  | pollDue i => exact (Moved.link _ _ hs).answers
  | loadBusyRepeatDue l => exact (Moved.link l _ hs).answers
  | linkTileReadEnd l => exact .of_frames (execLinkTileReadEnd_frames l s)
  | refreshLimitExpiry i => exact (State.refreshExpires_moved i hs).answers
  | surveyTimerExpiry l => exact (Moved.link l _ hs).answers
  | reportEntryWriteEnd =>
    exact (s.reportEnd_changes (.inr (.inl rfl)) fun _ _ u => Moved.rw _ (Moved.refl u)).answers
  | producerIndexWriteEnd =>
    refine (s.reportEnd_changes (.inr (.inr (.inl rfl))) fun q _ u => ?_).answers
    split
    · exact u.publish_moved _
    · exact Moved.refl u
  | statusWriteEnd => exact (s.reportEnd_changes (.inr (.inr (.inr (.inl rfl)))) fun _ _ u => Moved.refl u).answers
  | characterReceived l v => exact (Moved.link l _ hs).answers

/-- A step keeps what every command and every cycle of TBX keeps; the queue's front is gone. -/
theorem step_keeps {s t : State} (h : step s = .next t) :
    ∃ rest, Keeps True { s with pending := rest } t := by
  unfold step at h
  split at h
  · cases h
    exact ⟨s.pending, s.tickCycle_frames.toKeeps⟩
  · rename_i c rest _
    obtain ⟨u, he, hu⟩ := exec_answers c { s with pending := rest }
    rw [he] at h
    cases h
    exact ⟨rest, hu.toKeeps⟩

/-! ## The promises -/

/-- Settles O57: every command's change keeps the ranges, and the queue is under none. -/
theorem everyStepKeepsTheRanges : Obligations.EveryStepKeepsTheRanges := by
  intro s t hs hstep
  obtain ⟨rest, h⟩ := step_keeps hstep
  exact h.sound ⟨hs.stores, hs.clock, hs.count, hs.samples, hs.watch⟩

/-- Settles O58. -/
theorem everyStepKeepsTheUniquePlaces : Obligations.EveryStepKeepsTheUniquePlaces := by
  refine ⟨fun s t hone hring hstep => ?_, fun s t hdrops hstep => ?_⟩
  · obtain ⟨rest, h⟩ := step_keeps hstep
    exact h.one trivial ⟨hone, hring⟩
  · obtain ⟨rest, h⟩ := step_keeps hstep
    exact h.drops hdrops

/-- Settles O60: the walk over the command table, and what taking up work leaves. -/
theorem onlyWritesChangeMemory : Obligations.OnlyWritesChangeMemory := by
  refine ⟨fun c s => ?_, State.takeAll_taken⟩
  obtain ⟨t, he, h⟩ := exec_answers c s
  exact ⟨t, he, h.pending, h.mem, h.windowBase, h.resetHeld⟩

/-- Settles O59. -/
theorem resetKeepsThePromises : Obligations.ResetKeepsThePromises := by
  obtain ⟨hsound, hring, hdrops⟩ := State.promises_of_cleared (t := State.reset) rfl rfl rfl rfl rfl
    (State.sign_of_replicate rfl)
  refine ⟨hsound, fun r => ?_, hring, hdrops⟩
  cases r with
  | link l =>
    revert l
    decide
  | _ => decide

end Sys2Proof.Machine
end

section
/-! PROOFS. The memory path: device reset, the host port, the arbiter, and the ends of abandoned reads. -/

namespace Sys2Proof.Machine

/-! ## Device reset (R13, R14, R39) -/

/-- Settles O3. -/
theorem resetLeavesTheTables : Obligations.ResetLeavesTheTables := by
  refine ⟨rfl, rfl, rfl, rfl, rfl, rfl, rfl, rfl, rfl, rfl, rfl, fun n => ⟨true, ?_⟩, fun l => ?_, fun i => ?_⟩
  · simp [State.line, State.reset, LineState.reset, LineEntry.cleared]
  · exact State.link_of_replicate rfl l
  · exact State.sign_of_replicate rfl i

/-- A burst stores its bytes (R4). -/
theorem Memory.stored_writeBytes {m : Memory} (hm : m.wf = true) (addr : Nat) (bytes : List Byte) :
    m.Stored (m.writeBytes addr bytes) addr bytes :=
  ⟨Memory.read_writeBytes_outside addr bytes m hm, Memory.read_writeBytes_inside addr bytes m hm⟩

theorem OwnReq.isWrite_iff (q : OwnReq) : q.isWrite = true ↔ q.requester = .report := by
  simp [OwnReq.isWrite]

theorem State.line_cleared (s : State) (n : LineNo) : s.cleared.line n = .reset (s.line n).raw := by
  revert n
  simp only [Fin.forall_fin_succ]
  exact ⟨rfl, rfl, rfl, rfl, fun n => n.elim0⟩

/-- Settles O5: the blocks' values are those of `State.cleared`; memory is a case split over what was on the port. -/
theorem assertedResetClearsTheBlocks : Obligations.AssertedResetClearsTheBlocks := by
  intro s ownSent hostSent hr hwf
  refine ⟨s.assertReset ownSent hostSent, ?_, rfl, rfl, rfl, rfl, rfl, rfl, rfl, rfl, s.line_cleared,
    State.link_of_replicate rfl, State.sign_of_replicate rfl, rfl, ?_⟩
  · show Host.Outcome.next _ = _
    rw [hr]
    rfl
  · have hmem : (s.assertReset ownSent hostSent).mem = s.cutMemory ownSent hostSent := rfl
    rw [hmem]
    unfold State.cutMemory
    cases s.mp.running with
    | some x =>
      simp only [OwnReq.isWrite_iff]
      split
      · exact Memory.stored_writeBytes hwf _ _
      · rfl
    | none =>
      cases s.mp.host with
      | none => rfl
      | some c =>
        simp only [Bool.and_eq_true, beq_iff_eq]
        split
        · exact Memory.stored_writeBytes hwf _ _
        · rfl

/-! ### The release -/

/-- With every block cleared no block has work to take up. -/
theorem State.takeUp_cleared {s : State} (htm : s.tm = .reset) (hpl : s.pl = .reset) (hclk : s.clk = .reset) :
    s.takeUp = s := by
  have hwork : State.takeWork 256 s = s := by
    unfold State.takeWork
    rw [hclk]
    rfl
  have hstale : s.takeStale = s := by simp [State.takeStale, htm, TileMonitor.reset]
  have hsig : s.placeSignature = s := by simp [State.placeSignature, htm, TileMonitor.reset]
  unfold State.takeUp
  dsimp only
  rw [hwork, hpl]
  exact (congrArg State.placeSignature hstale).trans hsig

/-- The part right after a release: the values after device reset with what the release keeps, the host port `held`, and
the header read alone waiting. -/
def State.released (straps : Fin 4) (held : Option HostClaim) (s : State) : State :=
  { State.reset with
    pending := s.pending
    mem := s.mem
    mp := { MemPath.reset (Config.windowBase straps) with
      host := held, hostData := s.mp.hostData
      waiting := [headerRead (Config.windowBase straps)] }
    rw := .reset
    lines := #v[.reset (s.line 0).raw, .reset (s.line 1).raw, .reset (s.line 2).raw, .reset (s.line 3).raw] }

/-- A held host command is the first claimant at the release: nothing waits and nothing runs (R14). -/
theorem State.releaseReset_eq (straps : Fin 4) (s : State) :
    s.releaseReset straps =
      (s.released straps ((s.mp.host.filter (!·.granted)).map fun c => { c with granted := true })).settle := by
  unfold State.releaseReset State.grantHost State.cleared State.released
  dsimp only
  cases hh : s.mp.host.filter (!·.granted) with
  | none => rfl
  | some c =>
    have hc : c.granted = false := by simpa using (Option.filter_eq_some_iff.mp hh).2
    simp only [hc, State.hostMayGo]
    rfl

theorem State.released_grantHost (straps : Fin 4) {held : Option HostClaim} (s : State)
    (hg : ∀ c, held = some c → c.granted = true) : (s.released straps held).grantHost = s.released straps held := by
  cases held with
  | none => rfl
  | some c => simp [State.grantHost, State.released, hg c rfl]

theorem State.released_snoopDue (straps : Fin 4) {held : Option HostClaim} (s : State)
    (hno : ∀ c, held = some c → c.kind ≠ .write ∨ c.snooped = true) : (s.released straps held).snoopDue = false := by
  cases held with
  | none => rfl
  | some c => rcases hno c rfl with h | h <;> simp [State.snoopDue, State.released, HostClaim.unsnooped, h]

/-- Settles O4: the release is the end of an event from `State.released`, where no block has work. -/
theorem releaseGivesTheResetState : Obligations.ReleaseGivesTheResetState := by
  intro s straps hr base held u
  have hexec : exec (.resetReleased straps) s = .next u.settle := by
    refine Eq.trans (congrArg Host.Outcome.next (if_pos hr)) ?_
    rw [State.releaseReset_eq]
    rfl
  have hgranted : ∀ c, held = some c → c.granted = true := by
    intro c hc
    obtain ⟨d, -, rfl⟩ := Option.map_eq_some_iff.mp hc
    rfl
  have hgrant : u.grantHost = u := State.released_grantHost straps s hgranted
  refine ⟨hexec, fun hno => ?_, fun c hc hk hs => ?_⟩
  · have hdue : u.snoopDue = false := State.released_snoopDue straps s hno
    rw [hexec, State.settle_cleared u rfl rfl rfl rfl rfl rfl rfl rfl hgrant (State.snoopHost_of_not hdue) rfl]
    rfl
  · rw [hexec, State.settle, hgrant]
    have hu : u.mp.host = some c := hc
    have hsnoop : u.snoopHost =
        State.handRuns (cutRuns base none c.addr c.data) { u with mp.host := some { c with snooped := true } } := by
      unfold State.snoopHost
      rw [hu]
      dsimp only
      rw [if_pos (by simp [HostClaim.unsnooped, hgranted c hc, hk, hs]), State.takeUp_cleared rfl rfl rfl]
      rfl
    rw [hsnoop]

/-! ### While RESET_N is asserted -/

/-- What may change while RESET_N is asserted: the pins' levels, and a host command that is held or withdrawn. -/
def StaysReset (s t : State) : Prop :=
  t.resetHeld = true ∧ t.pending = s.pending ∧ t.mem = s.mem ∧ t.dir = s.dir ∧
    t.tm = s.tm ∧ t.pl = s.pl ∧ t.clk = s.clk ∧ t.pc = s.pc ∧ t.rw = s.rw ∧ t.links = s.links ∧ t.signs = s.signs ∧
    (∀ n, { t.line n with raw := (s.line n).raw } = s.line n) ∧
    { t.mp with host := s.mp.host } = s.mp ∧
    ∀ h, t.mp.host = some h → h.granted = true → s.mp.host = some h

theorem StaysReset.refl {s : State} (hr : s.resetHeld = true) : StaysReset s s :=
  ⟨hr, rfl, rfl, rfl, rfl, rfl, rfl, rfl, rfl, rfl, rfl, fun _ => rfl, rfl, fun _ h _ => h⟩

/-- A change of the host port alone that grants nothing. -/
theorem StaysReset.host {s : State} (hr : s.resetHeld = true) (h : Option HostClaim)
    (hh : ∀ c, h = some c → c.granted = true → s.mp.host = some c) : StaysReset s { s with mp.host := h } :=
  ⟨hr, rfl, rfl, rfl, rfl, rfl, rfl, rfl, rfl, rfl, rfl, fun _ => rfl, rfl, hh⟩

theorem StaysReset.pin {s : State} (hr : s.resetHeld = true) (n : LineNo) (high : Bool) :
    StaysReset s (s.modifyLine n fun x => { x with raw := high }) := by
  refine ⟨hr, rfl, rfl, rfl, rfl, rfl, rfl, rfl, rfl, rfl, rfl, fun m => ?_, rfl, fun _ h _ => h⟩
  rw [State.line_modifyLine]
  split
  · rename_i h
    rw [h]
  · rfl

/-- The claim of a host command in its command phase (R3). -/
def HostClaim.issued (kind : HostKind) (addr len : Nat) (data : List Byte) : HostClaim :=
  { kind := kind, addr := addr, len := len, data := data.take len, granted := false, snooped := false }

/-- A host command that the arbiter does not give the port is held (R3). -/
theorem State.issue_held {s : State} (hh : s.mp.host = none) (hgo : s.hostMayGo = false) (kind : HostKind)
    (addr len : Nat) (data : List Byte) :
    s.issue kind addr len data = { s with mp.host := some (.issued kind addr len data) } := by
  unfold State.hostMayGo at hgo
  simp [State.issue, HostClaim.issued, hh, State.grantHost, State.hostMayGo, hgo]

theorem State.issue_busy {s : State} {c : HostClaim} (hh : s.mp.host = some c) (kind : HostKind) (addr len : Nat)
    (data : List Byte) : s.issue kind addr len data = s := by simp [State.issue, hh]

theorem State.hostMayGo_of_reset {s : State} (hr : s.resetHeld = true) : s.hostMayGo = false := by
  simp [State.hostMayGo, hr]

theorem StaysReset.issue {s : State} (hr : s.resetHeld = true) (kind : HostKind) (addr len : Nat) (data : List Byte) :
    StaysReset s (s.issue kind addr len data) ∧ (s.issue kind addr len data).resetHeld = true := by
  cases hh : s.mp.host with
  | some c =>
    rw [State.issue_busy hh]
    exact ⟨.refl hr, hr⟩
  | none =>
    rw [State.issue_held hh (State.hostMayGo_of_reset hr)]
    refine ⟨.host hr _ fun c hc hg => ?_, hr⟩
    cases hc
    cases hg

end Sys2Proof.Machine
end

section
/-! PROOFS. The host port: what holds while RESET_N is asserted, grants and snoops, reads, writes and the regions. -/

namespace Sys2Proof.Machine

/-! ## While RESET_N is asserted (R13, R39) -/

theorem StaysReset.issueHost {s : State} (hr : s.resetHeld = true) (kind : HostKind) (addr len : Nat)
    (data : List Byte) : StaysReset s (s.issueHost kind addr len data) := by
  unfold State.issueHost
  cases hh : s.mp.host with
  | some c => exact .refl hr
  | none =>
    have hissue := State.issue_held hh (State.hostMayGo_of_reset hr) kind addr len data
    have hdue : (s.issue kind addr len data).snoopDue = false := by
      rw [hissue]
      rfl
    dsimp only
    rw [if_neg (by simp [hdue])]
    exact (StaysReset.issue hr kind addr len data).1

theorem StaysReset.carryRead {s : State} (hr : s.resetHeld = true) (kind : HostKind) (addr len : Nat) :
    StaysReset s (s.carryRead kind addr len) := by
  obtain ⟨hstays, hheld⟩ := StaysReset.issue hr kind addr len []
  unfold State.carryRead
  dsimp only
  rw [hheld]
  exact hstays

theorem StaysReset.carryOther {s : State} (hr : s.resetHeld = true) : StaysReset s s.carryOther := by
  obtain ⟨hstays, hheld⟩ := StaysReset.issue hr .other 0 0 []
  unfold State.carryOther
  dsimp only
  rw [hheld]
  exact hstays

theorem StaysReset.carryWrite {s : State} (hr : s.resetHeld = true) (addr : Nat) (data : List Byte) :
    StaysReset s (s.carryWrite addr data) := by
  obtain ⟨hstays, hheld⟩ := StaysReset.issue hr .write addr data.length data
  unfold State.carryWrite
  split
  · rw [State.onEvent_not _ (.inl hheld)]
    exact hstays
  · rw [State.onEvent_not _ (.inl hr)]
    exact .refl hr

/-- Settles O6: an event of a block has RESET_N released in its guard; the rest is the host port and the pins. -/
theorem nothingRunsWhileReset : Obligations.NothingRunsWhileReset := by
  intro c s hr hc
  suffices h : ∃ t, exec c s = .next t ∧ StaysReset s t from h
  have stays : StaysReset s s := .refl hr
  have event (ok : Bool) (f : State → State) : StaysReset s (s.onEvent ok f) := by
    rw [State.onEvent_not _ (.inl hr)]
    exact stays
  cases c
  case resetReleased straps => exact absurd rfl (hc straps)
  case resetAsserted n m =>
    refine ⟨_, rfl, ?_⟩
    rw [hr]
    exact stays
  case hostCommandIssue command addr len => exact ⟨_, rfl, .issueHost hr _ addr len _⟩
  case hostCommandWithdrawn =>
    exact ⟨_, rfl, .host hr _ fun c hc _ => (Option.filter_eq_some_iff.mp hc).1⟩
  case hostRead fast addr len => exact ⟨_, rfl, .carryRead hr _ addr len⟩
  case otherHostCommand => exact ⟨_, rfl, .carryOther hr⟩
  case ownRequestGrant =>
    show ∃ t, execOwnRequestGrant s = .next t ∧ _
    unfold execOwnRequestGrant
    split
    · exact ⟨s, rfl, stays⟩
    · refine ⟨_, rfl, ?_⟩
      rw [if_neg (by simp [State.partMayGo, hr])]
      exact stays
  case ringPlace =>
    show ∃ t, execRingPlace s = .next t ∧ _
    unfold execRingPlace
    split
    · exact ⟨s, rfl, stays⟩
    · exact ⟨_, rfl, event _ _⟩
  case lineLevelChange n high =>
    refine ⟨_, rfl, ?_⟩
    rw [hr]
    exact .pin hr n high
  case hostWrite addr data | headerCommit addr data | headerRestart addr data | lineEntryCommit addr data |
      lineClear addr data | signEntryCommit addr data | clockSetCommit addr data | heartbeatWord addr data |
      consumerIndex addr data | tileWrite addr data | mapWrite addr data | scheduleWrite addr data =>
    exact ⟨_, rfl, .carryWrite hr addr data⟩
  all_goals exact ⟨_, rfl, event _ _⟩

/-! ## Grants and snoops (R3, R5, R11) -/

theorem State.hostMayGo_iff (s : State) :
    s.hostMayGo = true ↔ s.resetHeld = false ∧ s.mp.running = none ∧ (s.mp.waiting = [] ∨ s.mp.grantCount < 4) := by
  simp [State.hostMayGo, and_assoc]

/-- The state once the host transaction `c` is granted: an own request that waits has the grant counted (R11). -/
def State.hostGranted (c : HostClaim) (s : State) : State :=
  { s with
    mp.host := some { c with granted := true }
    mp.grantCount := if s.mp.waiting = [] then s.mp.grantCount else s.mp.grantCount + 1 }

/-- The state once the granted write `c` has been snooped, the work that the event brought taken up before (R5). -/
def State.hostSnooped (c : HostClaim) (s : State) : State :=
  State.handRuns (cutRuns s.mp.windowBase s.dir.header c.addr c.data)
    (State.takeUp { s with mp.host := some { c with granted := true, snooped := true } })

theorem State.grantHost_of_may {s : State} {c : HostClaim} (hh : s.mp.host = some c) (hc : c.granted = false)
    (hgo : s.hostMayGo = true) : s.grantHost = s.hostGranted c := by
  unfold State.grantHost
  rw [hh]
  dsimp only
  rw [if_pos (by simp [hc, hgo])]
  simp [State.hostGranted]

theorem State.grantHost_of_not {s : State} (h : ∀ c, s.mp.host = some c → c.granted = false → s.hostMayGo = false) :
    s.grantHost = s := by
  unfold State.grantHost
  split
  · rfl
  · rename_i c hh
    exact if_neg fun hgo => by
      rw [Bool.and_eq_true, Bool.not_eq_true'] at hgo
      rw [h c hh hgo.1] at hgo
      cases hgo.2

/-- A granted write's snoop: taking up work moves neither the window nor the applied regions. -/
theorem State.snoopHost_of_due {s : State} {c : HostClaim} (hh : s.mp.host = some c) (hg : c.granted = true)
    (hk : c.kind = .write) (hs : c.snooped = false) : s.snoopHost = s.hostSnooped c := by
  have hup := State.takeUp_moved (Moved.refl { s with mp.host := some { c with snooped := true } })
  have hc : ({ c with granted := true, snooped := true } : HostClaim) = { c with snooped := true } := by rw [← hg]
  unfold State.snoopHost State.hostSnooped
  rw [hh, hc]
  dsimp only
  rw [if_pos (by simp [HostClaim.unsnooped, hg, hk, hs]), State.snoop, hup.windowBase, hup.dir]

theorem State.snoopDue_eq {s : State} {c : HostClaim} (hh : s.mp.host = some c) : s.snoopDue = c.unsnooped := by
  simp [State.snoopDue, hh]

/-- The end of an event with a granted host transaction on the port. -/
theorem State.settle_granted {s : State} {c : HostClaim} (hh : s.mp.host = some c) (hg : c.granted = true) :
    (c.kind = .write ∧ c.snooped = false → s.settle = (s.hostSnooped c).takeAll) ∧
      (¬(c.kind = .write ∧ c.snooped = false) → s.settle = s.takeAll) := by
  have hgrant : s.grantHost = s := State.grantHost_of_not fun d hd hf => by
    rw [hh] at hd
    cases hd
    rw [hg] at hf
    cases hf
  refine ⟨fun ⟨hk, hs⟩ => ?_, fun hno => ?_⟩
  · rw [State.settle, hgrant, State.snoopHost_of_due hh hg hk hs]
  · rw [State.settle, hgrant, State.snoopHost_of_not]
    rw [State.snoopDue_eq hh]
    simpa [HostClaim.unsnooped, hg] using hno

/-- The end of an event with a held host transaction that may go: the port's grant comes first. -/
theorem State.settle_grants {s : State} {c : HostClaim} (hh : s.mp.host = some c) (hc : c.granted = false)
    (hgo : s.hostMayGo = true) : s.settle = (s.hostGranted c).settle := by
  have hgrant : (s.hostGranted c).grantHost = s.hostGranted c := State.grantHost_of_not fun d hd hf => by
    cases hd
    cases hf
  rw [State.settle, State.grantHost_of_may hh hc hgo]
  rw [State.settle, hgrant]

/-- The end of an event with nothing on the host port to grant or snoop. -/
theorem State.settle_quiet {s : State} (hgrant : s.grantHost = s) (hdue : s.snoopDue = false) : s.settle = s.takeAll := by
  rw [State.settle, hgrant, State.snoopHost_of_not hdue]

/-- A host command issued at a free port (R3, R5). -/
theorem State.issueHost_free {s : State} (hh : s.mp.host = none) (kind : HostKind) (addr len : Nat)
    (data : List Byte) :
    (s.hostMayGo = true → kind = .write → s.issueHost kind addr len data =
      ((s.hostGranted (.issued kind addr len data)).hostSnooped (.issued kind addr len data)).takeAll) ∧
    (s.hostMayGo = true → kind ≠ .write → s.issueHost kind addr len data = s.hostGranted (.issued kind addr len data)) ∧
    (s.hostMayGo = false → s.issueHost kind addr len data =
      { s with mp.host := some (.issued kind addr len data) }) := by
  have hissue : s.hostMayGo = true → s.issue kind addr len data = s.hostGranted (.issued kind addr len data) := by
    intro hgo
    unfold State.issue
    rw [hh]
    exact State.grantHost_of_may (s := { s with mp.host := some (.issued kind addr len data) }) rfl rfl hgo
  have heq : s.issueHost kind addr len data =
      if (s.issue kind addr len data).snoopDue then (s.issue kind addr len data).settle
      else s.issue kind addr len data := by
    unfold State.issueHost
    rw [hh]
  rw [heq]
  refine ⟨fun hgo hk => ?_, fun hgo hk => ?_, fun hgo => ?_⟩
  · rw [hissue hgo, if_pos (by simp [State.snoopDue, State.hostGranted, HostClaim.unsnooped, HostClaim.issued, hk])]
    exact (State.settle_granted (c := { HostClaim.issued kind addr len data with granted := true }) rfl rfl).1 ⟨hk, rfl⟩
  · rw [hissue hgo, if_neg (by simp [State.snoopDue, State.hostGranted, HostClaim.unsnooped, HostClaim.issued, hk])]
  · rw [State.issue_held hh hgo, if_neg (by simp [State.snoopDue, HostClaim.unsnooped, HostClaim.issued])]

/-- Settles O7. -/
theorem hostCommandIsGrantedOrHeld : Obligations.HostCommandIsGrantedOrHeld := by
  refine ⟨fun command addr len s => ⟨fun hh => ?_, fun c hh => ?_, fun c hh hc => ?_, fun hh => ?_⟩,
    fun s => ⟨fun hh => ?_, fun c hh => ?_⟩⟩
  · obtain ⟨hwrite, hother, hheld⟩ := State.issueHost_free hh command.kind addr len command.data
    refine ⟨fun hmay hk => congrArg Host.Outcome.next (hwrite ((State.hostMayGo_iff s).mpr hmay) hk),
      fun hmay hk => congrArg Host.Outcome.next (hother ((State.hostMayGo_iff s).mpr hmay) hk),
      fun hno => congrArg Host.Outcome.next (hheld ?_)⟩
    exact Bool.eq_false_iff.mpr fun hgo => hno ((State.hostMayGo_iff s).mp hgo)
  · show Host.Outcome.next (s.issueHost _ _ _ _) = _
    unfold State.issueHost
    rw [hh]
  · show Host.Outcome.next _ = _
    rw [hh, Option.filter_some, hc]
    rfl
  · show Host.Outcome.next { s with mp.host := s.mp.host.filter (·.granted) } = _
    have hkeep : s.mp.host.filter (·.granted) = s.mp.host := by
      rcases hh with hh | ⟨c, hh, hc⟩
      · rw [hh]
        rfl
      · rw [hh, Option.filter_some, hc]
        rfl
    rw [hkeep]
  · exact State.settle_quiet (State.grantHost_of_not fun c hc => by rw [hh] at hc; cases hc)
      (by simp [State.snoopDue, hh])
  · refine ⟨fun hc hno => ?_, fun hc hmay hfresh => ?_, fun hc hmay hold => ?_, fun hg hfresh => ?_, fun hg hold => ?_⟩
    · refine State.settle_quiet (State.grantHost_of_not fun _ _ _ => ?_) ?_
      · exact Bool.eq_false_iff.mpr fun hgo => hno ((State.hostMayGo_iff s).mp hgo)
      · rw [State.snoopDue_eq hh, HostClaim.unsnooped, hc]
        rfl
    · rw [State.settle_grants hh hc ((State.hostMayGo_iff s).mpr hmay)]
      exact (State.settle_granted (c := { c with granted := true }) rfl rfl).1 hfresh
    · rw [State.settle_grants hh hc ((State.hostMayGo_iff s).mpr hmay)]
      exact (State.settle_granted (c := { c with granted := true }) rfl rfl).2 hold
    · exact (State.settle_granted hh hg).1 hfresh
    · exact (State.settle_granted hh hg).2 hold

end Sys2Proof.Machine
end

section
/-! PROOFS. What a host's reads and writes leave, whose bytes an address is, and the arbiter's choice. -/

namespace Sys2Proof.Machine

/-! ## Host reads (R1, R2) -/

/-- A read that goes: what it was granted with is the whole change, but for the bytes carried back. -/
theorem State.carryRead_of_goes {s : State} {kind : HostKind} {addr len : Nat} (h : s.HostGoes kind addr len) :
    s.carryRead kind addr len = { s with
      mp.host := none, mp.hostData := s.mem.readBytes addr len, mp.grantCount := s.countAfter } := by
  obtain ⟨c, he, -⟩ := State.issue_of_goes [] h
  have hc := State.carries_of_goes [] h
  unfold State.carryRead
  dsimp only
  rw [hc, he, h.1]
  rfl

theorem State.carryOther_of_goes {s : State} (h : s.HostGoes .other 0 0) :
    s.carryOther = { s with mp.host := none, mp.grantCount := s.countAfter } := by
  obtain ⟨c, he, -⟩ := State.issue_of_goes [] h
  have hc := State.carries_of_goes [] h
  unfold State.carryOther
  dsimp only
  rw [hc, he, h.1]
  rfl

/-- Settles O8. -/
theorem hostReadsLeaveThePart : Obligations.HostReadsLeaveThePart :=
  ⟨fun _ _ _ _ h => congrArg Host.Outcome.next (State.carryRead_of_goes h),
    fun _ h => congrArg Host.Outcome.next (State.carryOther_of_goes h)⟩

/-! ## Host writes (R1, R3, R4, R5) -/

/-- Every row that is a host write has the one meaning (log 5). -/
theorem exec_writeRow {c : Instr} {addr : Nat} {data : List Byte} (hc : c ∈ writeRows addr data) (s : State) :
    exec c s = .next (s.carryWrite addr data) := by
  simp only [writeRows, List.mem_cons, List.not_mem_nil, or_false] at hc
  rcases hc with h | h | h | h | h | h | h | h | h | h | h | h
  all_goals
    subst h
    rfl

/-- With no transaction on the host port the end of an event leaves the port free. -/
theorem State.settle_calm {s : State} (hh : s.mp.host = none) : Calm s s.settle := by
  rw [State.settle_quiet (State.grantHost_of_not fun c hc => by rw [hh] at hc; cases hc) (by simp [State.snoopDue, hh])]
  exact (State.takeAll_moved (Moved.refl s)).toCalm

/-- A write granted with its command: after it the host port is free, and of memory its own bytes alone have changed. -/
theorem State.carryWrite_calm {s : State} {addr : Nat} {data : List Byte} (h : s.HostGoes .write addr data.length) :
    Calm (s.wrote addr data) (s.carryWrite addr data) := by
  have hruns := (State.handRuns_handed (cutRuns s.mp.windowBase s.dir.header addr data) (s.wrote addr data)).toCalm
  rw [State.carryWrite_of_goes h]
  exact hruns.trans (State.settle_calm hruns.host)

/-- A host write that the arbiter does not give the port is held (R3). -/
theorem State.carryWrite_held {s : State} (hh : s.mp.host = none) (hgo : s.hostMayGo = false) (addr : Nat)
    (data : List Byte) :
    s.carryWrite addr data = { s with mp.host := some (.issued .write addr data.length data) } := by
  unfold State.carryWrite
  rw [hh]
  dsimp only
  rw [State.issue_held hh hgo]
  exact State.onEvent_not _ (.inr rfl)

/-- At a port that carries a transaction the row ends the data phase of that very write, or does nothing. -/
theorem State.carryWrite_busy {s : State} {c : HostClaim} (hh : s.mp.host = some c) (addr : Nat) (data : List Byte) :
    s.carryWrite addr data = s.onEvent (c.isWrite addr data) (State.writeEnds addr data) := by
  unfold State.carryWrite
  rw [hh]

theorem HostClaim.isWrite_iff (c : HostClaim) (addr : Nat) (data : List Byte) :
    c.isWrite addr data = true ↔ c.granted = true ∧ c.kind = .write ∧ c.addr = addr ∧ c.data = data := by
  simp [HostClaim.isWrite, and_assoc]

/-- Settles O9. -/
theorem hostWritesReachMemory : Obligations.HostWritesReachMemory := by
  intro s addr data c hc
  rw [exec_writeRow hc]
  refine ⟨fun hwf hgoes => ?_, fun hh hno => ?_, fun h hh => ⟨fun hmatch => ?_, fun hno => ?_⟩⟩
  · have hcalm := State.carryWrite_calm hgoes
    refine ⟨_, rfl, ?_, hcalm.host, hcalm.windowBase, hcalm.linkPointer, hcalm.hostData, hcalm.pending⟩
    rw [hcalm.mem]
    exact Memory.stored_writeBytes hwf addr data
  · have hgo : s.hostMayGo = false := by
      refine Bool.eq_false_iff.mpr fun hgo => ?_
      obtain ⟨hr, hrun, hwait⟩ := (State.hostMayGo_iff s).mp hgo
      rcases hno with h | h | ⟨h, h4⟩
      · rw [hr] at h
        cases h
      · exact h hrun
      · exact hwait.elim h (by omega)
    rw [State.carryWrite_held hh hgo]
    simp [HostClaim.issued]
  · obtain ⟨hr, hg, hk, ha, hd⟩ := hmatch
    refine ⟨s.mem.writeBytes addr data, ?_, fun hwf => Memory.stored_writeBytes hwf addr data⟩
    rw [State.carryWrite_busy hh, State.onEvent_of _ hr ((HostClaim.isWrite_iff h addr data).mpr ⟨hg, hk, ha, hd⟩)]
    rfl
  · rw [State.carryWrite_busy hh, State.onEvent_not]
    by_cases hr : s.resetHeld = true
    · exact .inl hr
    · exact .inr (Bool.eq_false_iff.mpr fun hw =>
        hno ⟨by simpa using hr, (HostClaim.isWrite_iff h addr data).mp hw⟩)

/-! ## Regions (R6, R7, R8) -/

/-- An address is in at most one of two extents that do not overlap. -/
theorem offset_outside {a b : Nat × Nat} {x : Nat} (hx : x < Config.memorySize) (ha : a.1 < Config.memorySize)
    (hb : b.1 < Config.memorySize) (hno : extentsOverlap a b = false) (h : offsetFrom b.1 x < b.2) :
    ¬offsetFrom a.1 x < a.2 := fun h' => by
  rw [extentsOverlap_of_both hx ha hb h' h] at hno
  cases hno

/-- Settles O10: disjoint extents leave the one test of `classify` that an address passes; a burst that meets no owner is
dropped. -/
theorem regionsOwnTheirBytes : Obligations.RegionsOwnTheirBytes := by
  refine ⟨fun base h a ha hbase htile hmap hsched hring hno => ?_, fun s addr data hgoes hout => ?_⟩
  · simp only [Header.extents, anyOverlap, List.any_cons, List.any_nil, Bool.or_false, Bool.or_eq_false_iff] at hno
    obtain ⟨⟨hwt, hwm, hws, hwr⟩, ⟨htm, hts, htr⟩, ⟨hms, hmr⟩, hsr⟩ := hno
    refine ⟨fun hw => ?_, fun ht => ?_, fun hm => ?_, fun hs => ?_, fun hr => ?_, fun hw ht hm hs hr => ?_, rfl⟩
    · exact if_pos hw
    · have nw := offset_outside ha hbase htile hwt ht
      simp only [classify, nw, ht, if_true, if_false]
    · have nw := offset_outside ha hbase hmap hwm hm
      have nt := offset_outside ha htile hmap htm hm
      simp only [classify, nw, nt, hm, if_true, if_false]
    · have nw := offset_outside ha hbase hsched hws hs
      have nt := offset_outside ha htile hsched hts hs
      have nm := offset_outside ha hmap hsched hms hs
      simp only [classify, nw, nt, nm, hs, if_true, if_false]
    · have nw := offset_outside ha hbase hring hwr hr
      have nt := offset_outside ha htile hring htr hr
      have nm := offset_outside ha hmap hring hmr hr
      have ns := offset_outside ha hsched hring hsr hr
      simp only [classify, nw, nt, nm, ns, hr, if_true, if_false]
    · simp only [classify, Nat.not_lt.mpr hw, Nat.not_lt.mpr ht, Nat.not_lt.mpr hm, Nat.not_lt.mpr hs,
        Nat.not_lt.mpr hr, if_false]
  · show Host.Outcome.next (s.carryWrite addr data) = _
    rw [State.carryWrite_of_goes hgoes, handRuns_dropped _ _ _ _ _ hout]

/-! ## The arbiter (R12) -/

/-- The classes' order is the order of turns. -/
theorem requesterOrder_pairwise (pointer : LinkNo) :
    (requesterOrder pointer).Pairwise fun a b => a.turn pointer ≤ b.turn pointer := by
  revert pointer
  decide

theorem mem_requesterOrder (pointer : LinkNo) (r : Requester) : r ∈ requesterOrder pointer := by
  cases r with
  | link l =>
    revert pointer l
    decide
  | _ => simp [requesterOrder]

/-- Where a request waits, one is chosen whose requester's turn is first. -/
theorem chooseOwn_first (pointer : LinkNo) {waiting : List OwnReq} (hne : waiting ≠ []) :
    ∃ q, chooseOwn pointer waiting = some q ∧
      ∀ r ∈ waiting, q.requester.turn pointer ≤ r.requester.turn pointer := by
  have hfound : ∀ r ∈ waiting, waiting.find? (·.requester == r.requester) ≠ none := fun r hr hnone => by
    simpa using List.find?_eq_none.mp hnone r hr
  cases hq : chooseOwn pointer waiting with
  | none =>
    obtain ⟨r, hr⟩ := List.exists_mem_of_ne_nil _ hne
    exact absurd (List.findSome?_eq_none_iff.mp hq _ (mem_requesterOrder pointer r.requester)) (hfound r hr)
  | some q =>
    refine ⟨q, rfl, fun r hr => ?_⟩
    obtain ⟨before, r', after, hsplit, hfind, hnone⟩ := List.findSome?_eq_some_iff.mp hq
    have hreq : q.requester = r' := by simpa using List.find?_some hfind
    have hpair := requesterOrder_pairwise pointer
    have hmem := mem_requesterOrder pointer r.requester
    rw [hsplit] at hpair hmem
    rw [hreq]
    rcases List.mem_append.mp hmem with h | h
    · exact absurd (hnone _ h) (hfound r hr)
    · rcases List.mem_cons.mp h with h | h
      · rw [h]
      · exact (List.pairwise_cons.mp (List.pairwise_append.mp hpair).2.1).1 _ h

/-- Settles O11. -/
theorem arbiterChoosesByClass : Obligations.ArbiterChoosesByClass := by
  intro s hr hrun hne hhost
  obtain ⟨q, hq, hfirst⟩ := chooseOwn_first s.mp.linkPointer hne
  have hgo : s.partMayGo = true := by
    rcases hhost with hh | ⟨c, hh, hg, h4⟩
    · simp [State.partMayGo, hr, hrun, hh]
    · simpa [State.partMayGo, hr, hrun, hh, hg] using h4
  refine ⟨q, chooseOwn_mem hq, hfirst, ?_⟩
  show execOwnRequestGrant s = _
  unfold execOwnRequestGrant
  rw [hq]
  have hbytes : (if q.isWrite = true then [] else s.mem.readBytes q.addr q.len) =
      if q.requester = .report then [] else s.mem.readBytes q.addr q.len := if_congr (OwnReq.isWrite_iff q) rfl rfl
  refine (congrArg Host.Outcome.next (if_pos hgo)).trans (congrArg (fun bytes : List Byte => Host.Outcome.next
    { s.grantOwn q with mp := { (s.grantOwn q).mp with running := some { req := q, bytes := bytes, discard := false } } })
    hbytes)

/-! ## Abandoned reads (R16) -/

/-- An event of the end of an own transaction that was abandoned. -/
theorem State.abandonedEnd {s : State} {x : Running} (hr : s.resetHeld = false) (hx : s.mp.running = some x)
    (hd : x.discard = true) {ofKind : OwnKind → Bool} (hk : ofKind x.req.kind = true)
    (f : OwnReq → List Byte → State → State) :
    Host.Outcome.next (s.onEvent (s.inProgress ofKind) (State.endOwn f)) =
      (.next s.portFreed.settle : Host.Outcome State Fault Refusal) := by
  rw [State.onEvent_of _ hr (by rwa [State.inProgress, hx]), State.endOwn_discards f hx hd]

/-- Settles O12: the row that ends a read of a kind has that kind in its guard. -/
theorem abandonedReadsAreDiscarded : Obligations.AbandonedReadsAreDiscarded := by
  intro c s x hr hx hd _ hends
  unfold endsRead at hends
  split at hends
  iterate 8
    next hk => exact State.abandonedEnd hr hx hd (by rw [hk]; rfl) _
  next hk =>
    exact State.abandonedEnd hr hx hd (by rw [hk, OwnKind.tileFor, if_pos (eq_of_beq hends).symm]; rfl) _
  next => cases hends

end Sys2Proof.Machine
end

section
/-! PROOFS. The directory: header commits by part state, and the load's header read. -/

namespace Sys2Proof.Machine

/-! ## Header commits (R23, R34, R35, R37, R40) -/

/-- A host write that ends at the header's commit byte: the image takes the bytes, then the header is committed (R20). -/
theorem exec_headerRecord {s : State} {addr off : Nat} {data : List Byte} {c : Instr}
    (hgoes : s.HostGoes .write addr data.length) (hne : data ≠ []) (hoff : off + data.length = 0x100)
    (hwin : s.InWindow addr off data) (hc : c = .headerCommit addr data ∨ c = .headerRestart addr data) :
    exec c s = .next ((s.wrote addr data).imaged off data).commitHeader.settle := by
  have hrow : c ∈ writeRows addr data := by
    rcases hc with rfl | rfl
    · simp [writeRows]
    · simp [writeRows]
  rw [exec_writeRow hrow, State.carryWrite_record hgoes hne hoff hwin (fun o _ ho => .inl ho) rfl]
  rfl

theorem State.reportRefused_eq (c : Nat) (s : State) :
    s.reportRefused c = s.reportIf (s.dir.header ≠ none)
      { kind := .directoryRefused, sign := none, page := none, detail := c } := by
  unfold State.reportRefused State.reportIf
  cases s.dir.header with
  | none => rfl
  | some h => rfl

/-- A header refused: DIRECTORY_REFUSED if a header was applied, then the part emptied into WAITING (R35). -/
theorem State.refuseHeader_eq (c : Nat) (s : State) :
    s.refuseHeader c =
      (s.reportIf (s.dir.header ≠ none)
        { kind := .directoryRefused, sign := none, page := none, detail := c }).emptiedTo
        { s.dir with header := none, part := .waiting, load := .idle } := by
  have hdir : (s.reportRefused c).dir = s.dir := (State.reportRefused_moved c (Moved.refl s)).dir
  have h := State.emptyWorking_eq (s.reportRefused c) .waiting .idle
  rw [hdir, State.reportRefused_eq] at h
  unfold State.refuseHeader
  rw [State.reportRefused_eq]
  exact h

theorem State.restart_eq (s : State) :
    s.restart = s.emptiedTo { s.dir with header := none, part := .loading, load := .awaitLinks } :=
  State.emptyWorking_eq s .loading .awaitLinks

theorem State.loadAgain_eq (s : State) :
    s.loadAgain =
      { s.emptiedTo { s.dir with header := none, load := .awaitLinks } with rw.blockDue := s.rw.blockDue } := by
  rw [← State.emptyWorking_eq s s.dir.part .awaitLinks]
  rfl

/-- A header refused for a cause, once the part has a header to refuse it against. -/
theorem State.commitHeader_refused {s : State} {c : Nat} (hcause : headerCause s.mp.windowBase s.dir.image = some c)
    (htaken : s.headerTaken) : s.commitHeader = s.refuseHeader c := by
  unfold State.commitHeader
  rcases htaken with hp | ⟨hp, hreached⟩
  · rw [hp, hcause]
  · rw [hp, hcause]
    exact if_pos hreached

theorem State.commitHeader_waiting {s : State} {c : Nat} (hcause : headerCause s.mp.windowBase s.dir.image = some c)
    (hp : s.dir.part = .waiting) : s.commitHeader = s := by
  unfold State.commitHeader
  rw [hp, hcause]

theorem State.commitHeader_restart {s : State} (hcause : headerCause s.mp.windowBase s.dir.image = none)
    (hp : s.dir.part = .running)
    (h : restartFlag s.dir.image = true ∨ s.settings.sameRegions (parseHeader s.dir.image) = false) :
    s.commitHeader = s.restart := by
  unfold State.commitHeader
  rw [hp, hcause]
  exact if_pos (by rcases h with h | h <;> simp [h])

theorem State.commitHeader_loadAgain {s : State} (hcause : headerCause s.mp.windowBase s.dir.image = none)
    (hp : s.dir.part = .loading) (hreached : s.headerReached = true)
    (h : s.settings.sameRegions (parseHeader s.dir.image) = false) : s.commitHeader = s.loadAgain := by
  unfold State.commitHeader
  rw [hp, hcause]
  simp [hreached, h]

theorem State.commitHeader_early {s : State} (hp : s.dir.part = .loading) (hreached : s.headerReached = false) :
    s.commitHeader = s := by
  unfold State.commitHeader
  rw [hp]
  cases headerCause s.mp.windowBase s.dir.image with
  | none => simp [hreached]
  | some c => simp [hreached]

/-- Settles O13: one equation of `State.commitHeader` per clause. -/
theorem headerCommitsByPartState : Obligations.HeaderCommitsByPartState := by
  intro s addr off data c hgoes hne hoff hwin hc v
  have hexec : exec c s = .next v.commitHeader.settle := exec_headerRecord hgoes hne hoff hwin hc
  rw [hexec]
  refine ⟨fun cause hcause => ⟨fun htaken => ?_, fun hp => ?_⟩,
    fun hcause => ⟨fun hp hflag => ?_, fun hp hr hreg => ?_⟩, fun hp hr => ?_⟩
  · rw [State.commitHeader_refused (s := v) hcause htaken, State.refuseHeader_eq]
  · rw [State.commitHeader_waiting (s := v) hcause hp]
  · rw [State.commitHeader_restart (s := v) hcause hp hflag, State.restart_eq]
  · rw [State.commitHeader_loadAgain (s := v) hcause hp hr hreg, State.loadAgain_eq]
  · rw [State.commitHeader_early (s := v) hp hr]

/-! ## The load's header read (R35, R36, R166) -/

/-- A link once a header with its enable on is applied: in the gap unless an exchange is in flight, its survey timer
started (R166, R171). -/
def LinkState.started (h : Header) (l : LinkNo) (k : LinkState) : LinkState :=
  if h.linkEnable.getLsbD l then
    { k with phase := if k.exch.isSome then k.phase else .gap, surveyTimer := some h.surveyInterval }
  else k

theorem State.setLink_self (l : LinkNo) (s : State) : s.setLink l (s.link l) = s := by
  simp [State.setLink, State.link]

/-- Four links set in turn are all the links. -/
theorem State.setLinks_eq (a b c d : LinkState) (s : State) :
    ((((s.setLink 0 a).setLink 1 b).setLink 2 c).setLink 3 d) = { s with links := #v[a, b, c, d] } := by
  have h : ((((s.links.set 0 a).set 1 b).set 2 c).set 3 d) = #v[a, b, c, d] := by
    ext i hi
    match i, hi with
    | 0, _ | 1, _ | 2, _ | 3, _ => simp
  exact congrArg (fun x => { s with links := x }) h

theorem State.linksOn_eq (h : Header) (s : State) :
    State.linksOn { s with dir.header := some h } = { s with
      dir.header := some h
      links := #v[(s.link 0).started h 0, (s.link 1).started h 1, (s.link 2).started h 2, (s.link 3).started h 3] } := by
  have step : ∀ (l : LinkNo) (t : State), t.settings = h → t.link l = s.link l →
      (if t.linkOn l then t.linkOnSet l else t) = t.setLink l ((s.link l).started h l) := by
    intro l t hset hlink
    unfold LinkState.started State.linkOn State.linkOnSet State.modifyLink
    rw [hset, hlink]
    split
    · rfl
    · rw [← hlink, State.setLink_self]
  unfold State.linksOn forLinks
  dsimp only
  rw [step 0 { s with dir.header := some h } rfl rfl,
    step 1 (State.setLink 0 _ _) rfl (by rw [State.link_setLink, if_neg (by decide)]; rfl),
    step 2 (State.setLink 1 _ _) rfl (by simp [State.link_setLink]; rfl),
    step 3 (State.setLink 2 _ _) rfl (by simp [State.link_setLink]; rfl), State.setLinks_eq]

/-- Settles O26. -/
theorem loadHeaderReadEnds : Obligations.LoadHeaderReadEnds := by
  intro s bytes ⟨hr, x, hx, hk, hb, hd⟩ v h link
  have hexec : exec .loadHeaderReadEnd s = .next v.loadHeader.settle := by
    refine congrArg Host.Outcome.next ?_
    rw [State.onEvent_of _ hr (by simp [State.inProgress, hx, hk]), State.endOwn_delivers _ hx hd, hb]
    rfl
  have hwin : v.mp.windowBase = s.mp.windowBase := (State.portFreed_frames (p := True) s).windowBase
  have hlinks : ∀ l, v.link l = s.link l := by
    intro l
    obtain ⟨a, g, he, -⟩ := State.portFreed_read hx (by rw [OwnReq.isWrite, OwnReq.requester, hk]; rfl)
    show s.portFreed.link l = s.link l
    rw [he]
    rfl
  rw [hexec]
  refine ⟨fun cause hcause => ?_, fun hcause => ?_⟩
  · rw [← hwin] at hcause
    rw [State.loadHeader, hcause]
    exact congrArg (fun t => Host.Outcome.next (State.settle t)) (State.refuseHeader_eq cause v)
  · have hstarted : ∀ l, (v.link l).started h l = link l := fun l => by
      rw [hlinks]
      rfl
    rw [← hwin] at hcause
    rw [State.loadHeader, hcause]
    dsimp only
    rw [State.linksOn_eq, hstarted, hstarted, hstarted, hstarted, ← hwin]
    rfl

end Sys2Proof.Machine
end

-- ==== Disable ====
section
/-! PROOFS. What a disable does in every block (R31, R83, R107, R170): the sign's registers, its link, its slots' drop
requests, the memory path, the fault count and the drives, each a lemma of its own. -/

namespace Sys2Proof.Machine

/-! ## The registers of the sign -/

/-- `h` is `g` but for the record due. -/
def SignState.ButDue (g h : SignState) : Prop := ∃ b, h = { g with recordDue := b }

theorem SignState.butDue_refl (g : SignState) : g.ButDue g := ⟨g.recordDue, rfl⟩

theorem SignState.butDue_markDue (g h : SignState) : h.ButDue (g.markDue h) := by
  unfold SignState.markDue
  split
  · exact h.butDue_refl
  · exact ⟨true, rfl⟩

/-- A change that does not look at the record due. -/
theorem SignState.ButDue.modify {g : SignState} {i : SignNo} {s : State} (f : SignState → SignState)
    (hf : ∀ x b, f { x with recordDue := b } = { f x with recordDue := b }) (h : g.ButDue (s.sign i)) :
    (f g).ButDue ((s.modifySign i f).sign i) := by
  obtain ⟨b, hb⟩ := h
  obtain ⟨b', hb'⟩ := SignState.butDue_markDue (s.sign i) (f (s.sign i))
  exact ⟨b', by rw [State.sign_modifySign_self, hb', hb, hf]⟩

theorem SignState.markDue_of_due {g h : SignState} (hd : h.recordDue = true) : g.markDue h = h := by
  unfold SignState.markDue
  split
  · rfl
  · rw [← hd]

theorem State.link_congr {s t : State} (h : t.links = s.links) (l : LinkNo) : t.link l = s.link l := by
  simp only [State.link, h]

/-! ## The drop requests of the slots (R44, R83) -/

/-- The drop requests of the slots change the tile monitor alone. -/
theorem State.dropSlots_eq (i : SignNo) (k : Nat) (slots : List Slot) (s : State) :
    s.dropSlots i k slots = { s with tm := (s.dropSlots i k slots).tm } := by
  induction slots generalizing k s with
  | nil => rfl
  | cons x rest ih =>
    have hone : s.dropSlot x.tile (i, k) = { s with tm := (s.dropSlot x.tile (i, k)).tm } := by
      unfold State.dropSlot
      cases x.tile with
      | none => rfl
      | some t =>
        simp only [State.dropTile]
        cases s.watched t with
        | none => rfl
        | some e => dsimp only; split <;> rfl
    calc s.dropSlots i k (x :: rest)
        = { s.dropSlot x.tile (i, k) with tm := (s.dropSlots i k (x :: rest)).tm } := ih (k + 1) _
      _ = { s with tm := (s.dropSlots i k (x :: rest)).tm } := by rw [hone]

/-- What a drop request leaves in the tile monitor depends on the tile monitor alone. -/
theorem State.dropTile_tm_congr {s t : State} (h : s.tm = t.tm) (n : Nat) (slot : SignNo × Nat) :
    (s.dropTile n slot).tm = (t.dropTile n slot).tm := by
  have hw : s.watched n = t.watched n := by rw [State.watched, h, State.watched]
  unfold State.dropTile
  rw [hw]
  cases t.watched n with
  | none => exact h
  | some e =>
    dsimp only [State.modifyWatch]
    rw [h]
    split <;> rfl

/-- The drop requests, read as a fold over the slots and their indices. -/
theorem State.dropSlots_tm (i : SignNo) (k : Nat) (slots : List Slot) {s t : State} (h : s.tm = t.tm) :
    (s.dropSlots i k slots).tm = ((slots.zipIdx k).foldl
      (fun v x => match x.1.tile with | some n => State.dropTile n (i, x.2) v | none => v) t).tm := by
  induction slots generalizing k s t with
  | nil => exact h
  | cons x rest ih =>
    refine ih (k + 1) ?_
    unfold State.dropSlot
    dsimp only
    cases x.tile with
    | none => exact h
    | some n => exact State.dropTile_tm_congr h n (i, k)

theorem State.dropSlots_tm_congr {i : SignNo} {k : Nat} {slots : List Slot} {s t : State} (h : s.tm = t.tm) :
    (s.dropSlots i k slots).tm = (t.dropSlots i k slots).tm :=
  (State.dropSlots_tm i k slots h).trans (State.dropSlots_tm i k slots rfl).symm

/-! ## Requests withdrawn (R15, R16, R11) -/

/-- The memory path without the requests in `goes`: the waiting ones are withdrawn, the running one will be discarded,
and the count falls to 0 where a withdrawal leaves none waiting. -/
def MemPath.without (withdrawn : Bool) (goes : OwnReq → Bool) (m : MemPath) : MemPath :=
  { m with
    waiting := m.waiting.filter fun q => !goes q
    grantCount := if m.waiting.filter (fun q => !goes q) = [] ∧ withdrawn = true then 0 else m.grantCount
    running := m.running.map fun x => if goes x.req then { x with discard := true } else x }

/-- A withdrawal done on a condition. -/
theorem State.withdrawIf_eq (b : Bool) (r : Requester) (s : State) :
    (if b = true then s.withdraw (· == r) else s) =
      { s with mp := s.mp.without b fun q => b && decide (q.requester = r) } := by
  cases b with
  | false => simp [MemPath.without]
  | true => simp [MemPath.without, State.withdraw, List.isEmpty_iff, Bool.beq_eq_decide_eq]

/-- Two withdrawals in turn are one. -/
theorem MemPath.without_without {a b : Bool} {p q : OwnReq → Bool} (m : MemPath) (hb : b = false → ∀ r, q r = false) :
    (m.without a p).without b q = m.without (a || b) fun r => p r || q r := by
  have hw : (m.waiting.filter fun r => !p r).filter (fun r => !q r) = m.waiting.filter fun r => !(p r || q r) := by
    rw [List.filter_filter]
    exact List.filter_congr fun r _ => by simp [Bool.and_comm]
  have hrun : ((m.running.map fun x => if p x.req then { x with discard := true } else x).map fun x =>
      if q x.req then { x with discard := true } else x) =
      m.running.map fun x => if (p x.req || q x.req) then { x with discard := true } else x := by
    rw [Option.map_map]
    refine congrArg (fun f => Option.map f m.running) (funext fun x => ?_)
    cases hp : p x.req <;> cases hq : q x.req <;> simp [hp, hq]
  have hcount : (if (m.waiting.filter fun r => !p r).filter (fun r => !q r) = [] ∧ b = true then 0
      else if (m.waiting.filter fun r => !p r) = [] ∧ a = true then 0 else m.grantCount) =
      if m.waiting.filter (fun r => !(p r || q r)) = [] ∧ (a || b) = true then 0 else m.grantCount := by
    rw [hw]
    cases b with
    | true => grind
    | false => simp [hb rfl]
  simp only [MemPath.without, MemPath.mk.injEq, true_and, and_true]
  exact ⟨hcount, hw, hrun⟩

/-! ## The blocks in turn -/

/-- The link's job is sign `i`'s and no exchange with it is in flight, so that its context is cleared at once (R170). -/
def LinkState.clearsAt (i : SignNo) (k : LinkState) : Bool :=
  decide ((∃ c, k.job = some c ∧ c.sign = i) ∧ ¬∃ e, k.exch = some e ∧ e.sign = i)

/-- A link after the disable of a sign of its own (R170). -/
def LinkState.disabledFor (i : SignNo) (k : LinkState) : LinkState :=
  { k with
    queue := k.queue.filter (·.sign ≠ i)
    exch := k.exch.map fun e => if e.sign = i then { e with discard := true } else e
    polls := k.polls.filter (·.sign ≠ i)
    refresh := k.refresh.filter (·.1 ≠ i)
    survey := k.survey.filter (·.sign ≠ i)
    job := if k.clearsAt i then none else k.job }

/-- The sign `i` off its link `l`, the tile read of its job withdrawn with the job's context. -/
def State.offLink (i : SignNo) (l : LinkNo) (s : State) : State :=
  { s.setLink l ((s.link l).disabledFor i) with
    mp := s.mp.without ((s.link l).clearsAt i) fun q => (s.link l).clearsAt i && decide (q.requester = .link l) }

theorem State.link_offLink_self (i : SignNo) (l : LinkNo) (s : State) :
    (s.offLink i l).link l = (s.link l).disabledFor i := State.link_setLink_self l _ s

theorem State.setLink_setLink (l : LinkNo) (x y : LinkState) (s : State) :
    (s.setLink l x).setLink l y = s.setLink l y := by
  simp [State.setLink]

theorem State.modifyLink_withdraw (l : LinkNo) (f : LinkState → LinkState) (rs : Requester → Bool) (s : State) :
    (s.withdraw rs).modifyLink l f = (s.modifyLink l f).withdraw rs := rfl

theorem State.linkDisable_leaveQueue {i : SignNo} {l : LinkNo} {s : State} (hl : (s.sign i).entry.link = l) :
    (s.linkDisable i).leaveQueue i = s.offLink i l := by
  have hclears : ((match (s.link l).job with | some c => c.sign == i | none => false) &&
      !(match (s.link l).exch with | some e => e.sign == i | none => false)) = (s.link l).clearsAt i := by
    unfold LinkState.clearsAt
    cases (s.link l).job <;> cases (s.link l).exch <;> simp [Bool.beq_eq_decide_eq]
  have hl' : ((s.linkDisable i).sign i).entry.link = l := by
    rw [(State.linkDisable_moved i (Moved.refl s)).entry i, hl]
  refine Eq.trans ?_ (State.withdrawIf_eq ((s.link l).clearsAt i) (.link l) (s.setLink l ((s.link l).disabledFor i)))
  unfold State.leaveQueue
  rw [hl']
  unfold State.linkDisable
  dsimp only
  rw [hl]
  cases hc : (s.link l).clearsAt i with
  | true =>
    refine (congrArg (State.modifyLink l _) (if_pos (hclears.trans hc))).trans ?_
    rw [State.clearJob, State.modifyLink_withdraw]
    simp [LinkState.disabledFor, hc, State.modifyLink, State.setLink_setLink]
  | false =>
    refine (congrArg (State.modifyLink l _) (if_neg ((Bool.not_eq_true _).mpr (hclears.trans hc)))).trans ?_
    simp [LinkState.disabledFor, hc, State.modifyLink, State.setLink_setLink]

/-- The sign DISABLED: a link that holds no poll, timer or probe of it stays, and a sign that was lost leaves the fault
count (R116). -/
theorem State.setJob_disabled_eq {i : SignNo} {l : LinkNo} {s : State} (hl : (s.sign i).entry.link = l)
    (hpolls : (s.link l).polls.filter (·.sign ≠ i) = (s.link l).polls)
    (hrefresh : (s.link l).refresh.filter (·.1 ≠ i) = (s.link l).refresh)
    (hsurvey : (s.link l).survey.filter (·.sign ≠ i) = (s.link l).survey) :
    s.setJob i .disabled =
      let t := s.modifySign i fun g => { g with job := .disabled }
      if (s.sign i).job.lost = true then { t with pc.faultCount := t.pc.faultCount - 1 }.evalDrives else t := by
  have hl' : ((s.modifySign i fun g => { g with job := .disabled }).sign i).entry.link = l := by simp [hl]
  have hk := State.link_congr (State.modifySign_links i (fun g => { g with job := .disabled }) s) l
  have hself : (s.modifySign i fun g => { g with job := .disabled }).setLink l (s.link l) =
      s.modifySign i fun g => { g with job := .disabled } := by
    rw [← hk, State.setLink_self]
  unfold State.setJob
  dsimp only
  rw [hl', State.modifyLink, hk]
  have hpolled : Job.disabled.polled = false := rfl
  have hsurveyed : Job.disabled.surveyed = false := rfl
  have hlost : Job.disabled.lost = false := rfl
  simp only [hpolled, hsurveyed, hlost, reduceCtorEq, Bool.false_eq_true, if_false, hpolls, hrefresh, hsurvey, hself,
    Bool.false_and, Bool.not_false, Bool.true_and]

/-- The sign's registers without what the page loader holds for it (R83). -/
def SignState.unloaded (g : SignState) : SignState :=
  { g with
    activePage := none, activation := .idle, incoming := none, staged := [], lastRefused := none, rangeReported := false }

/-- The sign's registers without its schedule position (R107). -/
def SignState.unscheduled (g : SignState) : SignState :=
  { g with
    curEntry := none, nextEntry := none, rotFirst := 0, rotLast := 0, rotDwell := 0, rotPos := 0, dwellCount := 0,
    workDue := .none, redo := false, orderReported := none, schedulePage := 0 }

theorem State.loaderDisable_eq (i : SignNo) (s : State) :
    s.loaderDisable i =
      (({ s with
        mp := s.mp.without (decide (s.pl.loading = some i)) fun q =>
          decide (s.pl.loading = some i) && decide (q.requester = .pageMap)
        pl := { queue := s.pl.queue.filter (· ≠ i), loading := if s.pl.loading = some i then none else s.pl.loading }
        tm := (s.dropSlots i 0 (s.sign i).slots).tm } : State).modifySign i fun g => { g with slots := [] }).modifySign i
      SignState.unloaded := by
  unfold State.loaderDisable State.releaseSlots
  dsimp only
  rw [State.withdrawIf_eq, State.dropSlots_eq]
  simp only [decide_eq_true_eq]
  exact congrArg (fun x => State.modifySign i _ (State.modifySign i _ { s with mp := _, pl := _, tm := x }))
    (State.dropSlots_tm_congr rfl)

theorem State.scheduleDisable_eq (i : SignNo) (s : State) :
    s.scheduleDisable i =
      ({ s with
        mp := s.mp.without (decide (s.clk.engine.sign = some i)) fun q =>
          decide (s.clk.engine.sign = some i) && decide (q.requester = .schedule)
        clk := { s.clk with engine := if s.clk.engine.sign = some i then .idle else s.clk.engine } } : State).modifySign i
      SignState.unscheduled := by
  unfold State.scheduleDisable
  dsimp only
  refine congrArg (State.modifySign i _) (Eq.trans ?_ (State.withdrawIf_eq (decide (s.clk.engine.sign = some i)) .schedule
    { s with clk := { s.clk with engine := if s.clk.engine.sign = some i then .idle else s.clk.engine } }))
  split <;> simp [*]

theorem OnlySign.modifySign {i : SignNo} {s t : State} (f : SignState → SignState) (h : OnlySign i s t) :
    OnlySign i s (t.modifySign i f) := h.trans (OnlySign.modify i f t)

theorem State.sign_loaderDisable {i : SignNo} {g : SignState} {s : State} (h : g.ButDue (s.sign i)) :
    (SignState.unloaded { g with slots := [] }).ButDue ((s.loaderDisable i).sign i) := by
  rw [State.loaderDisable_eq]
  exact SignState.ButDue.modify _ (fun _ _ => rfl) (SignState.ButDue.modify _ (fun _ _ => rfl) h)

theorem State.loaderDisable_only (i : SignNo) (s : State) : OnlySign i s (s.loaderDisable i) := by
  rw [State.loaderDisable_eq]
  exact OnlySign.modifySign _ (OnlySign.modifySign _ (OnlySign.of_signs rfl))

theorem State.sign_scheduleDisable {i : SignNo} {g : SignState} {s : State} (h : g.ButDue (s.sign i)) :
    g.unscheduled.ButDue ((s.scheduleDisable i).sign i) := by
  rw [State.scheduleDisable_eq]
  exact SignState.ButDue.modify _ (fun _ _ => rfl) h

theorem State.scheduleDisable_only (i : SignNo) (s : State) : OnlySign i s (s.scheduleDisable i) := by
  rw [State.scheduleDisable_eq]
  exact OnlySign.modifySign _ (OnlySign.of_signs rfl)

/-- Each line's drive by its mode and polarity and the fault count (R116). -/
theorem State.line_evalDrives (s : State) (n : LineNo) :
    s.evalDrives.line n = { s.line n with drive := (s.line n).driveFor s.pc.faultCount } := by
  revert n
  simp only [Fin.forall_fin_succ]
  exact ⟨rfl, rfl, rfl, rfl, fun n => n.elim0⟩

/-- The sign off its link and DISABLED, the fault count and the drives left as they were. -/
def State.unlinked (i : SignNo) (l : LinkNo) (s : State) : State :=
  (s.offLink i l).modifySign i fun g => { g with job := .disabled }

theorem State.sign_unlinked (i : SignNo) (l : LinkNo) (s : State) :
    SignState.ButDue { s.sign i with job := .disabled } ((s.unlinked i l).sign i) :=
  SignState.ButDue.modify (s := s.offLink i l) (fun g => { g with job := .disabled }) (fun _ _ => rfl)
    (s.sign i).butDue_refl

theorem State.unlinked_only (i : SignNo) (l : LinkNo) (s : State) : OnlySign i s (s.unlinked i l) :=
  OnlySign.modify i (fun g => { g with job := .disabled }) (s.offLink i l)

/-- What the disable does at the link and to the job state: a lost sign leaves the fault count and the drives follow. -/
theorem State.unlink_eq {i : SignNo} {l : LinkNo} {s : State} (hl : (s.sign i).entry.link = l) :
    ∃ pc lines, ((s.linkDisable i).leaveQueue i).setJob i .disabled =
        { s.unlinked i l with pc := pc, lines := lines } ∧
      ((s.sign i).job.lost = false → pc = s.pc ∧ lines = s.lines) ∧
      ((s.sign i).job.lost = true → pc = { s.pc with faultCount := s.pc.faultCount - 1 } ∧
        ∀ n : LineNo, lines[n] = { s.line n with drive := (s.line n).driveFor (s.pc.faultCount - 1) }) := by
  rw [State.linkDisable_leaveQueue hl, State.setJob_disabled_eq (s := s.offLink i l) (l := l) hl]
  · have hjob : ((s.offLink i l).sign i).job = (s.sign i).job := rfl
    dsimp only
    rw [hjob]
    cases hlost : (s.sign i).job.lost with
    | true =>
      refine ⟨_, _, rfl, nofun, fun _ => ⟨rfl, fun n => ?_⟩⟩
      exact State.line_evalDrives { s.unlinked i l with pc.faultCount := s.pc.faultCount - 1 } n
    | false => exact ⟨_, _, rfl, fun _ => ⟨rfl, rfl⟩, nofun⟩
  all_goals simp [State.link_offLink_self, LinkState.disabledFor]

/-- Settles O24: the link's part is `State.unlinked`, the page loader's and the schedule engine's follow, and the sign's
registers are collected through all five changes. -/
theorem disableDropsTheSign : Obligations.DisableDropsTheSign := by
  intro s i u g l k cleared loading inFlight goes left lost faults
  obtain ⟨pc, lines, ht, hkept, hlost⟩ := State.unlink_eq (i := i) (l := l) (s := s) rfl
  have hjob : lost ↔ (s.sign i).job.lost = true := by simp [lost, g, Job.lost]
  have hd : u = ((State.loaderDisable i { s.unlinked i l with pc := pc, lines := lines }).scheduleDisable i).modifySign i
      SignState.dropped := by rw [← ht]; rfl
  have hu := hd
  rw [State.loaderDisable_eq, State.scheduleDisable_eq] at hu
  have hmoved := State.disableSign_moved i s
  have hlines : u.lines = lines := by rw [hu]; rfl
  have hpc : u.pc = pc := by rw [hu]; rfl
  have hlinks : u.links = (s.offLink i l).links := by rw [hu]; rfl
  refine ⟨?_, ?_, fun m hm => ?_, ?_, ?_, ?_, ?_, ?_, fun h => ?_, fun h => ?_, hmoved.mem, hmoved.dir, ?_,
    hmoved.resetHeld, hmoved.pending⟩
  · obtain ⟨b, hb⟩ := State.sign_scheduleDisable (State.sign_loaderDisable
      (s := { s.unlinked i l with pc := pc, lines := lines }) (State.sign_unlinked i l s))
    rw [hd, State.sign_modifySign_self, SignState.markDue_of_due rfl, hb]
    rfl
  · rw [hd]
    exact OnlySign.modifySign _ (OnlySign.trans
      (OnlySign.trans (State.unlinked_only i l s)
        (State.loaderDisable_only i { s.unlinked i l with pc := pc, lines := lines }))
      (State.scheduleDisable_only i _))
  · rw [State.link_congr hlinks]
    exact (State.link_setLink l m _ s).trans (if_neg hm.symm)
  · rw [State.link_congr hlinks, State.link_offLink_self]
    rfl
  · have hslots : ((s.unlinked i l).sign i).slots = g.slots := by
      rw [State.unlinked, State.sign_modifySign_self, SignState.markDue_slots]
      rfl
    have htm : u.tm = (State.dropSlots i 0 ((s.unlinked i l).sign i).slots
        { s.unlinked i l with pc := pc, lines := lines }).tm := by rw [hu]; rfl
    rw [htm, hslots]
    exact State.dropSlots_tm i 0 g.slots rfl
  · have hpl : u.pl = { queue := s.pl.queue.filter (· ≠ i)
                        loading := if s.pl.loading = some i then none else s.pl.loading } := by rw [hu]; rfl
    simp [hpl, loading]
  · have hclk : u.clk = { s.clk with engine := if s.clk.engine.sign = some i then .idle else s.clk.engine } := by
      rw [hu]
      rfl
    simp [hclk, inFlight]
  · have hmp : u.mp = ((s.mp.without cleared fun q => cleared && decide (q.requester = .link l)).without loading fun q =>
        loading && decide (q.requester = .pageMap)).without inFlight fun q =>
          inFlight && decide (q.requester = .schedule) := by rw [hu]; rfl
    rw [hmp, MemPath.without_without (a := cleared) _ fun h q => by rw [h, Bool.false_and],
      MemPath.without_without _ fun h q => by rw [h, Bool.false_and]]
    rfl
  · rw [hpc, hlines]
    exact hkept (by simpa using mt hjob.mpr h)
  · rw [hpc]
    obtain ⟨hp, hl⟩ := hlost (hjob.mp h)
    exact ⟨hp, fun n => (congrArg (fun v => v[n]) hlines).trans (hl n)⟩
  · rw [hu]
    rfl

end Sys2Proof.Machine
end

section
/-! PROOFS. The window's records: what a host write that ends at a record's acting byte brings about, the sweeps over signs,
and the line clear, the clock set, the heartbeat word and the consumer index. -/

namespace Sys2Proof.Machine

/-! ## Records (R19, R20, R21, R28) -/

/-- A host write that ends at an acting byte `c` of the window: the image takes the bytes, then `c` acts. -/
theorem exec_record {s : State} {addr off c : Nat} {data : List Byte} {row : Instr} (hrow : row ∈ writeRows addr data)
    (hgoes : s.HostGoes .write addr data.length) (hne : data ≠ []) (hoff : off + data.length = c + 1)
    (hwin : s.InWindow addr off data) (hplain : ∀ o, off ≤ o → o < c → plainOffset o)
    (himaged : Sys2Proof.Machine.imaged c = true) :
    exec row s = .next (((s.wrote addr data).imaged off data).windowAction c (data.getLast hne)).settle := by
  rw [exec_writeRow hrow, State.carryWrite_record hgoes hne hoff hwin hplain himaged]

/-- The acting byte of a clear of line `n` (R28). -/
theorem State.windowAction_clear (n : LineNo) (v : Byte) (s : State) :
    s.windowAction (0x10E + 16 * n.val) v = if s.lineReached then s.clearLine n else s := by
  have hn : Fin.ofNat 4 ((0x10E + 16 * n.val - 0x100) / 16) = n := Fin.ext (by simp only [Fin.val_ofNat]; omega)
  unfold State.windowAction
  rw [if_neg (by omega), if_pos (by omega)]
  dsimp only
  rw [if_pos (by omega), hn]

/-- The acting byte of a commit of sign `i`'s entry (R30). -/
theorem State.windowAction_sign (i : SignNo) (v : Byte) (s : State) :
    s.windowAction (0x100F + 16 * i.val) v = if s.signReached i then s.commitSign i else s := by
  have hi : Fin.ofNat 256 ((0x100F + 16 * i.val - 0x1000) / 16) = i := Fin.ext (by simp only [Fin.val_ofNat]; omega)
  unfold State.windowAction
  rw [if_neg (by omega), if_neg (by omega), if_neg (by omega), if_neg (by omega), if_neg (by omega), if_pos (by omega)]
  dsimp only
  rw [hi]

theorem State.takesWords_iff (s : State) : s.takesWords = true ↔ s.dir.part ≠ .waiting := by
  simp [State.takesWords]

/-! ## Signs by a predicate -/

theorem State.signs_toList (s : State) : s.signs.toList = (List.finRange 256).map s.sign := by
  refine List.ext_getElem (by simp) fun n h1 h2 => ?_
  simp [State.sign]

/-- The signs that satisfy a predicate, as a filter of all sign numbers. -/
theorem State.signsWhere_eq (p : SignState → Bool) (s : State) :
    s.signsWhere p = (List.finRange 256).filter fun i => p (s.sign i) := by
  unfold State.signsWhere
  rw [State.signs_toList, List.zip_map_right, List.zip_eq_zipWith, List.zipWith_self, List.map_map, List.filterMap_map,
    ← List.filterMap_eq_filter]
  refine List.filterMap_congr fun i _ => ?_
  simp [Option.guard]

theorem State.signsWhere_nodup (p : SignState → Bool) (s : State) : (s.signsWhere p).Nodup := by
  rw [State.signsWhere_eq]
  exact (List.nodup_finRange 256).filter _

theorem State.countSigns_eq (p : SignState → Bool) (s : State) :
    s.countSigns p = ((List.finRange 256).filter fun i => p (s.sign i)).length := by
  rw [State.countSigns, State.signs_toList, List.countP_map, List.countP_eq_length_filter]
  rfl

theorem State.sweep_eq (zones : BitVec 64) (s : State) :
    s.sweep zones = s.evaluateEach fun g => g.entry.enabled && zones.getLsbD g.entry.zone := by
  rw [State.sweep, State.signsWhere_eq]
  rfl

theorem State.evaluateAll_eq (s : State) : s.evaluateAll = s.evaluateEach fun g => g.entry.enabled := by
  rw [State.evaluateAll, State.signsWhere_eq]
  rfl

/-- A change that leaves the status record's fields and its due flag is not marked. -/
theorem SignState.markDue_of_view {g h : SignState} (hv : h.statusView = g.statusView) : g.markDue h = h := if_pos hv

/-- Changing each sign of a list, none of them twice. -/
theorem forSigns_modifySign (f : SignNo → SignState → SignState) (is : List SignNo) (hnd : is.Nodup) (s : State) :
    forSigns (fun i s => s.modifySign i (f i)) is s = { s with
      signs := Vector.ofFn fun i => if i ∈ is then (s.sign i).markDue (f i (s.sign i)) else s.sign i } := by
  induction is generalizing s with
  | nil =>
    have hsigns : s.signs = Vector.ofFn fun i => s.sign i := by
      ext i hi
      simp [State.sign]
    simp only [forSigns, List.not_mem_nil, if_false]
    exact congrArg (fun x => { s with signs := x }) hsigns
  | cons a rest ih =>
    obtain ⟨ha, hrest⟩ := List.nodup_cons.mp hnd
    rw [forSigns, ih hrest]
    refine congrArg (fun x => { s with signs := x }) (congrArg Vector.ofFn (funext fun i => ?_))
    by_cases hai : a = i
    · subst hai
      simp [ha]
    · simp [State.sign_modifySign, hai, Ne.symm hai]

/-! ## The line clear (R28, R112, R113) -/

theorem State.clearLine_eq (n : LineNo) (s : State) :
    s.clearLine n =
      if (s.line n).entry.mode = .alertLatched ∧ (s.line n).alert = true then
        State.evaluateEach (fun g => g.entry.enabled && (s.line n).entry.zones.getLsbD g.entry.zone)
          ((s.setLine n { s.line n with alert := false }).report
            { kind := .alertOff, sign := none, page := (s.line n).entry.alertPage, detail := n.val * 256 + 2 })
      else s := by
  unfold State.clearLine State.setAlert
  simp only [State.line_modifyLine_self, Bool.false_eq_true, if_false, State.sweep_eq]
  rfl

/-- Settles O19. -/
theorem lineClearEndsALatchedAlert : Obligations.LineClearEndsALatchedAlert := by
  intro s addr off data n hgoes hne hlow hoff hwin v x
  rw [exec_record (c := 0x10E + 16 * n.val) (by simp [writeRows]) hgoes hne (by omega) hwin
    (fun o h1 h2 => .inr (.inl (by omega)))
    (by simp only [Sys2Proof.Machine.imaged, Bool.or_eq_true, Bool.and_eq_true, decide_eq_true_eq]; omega),
    State.windowAction_clear, State.clearLine_eq]
  refine congrArg (fun u => Host.Outcome.next (State.settle u)) ?_
  have hreached : v.lineReached = s.lineReached := rfl
  show (if v.lineReached = true then if x.entry.mode = .alertLatched ∧ x.alert = true then _ else v else v) = _
  rw [hreached]
  by_cases h : s.lineReached = true
  · simp only [h, if_true, true_and]
    rfl
  · simp [h]

/-! ## The clock set (R33, R91, R100) -/

/-- A sign marked RESYNC, with its redo flag where the engine has an operation of it in flight (R100). -/
def SignState.resyncMarked (engine : SchedEngine) (i : SignNo) (g : SignState) : SignState :=
  { g with workDue := .resync, redo := decide (engine.sign = some i) || g.redo }

theorem State.markResync_eq (i : SignNo) (s : State) :
    s.markResync i = s.modifySign i (SignState.resyncMarked s.clk.engine i) := by
  unfold State.markResync SignState.resyncMarked
  by_cases h : s.clk.engine.sign = some i <;> simp [h]

theorem State.markAllResync_eq (s : State) :
    s.markAllResync = { s with
      signs := Vector.ofFn fun i =>
        if (s.sign i).entry.enabled then (s.sign i).resyncMarked s.clk.engine i else s.sign i } := by
  have hmark : ∀ (is : List SignNo) (t : State), t.clk = s.clk →
      forSigns State.markResync is t =
        forSigns (fun i u => u.modifySign i (SignState.resyncMarked s.clk.engine i)) is t := by
    intro is
    induction is with
    | nil => exact fun _ _ => rfl
    | cons a rest ih =>
      intro t ht
      rw [forSigns, forSigns, State.markResync_eq, ht]
      exact ih _ ht
  unfold State.markAllResync
  rw [hmark _ s rfl, forSigns_modifySign _ _ (s.signsWhere_nodup _)]
  refine congrArg (fun x => { s with signs := x }) (congrArg Vector.ofFn (funext fun i => ?_))
  rw [SignState.markDue_of_view (g := s.sign i) (h := (s.sign i).resyncMarked s.clk.engine i) rfl]
  simp only [State.mem_signsWhere]

/-- Settles O20. -/
theorem clockSetLoadsTheClock : Obligations.ClockSetLoadsTheClock := by
  intro s addr off data hne hgoes hlow hoff hwin v q m
  rw [exec_record (c := 0x20F) (by simp [writeRows]) hgoes hne hoff hwin
    (fun o h1 h2 => .inr (.inr (.inl (by omega)))) rfl]
  refine congrArg (fun u => Host.Outcome.next (State.settle u)) ?_
  show (if v.takesWords = true then v.commitClock q else v) = _
  have hseq : v.dir.lastClockSeq = s.dir.lastClockSeq := rfl
  by_cases hp : s.dir.part = .waiting
  · rw [if_neg (fun h => (v.takesWords_iff.mp h) hp), if_pos (.inl hp)]
  rw [if_pos (v.takesWords_iff.mpr hp)]
  unfold State.commitClock
  rw [hseq]
  by_cases hq : s.dir.lastClockSeq = some q
  · rw [if_pos hq, if_pos (.inr hq)]
  rw [if_neg hq, if_neg (fun h => h.elim hp hq)]
  unfold State.setClock
  dsimp only
  have htime : parseClockSet v.dir.image =
      { day := (m.read 0x200).toNat * 256 + (m.read 0x201).toNat
        minute := min 1439 ((m.read 0x202).toNat * 256 + (m.read 0x203).toNat)
        second := min 59 (m.read 0x204).toNat } := rfl
  rw [State.markAllResync_eq, htime]
  rfl

/-! ## The heartbeat word (R21, R120) -/

/-- Settles O21. -/
theorem heartbeatWordServesTheHeartbeat : Obligations.HeartbeatWordServesTheHeartbeat := by
  intro s addr off data hne hgoes hlow hoff hwin v value m
  rw [exec_record (c := 0x211) (by simp [writeRows]) hgoes hne hoff hwin
    (fun o h1 h2 => .inr (.inr (.inr (.inl (by omega))))) rfl]
  refine congrArg (fun u => Host.Outcome.next (State.settle u)) ?_
  show (if v.takesWords = true then v.serveHeartbeat value else v) = _
  have hpc : v.pc = s.pc := rfl
  by_cases hp : s.dir.part = .waiting
  · rw [if_neg (fun h => (v.takesWords_iff.mp h) hp), if_pos (.inl hp)]
  rw [if_pos (v.takesWords_iff.mpr hp)]
  unfold State.serveHeartbeat
  rw [hpc]
  by_cases hv : s.pc.hbLast = some value
  · rw [if_pos hv, if_pos (.inr hv)]
  rw [if_neg hv, if_neg (fun h => h.elim hp hv)]
  cases hb : s.pc.hb with
  | off => simp only [hb]
  | running =>
    simp only [hb]
    rfl
  | lapsed =>
    simp only [hb, State.restoreHeartbeat, State.evaluateAll_eq]
    rfl

/-! ## Suppression leaves the ring's published index and consumer index (R174, R176) -/

theorem State.evalSuppression_taken {s t : State} (h : SameButTaken s t) : SameButTaken s t.evalSuppression := by
  unfold State.evalSuppression
  split
  · unfold State.endSuppression
    split
    · exact h
    · split
      · exact State.report_taken _ (SameButTaken.ofRw { t.rw with suppressing := false } rfl (List.prefix_refl _) h)
      · exact h
  · exact State.startSuppression_taken h

/-- ATTN looks at nothing that taking up work changes (R181). -/
theorem SameButTaken.attnLevel {s t : State} (h : SameButTaken s t) : t.attnLevel = s.attnLevel := by
  have hring := congrArg ReportWriter.ring h.rw
  have hplaced : t.rw.lasting.placed = s.rw.lasting.placed := congrArg ReportWriter.placed h.rw
  have hset : t.settings = s.settings := congrArg (fun d : Directory => d.header.getD _) h.dir
  have hpub : t.rw.ring.map Ring.publishedUnread = s.rw.ring.map Ring.publishedUnread := by
    have := congrArg (Option.map Ring.publishedUnread) hring
    simp only [ReportWriter.lasting, Option.map_map] at this
    exact this
  unfold State.attnLevel
  rw [hset, show t.rw.placed = s.rw.placed from hplaced]
  cases hs : s.rw.ring <;> cases ht : t.rw.ring <;> simp [hs, ht] at hpub ⊢
  rw [hpub]

/-- Settles O22. -/
theorem consumerIndexIsTaken : Obligations.ConsumerIndexIsTaken := by
  intro s addr off data hne hgoes hlow hoff hwin v value
  have hexec : exec (.consumerIndex addr data) s =
      .next (State.settle (if v.takesWords = true then v.takeConsumer value else v)) := by
    rw [exec_record (c := 0x221) (by simp [writeRows]) hgoes hne hoff hwin
      (fun o h1 h2 => .inr (.inr (.inr (.inr (.inl (by omega)))))) rfl]
    rfl
  have hring : v.rw.ring = s.rw.ring := rfl
  rw [hexec]
  refine ⟨fun hno => ?_, fun r hp hr => ?_⟩
  · rcases hno with hp | hn
    · rw [if_neg (fun h => (v.takesWords_iff.mp h) hp)]
    · unfold State.takeConsumer
      rw [hring, hn, ite_self]
  · intro c w
    have hattn : s.rw.placed = true → w.evalSuppression.attnLevel =
        (s.settings.attention && decide (0 < (r.published + (r.size - c % r.size)) % r.size)) := by
      intro hplaced
      rw [(State.evalSuppression_taken (SameButTaken.refl w)).attnLevel]
      show (s.settings.attention && s.rw.placed && _) = _
      rw [hplaced, Bool.and_true]
      rfl
    rw [if_pos (v.takesWords_iff.mpr hp)]
    unfold State.takeConsumer
    rw [hring, hr]
    refine congrArg (fun u => Host.Outcome.next (State.settle u)) ?_
    show (if s.rw.placed = true then w.evalSuppression.evalAttn else w) = _
    by_cases hplaced : s.rw.placed = true
    · rw [if_pos hplaced, if_pos hplaced, State.evalAttn, hattn hplaced]
    · rw [if_neg hplaced, if_neg hplaced]

end Sys2Proof.Machine
end

section
/-! PROOFS. The directory load: its start, the placing of the ring, and the ends of its consumer, line and sign table reads. -/

namespace Sys2Proof.Machine

/-! ## The start of a load (R34, R35, R40) -/

/-- A valid header in WAITING. -/
theorem State.commitHeader_enters {s : State} (hcause : headerCause s.mp.windowBase s.dir.image = none)
    (hp : s.dir.part = .waiting) : s.commitHeader = s.enterLoading := by
  unfold State.commitHeader
  rw [hp, hcause]

theorem State.linksQuiet_iff (s : State) : s.linksQuiet = true ↔ ∀ l, (s.link l).exch = none := by
  simp [State.linksQuiet, Fin.forall_fin_succ, and_assoc]

theorem State.loadMayStart_iff {s : State} (hp : s.dir.part = .loading) (hl : s.dir.load = .awaitLinks) :
    s.loadMayStart = true ↔ (∀ l, (s.link l).exch = none) ∧ s.mp.load .directory = 0 := by
  simp [State.loadMayStart, hp, hl, State.linksQuiet_iff, ← State.busy_eq_false]

/-- Settles O27. -/
theorem loadsStartOnceLinksAreIdle : Obligations.LoadsStartOnceLinksAreIdle := by
  refine ⟨?_, fun s hr hp hl => ⟨fun hquiet hidle => ?_, fun l hexch => ?_⟩⟩
  · intro s addr off data c hgoes hne hoff hwin hc v hp hcause
    have hexec : exec c s = .next v.commitHeader.settle := exec_headerRecord hgoes hne hoff hwin hc
    rw [hexec, State.commitHeader_enters (s := v) hcause hp]
    rfl
  · show Host.Outcome.next (s.onEvent s.loadMayStart State.startLoad) = _
    rw [State.onEvent_of _ hr ((State.loadMayStart_iff hp hl).mpr ⟨hquiet, hidle⟩)]
    rfl
  · show Host.Outcome.next (s.onEvent s.loadMayStart State.startLoad) = _
    rw [State.onEvent_not _ (.inr (Bool.eq_false_iff.mpr fun h => hexch (((State.loadMayStart_iff hp hl).mp h).1 l)))]

/-! ## The placing of the ring (R173) -/

theorem OwnKind.ringWrite_iff (k : OwnKind) : k.ringWrite = true ↔ k = .entryWrite ∨ ∃ x, k = .indexWrite x := by
  cases k <;> simp [OwnKind.ringWrite]

theorem State.ringDrained_of {s : State} (howed : s.rw.owedIndex = false) (hent : s.rw.entries = [])
    (hwait : ∀ q ∈ s.mp.waiting, q.kind ≠ .entryWrite ∧ ∀ x, q.kind ≠ .indexWrite x)
    (hrun : ∀ x, s.mp.running = some x → x.req.kind ≠ .entryWrite ∧ ∀ y, x.req.kind ≠ .indexWrite y) :
    s.ringDrained = true := by
  have hnot : ∀ k : OwnKind, (k ≠ .entryWrite ∧ ∀ x, k ≠ .indexWrite x) → k.ringWrite = false := by
    intro k hk
    refine Bool.eq_false_iff.mpr fun h => ?_
    rcases (OwnKind.ringWrite_iff k).mp h with h | ⟨x, h⟩
    · exact hk.1 h
    · exact hk.2 x h
  have hw : s.mp.waiting.any (·.kind.ringWrite) = false := by
    rw [List.any_eq_false]
    exact fun q hq => by simp [hnot _ (hwait q hq)]
  have hr : s.inProgress OwnKind.ringWrite = false := by
    unfold State.inProgress
    cases hx : s.mp.running with
    | none => rfl
    | some x => exact hnot _ (hrun x hx)
  simp [State.ringDrained, State.ringWork, howed, hent, hw, hr]

/-- Suppression changes the report writer alone. -/
theorem State.evalSuppression_rw (s : State) : s.evalSuppression = { s with rw := s.evalSuppression.rw } := by
  unfold State.evalSuppression
  split
  · unfold State.endSuppression
    split
    · rfl
    · split
      · rw [State.report_rw]
      · rfl
  · exact State.startSuppression_rw s

/-- The ring the writer holds once placed: one of the header's base and size keeps its producer index (R173). -/
def Ring.placedFor (h : Header) (consumer : Nat) (kept : Bool) (old : Option Ring) : Ring :=
  let p := if kept then ((old.map (·.producer)).getD consumer) else consumer
  { base := h.ringBase, size := h.ringSize, producer := p, published := p, consumer := consumer }

/-- The writer's ring is of the header's base and size. -/
def Ring.keptFor (h : Header) (old : Option Ring) : Bool :=
  match old with
  | some r => r.base == h.ringBase && r.size == h.ringSize
  | none => false

theorem State.placeRing_eq (v : Nat) (s : State) :
    s.placeRing v = State.evalAttn (State.evalSuppression { s with
      rw.ring := some (Ring.placedFor s.settings (v % s.settings.ringSize) (Ring.keptFor s.settings s.rw.ring) s.rw.ring)
      rw.placed := true
      rw.owedIndex := true
      rw.suppressing := Ring.keptFor s.settings s.rw.ring && s.rw.suppressing }) := by
  unfold State.placeRing
  refine congrArg (fun u => State.evalAttn (State.evalSuppression u)) ?_
  cases hr : s.rw.ring with
  | none => rfl
  | some r =>
    by_cases hk : r.base = s.settings.ringBase ∧ r.size = s.settings.ringSize
    · have hkept : Ring.keptFor s.settings (some r) = true := by simp [Ring.keptFor, hk]
      simp only [hkept, Option.bind_some, if_pos hk, Ring.placedFor, if_true, Option.map_some, Option.getD_some,
        Bool.true_and]
      rw [← hk.1, ← hk.2]
    · have hkept : Ring.keptFor s.settings (some r) = false := by
        simp only [Ring.keptFor, Bool.and_eq_false_iff, beq_eq_false_iff_ne]
        exact not_and_or.mp hk
      simp only [hkept, Option.bind_some, if_neg hk, Ring.placedFor, Bool.false_eq_true, if_false, Bool.false_and]

/-- Settles O28. -/
theorem ringIsPlaced : Obligations.RingIsPlaced := by
  intro s value hr hload howed hent hwait hrun h c kept p w
  have hexec : exec .ringPlace s = .next (s.takeRing value).settle := by
    show execRingPlace s = _
    unfold execRingPlace
    rw [hload]
    exact congrArg Host.Outcome.next (State.onEvent_of _ hr (State.ringDrained_of howed hent hwait hrun))
  have hplace : s.placeRing value = w.evalAttn := State.placeRing_eq value s
  have hattn : w.attnLevel = (h.attention && decide (0 < (p + (h.ringSize - c % h.ringSize)) % h.ringSize)) := by
    have := (State.evalSuppression_taken (SameButTaken.refl { s with
      rw.ring := some { base := h.ringBase, size := h.ringSize, producer := p, published := p, consumer := c }
      rw.placed := true
      rw.owedIndex := true
      rw.suppressing := kept && s.rw.suppressing })).attnLevel
    refine this.trans ?_
    show (h.attention && true && _) = _
    rw [Bool.and_true]
    rfl
  have hmp : w.mp = s.mp := by
    show State.mp (State.evalSuppression _) = _
    rw [State.evalSuppression_rw]
  rw [hexec, State.takeRing, hplace, State.evalAttn, hattn, State.placeLoad, State.place]
  dsimp only
  rw [hmp]

/-! ## The ends of the load's reads (R36) -/

/-- The end of an own read of the directory load. -/
theorem State.loadReadEnds {s : State} {kind : OwnKind} {bytes : List Byte} (h : s.OwnEnds kind bytes)
    {ofKind : OwnKind → Bool} (hk : ofKind kind = true) (f : OwnReq → List Byte → State → State) :
    ∃ q, q.kind = kind ∧ s.onEvent (s.inProgress ofKind) (State.endOwn f) = (f q bytes s.portFreed).settle := by
  obtain ⟨hr, x, hx, hkind, hb, hd⟩ := h
  refine ⟨x.req, hkind, ?_⟩
  rw [State.onEvent_of _ hr (by rw [State.inProgress, hx]; exact (congrArg ofKind hkind).trans hk),
    State.endOwn_delivers _ hx hd, hb]

theorem State.portFreed_windowBase (s : State) : s.portFreed.mp.windowBase = s.mp.windowBase :=
  (State.portFreed_frames (p := True) s).windowBase

/-! ### What leaves the memory path -/

theorem State.report_mp (r : Report) (s : State) : (s.report r).mp = s.mp := by rw [State.report_rw]

theorem State.report_pc (r : Report) (s : State) : (s.report r).pc = s.pc := by rw [State.report_rw]

theorem State.report_settings (r : Report) (s : State) : (s.report r).settings = s.settings := by
  rw [State.report_rw]
  rfl

theorem State.queueActivation_mp (i : SignNo) (s : State) : (s.queueActivation i).mp = s.mp := by
  unfold State.queueActivation State.joinActivation
  dsimp only
  split <;> rfl

theorem State.evaluate_mp (i : SignNo) (s : State) : (s.evaluate i).mp = s.mp := by
  unfold State.evaluate
  split
  · rw [State.queueActivation_mp]
    rfl
  · rfl

theorem forSigns_mp {f : SignNo → State → State} (hf : ∀ i s, (f i s).mp = s.mp) (is : List SignNo) (s : State) :
    (forSigns f is s).mp = s.mp := by
  induction is generalizing s with
  | nil => rfl
  | cons a rest ih => exact (ih _).trans (hf a s)

theorem State.sweep_mp (zones : BitVec 64) (s : State) : (s.sweep zones).mp = s.mp := forSigns_mp State.evaluate_mp _ s

theorem State.setAlert_mp (n : LineNo) (on : Bool) (cause : Nat) (zones : BitVec 64) (s : State) :
    (s.setAlert n on cause zones).mp = s.mp := by
  unfold State.setAlert
  dsimp only
  rw [State.sweep_mp, State.report_mp]
  rfl

theorem State.setPulseMode_mp (on : Bool) (s : State) : (s.setPulseMode on).mp = s.mp := by
  unfold State.setPulseMode
  split <;> rfl

theorem State.reportLineMode_mp (n : LineNo) (s : State) : (s.reportLineMode n).mp = s.mp := by
  unfold State.reportLineMode
  dsimp only
  split
  · rfl
  · exact State.report_mp _ s

theorem State.applyLine_mp (n : LineNo) (e : LineEntry) (s : State) : (s.applyLine n e).mp = s.mp := by
  have hset : ∀ x : LineState,
      (if n = 3 then (s.setLine n x).setPulseMode (e.mode == .minutePulse) else s.setLine n x).mp = s.mp := by
    intro x
    split
    · exact State.setPulseMode_mp _ _
    · rfl
  have hswept : ∀ (u : State) (changed stays after : Bool) (zones : BitVec 64), u.mp = s.mp →
      (if changed = true then u.setAlert n after 3 zones else if stays = true then u.sweep zones else u).mp = s.mp := by
    intro u changed stays after zones hu
    split
    · exact (State.setAlert_mp n after 3 zones u).trans hu
    · split
      · exact (State.sweep_mp zones u).trans hu
      · exact hu
  exact hswept _ _ _ _ _ (hset _)

/-- A line's commit places and withdraws no request. -/
theorem State.commitLine_mp (n : LineNo) (s : State) : (s.commitLine n).mp = s.mp :=
  (State.applyLine_mp n _ _).trans (State.reportLineMode_mp n s)

/-- Settles O29. -/
theorem loadConsumerAndLineTableReadEnd : Obligations.LoadConsumerAndLineTableReadEnd := by
  refine ⟨fun s bytes hends => ?_, fun s bytes hends => ?_⟩
  · obtain ⟨q, -, he⟩ := State.loadReadEnds (ofKind := (· == .dirConsumer)) hends rfl fun _ bytes s =>
      (s.loadImage 0x220 bytes).loadConsumer
    exact congrArg Host.Outcome.next he
  · intro v w
    have hmp : w.mp = v.mp :=
      (State.commitLine_mp 3 _).trans ((State.commitLine_mp 2 _).trans
        ((State.commitLine_mp 1 _).trans (State.commitLine_mp 0 v)))
    obtain ⟨q, -, he⟩ := State.loadReadEnds (ofKind := (· == .dirLines)) hends rfl fun _ bytes s =>
      (s.loadImage 0x100 bytes).loadLines
    refine ⟨congrArg MemPath.waiting hmp, (congrArg Host.Outcome.next he).trans ?_⟩
    show Host.Outcome.next (State.settle (State.loadLines v)) = _
    have hbase : v.mp.windowBase = s.mp.windowBase := s.portFreed_windowBase
    rw [State.loadLines, State.placeLoad, State.place, ← hbase, ← hmp]

/-- Entries applied one after another, the last without taking up work, which the end of the event does. -/
theorem State.applySigns_range (f : Nat → SignNo) (n : Nat) (s : State) :
    State.applySigns ((List.range (n + 1)).map f) s =
      (List.range (n + 1)).foldl (fun u m => if m < n then (u.commitSign (f m)).takeUp else u.commitSign (f m)) s := by
  have hlast : ∀ (is : List SignNo) (i : SignNo) (t : State),
      State.applySigns (is ++ [i]) t = (is.foldl (fun u j => (u.commitSign j).takeUp) t).commitSign i := by
    intro is i
    induction is with
    | nil => exact fun _ => rfl
    | cons a rest ih =>
      intro t
      rw [List.foldl_cons, ← ih]
      cases rest <;> rfl
  have hfront : (List.range n).foldl
      (fun u m => if m < n then (u.commitSign (f m)).takeUp else u.commitSign (f m)) s =
      (List.range n).foldl (fun u m => (u.commitSign (f m)).takeUp) s :=
    List.foldl_ext _ _ _ fun u m hm => if_pos (List.mem_range.mp hm)
  rw [List.range_succ, List.map_append, List.map_singleton, hlast, List.foldl_map, List.foldl_append, hfront,
    List.foldl_cons, List.foldl_nil, if_neg (lt_irrefl n)]

/-- Settles O30. -/
theorem loadSignTableReadEnds : Obligations.LoadSignTableReadEnds := by
  intro s k bytes hends hk v w m done
  obtain ⟨q, hq, he⟩ := State.loadReadEnds (ofKind := (·.signsStep.isSome)) hends rfl fun q bytes s =>
    match q.kind.signsStep with
    | some k => (s.loadImage (0x1000 + 256 * k) bytes).loadSigns k
    | none => s
  have hexec : exec .loadSignTableReadEnd s = .next (State.loadSigns k v).settle := by
    refine (congrArg Host.Outcome.next he).trans ?_
    rw [hq]
    rfl
  have hw : State.applySigns (signsOf k) v = w := State.applySigns_range (fun n => Fin.ofNat 256 (16 * k + n)) 15 v
  have hbase : w.mp.windowBase = s.mp.windowBase := by
    rw [← hw, (State.applySigns_handed (signsOf k) v).windowBase]
    exact s.portFreed_windowBase
  rw [hexec, State.loadSigns, hw]
  refine ⟨fun hlt => ?_, fun heq => ?_⟩
  · dsimp only
    rw [if_pos hlt, State.placeLoad, State.place, ← hbase]
  · dsimp only
    rw [if_neg (by omega), State.endLoad, State.countSigns_eq]
    unfold State.startHeartbeat
    dsimp only
    rw [State.report_pc, State.report_settings]
    rfl

end Sys2Proof.Machine
end

section
/-! PROOFS. Header commits that apply changed settings in place: the heartbeat's modulus, and ATTN. -/

namespace Sys2Proof.Machine

/-- A valid header of the regions applied, without a restart (R25). -/
theorem State.commitHeader_inPlace {s : State} (hcause : headerCause s.mp.windowBase s.dir.image = none)
    (htaken : s.headerTaken) (hreg : s.settings.sameRegions (parseHeader s.dir.image) = true)
    (hflag : s.dir.part = .running → restartFlag s.dir.image = false) :
    s.commitHeader =
      if s.settings = parseHeader s.dir.image then s else s.applySettings (parseHeader s.dir.image) := by
  unfold State.commitHeader
  rcases htaken with hp | ⟨hp, hreached⟩
  · rw [hp, hcause]
    simp only [hflag hp, hreg, Bool.not_true, Bool.or_false, Bool.false_eq_true, if_false]
  · rw [hp, hcause]
    simp only [hreached, hreg, Bool.not_true, Bool.false_eq_true, if_false, if_true]

theorem State.changeLink_same {old new : Header} (h : new.linkEnable = old.linkEnable) (l : LinkNo) (s : State) :
    s.changeLink old new l = s := by
  simp [State.changeLink, Header.link, h]

/-- The chooser's heartbeat where the modulus is, or is not, changed to `m` in RUNNING (R121). -/
def Chooser.withModulus (changed : Bool) (m : Nat) (c : Chooser) : Chooser :=
  match changed, c.hb, decide (m = 0) with
  | true, .off, false => { c with hb := .running, hbCounter := m }
  | true, .running, true => { c with hb := .off, hbCounter := 0 }
  | true, .running, false => { c with hbCounter := m }
  | true, .lapsed, true => { c with hb := .off, hbCounter := 0 }
  | _, _, _ => c

theorem Chooser.withModulus_unchanged (m : Nat) (c : Chooser) : c.withModulus false m = c := rfl

/-- A changed modulus acts by the heartbeat state; one of 0 ends a lapse with HEARTBEAT_RESTORED (R121). -/
theorem State.changeModulus_eq (s : State) :
    s.changeModulus =
      let w : State := { s with pc := s.pc.withModulus true s.settings.heartbeatModulus }
      if s.pc.hb = .lapsed ∧ s.settings.heartbeatModulus = 0 then
        (w.report { kind := .heartbeatRestored, sign := none, page := none, detail := 2 }).evaluateEach
          fun g => g.entry.enabled
      else w := by
  unfold State.changeModulus Chooser.withModulus
  cases hb : s.pc.hb with
  | off =>
    by_cases hm : s.settings.heartbeatModulus = 0 <;> simp [hm]
  | running =>
    by_cases hm : s.settings.heartbeatModulus = 0 <;> simp [hm, hb]
  | lapsed =>
    by_cases hm : s.settings.heartbeatModulus = 0
    · simp [hm, State.restoreHeartbeat, State.evaluateAll_eq]
    · simp [hm]

/-- Ending a lapse leaves what ATTN looks at. -/
theorem State.changeModulus_attnLevel (s : State) : s.changeModulus.attnLevel = s.attnLevel := by
  rw [State.changeModulus_eq]
  dsimp only
  split
  · rw [← State.evaluateAll_eq]
    exact (State.evaluateAll_taken (State.report_taken _ (SameButTaken.refl
      { s with pc := s.pc.withModulus true s.settings.heartbeatModulus }))).attnLevel
  · rfl

/-- Settings changed in place with every link's enable as it was: the header, the modulus, then ATTN (R25; log 21). -/
theorem State.applySettings_eq {h : Header} {s : State} (hsame : h.linkEnable = s.settings.linkEnable) :
    s.applySettings h =
      { (if s.dir.part = .running ∧ s.settings.heartbeatModulus ≠ h.heartbeatModulus then
          State.changeModulus { s with dir.header := some h } else { s with dir.header := some h }) with
        rw.attn := State.attnLevel { s with dir.header := some h } } := by
  unfold State.applySettings forLinks
  dsimp only
  rw [State.changeLink_same hsame, State.changeLink_same hsame, State.changeLink_same hsame,
    State.changeLink_same hsame, State.evalAttn]
  split
  · rw [State.changeModulus_attnLevel]
  · rfl

theorem State.attnLevel_eq (s : State) :
    s.attnLevel =
      match s.rw.ring with
      | some r =>
        s.settings.attention && s.rw.placed && decide (0 < (r.published + (r.size - r.consumer % r.size)) % r.size)
      | none => false := by
  unfold State.attnLevel
  cases s.rw.ring <;> rfl

/-- Settles O15: with no link changed, settings applied in place are the modulus and ATTN. -/
theorem headerSettingsApplyInPlace : Obligations.HeaderSettingsApplyInPlace := by
  intro s addr off data c hgoes hne hoff hwin hc htaken _ v h hcause hreg hflag hsame m changed pc w x
  have hexec : exec c s = .next v.commitHeader.settle := exec_headerRecord hgoes hne hoff hwin hc
  rw [hexec, State.commitHeader_inPlace (s := v) hcause htaken hreg hflag]
  refine congrArg (fun u => Host.Outcome.next (State.settle u)) ?_
  show (if s.settings = h then v else v.applySettings h) = _
  by_cases heq : s.settings = h
  · rw [if_pos heq, if_pos heq]
  rw [if_neg heq, if_neg heq, State.applySettings_eq (s := v) hsame]
  have hx : (if v.dir.part = .running ∧ v.settings.heartbeatModulus ≠ h.heartbeatModulus then
      State.changeModulus { v with dir.header := some h } else { v with dir.header := some h }) = x := by
    have hchanged : changed = true ↔ v.dir.part = .running ∧ v.settings.heartbeatModulus ≠ h.heartbeatModulus := by
      show (s.dir.part == .running && s.settings.heartbeatModulus != m) = true ↔ _
      rw [Bool.and_eq_true, beq_iff_eq, bne_iff_ne]
      rfl
    have hw : w = { v with dir.header := some h, pc := s.pc.withModulus changed m } := rfl
    by_cases hch : changed = true
    · rw [if_pos (hchanged.mp hch), State.changeModulus_eq]
      show (if s.pc.hb = .lapsed ∧ m = 0 then _ else _) = (if changed = true ∧ s.pc.hb = .lapsed ∧ m = 0 then _ else _)
      rw [hw]
      simp only [hch, true_and]
      rfl
    · rw [if_neg (mt hchanged.mpr hch)]
      rw [Bool.not_eq_true] at hch
      rw [hch, Chooser.withModulus_unchanged] at hw
      show _ = (if changed = true ∧ s.pc.hb = .lapsed ∧ m = 0 then _ else w)
      rw [if_neg (fun hall => Bool.false_ne_true (hch.symm.trans hall.1)), hw]
      rfl
  rw [hx, State.attnLevel_eq]
  rfl

end Sys2Proof.Machine
end

section
/-! PROOFS. One sign's change at its link: what a change of its job state does, and the signs of a link turned off. -/

namespace Sys2Proof.Machine

/-! ## A change of job state (R116, R117, R127) -/

/-- The link once a sign of it is in job state `j`: the poll, the refresh timer and the survey probe that state does not
have go (R157, R164, R167). -/
def LinkState.forJob (i : SignNo) (j : Job) (k : LinkState) : LinkState :=
  { k with
    polls := if j.polled then k.polls else k.polls.filter (·.sign ≠ i)
    refresh := if j = .refreshing then k.refresh else k.refresh.filter (·.1 ≠ i)
    survey := if j.surveyed then k.survey else k.survey.filter (·.sign ≠ i) }

/-- The fault count once a sign of job state `old` is in state `new` (R117). -/
def faultsAfter (old new : Job) (n : Nat) : Nat :=
  if new.lost && !old.lost then n + 1 else if !new.lost && old.lost then n - 1 else n

/-- From `s` to `t` sign `i` comes to hold `g`, but for its record due, its link `l` comes to hold `k`, the fault count
becomes `n` and the drives follow; all else stays. -/
structure Becomes (i : SignNo) (l : LinkNo) (g : SignState) (k : LinkState) (n : Nat) (s t : State) : Prop where
  eq : ∃ signs lines, t = { s with signs := signs, lines := lines, links := s.links.set l k, pc.faultCount := n }
  sign : g.ButDue (t.sign i)
  other : OnlySign i s t

section
variable {i : SignNo} {l : LinkNo} {g : SignState} {k : LinkState} {n : Nat} {s t : State}

theorem Becomes.refl (i : SignNo) (l : LinkNo) (s : State) :
    Becomes i l (s.sign i) (s.link l) s.pc.faultCount s s where
  eq := ⟨s.signs, s.lines, (State.setLink_self l s).symm⟩
  sign := (s.sign i).butDue_refl
  other := OnlySign.of_signs rfl

theorem Becomes.links_eq (h : Becomes i l g k n s t) : t.links = s.links.set l k := by
  obtain ⟨signs, lines, he⟩ := h.eq
  rw [he]

theorem Becomes.link_self (h : Becomes i l g k n s t) : t.link l = k :=
  (State.link_congr (s := s.setLink l k) h.links_eq l).trans (State.link_setLink_self l k s)

theorem Becomes.pc_eq (h : Becomes i l g k n s t) : t.pc = { s.pc with faultCount := n } := by
  obtain ⟨signs, lines, he⟩ := h.eq
  rw [he]

theorem Becomes.rw_eq (h : Becomes i l g k n s t) : t.rw = s.rw := by
  obtain ⟨signs, lines, he⟩ := h.eq
  rw [he]

theorem Becomes.clk_eq (h : Becomes i l g k n s t) : t.clk = s.clk := by
  obtain ⟨signs, lines, he⟩ := h.eq
  rw [he]

theorem Becomes.entry_eq (h : Becomes i l g k n s t) : (t.sign i).entry = g.entry := by
  obtain ⟨b, hb⟩ := h.sign
  rw [hb]

theorem Becomes.job_eq (h : Becomes i l g k n s t) : (t.sign i).job = g.job := by
  obtain ⟨b, hb⟩ := h.sign
  rw [hb]

/-- A change of the sign that does not look at the record due. -/
theorem Becomes.modify (h : Becomes i l g k n s t) (f : SignState → SignState)
    (hf : ∀ x b, f { x with recordDue := b } = { f x with recordDue := b }) :
    Becomes i l (f g) k n s (t.modifySign i f) where
  eq := by
    obtain ⟨signs, lines, he⟩ := h.eq
    exact ⟨_, lines, by rw [he]; rfl⟩
  sign := SignState.ButDue.modify f hf h.sign
  other := OnlySign.modifySign f h.other

/-- A change of the sign's link. -/
theorem Becomes.modifyLink (h : Becomes i l g k n s t) (f : LinkState → LinkState) :
    Becomes i l g (f k) n s (t.modifyLink l f) where
  eq := by
    have hk := h.link_self
    obtain ⟨signs, lines, he⟩ := h.eq
    refine ⟨signs, lines, ?_⟩
    rw [State.modifyLink, hk, he]
    exact State.setLink_setLink l k (f k) { s with signs := signs, lines := lines, pc.faultCount := n }
  sign := h.sign
  other := h.other.trans (OnlySign.of_signs rfl)

/-- A change of the fault count, which the drives follow. -/
theorem Becomes.faults (h : Becomes i l g k n s t) (n' : Nat) :
    Becomes i l g k n' s { t with pc.faultCount := n' }.evalDrives where
  eq := by
    obtain ⟨signs, lines, he⟩ := h.eq
    exact ⟨signs, _, by rw [he]; rfl⟩
  sign := h.sign
  other := h.other.trans (OnlySign.of_signs rfl)

/-- A change of job state. -/
theorem Becomes.setJob (h : Becomes i l g k n s t) (hl : g.entry.link = l) (j : Job) :
    Becomes i l { g with job := j } (k.forJob i j) (faultsAfter g.job j n) s (t.setJob i j) := by
  have hsign := h.modify (fun g => { g with job := j }) fun _ _ => rfl
  have hlink := hsign.modifyLink (LinkState.forJob i j)
  have hentry : ((t.modifySign i fun g => { g with job := j }).sign i).entry.link = l := by
    rw [hsign.entry_eq, hl]
  have hn : (State.modifyLink l (LinkState.forJob i j) (t.modifySign i fun g => { g with job := j })).pc.faultCount = n := by
    rw [hlink.pc_eq]
  unfold State.setJob faultsAfter
  dsimp only
  rw [hentry, h.job_eq]
  show Becomes _ _ _ _ _ _ (if (j.lost && !g.job.lost) = true then _ else if (!j.lost && g.job.lost) = true then _ else
    State.modifyLink l (LinkState.forJob i j) (t.modifySign i fun g => { g with job := j }))
  split
  · rw [← hn]
    exact hlink.faults _
  · split
    · rw [← hn]
      exact hlink.faults _
    · exact hlink

/-- The sign leaves its link's queue. -/
theorem Becomes.leaveQueue (h : Becomes i l g k n s t) (hl : g.entry.link = l) :
    Becomes i l g { k with queue := k.queue.filter (·.sign ≠ i) } n s (t.leaveQueue i) := by
  unfold State.leaveQueue
  rw [h.entry_eq, hl]
  exact h.modifyLink fun k => { k with queue := k.queue.filter (·.sign ≠ i) }

end

/-! ## Signs of a link turned off (R144) -/

/-- A sign that is lost with its picture: OFFLINE, its plan and classes none (R135, R136). -/
def SignState.lostAll (g : SignState) : SignState :=
  { g with
    job := .offline, plan := none, pendingClass := none, again := none, abort := none, forceFull := true
    slots := g.slots.map Slot.lose }

theorem State.signLinkOff_becomes {i : SignNo} {l : LinkNo} {s : State} (hl : (s.sign i).entry.link = l) :
    Becomes i l (s.sign i).lostAll
      (LinkState.forJob i .offline { s.link l with queue := (s.link l).queue.filter (·.sign ≠ i) })
      (faultsAfter (s.sign i).job .offline s.pc.faultCount) s (s.signLinkOff i) := by
  have h := (((Becomes.refl i l s).modify
    (fun g => { g with slots := g.slots.map Slot.lose, forceFull := true, shownTag := (none : Option Nat).getD g.shownTag })
    fun _ _ => rfl).modify
    (fun g => { g with plan := none, pendingClass := none, again := none, abort := none }) fun _ _ => rfl)
  exact (h.leaveQueue hl).setJob hl .offline

/-- From `s` to `t` the signs of a list, all of link `l`, are lost: the fault count rises for each that was not. -/
structure SignsOff (l : LinkNo) (is : List SignNo) (s t : State) : Prop where
  eq : ∃ signs lines polls refresh, t = { s with
    signs := signs
    lines := lines
    links := s.links.set l { s.link l with
      queue := (s.link l).queue.filter fun e => e.sign ∉ is, polls := polls, refresh := refresh }
    pc.faultCount := s.pc.faultCount + is.countP fun i => !(s.sign i).job.lost }
  lost : ∀ i ∈ is, (s.sign i).lostAll.ButDue (t.sign i)
  kept : ∀ i, i ∉ is → t.sign i = s.sign i

theorem faultsAfter_offline (old : Job) (n : Nat) : faultsAfter old .offline n = n + if !old.lost then 1 else 0 := by
  have hlost : Job.offline.lost = true := rfl
  cases h : old.lost <;> simp [faultsAfter, h, hlost]

theorem State.signsOff {l : LinkNo} {is : List SignNo} (hnd : is.Nodup) {s : State}
    (hl : ∀ i ∈ is, (s.sign i).entry.link = l) : SignsOff l is s (forSigns State.signLinkOff is s) := by
  induction is generalizing s with
  | nil =>
    refine ⟨⟨s.signs, s.lines, (s.link l).polls, (s.link l).refresh, ?_⟩, nofun, fun _ _ => rfl⟩
    simp only [List.not_mem_nil, not_false_eq_true, decide_true, List.filter_true, List.countP_nil, Nat.add_zero]
    exact (State.setLink_self l s).symm
  | cons a rest ih =>
    obtain ⟨ha, hrest⟩ := List.nodup_cons.mp hnd
    have h := State.signLinkOff_becomes (hl a List.mem_cons_self)
    have hsame : ∀ i ∈ rest, (s.signLinkOff a).sign i = s.sign i := fun i hi => h.other i fun hia => ha (hia ▸ hi)
    have hk := ih hrest (s := s.signLinkOff a) fun i hi => by rw [hsame i hi, hl i (List.mem_cons_of_mem _ hi)]
    refine ⟨?_, fun i hi => ?_, fun i hi => ?_⟩
    · obtain ⟨signs, lines, polls, refresh, ht⟩ := hk.eq
      have hcount : rest.countP (fun i => !((s.signLinkOff a).sign i).job.lost) =
          rest.countP fun i => !(s.sign i).job.lost := by
        rw [List.countP_eq_length_filter, List.countP_eq_length_filter]
        exact congrArg List.length (List.filter_congr fun i hi => by rw [hsame i hi])
      have hqueue : ((s.link l).queue.filter (·.sign ≠ a)).filter (fun e => decide (e.sign ∉ rest)) =
          (s.link l).queue.filter fun e => decide (e.sign ∉ a :: rest) := by
        rw [List.filter_filter]
        exact List.filter_congr fun e _ => by simp [Bool.and_comm]
      refine ⟨signs, lines, polls, refresh, ?_⟩
      rw [forSigns, ht, hcount, h.link_self, h.links_eq, h.pc_eq, faultsAfter_offline, List.countP_cons]
      obtain ⟨_, _, he⟩ := h.eq
      rw [he]
      simp only [LinkState.forJob, hqueue, Vector.set_set, Nat.add_assoc, Nat.add_comm]
      rfl
    · rcases List.mem_cons.mp hi with rfl | hir
      · rw [show (forSigns State.signLinkOff (i :: rest) s).sign i = (s.signLinkOff i).sign i from hk.kept i ha]
        exact h.sign
      · rw [← hsame i hir]
        exact hk.lost i hir
    · obtain ⟨hia, hir⟩ := List.ne_and_not_mem_of_not_mem_cons hi
      exact (hk.kept i hir).trans (h.other i hia)

/-! ## A link turned off (R144, R169) -/

/-- A link turned off, the signs in `gone` off its queue. -/
def LinkState.turnedOff (gone : SignNo → Bool) (k : LinkState) : LinkState :=
  { k with
    queue := k.queue.filter fun e => !gone e.sign
    exch := k.exch.map fun e => { e with discard := true }
    phase := if k.exch.isSome then k.phase else .off
    job := none, polls := [], refresh := [], surveyTimer := none, surveyDue := false, survey := none }

/-- A link turned on (R166, R169). -/
def LinkState.turnedOn (interval : Nat) (k : LinkState) : LinkState :=
  { k with phase := if k.exch.isSome then k.phase else .gap, surveyTimer := some interval }

/-- The enabled signs of the links in `off`. -/
def State.enabledOn (s : State) (off : LinkNo → Bool) (i : SignNo) : Bool :=
  (s.sign i).entry.enabled && off (s.sign i).entry.link

/-- How many enabled signs of the links in `off` are not lost yet. -/
def State.notLostOn (s : State) (off : LinkNo → Bool) : Nat :=
  (List.finRange 256).countP fun i => s.enabledOn off i && !(s.sign i).job.lost

/-- From `s` to `u` the links in `off` are turned off, with their signs, and those in `on` turned on. -/
structure Turned (off on : LinkNo → Bool) (interval : Nat) (s u : State) : Prop where
  mem : u.mem = s.mem
  dir : u.dir = s.dir
  clk : u.clk = s.clk
  tm : u.tm = s.tm
  pl : u.pl = s.pl
  pc : u.pc = { s.pc with faultCount := s.pc.faultCount + s.notLostOn off }
  links : ∀ l, u.link l =
    if off l then (s.link l).turnedOff (s.enabledOn (· == l)) else if on l then (s.link l).turnedOn interval else s.link l
  waits : ∀ q ∈ u.mp.waiting, q ∈ s.mp.waiting
  withdrawn : ∀ l, off l = true → ∀ q ∈ u.mp.waiting, q.requester ≠ .link l
  lost : ∀ i, s.enabledOn off i = true → (s.sign i).lostAll.ButDue (u.sign i)
  kept : ∀ i, s.enabledOn off i = false → u.sign i = s.sign i

theorem Turned.refl (interval : Nat) (s : State) : Turned (fun _ => false) (fun _ => false) interval s s where
  mem := rfl
  dir := rfl
  clk := rfl
  tm := rfl
  pl := rfl
  pc := by simp [State.notLostOn, State.enabledOn]
  links _ := rfl
  waits _ h := h
  withdrawn _ h := by cases h
  lost i h := by simp [State.enabledOn] at h
  kept _ _ := rfl

/-- Counts of disjoint predicates add up. -/
theorem countP_or_disjoint {α : Type} (p q : α → Bool) (h : ∀ a, p a = true → q a = false) (as : List α) :
    as.countP (fun a => p a || q a) = as.countP p + as.countP q := by
  induction as with
  | nil => rfl
  | cons a rest ih =>
    have ha := h a
    rw [List.countP_cons, List.countP_cons, List.countP_cons, ih]
    cases hp : p a
    · simp only [Bool.false_or, Bool.false_eq_true, if_false]
      omega
    · simp only [ha hp, Bool.or_false, if_true, Bool.false_eq_true, if_false]
      omega

/-- What turning off link `l` does, from the loss of its signs on. -/
theorem State.linkOff_turned (l : LinkNo) (s : State) (interval : Nat) :
    Turned (· == l) (fun _ => false) interval s (s.linkOff l) := by
  have hwhere : s.signsWhere (fun g => g.entry.enabled && g.entry.link == l) =
      (List.finRange 256).filter (s.enabledOn (· == l)) := State.signsWhere_eq _ s
  have hmem : ∀ i, i ∈ (List.finRange 256).filter (s.enabledOn (· == l)) ↔ s.enabledOn (· == l) i = true :=
    fun i => by simp
  have hoff := State.signsOff ((List.nodup_finRange 256).filter (s.enabledOn (· == l))) (l := l) (s := s) fun i hi => by
    have := (hmem i).mp hi
    simp only [State.enabledOn, Bool.and_eq_true, beq_iff_eq] at this
    exact this.2
  have hcount : ((List.finRange 256).filter (s.enabledOn (· == l))).countP (fun i => !(s.sign i).job.lost) =
      s.notLostOn (· == l) := by
    rw [List.countP_filter]
    exact congrArg (fun p => (List.finRange 256).countP p) (funext fun i => Bool.and_comm _ _)
  have hgone : ∀ queue : List QueueEntry,
      queue.filter (fun e => decide (e.sign ∉ (List.finRange 256).filter (s.enabledOn (· == l)))) =
        queue.filter fun e => !s.enabledOn (· == l) e.sign :=
    fun queue => List.filter_congr fun e _ => by simp only [hmem, decide_not, Bool.decide_eq_true]
  unfold State.linkOff
  rw [hwhere]
  generalize hu : forSigns State.signLinkOff _ s = u at hoff
  obtain ⟨signs, lines, polls, refresh, he⟩ := hoff.eq
  rw [hcount, hgone] at he
  have hlost : ∀ i, s.enabledOn (· == l) i = true → (s.sign i).lostAll.ButDue (u.sign i) :=
    fun i hi => hoff.lost i ((hmem i).mpr hi)
  have hkept : ∀ i, s.enabledOn (· == l) i = false → u.sign i = s.sign i :=
    fun i hi => hoff.kept i fun h => by
      rw [(hmem i).mp h] at hi
      cases hi
  have hself : u.link l = { s.link l with
      queue := (s.link l).queue.filter fun e => !s.enabledOn (· == l) e.sign, polls := polls, refresh := refresh } := by
    rw [he]
    exact State.link_setLink_self l _ s
  have hother : ∀ m, l ≠ m → u.link m = s.link m := fun m hm => by
    rw [he]
    exact (State.link_setLink l m _ s).trans (if_neg hm)
  refine
    { mem := by rw [he]; rfl
      dir := by rw [he]; rfl
      clk := by rw [he]; rfl
      tm := by rw [he]; rfl
      pl := by rw [he]; rfl
      pc := by rw [he]; rfl
      links := fun m => ?_
      waits := fun q hq => ?_
      withdrawn := fun m hm q hq => ?_
      lost := hlost
      kept := hkept }
  · by_cases hm : l = m
    · subst hm
      simp only [State.link_modifyLink_self, State.clearJob, beq_self_eq_true, if_true]
      rw [← State.modifyLink_withdraw, State.link_modifyLink_self]
      show ({ u.link l with
        exch := (u.link l).exch.map fun e => { e with discard := true }
        phase := if (u.link l).exch.isSome then (u.link l).phase else .off
        job := none, polls := [], refresh := [], surveyTimer := none, surveyDue := false, survey := none } :
        LinkState) = _
      rw [hself]
      rfl
    · have hml : (m == l) = false := by simpa using Ne.symm hm
      simp only [hml, Bool.false_eq_true, if_false]
      rw [State.link_modifyLink, if_neg hm, ← hother m hm, State.clearJob, ← State.modifyLink_withdraw,
        State.link_modifyLink, if_neg hm]
      rfl
  · have hu : q ∈ u.mp.waiting :=
      (List.mem_filter.mp (show q ∈ (u.mp.waiting.filter fun q => !(q.requester == .link l)) from hq)).1
    rwa [he] at hu
  · have hm' : m = l := by simpa using hm
    subst hm'
    have := (List.mem_filter.mp (show q ∈ (u.mp.waiting.filter fun q => !(q.requester == .link m)) from hq)).2
    simpa using this

/-- What turning on link `l` does, where no sign changes. -/
theorem State.linkOnSet_turned (l : LinkNo) (s : State) :
    Turned (fun _ => false) (· == l) s.settings.surveyInterval s (s.linkOnSet l) :=
  { Turned.refl s.settings.surveyInterval s with
    links := fun m => by
      by_cases hm : l = m
      · subst hm
        simp only [Bool.false_eq_true, if_false, beq_self_eq_true, if_true]
        exact State.link_modifyLink_self l _ s
      · have hml : (m == l) = false := by simpa using Ne.symm hm
        simp only [hml, Bool.false_eq_true, if_false]
        exact (State.link_modifyLink l m _ s).trans (if_neg hm) }

theorem Turned.enabledOn_eq {off on : LinkNo → Bool} {interval : Nat} {s u : State} (h : Turned off on interval s u)
    (p : LinkNo → Bool) (i : SignNo) : u.enabledOn p i = s.enabledOn p i := by
  have hentry : (u.sign i).entry = (s.sign i).entry := by
    cases hi : s.enabledOn off i
    · rw [h.kept i hi]
    · obtain ⟨b, hb⟩ := h.lost i hi
      rw [hb]
      rfl
  rw [State.enabledOn, hentry, State.enabledOn]

/-- Links turned one after another, none of them twice. -/
theorem Turned.trans {off on off' on' : LinkNo → Bool} {interval : Nat} {s u v : State}
    (h : Turned off on interval s u) (k : Turned off' on' interval u v)
    (hd : ∀ l, off' l = true ∨ on' l = true → off l = false ∧ on l = false) :
    Turned (fun l => off l || off' l) (fun l => on l || on' l) interval s v := by
  have hsame : ∀ i, s.enabledOn off' i = true → s.enabledOn off i = false := by
    intro i hi
    simp only [State.enabledOn, Bool.and_eq_true] at hi
    rw [State.enabledOn, (hd _ (.inl hi.2)).1, Bool.and_false]
  have hor : ∀ i, s.enabledOn (fun l => off l || off' l) i = (s.enabledOn off i || s.enabledOn off' i) :=
    fun i => Bool.and_or_distrib_left _ _ _
  have hcount : s.notLostOn (fun l => off l || off' l) = s.notLostOn off + u.notLostOn off' := by
    have hu : u.notLostOn off' = s.notLostOn off' := by
      refine congrArg (fun p => (List.finRange 256).countP p) (funext fun i => ?_)
      rw [h.enabledOn_eq]
      cases hi : s.enabledOn off' i
      · rfl
      · rw [h.kept i (hsame i hi)]
    rw [hu, State.notLostOn, State.notLostOn, State.notLostOn, ← countP_or_disjoint]
    · refine congrArg (fun p => (List.finRange 256).countP p) (funext fun i => ?_)
      rw [hor, Bool.and_or_distrib_right]
    · intro i hi
      rw [Bool.and_eq_true] at hi
      cases hi' : s.enabledOn off' i
      · rfl
      · rw [hsame i hi'] at hi
        cases hi.1
  refine
    { mem := k.mem.trans h.mem
      dir := k.dir.trans h.dir
      clk := k.clk.trans h.clk
      tm := k.tm.trans h.tm
      pl := k.pl.trans h.pl
      pc := by rw [k.pc, h.pc, hcount, Nat.add_assoc]
      links := fun l => ?_
      waits := fun q hq => h.waits q (k.waits q hq)
      withdrawn := fun l hl q hq => ?_
      lost := fun i hi => ?_
      kept := fun i hi => ?_ }
  · rw [k.links l, h.links l]
    have hgone : u.enabledOn (· == l) = s.enabledOn (· == l) := funext (h.enabledOn_eq _)
    rw [hgone]
    cases h1 : off' l with
    | true => simp [hd l (.inl h1)]
    | false =>
      cases h2 : on' l with
      | true => simp [hd l (.inr h2)]
      | false => simp
  · rcases Bool.or_eq_true_iff.mp hl with hl | hl
    · exact h.withdrawn l hl q (k.waits q hq)
    · exact k.withdrawn l hl q hq
  · rw [hor] at hi
    cases hi' : s.enabledOn off' i
    · rw [k.kept i (by rw [h.enabledOn_eq, hi'])]
      exact h.lost i (by simpa [hi'] using hi)
    · rw [← h.kept i (hsame i hi')]
      exact k.lost i (by rw [h.enabledOn_eq, hi'])
  · rw [hor, Bool.or_eq_false_iff] at hi
    rw [k.kept i (by rw [h.enabledOn_eq, hi.2]), h.kept i hi.1]

/-! ## Header commits that turn links (R25) -/

/-- The links that a change from header `old` to `new` turns off, and on. -/
def Header.turnsOff (old new : Header) (l : LinkNo) : Bool := old.linkEnable.getLsbD l && !new.linkEnable.getLsbD l

def Header.turnsOn (old new : Header) (l : LinkNo) : Bool := !old.linkEnable.getLsbD l && new.linkEnable.getLsbD l

theorem State.changeLink_turned (old new : Header) (l : LinkNo) (s : State) :
    Turned (fun m => m == l && old.turnsOff new m) (fun m => m == l && old.turnsOn new m) s.settings.surveyInterval s
      (s.changeLink old new l) := by
  have honly : ∀ (p : LinkNo → Bool) (b : Bool), p l = b → (fun m => m == l && p m) = fun m => m == l && b := by
    intro p b hp
    funext m
    by_cases hm : m = l
    · rw [hm, hp]
    · rw [beq_false_of_ne hm, Bool.false_and, Bool.false_and]
  unfold State.changeLink
  cases ho : old.link l <;> cases hn : new.link l <;>
    rw [honly (old.turnsOff new) _ (by unfold Header.turnsOff; exact congrArg₂ (fun a b => a && !b) ho hn),
      honly (old.turnsOn new) _ (by unfold Header.turnsOn; exact congrArg₂ (fun a b => !a && b) ho hn)]
  · simpa using Turned.refl s.settings.surveyInterval s
  · simpa using State.linkOnSet_turned l s
  · simpa using State.linkOff_turned l s s.settings.surveyInterval
  · simpa using Turned.refl s.settings.surveyInterval s

theorem State.changeLinks_turned (old new : Header) (s : State) :
    Turned (old.turnsOff new) (old.turnsOn new) s.settings.surveyInterval s (forLinks (State.changeLink old new) s) := by
  have hset : ∀ (l : LinkNo) (u : State), u.dir = s.dir →
      Turned (fun m => m == l && old.turnsOff new m) (fun m => m == l && old.turnsOn new m) s.settings.surveyInterval u
        (u.changeLink old new l) := by
    intro l u hu
    have h := State.changeLink_turned old new l u
    rwa [show u.settings = s.settings by rw [State.settings, hu]; rfl] at h
  have hall : ∀ p : LinkNo → Bool,
      (fun m : LinkNo => ((m == 0 && p m || m == 1 && p m) || m == 2 && p m) || m == 3 && p m) = p := by
    intro p
    funext m
    match m with
    | 0 | 1 | 2 | 3 => simp
  have hd : ∀ {a l : LinkNo} {p q : Bool}, (l == a && p) = true ∨ (l == a && q) = true → l = a := fun h =>
    h.elim (fun h => eq_of_beq (Bool.and_eq_true_iff.mp h).1) fun h => eq_of_beq (Bool.and_eq_true_iff.mp h).1
  have h0 := hset 0 s rfl
  have h1 := h0.trans (hset 1 _ h0.dir) fun l hl => by rw [hd hl]; exact ⟨rfl, rfl⟩
  have h2 := h1.trans (hset 2 _ h1.dir) fun l hl => by rw [hd hl]; exact ⟨rfl, rfl⟩
  have h3 := h2.trans (hset 3 _ h2.dir) fun l hl => by rw [hd hl]; exact ⟨rfl, rfl⟩
  rw [hall, hall] at h3
  exact h3

theorem Turned.attn {off on : LinkNo → Bool} {interval : Nat} {s u : State} (h : Turned off on interval s u) :
    Turned off on interval s u.evalAttn :=
  ⟨h.mem, h.dir, h.clk, h.tm, h.pl, h.pc, h.links, h.waits, h.withdrawn, h.lost, h.kept⟩

/-- Settings applied in place where the heartbeat's modulus does not change in RUNNING. -/
theorem State.applySettings_turned {h : Header} {s : State}
    (hm : s.dir.part = .running → h.heartbeatModulus = s.settings.heartbeatModulus) :
    Turned (s.settings.turnsOff h) (s.settings.turnsOn h) h.surveyInterval { s with dir.header := some h }
      (s.applySettings h) := by
  have hlinks := State.changeLinks_turned s.settings h { s with dir.header := some h }
  unfold State.applySettings
  dsimp only
  rw [if_neg]
  · exact hlinks.attn
  · rw [hlinks.dir]
    exact fun hno => hno.2 (hm hno.1).symm

/-- A header that is the one applied turns no link. -/
theorem State.same_turned {h : Header} {s : State} (heq : s.settings = h) (interval : Nat) :
    Turned (s.settings.turnsOff h) (s.settings.turnsOn h) interval s s := by
  subst heq
  have hoff : s.settings.turnsOff s.settings = fun _ => false := funext fun l => Bool.and_not_self _
  have hon : s.settings.turnsOn s.settings = fun _ => false := funext fun l => Bool.not_and_self _
  rw [hoff, hon]
  exact Turned.refl interval s

/-- The fault count's rise, as the signs' list whose length it is. -/
theorem State.notLostOn_eq (s : State) (off : LinkNo → Bool) :
    s.notLostOn off = ((List.finRange 256).filter fun i =>
      (s.sign i).entry.enabled && off (s.sign i).entry.link &&
        !((s.sign i).job == .offline) && !((s.sign i).job == .panelFault)).length := by
  rw [State.notLostOn, List.countP_eq_length_filter]
  refine congrArg List.length (List.filter_congr fun i _ => ?_)
  simp only [State.enabledOn, Job.lost, Bool.not_or, Bool.and_assoc]

/-- Settles O16: what `Turned` says of the links in turn, read off for one header. -/
theorem headerTurnsLinksOnAndOff : Obligations.HeaderTurnsLinksOnAndOff := by
  intro s addr off data hgoes hne hoff hwin htaken hhead v h hcause hreg hflag hmod turnedOff turnedOn
  have hexec : exec (.headerCommit addr data) s = .next v.commitHeader.settle :=
    exec_headerRecord hgoes hne hoff hwin (.inl rfl)
  rw [State.commitHeader_inPlace (s := v) hcause htaken hreg hflag] at hexec
  have hturned : Turned turnedOff turnedOn h.surveyInterval { v with dir.header := some h }
      (if v.settings = h then v else v.applySettings h) := by
    by_cases heq : v.settings = h
    · have hv : ({ v with dir.header := some h } : State) = v := by
        have hsome : v.dir.header = some h := by
          obtain ⟨x, hx⟩ := Option.ne_none_iff_exists'.mp hhead
          have hset : v.settings = x := congrArg (fun o : Option Header => o.getD _) hx
          exact hx.trans (congrArg some (hset.symm.trans heq))
        rw [← hsome]
      rw [if_pos heq, hv]
      exact State.same_turned heq h.surveyInterval
    · rw [if_neg heq]
      exact State.applySettings_turned (h := h) (s := v) hmod
  generalize (if v.settings = h then v else v.applySettings h) = u at hexec hturned
  have hon : ∀ i, v.enabledOn turnedOff i = true ↔
      (s.sign i).entry.enabled = true ∧ turnedOff (s.sign i).entry.link = true := fun i => Bool.and_eq_true_iff
  refine ⟨u, hexec, hturned.mem, hturned.dir, hturned.clk, hturned.tm, hturned.pl, fun l hl => ?_, fun l hl => ?_,
    fun l hl hl' => ?_, fun i hi hl => ⟨?_, fun e he hei => ?_⟩, fun i hi => hturned.kept i ?_, ?_⟩
  · have hlink := hturned.links l
    rw [if_pos hl] at hlink
    rw [hlink]
    exact ⟨rfl, rfl, rfl, rfl, rfl, rfl, rfl, rfl, rfl, hturned.withdrawn l hl⟩
  · have hno : turnedOff l = false := by
      show (_ && _) = false
      rw [(Bool.and_eq_true_iff.mp hl).2]
      exact Bool.and_false _
    have hlink := hturned.links l
    rw [if_neg (by simp [hno]), if_pos hl] at hlink
    exact hlink
  · have hlink := hturned.links l
    rw [if_neg (by simp [hl]), if_neg (by simp [hl'])] at hlink
    exact hlink
  · obtain ⟨b, hb⟩ := hturned.lost i ((hon i).mpr ⟨hi, hl⟩)
    rw [hb]
    rfl
  · have hlink := hturned.links (s.sign i).entry.link
    rw [if_pos hl] at hlink
    rw [hlink] at he
    have hgone := (List.mem_filter.mp he).2
    rw [hei] at hgone
    have hmine : v.enabledOn (· == (s.sign i).entry.link) i = true :=
      Bool.and_eq_true_iff.mpr ⟨hi, beq_self_eq_true _⟩
    exact Bool.false_ne_true (((Bool.not_eq_true' _).mp hgone).symm.trans hmine)
  · exact Bool.eq_false_iff.mpr fun h => hi ((hon i).mp h)
  · rw [hturned.pc, State.notLostOn_eq]
    rfl

end Sys2Proof.Machine
end

section
/-! PROOFS. The header's causes, and the fields of the host-written records. -/

namespace Sys2Proof.Machine

/-! ## Overlap (R7, R23) -/

theorem offsetFrom_self (x : Nat) : offsetFrom x x = 0 := by
  unfold offsetFrom
  rw [Nat.add_sub_cancel_left, Nat.mod_self]

/-- Two extents that are not empty overlap where some address lies in both: the base of one of them. -/
theorem extentsOverlap_iff {a b : Nat × Nat} (ha : a.1 < Config.memorySize) (hb : b.1 < Config.memorySize)
    (hpa : 0 < a.2) (hpb : 0 < b.2) :
    extentsOverlap a b = true ↔ ∃ x < Config.memorySize, offsetFrom a.1 x < a.2 ∧ offsetFrom b.1 x < b.2 := by
  refine ⟨fun h => ?_, fun ⟨x, hx, h1, h2⟩ => extentsOverlap_of_both hx ha hb h1 h2⟩
  unfold extentsOverlap at h
  rw [Bool.or_eq_true, decide_eq_true_eq, decide_eq_true_eq] at h
  rcases h with h | h
  · exact ⟨b.1, hb, h, by rwa [offsetFrom_self]⟩
  · exact ⟨a.1, ha, by rwa [offsetFrom_self], h⟩

theorem anyOverlap_eq_false_iff (l : List (Nat × Nat)) :
    anyOverlap l = false ↔ l.Pairwise fun a b => extentsOverlap a b = false := by
  induction l with
  | nil => simp [anyOverlap]
  | cons e rest ih => simp [anyOverlap, ih]

theorem anyOverlap_iff (l : List (Nat × Nat)) :
    anyOverlap l = true ↔ ∃ i j : Fin l.length, i < j ∧ extentsOverlap l[i] l[j] = true := by
  rw [← Bool.not_eq_false, anyOverlap_eq_false_iff, List.pairwise_iff_getElem]
  push Not
  constructor
  · rintro ⟨i, j, hi, hj, hij, h⟩
    exact ⟨⟨i, hi⟩, ⟨j, hj⟩, hij, Bool.not_eq_false _ ▸ h⟩
  · rintro ⟨i, j, hij, h⟩
    exact ⟨i, j, i.2, j.2, hij, by simpa using h⟩

/-! ## Byte order (R183) -/

theorem Memory.num_lt (m : Memory) (off : Nat) : m.num off < 256 := (m.read off).isLt

theorem Memory.word_eq (m : Memory) (off : Nat) : m.word off = m.num off * 256 + m.num (off + 1) := rfl

theorem Memory.addr24_eq (m : Memory) (off : Nat) :
    m.addr24 off = m.num off * 65536 + m.num (off + 1) * 256 + m.num (off + 2) := rfl

theorem Memory.addr24_lt (m : Memory) (off : Nat) : m.addr24 off < Config.memorySize := by
  have h0 := m.num_lt off
  have h1 := m.num_lt (off + 1)
  have h2 := m.num_lt (off + 2)
  rw [m.addr24_eq]
  show _ < 16777216
  omega

/-! ## The header's causes (R23) -/

/-- The extents of a header with a tile have their bases in memory and are not empty. -/
theorem extents_proper {base : Nat} {m : Memory} (hbase : base < Config.memorySize) (hcount : m.word 8 ≠ 0) :
    ∀ e ∈ (parseHeader m).extents base, e.1 < Config.memorySize ∧ 0 < e.2 := by
  have rounded : ∀ off unit, m.addr24 off / unit * unit < Config.memorySize := fun off unit =>
    Nat.lt_of_le_of_lt (Nat.div_mul_le_self _ _) (m.addr24_lt off)
  have hring : 0 < clamp 16 4096 (m.word 0x18) := Nat.lt_of_lt_of_le (by decide) (Nat.le_max_left _ _)
  have htiles : 0 < min 8192 (m.word 8) := by omega
  intro e he
  simp only [Header.extents, List.mem_cons, List.not_mem_nil, or_false] at he
  rcases he with rfl | rfl | rfl | rfl | rfl
  · exact ⟨hbase, (by decide : 0 < Config.windowSize)⟩
  · exact ⟨rounded _ _, Nat.mul_pos htiles (by decide)⟩
  · exact ⟨rounded _ _, (by decide : 0 < Config.mapAreaSize)⟩
  · exact ⟨rounded _ _, (by decide : 0 < Config.scheduleAreaSize)⟩
  · exact ⟨rounded _ _, Nat.mul_pos hring (by decide)⟩

/-- Settles O14: the first three causes by their tests; for the fourth, two extents overlap where some byte is in both. -/
theorem headerCausesInOrder : Obligations.HeaderCausesInOrder := by
  intro base m hbase
  refine ⟨fun h => ?_, fun h0 h => ?_, fun h0 h2 h => ?_, fun h0 h2 h8 => ?_⟩
  · exact if_pos h
  · simp only [headerCause, h0, h, ne_eq, not_true_eq_false, not_false_eq_true, if_true, if_false]
  · simp only [headerCause, h0, h2, h, ne_eq, not_true_eq_false, if_true, if_false]
  · have hcause : headerCause base m = if anyOverlap ((parseHeader m).extents base) then some 4 else none := by
      simp only [headerCause, h0, h2, h8, ne_eq, not_true_eq_false, if_false]
    have hproper := extents_proper hbase h8
    rw [hcause]
    refine ⟨?_, ?_⟩
    · have h4 : (if anyOverlap ((parseHeader m).extents base) then some 4 else none) = some 4 ↔
          anyOverlap ((parseHeader m).extents base) = true := by
        split <;> simp_all
      rw [h4, anyOverlap_iff]
      constructor
      · rintro ⟨a, ha, i, j, hij, hboth⟩
        obtain ⟨e, he, hea⟩ := hboth i (.inl rfl)
        obtain ⟨f, hf, hfa⟩ := hboth j (.inr rfl)
        obtain ⟨hi, rfl⟩ := List.getElem?_eq_some_iff.mp he
        obtain ⟨hj, rfl⟩ := List.getElem?_eq_some_iff.mp hf
        have hpi := hproper _ (List.getElem_mem hi)
        have hpj := hproper _ (List.getElem_mem hj)
        exact ⟨⟨i, hi⟩, ⟨j, hj⟩, hij, extentsOverlap_of_both ha hpi.1 hpj.1 hea hfa⟩
      · rintro ⟨i, j, hij, h⟩
        have hpi := hproper _ (List.getElem_mem i.2)
        have hpj := hproper _ (List.getElem_mem j.2)
        obtain ⟨a, ha, hia, hja⟩ := (extentsOverlap_iff hpi.1 hpj.1 hpi.2 hpj.2).mp h
        refine ⟨a, ha, i, j, hij, ?_⟩
        rintro k (rfl | rfl)
        · exact ⟨_, List.getElem?_eq_getElem k.2, hia⟩
        · exact ⟨_, List.getElem?_eq_getElem k.2, hja⟩
    · split
      · exact .inr rfl
      · exact .inl rfl

/-! ## The fields of the records (R24, R27, R29, R183) -/

/-- A base rounded down to a multiple of `unit`. -/
theorem rounded_down {unit : Nat} (hu : 0 < unit) (a : Nat) :
    unit ∣ a / unit * unit ∧ a / unit * unit ≤ a ∧ a < a / unit * unit + unit :=
  ⟨Nat.dvd_mul_left _ _, Nat.div_mul_le_self _ _, by
    have := Nat.lt_mul_div_succ a hu
    rw [Nat.mul_comm]
    exact this⟩

theorem clamp_eq {lo hi : Nat} (h : lo ≤ hi) (n : Nat) :
    clamp lo hi n = if n < lo then lo else if hi < n then hi else n := by
  unfold clamp
  split
  · omega
  · split <;> omega

/-- A value clamped from above alone: no byte or word is below 0. -/
theorem min_eq_within (hi n : Nat) : min hi n = if n < 0 then 0 else if hi < n then hi else n := by
  rw [if_neg (Nat.not_lt_zero n)]
  split <;> omega

/-- A value clamped from below alone: no byte is above 255. -/
theorem max_eq_within {lo n : Nat} (h : n < 256) :
    max lo n = if n < lo then lo else if 255 < n then 255 else n := by
  split
  · omega
  · split <;> omega

theorem min_eq_ite (hi n : Nat) : min hi n = if n ≤ hi then n else hi := by
  split <;> omega

theorem Memory.signed16_word (m : Memory) (off : Nat) :
    signed16 (m.word off) =
      ((m.num off * 256 + m.num (off + 1) : Nat) : Int) - (if 128 ≤ m.num off then 65536 else 0) := by
  have h1 := m.num_lt (off + 1)
  rw [m.word_eq]
  unfold signed16
  split <;> split <;> omega

/-- The mask's bit for zone z is bit z mod 8 of byte floor(z / 8). -/
theorem zoneMask_getLsbD (m : Memory) (off : Nat) {z : Nat} (hz : z < 64) :
    (zoneMask m off).getLsbD z = (m.read (off + z / 8)).getLsbD (z % 8) := by
  have hbyte : z / 8 < 8 := by omega
  obtain ⟨q, hq⟩ : ∃ q, q = z / 8 := ⟨_, rfl⟩
  rw [← hq] at hbyte ⊢
  simp only [zoneMask, BitVec.getLsbD_append]
  interval_cases q <;> simp (disch := omega) only [if_pos, if_neg] <;> congr 1 <;> omega

/-- What the part takes of the header, field by field. -/
theorem headerFields_clamped (m : Memory) :
    let h := parseHeader m
    let b (off : Nat) : Nat := (m.read off).toNat
    let word (off : Nat) : Nat := b off * 256 + b (off + 1)
    let signed (off : Nat) : Int := (word off : Int) - (if 128 ≤ b off then 65536 else 0)
    let within (lo hi v : Nat) : Nat := if v < lo then lo else if hi < v then hi else v
    let rounded (off unit x : Nat) : Prop :=
      let a := b off * 65536 + b (off + 1) * 256 + b (off + 2)
      unit ∣ x ∧ x ≤ a ∧ a < x + unit
    rounded 0x04 256 h.tileBase ∧ h.tileCount = (if word 0x08 ≤ 8192 then word 0x08 else 8192) ∧
    rounded 0x0C 4096 h.mapBase ∧ rounded 0x10 2048 h.schedBase ∧ rounded 0x14 16 h.ringBase ∧
    h.ringSize = within 16 4096 (word 0x18) ∧
    (∀ l : LinkNo, h.linkEnable.getLsbD l = (m.read 0x20).getLsbD l ∧ h.rates[l] = within 0 3 (b (0x24 + l.val))) ∧
    h.answerWindow = within 1 15 (b 0x28) ∧ h.retryLimit = within 1 15 (b 0x29) ∧ h.backoffCap = within 0 7 (b 0x2A) ∧
    h.pollInterval = within 5 255 (b 0x2B) ∧
    h.refreshLimit = (if b 0x2C = 0 then 120 else within 1 120 (b 0x2C)) ∧
    h.surveyInterval = within 1 255 (b 0x2D) ∧ h.fraction = within 0 8 (b 0x2E) ∧
    h.lineFilter = within 1 255 (b 0x2F) ∧ h.coldThreshold = signed 0x30 ∧ h.freezeThreshold = signed 0x32 ∧
    h.heartbeatModulus = word 0x34 ∧ h.attention = (m.read 0x36).getLsbD 0 := by
  intro h b word signed within rounded
  refine ⟨rounded_down (by decide) _, min_eq_ite _ _, rounded_down (by decide) _, rounded_down (by decide) _,
    rounded_down (by decide) _, clamp_eq (by decide) _, fun l => ⟨?enable, ?rate⟩, clamp_eq (by decide) _,
    clamp_eq (by decide) _, min_eq_within _ _, max_eq_within (m.num_lt _), ?refresh, max_eq_within (m.num_lt _),
    min_eq_within _ _, max_eq_within (m.num_lt _), m.signed16_word _, m.signed16_word _, rfl, rfl⟩
  case enable =>
    show ((m.read 0x20).setWidth 4).getLsbD l = _
    rw [BitVec.getLsbD_setWidth, decide_eq_true l.isLt, Bool.true_and]
  case rate =>
    fin_cases l <;> exact min_eq_within 3 _
  case refresh =>
    show (if m.num 0x2C = 0 then 120 else min 120 (m.num 0x2C)) = if m.num 0x2C = 0 then 120 else within 1 120 (m.num 0x2C)
    split
    · rfl
    · show _ = if m.num 0x2C < 1 then 1 else if 120 < m.num 0x2C then 120 else m.num 0x2C
      split
      · omega
      · split <;> omega

/-- What the part takes of a line entry. -/
theorem lineFields_clamped (m : Memory) (n : LineNo) :
    let o := 0x100 + 16 * n.val
    let e := parseLine m n
    e.mode = (match m.num o with
      | 1 => .alertLevel
      | 2 => .alertLatched
      | 3 => if n = 3 then .minutePulse else .off
      | 4 => .faultOutput
      | _ => .off) ∧
    e.activeHigh = (m.read (o + 1)).getLsbD 0 ∧
    e.alertPage = some (if m.num (o + 2) ≤ 7 then m.num (o + 2) else 7) ∧
    ∀ z < 64, e.zones.getLsbD z = (m.read (o + 4 + z / 8)).getLsbD (z % 8) := by
  intro o e
  refine ⟨?_, rfl, congrArg some (min_eq_ite 7 _), fun z hz => zoneMask_getLsbD m _ hz⟩
  show (lineMode n (m.num o)).getD .off = _
  generalize m.num o = code
  match code with
  | 0 | 1 | 2 | 4 | _ + 5 => rfl
  | 3 =>
    show (if n = 3 then some LineMode.minutePulse else none).getD .off = if n = 3 then .minutePulse else .off
    split <;> rfl

/-- What the part takes of a sign entry. -/
theorem signFields_clamped (m : Memory) (i : SignNo) :
    let b (k : Nat) : Nat := (m.read (0x1000 + 16 * i.val + k)).toNat
    let e := (rawSign m i).clamped
    e.enabled = (m.read (0x1000 + 16 * i.val)).getLsbD 0 ∧ e.link.val = b 1 / 64 ∧ e.drop = b 1 % 64 ∧
    e.zone = b 2 % 64 ∧ e.columns = (if b 3 ≤ 16 then b 3 else 16) ∧ e.rows = (if b 4 ≤ 16 then b 4 else 16) ∧
    e.pageCount = (if b 5 ≤ 8 then b 5 else 8) ∧
    (b 6 = 0xFF → e.fallback = none) ∧
    (b 6 < e.pageCount → e.fallback = some (b 6)) ∧
    (e.pageCount ≤ b 6 → b 6 ≠ 0xFF → e.fallback = some (e.pageCount - 1)) ∧
    e.ghostLimit = (if b 7 ≤ 15 then b 7 else 15) ∧ e.scheduleCount = b 8 := by
  intro b e
  have hlink : b 1 / 64 < 4 := by
    have : b 1 < 256 := m.num_lt _
    omega
  have hpages : e.pageCount = min 8 (b 5) := rfl
  have hfallback : e.fallback = (if b 6 = 0xFF then none else some (b 6)).map (min (e.pageCount - 1)) := rfl
  refine ⟨rfl, Nat.mod_eq_of_lt hlink, rfl, rfl, min_eq_ite _ _, min_eq_ite _ _, min_eq_ite _ _, fun h => ?_,
    fun h => ?_, fun h hff => ?_, min_eq_ite _ _, rfl⟩
  · rw [hfallback, if_pos h]
    rfl
  · rw [hfallback, if_neg (by omega), Option.map_some, Nat.min_eq_right (by omega)]
  · rw [hfallback, if_neg hff, Option.map_some, Nat.min_eq_left (by omega)]

/-- Settles O17, record by record. -/
theorem entryFieldsAreClamped : Obligations.EntryFieldsAreClamped :=
  ⟨headerFields_clamped, lineFields_clamped, signFields_clamped⟩

end Sys2Proof.Machine
end

section
/-! PROOFS. Sign-entry commits by their cases, and what an enable gives the sign. -/

namespace Sys2Proof.Machine

/-! ## What an evaluation changes (R71, R123) -/

/-- An evaluation changes the sign and the page loader's queue. -/
theorem State.evaluate_changes (i : SignNo) (s : State) :
    ∃ signs queue, s.evaluate i = { s with signs := signs, pl.queue := queue } := by
  unfold State.evaluate State.queueActivation State.joinActivation
  dsimp only
  split
  · split
    · exact ⟨_, _, rfl⟩
    · exact ⟨_, s.pl.queue, rfl⟩
  · exact ⟨s.signs, s.pl.queue, rfl⟩

theorem State.evaluate_clk (i : SignNo) (s : State) : (s.evaluate i).clk = s.clk := by
  obtain ⟨signs, queue, h⟩ := s.evaluate_changes i
  rw [h]

/-! ## Marking RESYNC at a commit (R30, R97, R100) -/

/-- Two changes of a sign in turn, of which the second touches no field of its status record. -/
theorem State.modifySign_modifySign {i : SignNo} {f f' : SignState → SignState}
    (hview : ∀ g, (f' g).statusView = g.statusView)
    (hdue : ∀ g b, f' { g with recordDue := b } = { f' g with recordDue := b })
    (s : State) : (s.modifySign i f).modifySign i f' = s.modifySign i fun g => f' (f g) := by
  unfold State.modifySign
  refine congrArg (fun x => { s with signs := x }) ?_
  have hself : State.sign { s with signs := s.signs.set i ((s.sign i).markDue (f (s.sign i))) } i =
      (s.sign i).markDue (f (s.sign i)) := State.sign_modifySign_self i f s
  rw [hself, SignState.markDue_of_view (hview _), Vector.set_set]
  refine congrArg (s.signs.set i ·) ?_
  unfold SignState.markDue
  rw [hview]
  split
  · rfl
  · exact hdue _ _

/-- The sign marked at a commit that leaves it enabled. -/
def SignState.commitMarked (engine : SchedEngine) (i : SignNo) (g : SignState) : SignState :=
  { g with workDue := .resync, redo := decide (engine.sign = some i) || g.redo, orderReported := none }

theorem State.resyncCommitted_eq (i : SignNo) (s : State) :
    s.resyncCommitted i = s.modifySign i (SignState.commitMarked s.clk.engine i) := by
  unfold State.resyncCommitted
  rw [State.markResync_eq]
  exact State.modifySign_modifySign (f' := fun g => { g with orderReported := none }) (fun _ => rfl) (fun _ _ => rfl) s

/-! ## The cases of a sign-entry commit (R29, R30) -/

section
variable {i : SignNo} {s : State}

/-- An entry with its enable off: the sign ends DISABLED. -/
theorem State.commitSign_off (h : (rawSign s.dir.image i).enabled = false) :
    s.commitSign i = (s.disableIfEnabled i).setEntry i (rawSign s.dir.image i).clamped := by
  simp only [State.commitSign, h, Bool.false_eq_true, if_false]

/-- An entry refused for its geometry: CONFIG, and the sign ends DISABLED. -/
theorem State.commitSign_refused {c : Nat} (h : (rawSign s.dir.image i).enabled = true)
    (hc : (rawSign s.dir.image i).geometryCause = some c) :
    s.commitSign i = ((s.report { kind := .config, sign := some i, page := none, detail := c }).disableIfEnabled i).setEntry
      i { rawSign s.dir.image i with enabled := false } := by
  simp only [State.commitSign, h, hc, if_true]

/-- An entry that stands: the sign is enabled, changed in place, or disabled and enabled again. -/
theorem State.commitSign_stands (h : (rawSign s.dir.image i).enabled = true)
    (hc : (rawSign s.dir.image i).geometryCause = none) :
    s.commitSign i =
      if (s.sign i).entry.enabled = false then s.enableSign i (rawSign s.dir.image i).clamped
      else if (s.sign i).entry.samePanel (rawSign s.dir.image i).clamped then s.updateSign i (rawSign s.dir.image i).clamped
      else (s.disableSign i).takeUp.enableSign i (rawSign s.dir.image i).clamped := by
  simp only [State.commitSign, h, hc, if_true, Bool.not_eq_true']

end

theorem SignEntry.geometryCause_of_zero {e : SignEntry} (h : e.columns = 0 ∨ e.rows = 0 ∨ e.pageCount = 0) :
    e.geometryCause = some (if e.columns = 0 ∨ e.rows = 0 then 1 else 2) := by
  unfold SignEntry.geometryCause
  by_cases hpanel : e.columns = 0 ∨ e.rows = 0
  · rw [if_pos hpanel, if_pos hpanel]
  · rw [if_neg hpanel, if_neg hpanel, if_pos (h.elim (fun h => absurd (.inl h) hpanel) fun h =>
      h.elim (fun h => absurd (.inr h) hpanel) id)]

theorem SignEntry.geometryCause_none {e : SignEntry} (hc : e.columns ≠ 0) (hr : e.rows ≠ 0) (hp : e.pageCount ≠ 0) :
    e.geometryCause = none := by
  unfold SignEntry.geometryCause
  rw [if_neg (fun h => h.elim hc hr), if_neg hp]

theorem SignEntry.samePanel_iff (a b : SignEntry) :
    a.samePanel b = true ↔ a.link = b.link ∧ a.drop = b.drop ∧ a.columns = b.columns ∧ a.rows = b.rows ∧
      a.pageCount = b.pageCount := by
  simp only [SignEntry.samePanel, Bool.and_eq_true, beq_iff_eq, and_assoc]

theorem SignEntry.sameChoice_iff (a b : SignEntry) :
    a.sameChoice b = true ↔ a.zone = b.zone ∧ a.fallback = b.fallback ∧ a.ghostLimit = b.ghostLimit := by
  simp only [SignEntry.sameChoice, Bool.and_eq_true, beq_iff_eq, and_assoc]

/-- A commit that changes the sign in place. -/
theorem State.updateSign_eq (i : SignNo) (e : SignEntry) (s : State) :
    s.updateSign i e =
      (if (s.sign i).entry.sameChoice e then s.setEntry i e else (s.setEntry i e).evaluate i).modifySign i
        (SignState.commitMarked s.clk.engine i) := by
  unfold State.updateSign
  rw [State.resyncCommitted_eq]
  refine congrArg (fun c : Clock => State.modifySign i (SignState.commitMarked c.engine i) _) ?_
  split
  · rfl
  · exact State.evaluate_clk i _

/-- Settles O23, case by case of `commitSign`. -/
theorem signEntryCommitByCase : Obligations.SignEntryCommitByCase := by
  intro s addr off data i hgoes hne hlow hoff hwin v raw e old same ends
  have hi := i.isLt
  have hexec : ∀ t, (if s.signReached i = true then v.commitSign i else v) = t → ends t := by
    rintro t rfl
    show exec (.signEntryCommit addr data) s = _
    rw [exec_record (c := 0x100F + 16 * i.val) (by simp [writeRows]) hgoes hne (by omega) hwin
      (fun o h1 h2 => .inr (.inr (.inr (.inr (.inr ⟨by omega, by omega, by omega⟩)))))
      (by simp only [Sys2Proof.Machine.imaged, Bool.or_eq_true, Bool.and_eq_true, decide_eq_true_eq]; omega),
      State.windowAction_sign]
    rfl
  refine ⟨fun hr => hexec _ (by simp [hr]), fun hr => ?_⟩
  have hcommit : ∀ t, v.commitSign i = t → ends t := fun t ht => hexec t (by simp [hr, ht])
  refine ⟨fun hraw => hcommit _ (State.commitSign_off hraw), fun hraw => ⟨fun hzero => ?_, fun hc hrows hp => ?_⟩⟩
  · intro r
    refine hcommit _ ((State.commitSign_refused hraw (SignEntry.geometryCause_of_zero hzero)).trans ?_)
    have hentry : (r.sign i).entry = old := (State.report_moved _ (Moved.refl v)).entry i
    show State.setEntry i _ (if (r.sign i).entry.enabled = true then r.disableSign i else r) = _
    rw [hentry]
  · have hstands := State.commitSign_stands (s := v) hraw (SignEntry.geometryCause_none hc hrows hp)
    refine ⟨fun hen => hcommit _ (hstands.trans (if_pos hen)), fun hen hsame => hcommit _ (hstands.trans ?_),
      fun hen hsame => ?_⟩
    · exact (if_neg (by simp [show (v.sign i).entry.enabled = true from hen])).trans
        (if_neg fun h => hsame ((SignEntry.samePanel_iff _ _).mp h))
    · intro w x
      refine hcommit _ (hstands.trans ((if_neg (by simp [show (v.sign i).entry.enabled = true from hen])).trans
        ((if_pos ((SignEntry.samePanel_iff _ _).mpr hsame)).trans ((State.updateSign_eq i e v).trans ?_))))
      have hx : (if old.sameChoice e then v.setEntry i e else (v.setEntry i e).evaluate i) = x := by
        by_cases hchoice : old.sameChoice e = true
        · exact (if_pos hchoice).trans (if_pos ((SignEntry.sameChoice_iff _ _).mp hchoice)).symm
        · exact (if_neg hchoice).trans (if_neg fun h => hchoice ((SignEntry.sameChoice_iff _ _).mpr h)).symm
      exact congrArg (State.modifySign i (SignState.commitMarked s.clk.engine i)) hx

/-! ## Reading a change of job state, and the wanted page under it (R116, R122) -/

theorem State.sign_setJob_self (i : SignNo) (j : Job) (s : State) :
    (s.setJob i j).sign i = (s.sign i).markDue { s.sign i with job := j } := by
  have hself := State.sign_modifySign_self i (fun g => { g with job := j }) s
  unfold State.setJob
  dsimp only
  split
  · exact hself
  · split <;> exact hself

/-- The alert pages look at the lines' entries and alerts alone. -/
theorem State.alertPageFor_congr {s t : State}
    (h : ∀ n, (t.line n).entry = (s.line n).entry ∧ (t.line n).alert = (s.line n).alert) (zone : Nat) :
    t.alertPageFor zone = s.alertPageFor zone := by
  have hcovers : ∀ n, (t.line n).covers zone = (s.line n).covers zone := fun n => by
    rw [LineState.covers, (h n).1, (h n).2]
    rfl
  unfold State.alertPageFor
  simp only [List.find?_cons, hcovers]
  cases (s.line 0).covers zone
  · cases (s.line 1).covers zone
    · cases (s.line 2).covers zone
      · cases (s.line 3).covers zone
        · rfl
        · simp [(h 3).1]
      · simp [(h 2).1]
    · simp [(h 1).1]
  · simp [(h 0).1]

theorem State.evalDrives_alertPageFor (s : State) (zone : Nat) : s.evalDrives.alertPageFor zone = s.alertPageFor zone :=
  State.alertPageFor_congr (fun n => by rw [State.line_evalDrives]; exact ⟨rfl, rfl⟩) zone

theorem State.setJob_alertPageFor (i : SignNo) (j : Job) (s : State) (zone : Nat) :
    (s.setJob i j).alertPageFor zone = s.alertPageFor zone := by
  unfold State.setJob
  dsimp only
  split
  · exact State.evalDrives_alertPageFor _ zone
  · split
    · exact State.evalDrives_alertPageFor _ zone
    · rfl

/-- The wanted page looks at the alert pages, the heartbeat, and the sign's entry and schedule page. -/
theorem State.wantedFor_congr {s t : State} {g h : SignState} (halert : ∀ z, t.alertPageFor z = s.alertPageFor z)
    (hhb : t.pc.hb = s.pc.hb) (hentry : h.entry = g.entry) (hpage : h.schedulePage = g.schedulePage) :
    t.wantedFor h = s.wantedFor g := by
  unfold State.wantedFor
  rw [halert, hhb, hentry, hpage]

/-- A change of a sign that leaves its record due. -/
theorem State.sign_modifySign_due {i : SignNo} {f : SignState → SignState} {s : State}
    (h : (f (s.sign i)).recordDue = true) : (s.modifySign i f).sign i = f (s.sign i) :=
  (State.sign_modifySign_self i f s).trans (SignState.markDue_of_due h)

/-- An evaluation of an enabled sign whose record is due: the wanted page, and its place in the page loader's queue. -/
theorem State.sign_evaluate_self {i : SignNo} {s : State} (hen : (s.sign i).entry.enabled = true)
    (hdue : (s.sign i).recordDue = true) :
    ∃ a, (s.evaluate i).sign i = { s.sign i with wanted := some (s.wantedFor (s.sign i)), activation := a } := by
  have hwanted : (s.modifySign i fun g => { g with wanted := some (s.wantedFor g) }).sign i =
      { s.sign i with wanted := some (s.wantedFor (s.sign i)) } := State.sign_modifySign_due hdue
  unfold State.evaluate State.queueActivation State.joinActivation
  rw [if_pos hen]
  dsimp only
  split
  · have hdue' : ((s.modifySign i fun g => { g with wanted := some (s.wantedFor g) }).sign i).recordDue = true := by
      rw [hwanted]
      exact hdue
    have hqueued := State.sign_modifySign_due (f := fun g => { g with activation := .queued }) hdue'
    rw [hwanted] at hqueued
    exact ⟨.queued, hqueued⟩
  · exact ⟨(s.sign i).activation, hwanted⟩

/-! ## Enable (R31, R32) -/

/-- A link and drop that an enabled sign holds: where the drops are distinct, that sign is the one found. -/
theorem State.dropHolder_eq_some {s : State} (hd : s.DropsDistinct) {j : SignNo} {e : SignEntry}
    (hen : (s.sign j).entry.enabled = true) (hl : (s.sign j).entry.link = e.link)
    (hdrop : (s.sign j).entry.drop = e.drop) :
    s.dropHolder e = some j := by
  cases hfound : s.dropHolder e with
  | none =>
    have := (State.findSign_eq_none s _).mp hfound j
    simp [hen, hl, hdrop] at this
  | some k =>
    have hk := State.findSign_some hfound
    simp only [Bool.and_eq_true, beq_iff_eq] at hk
    obtain ⟨⟨hken, hkl⟩, hkd⟩ := hk
    rw [hd k j hken hen (hkl.trans hl.symm) (hkd.trans hdrop.symm)]

theorem State.dropHolder_eq_none {s : State} {e : SignEntry}
    (h : ∀ j, (s.sign j).entry.enabled = true → (s.sign j).entry.link = e.link → (s.sign j).entry.drop ≠ e.drop) :
    s.dropHolder e = none := by
  refine (State.findSign_eq_none s _).mpr fun j => Bool.eq_false_iff.mpr fun hj => ?_
  simp only [Bool.and_eq_true, beq_iff_eq] at hj
  exact h j hj.1.1 hj.1.2 hj.2

/-- The sign of an enable that stands: its values of every block, the job state, the RESYNC mark, the wanted page. -/
theorem State.enableSign_sign {s : State} {i : SignNo} {e : SignEntry} (hen : e.enabled = true)
    (hfree : s.dropHolder e = none) :
    ∃ a, (s.enableSign i e).sign i =
      { SignState.commitMarked s.clk.engine i
          { (s.sign i).enabledWith e with job := if s.linkOn e.link then .shown else .offline } with
        wanted := some (s.wantedFor { s.sign i with entry := e }), activation := a } := by
  let j : Job := if s.linkOn e.link then .shown else .offline
  let s1 := s.modifySign i (SignState.enabledWith e)
  let s2 := s1.setJob i j
  let s3 := s2.modifySign i (SignState.commitMarked s2.clk.engine i)
  have h1 : s1.sign i = (s.sign i).enabledWith e := State.sign_modifySign_due rfl
  have h2 : s2.sign i = { (s.sign i).enabledWith e with job := j } := by
    rw [State.sign_setJob_self, h1, SignState.markDue_of_due rfl]
  have hbecomes := (Becomes.refl i e.link s1).setJob (by rw [h1]; rfl) j
  have hclk : s2.clk = s.clk := hbecomes.clk_eq
  have h3 : s3.sign i = SignState.commitMarked s.clk.engine i { (s.sign i).enabledWith e with job := j } := by
    rw [State.sign_modifySign_due (by rw [h2]; rfl), h2, hclk]
  have hu : s.enableSign i e = s3.evaluate i := by
    unfold State.enableSign
    rw [hfree]
    exact congrArg (State.evaluate i) (State.resyncCommitted_eq i s2)
  have hhb : s2.pc.hb = s.pc.hb := by
    rw [hbecomes.pc_eq]
    rfl
  have hwanted : s3.wantedFor (s3.sign i) = s.wantedFor { s.sign i with entry := e } :=
    State.wantedFor_congr (fun z => State.setJob_alertPageFor i j s1 z)
      hhb (by rw [h3]; rfl) (by rw [h3]; rfl)
  obtain ⟨a, ha⟩ := State.sign_evaluate_self (s := s3) (i := i) (by rw [h3]; exact hen) (by rw [h3]; rfl)
  exact ⟨a, by rw [hu, ha, hwanted, h3]⟩

/-- What else an enable that stands leaves and counts. -/
theorem State.enableSign_rest {s : State} {i : SignNo} {e : SignEntry} (hjob : (s.sign i).job = .disabled)
    (hfree : s.dropHolder e = none) :
    OnlySign i s (s.enableSign i e) ∧ (s.enableSign i e).dir = s.dir ∧ (s.enableSign i e).rw = s.rw ∧
      (s.enableSign i e).pc.faultCount = if s.linkOn e.link then s.pc.faultCount else s.pc.faultCount + 1 := by
  let j : Job := if s.linkOn e.link then .shown else .offline
  let s1 := s.modifySign i (SignState.enabledWith e)
  have h1 : s1.sign i = (s.sign i).enabledWith e := State.sign_modifySign_due rfl
  have hbecomes := (Becomes.refl i e.link s1).setJob (by rw [h1]; rfl) j
  have hu : s.enableSign i e =
      ((s1.setJob i j).modifySign i (SignState.commitMarked (s1.setJob i j).clk.engine i)).evaluate i := by
    unfold State.enableSign
    rw [hfree]
    exact congrArg (State.evaluate i) (State.resyncCommitted_eq i (s1.setJob i j))
  obtain ⟨signs, queue, he⟩ :=
    ((s1.setJob i j).modifySign i (SignState.commitMarked (s1.setJob i j).clk.engine i)).evaluate_changes i
  have honly : OnlySign i s (s1.setJob i j) := (OnlySign.modify i _ s).trans hbecomes.other
  refine ⟨?_, ?_, ?_, ?_⟩
  · rw [hu]
    exact (OnlySign.modifySign _ honly).trans (State.evaluate_only i _)
  · rw [hu, he]
    exact (State.setJob_moved i j (Moved.refl s1)).dir
  · rw [hu, he]
    exact hbecomes.rw_eq
  · have hcount : (s1.setJob i j).pc.faultCount = faultsAfter (s1.sign i).job j s.pc.faultCount := by
      rw [hbecomes.pc_eq]
      rfl
    have hold : (s1.sign i).job = .disabled := by
      rw [h1]
      exact hjob
    rw [hu, he]
    refine hcount.trans ?_
    rw [hold]
    by_cases hon : s.linkOn e.link = true
    · rw [if_pos hon, show j = .shown from if_pos hon]
      rfl
    · rw [if_neg hon, show j = .offline from if_neg hon]
      rfl

/-- Settles O25. -/
theorem enableStartsTheSign : Obligations.EnableStartsTheSign := by
  intro s i e hoff hjob hen u
  refine ⟨fun j hd hjen hjl hjd => ?_, fun hno => ?_⟩
  · show s.enableSign i e = _
    unfold State.enableSign
    rw [State.dropHolder_eq_some hd hjen hjl hjd]
  · have hfree := State.dropHolder_eq_none hno
    obtain ⟨a, hsign⟩ := State.enableSign_sign (i := i) hen hfree
    obtain ⟨honly, hdir, hrw, hcount⟩ := State.enableSign_rest (i := i) hjob hfree
    refine ⟨?_, ?_, ?_, ?_, ?_, ?_, ?_, ?_, ?_, ?_, ?_, ?_, ?_, ?_, ?_, ?_, ?_, ?_, honly, hdir, hrw, hcount⟩ <;>
      exact (congrArg _ hsign).trans rfl

end Sys2Proof.Machine
end

section
/-! PROOFS. The end of an attempt: retries, silence, discarded exchanges, and the refresh limit. -/

namespace Sys2Proof.Machine

/-! ## Reports (R175, R176) -/

theorem State.accepts_congr {s t : State} (hrw : t.rw = s.rw) (r : Ring) (k : ReportKind) :
    t.accepts r k = s.accepts r k := by
  rw [State.accepts, hrw]
  rfl

theorem State.acceptEntry_rw_congr {s t : State} (hrw : t.rw = s.rw) (hclk : t.clk = s.clk) (r : Ring) (rep : Report) :
    (t.acceptEntry r rep).rw = (s.acceptEntry r rep).rw := by
  simp only [State.acceptEntry, State.now, hrw, hclk]

theorem ite_rw_congr {c c' : Bool} {a a' b b' : State} (hc : c = c') (ha : a.rw = a'.rw) (hb : b.rw = b'.rw) :
    (if c then a else b).rw = (if c' then a' else b').rw := by
  subst hc
  split
  · exact ha
  · exact hb

theorem State.startSuppression_rw_congr {s t : State} (hrw : t.rw = s.rw) (hclk : t.clk = s.clk) :
    t.startSuppression.rw = s.startSuppression.rw := by
  unfold State.startSuppression
  rw [hrw]
  cases s.rw.ring with
  | none => exact hrw
  | some r =>
    exact ite_rw_congr rfl (ite_rw_congr (State.accepts_congr (by rfl) r _)
      (State.acceptEntry_rw_congr (by rfl) (by exact hclk) r _) (by rfl)) hrw

/-- What a report does to the writer hangs on the writer and the clock alone. -/
theorem State.report_rw_congr {s t : State} (hrw : t.rw = s.rw) (hclk : t.clk = s.clk) (rep : Report) :
    (t.report rep).rw = (s.report rep).rw := by
  unfold State.report
  rw [hrw]
  cases s.rw.ring with
  | none => exact hrw
  | some r =>
    exact ite_rw_congr (State.accepts_congr hrw r rep.kind)
      (State.startSuppression_rw_congr (State.acceptEntry_rw_congr hrw hclk r rep) hclk) hrw

theorem State.sign_report (rep : Report) (s : State) (i : SignNo) : (s.report rep).sign i = s.sign i := by
  rw [State.report_rw]
  rfl

theorem State.link_report (rep : Report) (s : State) (l : LinkNo) : (s.report rep).link l = s.link l := by
  rw [State.report_rw]
  rfl

/-! ## The end of an attempt (R152, R153, R156, R169) -/

theorem exec_answerWindowExpiry {s : State} {l : LinkNo} {t : Nat} (hr : s.resetHeld = false)
    (hphase : (s.link l).phase = .awaiting) :
    exec (.answerWindowExpiry l t) s = .next (s.attemptEnds l (.failed 1) t).settle :=
  congrArg Host.Outcome.next (State.onEvent_of _ hr (beq_iff_eq.mpr hphase))

theorem exec_stateAnswer {s : State} {l : LinkNo} {bytes : List Byte} {t : Nat} {e : Exchange}
    (hr : s.resetHeld = false) (hphase : (s.link l).phase = .receiving ∨ ((s.link l).phase = .awaiting ∧ bytes ≠ []))
    (he : (s.link l).exch = some e) :
    exec (.stateAnswer l bytes t) s =
      .next (s.attemptEnds l (judge e.drop (bytes.foldl storeCharacter (s.link l).rx)) t).settle := by
  have hmay : (s.link l).mayAnswer bytes = true := by
    unfold LinkState.mayAnswer
    rcases hphase with h | ⟨h, hb⟩ <;> simp [*]
  have hverdict : (s.link l).verdict bytes = judge e.drop (bytes.foldl storeCharacter (s.link l).rx) := by
    rw [LinkState.verdict, he]
    rfl
  rw [← hverdict]
  exact congrArg Host.Outcome.next (State.onEvent_of _ hr hmay)

theorem State.attemptEnds_discarded {s : State} {l : LinkNo} {e : Exchange} (he : (s.link l).exch = some e)
    (hd : e.discard = true) (v : Verdict) (t : Nat) :
    s.attemptEnds l v t = if e.purpose.ofJob then (s.endAttempt l).clearJob l else s.endAttempt l := by
  simp only [State.attemptEnds, he, hd, if_true]

theorem State.attemptEnds_kept {s : State} {l : LinkNo} {e : Exchange} (he : (s.link l).exch = some e)
    (hd : e.discard = false) (v : Verdict) (t : Nat) :
    s.attemptEnds l v t = (s.endAttempt l).attemptOut l e v t := by
  simp only [State.attemptEnds, he, hd, Bool.false_eq_true, if_false]

theorem Purpose.ofJob_iff (p : Purpose) : p.ofJob = true ↔ p = .jobProbe ∨ p = .jobLoad ∨ p = .jobShow := by
  simp only [Purpose.ofJob, Bool.or_eq_true, beq_iff_eq, or_assoc]

theorem State.attemptOut_jobFailed {l : LinkNo} {e : Exchange} (h : e.purpose.ofJob = true) (reason t : Nat) (s : State) :
    s.attemptOut l e (.failed reason) t = s.jobFailed l e.sign e.purpose reason := by
  unfold State.attemptOut
  cases hp : e.purpose with
  | poll => rw [hp] at h; cases h
  | survey => rw [hp] at h; cases h
  | jobProbe => rfl
  | jobLoad => rfl
  | jobShow => rfl

theorem State.attemptOut_pollFailed {l : LinkNo} {e : Exchange} (h : e.purpose = .poll) (reason t : Nat) (s : State) :
    s.attemptOut l e (.failed reason) t = s.pollFailed l e.sign reason t := by
  simp only [State.attemptOut, h]

theorem State.attemptOut_surveyFailed {l : LinkNo} {e : Exchange} (h : e.purpose = .survey) (reason t : Nat) (s : State) :
    s.attemptOut l e (.failed reason) t = s.surveyFailed l e.sign reason := by
  simp only [State.attemptOut, h]

/-! ## Silence (R136, R137, R155) -/

/-- A sign that has gone OFFLINE by silence, its picture lost or, from PANEL_FAULT, lost before. -/
def SignState.silenced (lose : Bool) (g : SignState) : SignState :=
  { g with
    job := .offline, plan := none, pendingClass := none, again := none, abort := none
    slots := if lose then g.slots.map Slot.lose else g.slots, forceFull := lose || g.forceFull }

/-- From `s` to `u` sign `i` falls silent: OFFLINE, SIGN_OFFLINE with a detail, the fault count. -/
structure FallsSilent (i : SignNo) (lose : Bool) (detail : Nat) (s u : State) : Prop where
  sign : ((s.sign i).silenced lose).ButDue (u.sign i)
  other : OnlySign i s u
  report : u.rw = (s.report
    { kind := .signOffline, sign := some i, page := (s.sign i).activePage, detail := detail }).rw
  count : u.pc.faultCount = faultsAfter (s.sign i).job .offline s.pc.faultCount

theorem State.silenced_becomes {i : SignNo} {l : LinkNo} {s : State} (hl : (s.sign i).entry.link = l) (lose : Bool) :
    Becomes i l ((s.sign i).silenced lose) (LinkState.forJob i .offline (s.link l))
      (faultsAfter (s.sign i).job .offline s.pc.faultCount) s
      (((if lose then s.loss i none else s).dropWork i).setJob i .offline) := by
  cases lose with
  | true =>
    exact (((Becomes.refl i l s).modify
      (fun g => { g with
        slots := g.slots.map Slot.lose, forceFull := true, shownTag := (none : Option Nat).getD g.shownTag })
      fun _ _ => rfl).modify (fun g => { g with plan := none, pendingClass := none, again := none, abort := none })
      fun _ _ => rfl).setJob hl .offline
  | false =>
    exact ((Becomes.refl i l s).modify
      (fun g => { g with plan := none, pendingClass := none, again := none, abort := none }) fun _ _ => rfl).setJob hl .offline

theorem State.goOffline_silent {i : SignNo} {l : LinkNo} {s : State} (hl : (s.sign i).entry.link = l) (lose : Bool)
    (p : Purpose) (reason : Nat) :
    FallsSilent i lose (p.code * 256 + reason) s (s.goOffline i lose p reason) ∧
      (s.goOffline i lose p reason).link l = LinkState.forJob i .offline (s.link l) := by
  have h := State.silenced_becomes hl lose
  unfold State.goOffline
  dsimp only
  generalize ((if lose then s.loss i none else s).dropWork i).setJob i .offline = v at h ⊢
  have hpage : (v.sign i).activePage = (s.sign i).activePage := by
    obtain ⟨b, hb⟩ := h.sign
    rw [hb]
    rfl
  unfold State.reportSign
  rw [hpage]
  exact
    ⟨{ sign := by rw [State.sign_report]; exact h.sign
       other := h.other.trans (OnlySign.of_signs (State.report_signs _ _))
       report := State.report_rw_congr h.rw_eq h.clk_eq _
       count := by rw [State.report_pc, h.pc_eq] }, (State.link_report _ v l).trans h.link_self⟩

/-- The end of a job context touches no sign, report or fault count. -/
theorem FallsSilent.clearJob {i : SignNo} {lose : Bool} {detail : Nat} {s u : State} (h : FallsSilent i lose detail s u)
    (l : LinkNo) : FallsSilent i lose detail s (u.clearJob l) :=
  ⟨h.sign, h.other.trans (OnlySign.of_signs rfl), h.report, h.count⟩

/-- A link's change before the sign falls silent is none of the sign, the reports or the fault count. -/
theorem FallsSilent.of_setLink {i : SignNo} {lose : Bool} {detail : Nat} {l : LinkNo} {x : LinkState} {s u : State}
    (h : FallsSilent i lose detail (s.setLink l x) u) : FallsSilent i lose detail s u :=
  ⟨h.sign, h.other, h.report.trans (State.report_rw_congr (by rfl) (by rfl) _), h.count⟩

/-- A sign that was not OFFLINE raises the fault count unless it was in PANEL_FAULT. -/
theorem FallsSilent.count_eq {i : SignNo} {lose : Bool} {detail : Nat} {s u : State} (h : FallsSilent i lose detail s u)
    (hjob : (s.sign i).job ≠ .offline) :
    u.pc.faultCount = if (s.sign i).job = .panelFault then s.pc.faultCount else s.pc.faultCount + 1 := by
  rw [h.count, faultsAfter_offline]
  cases hold : (s.sign i).job with
  | offline => exact absurd hold hjob
  | panelFault => rfl
  | _ => rfl

/-- Everything a silent sign shows, its record due apart. -/
theorem FallsSilent.silent {i : SignNo} {lose : Bool} {detail : Nat} {s u : State} (h : FallsSilent i lose detail s u)
    (hjob : (s.sign i).job ≠ .offline) :
    { u.sign i with recordDue := (s.sign i).recordDue } = (s.sign i).silenced lose ∧
      (∀ j, j ≠ i → u.sign j = s.sign j) ∧
      u.rw = (s.report { kind := .signOffline, sign := some i, page := (s.sign i).activePage, detail := detail }).rw ∧
      u.pc.faultCount = if (s.sign i).job = .panelFault then s.pc.faultCount else s.pc.faultCount + 1 := by
  refine ⟨?_, h.other, h.report, h.count_eq hjob⟩
  obtain ⟨b, hb⟩ := h.sign
  rw [hb]
  rfl

theorem State.link_clearJob_self (l : LinkNo) (s : State) : (s.clearJob l).link l = { s.link l with job := none } :=
  State.link_modifyLink_self l (fun k => { k with job := none }) s

theorem State.sign_clearJob (l : LinkNo) (s : State) (i : SignNo) : (s.clearJob l).sign i = s.sign i := rfl

/-! ## A stopped job (R130, R131) -/

/-- The sign joins its link's queue. -/
theorem Becomes.joinQueue {i : SignNo} {l : LinkNo} {g : SignState} {k : LinkState} {n : Nat} {s t : State}
    (h : Becomes i l g k n s t) (hl : g.entry.link = l) (c : Class) :
    Becomes i l { g with job := .queued, pendingClass := some c }
      { k.forJob i .queued with
        queue := insertQueue { sign := i, cls := c } ((k.forJob i .queued).queue.filter (·.sign ≠ i)) }
      (faultsAfter g.job .queued n) s (t.joinQueue i c) := by
  have hsign := (h.setJob hl .queued).modify (fun g => { g with pendingClass := some c }) fun _ _ => rfl
  unfold State.joinQueue
  dsimp only
  rw [hsign.entry_eq, hl]
  exact hsign.modifyLink fun k =>
    { k with queue := insertQueue { sign := i, cls := c } (k.queue.filter (·.sign ≠ i)) }

/-- A sign whose job an abort class has stopped. -/
def SignState.stopped (c : Class) (g : SignState) : SignState :=
  { g with job := .queued, plan := none, forceFull := true, again := none, abort := none, pendingClass := some c }

theorem State.stopJob_becomes {i : SignNo} {l : LinkNo} {s : State} (hl : (s.sign i).entry.link = l)
    (extra : Option Class) :
    ∃ c k n v, Becomes i l ((s.sign i).stopped c) k n s v ∧ s.stopJob i extra = v.clearJob l := by
  have hjoin := ((Becomes.refl i l s).modify
    (fun g => { g with plan := none, forceFull := true, again := none, abort := none }) fun _ _ => rfl).joinQueue hl
    ((raise (raise (raise (s.sign i).pendingClass (s.sign i).abort) (s.sign i).again) extra).getD .content)
  refine ⟨_, _, _, _, hjoin, ?_⟩
  unfold State.stopJob
  dsimp only
  rw [hjoin.entry_eq]
  exact congrArg (State.clearJob · _) hl

/-- A job that an abort class has stopped: its sign is QUEUED, and its link holds no job context. -/
theorem State.stopJob_queued {i : SignNo} {l : LinkNo} {s u : State} (hl : (s.sign i).entry.link = l)
    (hu : u = s.stopJob i none) :
    (u.sign i).job = .queued ∧ (u.sign i).plan = none ∧ (u.sign i).forceFull = true ∧ (u.sign i).abort = none ∧
      (u.sign i).again = none ∧ (u.link l).job = none ∧ u.rw = s.rw := by
  obtain ⟨c, k, n, v, hv, hstop⟩ := State.stopJob_becomes hl none
  rw [hstop] at hu
  subst hu
  obtain ⟨b, hb⟩ := hv.sign
  rw [State.link_clearJob_self, State.sign_clearJob, hb]
  exact ⟨rfl, rfl, rfl, rfl, rfl, rfl, hv.rw_eq⟩

/-! ## Failed attempts by purpose (R131, R154, R157, R167) -/

theorem State.setLink_modifyLink (l : LinkNo) (x : LinkState) (f : LinkState → LinkState) (s : State) :
    (s.setLink l x).modifyLink l f = s.setLink l (f x) := by
  rw [State.modifyLink, State.link_setLink_self, State.setLink_setLink]

theorem State.mayRetry_iff (s : State) (n : Nat) : s.mayRetry n = true ↔ n ≤ s.settings.retryLimit := decide_eq_true_iff

section
variable {s : State} {l : LinkNo} {i : SignNo} {reason : Nat}

/-- A failed attempt of a job's exchange: the stop of an aborted job, the next retry, or silence. -/
theorem State.jobFailed_eq {c : JobCtx} (hc : (s.link l).job = some c) (p : Purpose) :
    s.jobFailed l i p reason =
      if (s.sign i).abort ≠ none then s.stopJob i none
      else if c.attempts + 1 ≤ s.settings.retryLimit then
        s.modifyLink l fun k =>
          { k with
            job := some { c with
              attempts := c.attempts + 1, wait := .backoff (s.retryMs (c.attempts + 1))
              window := some s.settings.answerWindow } }
      else s.jobSilent i p reason := by
  simp only [State.jobFailed, hc, State.mayRetry_iff, Option.isSome_iff_ne_none]

theorem State.pollFailed_eq {p : Poll} (hp : (s.link l).polls.find? (·.sign = i) = some p) (t : Nat) :
    s.pollFailed l i reason t =
      if p.attempts + 1 ≤ s.settings.retryLimit then
        s.modifyLink l (LinkState.modifyPoll i fun p =>
          { p with attempts := p.attempts + 1, due := t + s.retryMs (p.attempts + 1) * 1000, passed := false,
                   window := some s.settings.answerWindow })
      else s.goOffline i true .poll reason := by
  have hfind : (s.link l).polls.find? (·.sign == i) = some p := hp
  simp only [State.pollFailed, hfind, State.mayRetry_iff]

theorem State.pollFailed_none (hno : ∀ p ∈ (s.link l).polls, p.sign ≠ i) (t : Nat) :
    s.pollFailed l i reason t = s := by
  have hfind : (s.link l).polls.find? (·.sign == i) = none :=
    List.find?_eq_none.mpr fun p hp => by simpa using hno p hp
  simp only [State.pollFailed, hfind]

theorem State.surveyFailed_none (hno : (s.link l).survey = none) : s.surveyFailed l i reason = s := by
  simp only [State.surveyFailed, hno]

theorem State.surveyFailed_eq {v : Survey} (hv : (s.link l).survey = some v) :
    s.surveyFailed l i reason =
      if v.single = false ∧ v.attempts + 1 ≤ s.settings.retryLimit then
        s.modifyLink l fun k =>
          { k with
            survey := some { v with
              attempts := v.attempts + 1, wait := .backoff (s.retryMs (v.attempts + 1))
              window := some s.settings.answerWindow } }
      else (s.modifyLink l fun k => { k with survey := none }).surveySilent i reason := by
  simp only [State.surveyFailed, hv, Bool.and_eq_true, Bool.not_eq_true', State.mayRetry_iff]

/-- A job's silence: the sign falls silent and the job context is cleared. -/
theorem State.jobSilent_silent (hl : (s.sign i).entry.link = l) (p : Purpose) :
    FallsSilent i true (p.code * 256 + reason) s (s.jobSilent i p reason) ∧
      ((s.jobSilent i p reason).link l).job = none := by
  obtain ⟨hgo, -⟩ := State.goOffline_silent hl true p reason
  unfold State.jobSilent
  rw [hl, State.link_clearJob_self]
  exact ⟨hgo.clearJob l, rfl⟩

/-- A survey probe's silence leaves no probe on the link. -/
theorem State.surveySilent_survey (hl : (s.sign i).entry.link = l) (hno : (s.link l).survey = none) :
    ((s.surveySilent i reason).link l).survey = none := by
  have hgo : ∀ lose, ((s.goOffline i lose .survey reason).link l).survey = none := fun lose => by
    rw [(State.goOffline_silent hl lose .survey reason).2]
    exact hno
  unfold State.surveySilent
  split
  · exact hgo true
  · exact hgo true
  · exact hgo false
  · exact hno

end

end Sys2Proof.Machine
end

section
/-! PROOFS. Failures by event: the end of a failed and of a discarded attempt, and the refresh limit. -/

namespace Sys2Proof.Machine

/-! ## The end of a discarded attempt (R31, R40, R169, R170) -/

/-- A discarded attempt of a link, by its window or an answer: the job context goes with its tile read. -/
theorem State.clearJob_eq (l : LinkNo) (s : State) :
    s.clearJob l =
      let left := s.mp.waiting.filter (·.requester ≠ .link l)
      { s with
        links := s.links.set l { s.link l with job := none }
        mp.waiting := left
        mp.grantCount := if left = [] then 0 else s.mp.grantCount
        mp.running := s.mp.running.map fun x => if x.req.requester = .link l then { x with discard := true } else x } := by
  refine (State.withdrawIf_eq true (.link l) (s.modifyLink l fun k => { k with job := none })).trans ?_
  simp [MemPath.without, State.modifyLink, State.setLink]

/-! ## The refresh limit (R135, R137, R164) -/

/-- The planned slots are lost, each once or more. -/
theorem foldl_lose_eq (planned : List PlannedSlot) (slots : List Slot) :
    planned.foldl (fun slots q => modifySlot q.index Slot.lose slots) slots =
      slots.mapIdx fun k y => if ∃ q ∈ planned, q.index = k then y.lose else y := by
  induction planned generalizing slots with
  | nil =>
    refine List.ext_getElem? fun k => ?_
    simp
  | cons q rest ih =>
    rw [List.foldl_cons, ih]
    refine List.ext_getElem? fun k => ?_
    rw [List.getElem?_mapIdx, List.getElem?_mapIdx, modifySlot, List.getElem?_modify, Option.map_eq_map, Option.map_map]
    refine congrArg (slots[k]?.map ·) (funext fun y => ?_)
    by_cases hq : q.index = k
    · have hlose : y.lose.lose = y.lose := rfl
      simp [hq, hlose]
    · simp [hq]

/-- A REFRESHING sign whose limit has run out. -/
def SignState.refreshLost (p : Plan) (g : SignState) : SignState :=
  { g with
    job := .offline, plan := none, pendingClass := none, again := none, abort := none, forceFull := true
    slots := if g.generation = p.generation then
        g.slots.mapIdx fun k y => if ∃ q ∈ p.planned, q.index = k then y.lose else y
      else g.slots }

theorem State.refreshExpires_becomes {i : SignNo} {l : LinkNo} {p : Plan} {s : State} (hl : (s.sign i).entry.link = l)
    (hp : (s.sign i).plan = some p) :
    ∃ v, Becomes i l ((s.sign i).refreshLost p) (LinkState.forJob i .offline (s.link l))
        (faultsAfter (s.sign i).job .offline s.pc.faultCount) s v ∧
      s.refreshExpires i = v.report { kind := .refreshTimeout, sign := some i, page := some p.page, detail := p.tag } := by
  have hlost : Becomes i l { s.sign i with forceFull := true, slots := ((s.sign i).refreshLost p).slots }
      (s.link l) s.pc.faultCount s
      (State.modifySign i (fun g => { g with forceFull := true })
        (if (s.sign i).generation = p.generation then s.lossPlanned i p else s)) := by
    by_cases hg : (s.sign i).generation = p.generation
    · have hslots : ((s.sign i).refreshLost p).slots =
          (s.sign i).slots.mapIdx fun k y => if ∃ q ∈ p.planned, q.index = k then y.lose else y := if_pos hg
      rw [if_pos hg, hslots, ← foldl_lose_eq]
      exact ((Becomes.refl i l s).modify (fun g => { g with
          slots := p.planned.foldl (fun slots q => modifySlot q.index Slot.lose slots) g.slots, forceFull := true })
        fun _ _ => rfl).modify (fun g => { g with forceFull := true }) fun _ _ => rfl
    · have hslots : ((s.sign i).refreshLost p).slots = (s.sign i).slots := if_neg hg
      rw [if_neg hg, hslots]
      exact (Becomes.refl i l s).modify (fun g => { g with forceFull := true }) fun _ _ => rfl
  have hjob := (hlost.modify (fun g => { g with plan := none, pendingClass := none, again := none, abort := none })
    fun _ _ => rfl).setJob hl .offline
  refine ⟨_, hjob, ?_⟩
  unfold State.refreshExpires
  dsimp only
  rw [hp]
  rfl

/-! ## Failures (R154, R155) -/

section
variable {i : SignNo} {s : State} {reason : Nat}

theorem State.surveySilent_shownOrCold (h : (s.sign i).job = .shown ∨ (s.sign i).job = .cold) :
    s.surveySilent i reason = s.goOffline i true .survey reason := by
  rcases h with h | h <;> simp only [State.surveySilent, h]

theorem State.surveySilent_panelFault (h : (s.sign i).job = .panelFault) :
    s.surveySilent i reason = s.goOffline i false .survey reason := by
  simp only [State.surveySilent, h]

theorem State.surveySilent_offline (h : (s.sign i).job = .offline) : s.surveySilent i reason = s := by
  simp only [State.surveySilent, h]

end

/-- Settles O54. A failed attempt goes by its purpose to `jobFailed`, `pollFailed` or `surveyFailed`, on the link whose
attempt has ended; a discarded one ends there. -/
theorem failuresAreRetriedOrSilent : Obligations.FailuresAreRetriedOrSilent := by
  refine ⟨?failed, ?discarded, ?refresh⟩
  case failed =>
    intro s l t e event reason hr he hl hevent k i g x put limit wait lose ofJob
    have hexec : exec event s = .next (s.attemptEnds l (.failed reason) t).settle := by
      rcases hevent with ⟨rfl, hphase, rfl⟩ | ⟨bytes, rfl, hphase, hjudge⟩
      · exact exec_answerWindowExpiry hr hphase
      · rw [exec_stateAnswer hr hphase he, hjudge]
    refine ⟨_, hexec, ?_⟩
    generalize hu : s.attemptEnds l (.failed reason) t = u
    intro silent hkept
    have hout : s.attemptEnds l (.failed reason) t = (s.setLink l x).attemptOut l e (.failed reason) t :=
      State.attemptEnds_kept he hkept _ t
    rw [hout] at hu
    have hlink : (s.setLink l x).link l = x := State.link_setLink_self l x s
    have hput : ∀ f : LinkState → LinkState, (s.setLink l x).modifyLink l f = put (f x) := fun f =>
      State.setLink_modifyLink l x f s
    have hsilent : ∀ {code lost y}, FallsSilent i lost (code * 256 + reason) (s.setLink l y) u → g.job ≠ .offline →
        silent code lost := fun h hjob => h.of_setLink.silent hjob
    refine ⟨fun c hof htransfer hc => ?job, fun p hpoll hpolled hp => ?poll, fun hpoll hno => ?noPoll,
      fun hsurvey hno => ?noSurvey, fun v hsurvey hv => ?survey⟩
    case job =>
      have hc' : ((s.setLink l x).link l).job = some c := by
        rw [hlink]
        exact hc
      rw [State.attemptOut_jobFailed (e.purpose.ofJob_iff.mpr hof), State.jobFailed_eq hc'] at hu
      refine ⟨fun habort => ?_, fun habort hmay => ?_, fun habort hmay => ?_⟩
      · exact State.stopJob_queued (s := s.setLink l x) hl (hu.symm.trans (if_pos habort))
      · exact (hu.symm.trans ((if_neg (not_not_intro habort)).trans (if_pos hmay))).trans (hput _)
      · have hu := hu.symm.trans ((if_neg (not_not_intro habort)).trans (if_neg (Nat.not_le.mpr hmay)))
        obtain ⟨hgo, hjob⟩ := State.jobSilent_silent (s := s.setLink l x) (reason := reason) hl e.purpose
        rw [← hu] at hgo hjob
        refine ⟨hjob, ?_⟩
        have hcode : e.purpose.code = match e.purpose with | .jobProbe => 1 | .jobLoad => 2 | _ => 3 := by
          rcases hof with h | h | h <;> rw [h] <;> rfl
        rw [hcode] at hgo
        exact hsilent hgo (by rw [htransfer]; decide)
    case poll =>
      have hp' : ((s.setLink l x).link l).polls.find? (·.sign = i) = some p := by
        rw [hlink]
        exact hp
      have hjob : g.job ≠ .offline := by rcases hpolled with h | h <;> rw [h] <;> decide
      rw [State.attemptOut_pollFailed hpoll, State.pollFailed_eq hp'] at hu
      refine ⟨fun hmay => ?_, fun hmay => ?_⟩
      · exact (hu.symm.trans (if_pos hmay)).trans (hput _)
      · have hu := hu.symm.trans (if_neg (Nat.not_le.mpr hmay))
        obtain ⟨hgo, hoff⟩ := State.goOffline_silent (s := s.setLink l x) hl true .poll reason
        rw [← hu] at hgo hoff
        rw [hlink] at hoff
        exact ⟨congrArg LinkState.polls hoff, hsilent hgo hjob⟩
    case noPoll =>
      rw [State.attemptOut_pollFailed hpoll, State.pollFailed_none (by rw [hlink]; exact hno)] at hu
      exact hu.symm
    case noSurvey =>
      rw [State.attemptOut_surveyFailed hsurvey, State.surveyFailed_none (by rw [hlink]; exact hno)] at hu
      exact hu.symm
    case survey =>
      have hv' : ((s.setLink l x).link l).survey = some v := by
        rw [hlink]
        exact hv
      rw [State.attemptOut_surveyFailed hsurvey, State.surveyFailed_eq hv'] at hu
      refine ⟨fun hsingle hmay => ?_, fun hno => ?_⟩
      · exact (hu.symm.trans (if_pos ⟨hsingle, hmay⟩)).trans (hput _)
      · have hlast : ¬(v.single = false ∧ v.attempts + 1 ≤ limit) := fun h => hno.elim
          (fun hs => Bool.false_ne_true (h.1.symm.trans hs)) fun hm => Nat.not_le.mpr hm h.2
        let y : LinkState := { x with survey := none }
        have hy : ((put y).link l).survey = none := congrArg LinkState.survey (State.link_setLink_self l y s)
        have hgo : ∀ lost, (put y).goOffline i lost .survey reason = u → g.job ≠ .offline → silent 5 lost :=
          fun lost h hjob => by
            have hfalls := (State.goOffline_silent (s := put y) hl lost .survey reason).1
            rw [h] at hfalls
            exact hsilent hfalls hjob
        have hlost : (put y).surveySilent i reason = u := by
          rw [hu.symm.trans (if_neg hlast), hput]
        have hsame : (put y).sign i = g := rfl
        refine ⟨?_, fun hjob => ?_, fun hjob => ?_, fun hjob => ?_⟩
        · rw [← hlost]
          exact State.surveySilent_survey hl hy
        · rw [State.surveySilent_shownOrCold (hsame ▸ hjob)] at hlost
          exact hgo true hlost (by rcases hjob with h | h <;> rw [h] <;> decide)
        · rw [State.surveySilent_panelFault (hsame ▸ hjob)] at hlost
          exact hgo false hlost (by rw [hjob]; decide)
        · rw [State.surveySilent_offline (hsame ▸ hjob)] at hlost
          exact hlost.symm
  case discarded =>
    intro s l t e event hr he hd hevent v left
    have hexec : ∃ w, exec event s = .next (s.attemptEnds l w t).settle := by
      rcases hevent with ⟨rfl, hphase⟩ | ⟨bytes, rfl, hphase⟩
      · exact ⟨_, exec_answerWindowExpiry hr hphase⟩
      · exact ⟨_, exec_stateAnswer hr hphase he⟩
    obtain ⟨w, hw⟩ := hexec
    rw [hw, State.attemptEnds_discarded he hd]
    refine congrArg (fun u => Host.Outcome.next (State.settle u)) ?_
    by_cases hof : e.purpose.ofJob = true
    · rw [if_pos hof, if_pos (e.purpose.ofJob_iff.mp hof), State.clearJob_eq]
      rfl
    · rw [if_neg hof, if_neg fun h => hof (e.purpose.ofJob_iff.mpr h)]
      rfl
  case refresh =>
    intro s i p hr g l hjob htimer hp
    obtain ⟨v, hv, hexpires⟩ := State.refreshExpires_becomes (l := l) rfl hp
    have hruns : s.refreshRunning i = true := by
      obtain ⟨y, hy, hyi⟩ := htimer
      exact Bool.and_eq_true_iff.mpr ⟨beq_iff_eq.mpr hjob, List.any_eq_true.mpr ⟨y, hy, beq_iff_eq.mpr hyi⟩⟩
    have hexec : exec (.refreshLimitExpiry i) s = .next (s.refreshExpires i).settle :=
      congrArg Host.Outcome.next (State.onEvent_of _ hr hruns)
    refine ⟨_, hexec, ?_⟩
    rw [hexpires, State.sign_report, State.link_report, State.report_pc, hv.link_self, hv.pc_eq]
    refine ⟨?_, hv.other.trans (OnlySign.of_signs (State.report_signs _ _)), rfl, rfl, ?_,
      State.report_rw_congr hv.rw_eq hv.clk_eq _⟩
    · obtain ⟨b, hb⟩ := hv.sign
      rw [hb]
      rfl
    · show faultsAfter g.job .offline _ = _
      rw [hjob]
      rfl

end Sys2Proof.Machine
end

section
/-! PROOFS. The watch table: what a search finds after each change of it, add and drop requests, and tile writes. -/

namespace Sys2Proof.Machine

/-! ## Searching the watch table (R42) -/

theorem State.watched_tile {s : State} {n : Nat} {e : WatchEntry} (h : s.watched n = some e) : e.tile = n := by
  simpa using List.find?_some h

theorem State.watched_eq_none_iff (s : State) (n : Nat) : s.watched n = none ↔ ∀ e ∈ s.tm.watch, e.tile ≠ n := by
  simp [State.watched]

/-- A change of tile `n`'s entry that keeps its tile number. -/
theorem State.watched_modifyWatch (f : WatchEntry → WatchEntry) (hf : ∀ e, (f e).tile = e.tile) (n m : Nat)
    (s : State) :
    (s.modifyWatch n f).watched m = (s.watched m).map fun e => if e.tile = n then f e else e := by
  show List.find? _ (List.map _ _) = _
  rw [List.find?_map]
  refine congrArg (Option.map _ <| List.find? · _) (funext fun e => ?_)
  simp only [Function.comp]
  split
  · rw [hf]
  · rfl

theorem State.watched_modifyWatch_self (f : WatchEntry → WatchEntry) (hf : ∀ e, (f e).tile = e.tile) {n : Nat}
    {s : State} {e : WatchEntry} (h : s.watched n = some e) : (s.modifyWatch n f).watched n = some (f e) := by
  rw [State.watched_modifyWatch f hf, h, Option.map_some, if_pos (State.watched_tile h)]

theorem State.watched_modifyWatch_ne (f : WatchEntry → WatchEntry) (hf : ∀ e, (f e).tile = e.tile) {n m : Nat}
    (hm : m ≠ n) (s : State) : (s.modifyWatch n f).watched m = s.watched m := by
  rw [State.watched_modifyWatch f hf]
  cases h : s.watched m with
  | none => rfl
  | some e => rw [Option.map_some, if_neg (State.watched_tile h ▸ hm)]

theorem find?_insertWatch_ne {e : WatchEntry} {m : Nat} (h : e.tile ≠ m) (l : List WatchEntry) :
    (insertWatch e l).find? (·.tile == m) = l.find? (·.tile == m) := by
  induction l with
  | nil => simp [insertWatch, h]
  | cons x rest ih =>
    rw [insertWatch]
    split
    · simp [h]
    · rw [List.find?_cons, List.find?_cons, ih]

theorem find?_insertWatch_self {e : WatchEntry} {n : Nat} {l : List WatchEntry} (he : e.tile = n)
    (h : ∀ x ∈ l, x.tile ≠ n) : (insertWatch e l).find? (·.tile == n) = some e := by
  induction l with
  | nil => simp [insertWatch, he]
  | cons x rest ih =>
    obtain ⟨hx, hrest⟩ := List.forall_mem_cons.mp h
    rw [insertWatch]
    split
    · simp [he]
    · rw [List.find?_cons_of_neg (by simpa using hx), ih hrest]

theorem find?_filter_ne {m n : Nat} (h : m ≠ n) (l : List WatchEntry) :
    (l.filter (·.tile ≠ n)).find? (·.tile == m) = l.find? (·.tile == m) := by
  rw [List.find?_filter]
  refine congrArg (List.find? · l) (funext fun e => ?_)
  by_cases he : e.tile = m
  · simp [he, h]
  · simp [he]

/-! ## Add requests (R43) -/

section
variable {s : State} {n : Nat} {e : WatchEntry} (slot : SignNo × Nat)

theorem State.addTile_watched (h : s.watched n = some e) :
    s.addTile n slot = s.modifyWatch n fun e => { e with chain := slot :: e.chain } := by
  simp [State.addTile, h]

theorem State.addTile_full (h : s.watched n = none) (hfull : 4096 ≤ s.tm.watch.length) : s.addTile n slot = s := by
  simp [State.addTile, State.addRefused, h, hfull]

theorem State.addTile_free (h : s.watched n = none) (hfree : s.tm.watch.length < 4096) :
    s.addTile n slot = { s with
      tm.watch := insertWatch { tile := n, state := .stale, sig := 0, chain := [slot] } s.tm.watch
      tm.stale := s.tm.stale ++ [n] } := by
  simp [State.addTile, State.addRefused, h, hfree]

/-! ## Drop requests (R44) -/

theorem State.dropTile_unwatched (h : s.watched n = none) : s.dropTile n slot = s := by
  simp [State.dropTile, h]

theorem State.dropTile_last (h : s.watched n = some e) (hlast : e.chain.erase slot = []) :
    s.dropTile n slot = { s with tm.watch := s.tm.watch.filter (·.tile ≠ n), tm.stale := s.tm.stale.erase n } := by
  simp [State.dropTile, h, hlast]

theorem State.dropTile_shared (h : s.watched n = some e) (hmore : e.chain.erase slot ≠ []) :
    s.dropTile n slot = s.modifyWatch n fun e => { e with chain := e.chain.erase slot } := by
  simp [State.dropTile, h, hmore]

end

/-- A request about tile `n` changes the watch table and the stale queue alone, and no other tile's entry. -/
structure WatchOnly (n : Nat) (s t : State) : Prop where
  rest : { t with tm := s.tm } = s
  engine : t.tm.engine = s.tm.engine
  others : ∀ m, m ≠ n → t.watched m = s.watched m

theorem WatchOnly.refl (n : Nat) (s : State) : WatchOnly n s s := ⟨rfl, rfl, fun _ _ => rfl⟩

theorem WatchOnly.modifyWatch (f : WatchEntry → WatchEntry) (hf : ∀ e, (f e).tile = e.tile) (n : Nat) (s : State) :
    WatchOnly n s (s.modifyWatch n f) :=
  ⟨rfl, rfl, fun _ hm => State.watched_modifyWatch_ne f hf hm s⟩

theorem State.addTile_watchOnly (n : Nat) (slot : SignNo × Nat) (s : State) : WatchOnly n s (s.addTile n slot) := by
  cases hw : s.watched n with
  | some e =>
    rw [State.addTile_watched slot hw]
    exact WatchOnly.modifyWatch _ (by exact fun _ => rfl) n s
  | none =>
    rcases Nat.lt_or_ge s.tm.watch.length 4096 with hfree | hfull
    · rw [State.addTile_free slot hw hfree]
      exact ⟨rfl, rfl, fun m hm => find?_insertWatch_ne hm.symm _⟩
    · rw [State.addTile_full slot hw hfull]
      exact WatchOnly.refl n s

theorem State.dropTile_watchOnly (n : Nat) (slot : SignNo × Nat) (s : State) : WatchOnly n s (s.dropTile n slot) := by
  cases hw : s.watched n with
  | none =>
    rw [State.dropTile_unwatched slot hw]
    exact WatchOnly.refl n s
  | some e =>
    by_cases hlast : e.chain.erase slot = []
    · rw [State.dropTile_last slot hw hlast]
      exact ⟨rfl, rfl, fun m hm => find?_filter_ne hm _⟩
    · rw [State.dropTile_shared slot hw hlast]
      exact WatchOnly.modifyWatch _ (by exact fun _ => rfl) n s

/-- Settles O35. -/
theorem addAndDropRequests : Obligations.AddAndDropRequests := by
  intro s n slot a d
  have hadd : WatchOnly n s a := State.addTile_watchOnly n slot s
  have hdrop : WatchOnly n s d := State.dropTile_watchOnly n slot s
  refine ⟨hadd.rest, hdrop.rest, hadd.engine, hdrop.engine, fun m hm => ⟨hadd.others m hm, hdrop.others m hm⟩,
    fun e he => ⟨?_, ?_, ?_, fun hlast => ?_, fun hmore => ?_⟩, fun hno => ⟨?_, fun hfull => ?_, fun hfree => ?_⟩⟩
  · rw [show a = _ from State.addTile_watched slot he]
    exact State.watched_modifyWatch_self _ (by exact fun _ => rfl) he
  · rw [show a = _ from State.addTile_watched slot he]
    rfl
  · rw [show a = _ from State.addTile_watched slot he]
    exact List.length_map _
  · rw [show d = _ from State.dropTile_last slot he hlast]
    exact ⟨(State.watched_eq_none_iff _ n).mpr fun x hx => by simpa using (List.mem_filter.mp hx).2, rfl⟩
  · rw [show d = _ from State.dropTile_shared slot he hmore]
    exact ⟨State.watched_modifyWatch_self _ (by exact fun _ => rfl) he, rfl⟩
  · exact State.dropTile_unwatched slot hno
  · exact State.addTile_full slot hno hfull
  · rw [show a = _ from State.addTile_free slot hno hfree]
    exact ⟨find?_insertWatch_self rfl ((State.watched_eq_none_iff s n).mp hno), rfl, insertWatch_length _ _⟩

/-! ## Tile writes (R45) -/

section
variable {s : State} {n : Nat} {e : WatchEntry}

theorem State.tileWritten_unwatched (h : s.watched n = none) : s.tileWritten n = s := by
  simp [State.tileWritten, h]

theorem State.tileWritten_clean (h : s.watched n = some e) (hst : e.state = .clean) :
    s.tileWritten n =
      { s.modifyWatch n fun e => { e with state := .stale, sig := 0 } with tm.stale := s.tm.stale ++ [n] } := by
  simp [State.tileWritten, h, hst]

theorem State.tileWritten_computing (h : s.watched n = some e) (hst : e.state = .computing) :
    s.tileWritten n = s.modifyWatch n fun e => { e with state := .restale } := by
  simp [State.tileWritten, h, hst]

/-- A tile that is to be computed again in any case stays as it is. -/
theorem State.tileWritten_again (h : s.watched n = some e) (hst : e.state = .stale ∨ e.state = .restale) :
    s.tileWritten n = s := by
  rcases hst with hst | hst <;> simp [State.tileWritten, h, hst]

end

/-- A host write inside one tile, granted with its command: its bytes in memory, then the tile's run. -/
theorem exec_tileWrite {s : State} {addr n : Nat} {data : List Byte} (hgoes : s.HostGoes .write addr data.length)
    (hne : data ≠ [])
    (hin : ∀ k < data.length, classify s.mp.windowBase s.dir.header ((addr + k) % 16777216) = .tile n) :
    exec (.tileWrite addr data) s = .next ((s.wrote addr data).tileWritten n).settle := by
  show Host.Outcome.next (s.carryWrite addr data) = _
  rw [State.carryWrite_of_goes hgoes, cutRuns_tile _ _ addr n data hne hin]
  rfl

/-- Settles O34. -/
theorem tileWriteByEntryState : Obligations.TileWriteByEntryState := by
  intro s addr n data hgoes hne hin v put ends
  have hends : ∀ u, v.tileWritten n = u → ends u := fun u hu => hu ▸ exec_tileWrite hgoes hne hin
  refine ⟨fun hno => hends v (State.tileWritten_unwatched ((State.watched_eq_none_iff s n).mpr hno)), fun e he => ?_⟩
  have hv : v.watched n = some e := he
  cases hst : e.state with
  | clean => exact hends _ (State.tileWritten_clean hv hst)
  | stale => exact hends v (State.tileWritten_again hv (.inl hst))
  | computing => exact hends _ (State.tileWritten_computing hv hst)
  | restale => exact hends v (State.tileWritten_again hv (.inr hst))

end Sys2Proof.Machine
end

section
/-! PROOFS. The signature engine: what it takes and places, the end of its read, and its completion by the entry's
state. -/

namespace Sys2Proof.Machine

/-! ## Taking the head of the stale queue (R47) -/

theorem State.takeStale_head {s : State} {n : Nat} {rest : List Nat} (he : s.tm.engine = .idle)
    (hq : s.tm.stale = n :: rest) :
    s.takeStale.tm =
      { watch := s.tm.watch.map fun e => if e.tile = n then { e with state := .computing } else e
        stale := rest, engine := .fetch n } := by
  unfold State.takeStale
  rw [he, hq]
  rfl

theorem State.takeStale_nothing {s : State} (h : s.tm.engine ≠ .idle ∨ s.tm.stale = []) : s.takeStale = s := by
  unfold State.takeStale
  split
  · rename_i he hq
    rcases h with h | h
    · exact absurd he h
    · rw [hq] at h
      cases h
  · rfl

/-! ## The other blocks place no signature read (R10) -/

theorem State.refreshSchedulePage_mp (i : SignNo) (s : State) : (s.refreshSchedulePage i).mp = s.mp := by
  unfold State.refreshSchedulePage
  dsimp only
  split
  · rfl
  · exact State.evaluate_mp i _

theorem State.endResync_mp (i : SignNo) (c : Option Candidate) (n : Option (Nat × Nat)) (s : State) :
    (s.endResync i c n).mp = s.mp := by
  unfold State.endResync
  dsimp only
  split
  · rfl
  · exact State.refreshSchedulePage_mp i _

/-- Placing another requester's request leaves the load of the signature engine. -/
theorem State.place_signature_load {q : OwnReq} (hq : q.requester ≠ .signature) (s : State) :
    (s.place q).mp.load .signature = s.mp.load .signature := by
  rw [State.place_load, if_neg hq, Nat.add_zero]

theorem State.startWork_signature_load (i : SignNo) (s : State) :
    (s.startWork i).mp.load .signature = s.mp.load .signature := by
  unfold State.startWork
  dsimp only
  split
  · split
    · rw [State.endResync_mp]
      rfl
    · exact State.place_signature_load (by exact fun h => nomatch h) _
  · exact State.place_signature_load (by exact fun h => nomatch h) _
  · rfl
  · rfl

theorem State.takeWork_signature_load (n : Nat) (s : State) :
    (State.takeWork n s).mp.load .signature = s.mp.load .signature := by
  induction n generalizing s with
  | zero => rfl
  | succ n ih =>
    unfold State.takeWork
    split
    · rfl
    · split
      · rfl
      · rw [ih, State.startWork_signature_load]

theorem State.refuseActivation_mp (i : SignNo) (p c : Nat) (s : State) : (s.refuseActivation i p c).mp = s.mp := by
  have key : ∀ (v : State) (b d : Prop) [Decidable b] [Decidable d] (r : Report), v.mp = s.mp →
      (if d then (if b then v else v.report r).queueActivation i else if b then v else v.report r).mp = s.mp := by
    intro v b d _ _ r hv
    have hreport : (if b then v else v.report r).mp = s.mp := by
      split
      · exact hv
      · exact (State.report_mp r v).trans hv
    split
    · exact (State.queueActivation_mp i _).trans hreport
    · exact hreport
  exact key _ _ _ _ rfl

theorem State.takeActivation_signature_load (n : Nat) (s : State) :
    (State.takeActivation n s).mp.load .signature = s.mp.load .signature := by
  induction n generalizing s with
  | zero => rfl
  | succ n ih =>
    unfold State.takeActivation
    dsimp only
    split
    · rfl
    · split
      · rfl
      · split
        · exact ih _
        · split
          · exact ih _
          · split
            · exact State.place_signature_load (by exact fun h => nomatch h) _
            · rw [ih, State.refuseActivation_mp]
              rfl

theorem State.takeStale_mp (s : State) : s.takeStale.mp = s.mp := by
  unfold State.takeStale
  split <;> rfl

/-! ## Placing the read of a tile (R48) -/

/-- In FETCH, with no request of its own, the engine has placed its read. -/
theorem State.placeSignature_places {s : State} {n : Nat} (he : s.tm.engine = .fetch n)
    (hfree : s.mp.load .signature = 0) :
    { kind := .sigRead, addr := (s.settings.tileBase + n * 256) % 16777216, len := 256, data := [] } ∈
      s.placeSignature.mp.waiting := by
  unfold State.placeSignature
  rw [he]
  dsimp only
  rw [if_neg (by simp [(State.busy_eq_false s .signature).mpr hfree])]
  exact List.mem_append_right _ (List.mem_singleton_self _)

/-- An engine in FETCH once work is taken up, with no request of its own before, has placed its read. -/
theorem State.takeUp_places {s : State} {n : Nat} (he : s.takeUp.tm.engine = .fetch n)
    (hfree : s.mp.load .signature = 0) :
    { kind := .sigRead, addr := (s.settings.tileBase + n * 256) % 16777216, len := 256, data := [] } ∈
      s.takeUp.mp.waiting := by
  let u : State := State.takeWork 256 s
  let w : State := (State.takeActivation u.pl.queue.length u).takeStale
  have hw : w.mp.load .signature = 0 := by
    rw [show w.mp = _ from State.takeStale_mp _, State.takeActivation_signature_load, State.takeWork_signature_load,
      hfree]
  have hdir : w.settings = s.settings := by
    have hmoved : Moved s w := State.takeStale_moved (State.takeActivation_moved _ (State.takeWork_moved 256 (Moved.refl s)))
    rw [State.settings, hmoved.dir]
    rfl
  have hengine : w.tm.engine = .fetch n := by rw [← he, ← State.placeSignature_tm w]; rfl
  exact hdir ▸ State.placeSignature_places hengine hw

/-! ## The end of the read (R48, R50) -/

theorem exec_signatureReadEnd {s : State} {bytes : List Byte} {n : Nat} (h : s.OwnEnds .sigRead bytes)
    (he : s.tm.engine = .fetch n) :
    exec .signatureReadEnd s = .next (State.settle { s.portFreed with tm.engine := .accumulate n bytes 1 0 }) := by
  obtain ⟨q, -, hev⟩ := State.loadReadEnds h (ofKind := (· == .sigRead)) rfl fun _ bytes s => s.startAccumulate bytes
  have htm : s.portFreed.tm.engine = .fetch n := by
    rw [← he]
    obtain ⟨-, x, hx, hk, -⟩ := h
    obtain ⟨g, c, hp, -⟩ := State.portFreed_read hx (by simp [OwnReq.isWrite, OwnReq.requester, hk, OwnKind.requester])
    rw [hp]
  show Host.Outcome.next _ = _
  rw [hev, State.startAccumulate, htm]

/-! ## Comparing the slots of a chain (R53) -/

/-- The slots of sign `i` once those on the chain are compared with a signature. -/
def comparedSlots (sig : Signature) (chain : List (SignNo × Nat)) (i : SignNo) (slots : List Slot) : List Slot :=
  slots.mapIdx fun k x => if (i, k) ∈ chain then { x with dirty := decide (x.delivered ≠ sig) } else x

theorem comparedSlots_nil (sig : Signature) (i : SignNo) (slots : List Slot) : comparedSlots sig [] i slots = slots :=
  List.ext_getElem? fun m => by simp [comparedSlots]

/-- Comparing a slot twice is comparing it once. -/
theorem comparedSlots_cons (sig : Signature) (i j : SignNo) (k : Nat) (rest : List (SignNo × Nat)) (slots : List Slot) :
    comparedSlots sig ((j, k) :: rest) i slots =
      comparedSlots sig rest i
        (if j = i then modifySlot k (fun x => { x with dirty := decide (x.delivered ≠ sig) }) slots else slots) := by
  refine List.ext_getElem? fun m => ?_
  by_cases hj : j = i
  · subst hj
    by_cases hk : k = m
    · subst hk
      cases hs : slots[k]? <;> simp [comparedSlots, modifySlot, hs]
    · simp [comparedSlots, modifySlot, hk, Ne.symm hk]
  · simp [comparedSlots, hj, Ne.symm hj]

/-- Comparing one slot changes that slot of its sign, the record due aside. -/
theorem State.sign_compareSlot (sig : Signature) (j i : SignNo) (k : Nat) (s : State) :
    SignState.ButDue
      { s.sign i with slots :=
          if j = i then modifySlot k (fun x => { x with dirty := decide (x.delivered ≠ sig) }) (s.sign i).slots
          else (s.sign i).slots }
      ((s.compareSlot sig (j, k)).sign i) := by
  unfold State.compareSlot
  rw [State.sign_modifySign]
  split
  · rename_i hj
    subst hj
    exact SignState.butDue_markDue _ _
  · exact SignState.butDue_refl _

/-- Comparing the chain changes the slots on it alone, the record due aside. -/
theorem State.sign_compareChain (sig : Signature) (chain : List (SignNo × Nat)) (i : SignNo) (s : State) :
    SignState.ButDue { s.sign i with slots := comparedSlots sig chain i (s.sign i).slots }
      ((s.compareChain sig chain).sign i) := by
  induction chain generalizing s with
  | nil =>
    rw [comparedSlots_nil]
    exact SignState.butDue_refl _
  | cons x rest ih =>
    obtain ⟨j, k⟩ := x
    rw [comparedSlots_cons]
    obtain ⟨b, hb⟩ := ih (s.compareSlot sig (j, k))
    obtain ⟨b', hb'⟩ := State.sign_compareSlot sig j i k s
    exact ⟨b, by rw [State.compareChain, hb, hb']⟩

theorem State.compareChain_signs (sig : Signature) (chain : List (SignNo × Nat)) (s : State) :
    { s.compareChain sig chain with signs := s.signs } = s := by
  induction chain generalizing s with
  | nil => rfl
  | cons x rest ih => exact congrArg (fun u : State => { u with signs := s.signs }) (ih (s.compareSlot sig x))

/-! ## The completion (R49, R52, R53, R54) -/

section
variable {s : State} {n : Nat} {bytes : List Byte} {a b : Nat} {e : WatchEntry}

theorem State.completeSignature_unwatched (he : s.tm.engine = .accumulate n bytes a b) (hw : s.watched n = none) :
    s.completeSignature = { s with tm.engine := .idle } := by
  have hw' : State.watched { s with tm.engine := .idle } n = none := hw
  simp only [State.completeSignature, he, hw']

/-- The result is discarded where the entry was dropped and created again meanwhile. -/
theorem State.completeSignature_discarded (he : s.tm.engine = .accumulate n bytes a b) (hw : s.watched n = some e)
    (hst : e.state = .stale ∨ e.state = .clean) : s.completeSignature = { s with tm.engine := .idle } := by
  have hw' : State.watched { s with tm.engine := .idle } n = some e := hw
  rcases hst with hst | hst <;> simp only [State.completeSignature, he, hw', hst]

theorem State.completeSignature_restale (he : s.tm.engine = .accumulate n bytes a b) (hw : s.watched n = some e)
    (hst : e.state = .restale) :
    s.completeSignature = { s with tm := {
      watch := s.tm.watch.map fun e => if e.tile = n then { e with state := .stale } else e
      stale := s.tm.stale ++ [n], engine := .idle } } := by
  have hw' : State.watched { s with tm.engine := .idle } n = some e := hw
  simp only [State.completeSignature, he, hw', hst]
  rfl

theorem State.completeSignature_computing (he : s.tm.engine = .accumulate n bytes a b) (hw : s.watched n = some e)
    (hst : e.state = .computing) :
    s.completeSignature =
      State.applySignature n (storedSignature (sums a b bytes)) e.chain { s with tm.engine := .idle } := by
  have hw' : State.watched { s with tm.engine := .idle } n = some e := hw
  simp only [State.completeSignature, he, hw', hst]

theorem exec_signatureCompletion (hr : s.resetHeld = false) (he : s.tm.engine = .accumulate n bytes a b) :
    exec .signatureCompletion s = .next s.completeSignature.settle :=
  congrArg Host.Outcome.next (State.onEvent_of _ hr (by rw [State.accumulating, he]))

end

theorem State.dirtyOnChain_iff (s : State) (chain : List (SignNo × Nat)) (i : SignNo) :
    s.dirtyOnChain chain i = true ↔
      ∃ x ∈ chain, x.1 = i ∧ (((s.sign i).slots[x.2]?).map (·.dirty)) = some true := by
  have hget : ∀ o : Option Bool, o.getD false = true ↔ o = some true := by decide
  simp only [State.dirtyOnChain, List.any_eq_true, Bool.and_eq_true, beq_iff_eq, hget]

/-- A sign with a dirty slot on the chain is on the chain. -/
theorem State.dueSigns_eq (chain : List (SignNo × Nat)) (s : State) :
    ((List.finRange 256).filter fun i => chain.any (·.1 == i) && s.dirtyOnChain chain i) =
      (List.finRange 256).filter fun i =>
        decide (∃ x ∈ chain, x.1 = i ∧ (((s.sign i).slots[x.2]?).map (·.dirty)) = some true) := by
  refine List.filter_congr fun i _ => Bool.eq_iff_iff.mpr ?_
  rw [Bool.and_eq_true, List.any_eq_true, decide_eq_true_eq, State.dirtyOnChain_iff]
  exact ⟨And.right, fun ⟨x, hx, hi, hd⟩ => ⟨⟨x, hx, beq_iff_eq.mpr hi⟩, x, hx, hi, hd⟩⟩

/-- Settles O36. -/
theorem signatureEngineCycle : Obligations.SignatureEngineCycle := by
  refine ⟨fun s => ⟨fun n rest he hq => ?_, fun h => ?_, fun n he hfree => State.takeUp_places he hfree, ?_⟩,
    fun s bytes n h he => exec_signatureReadEnd h he, ?_⟩
  · rw [State.takeUp_tm, State.takeStale_head he hq]
  · rw [State.takeUp_tm, State.takeStale_nothing h]
  · rw [State.takeAll_tm, State.takeUp_tm]
  · intro s n bytes a b hr he v sig put ends
    have hends : ∀ u, s.completeSignature = u → ends u := fun u hu => hu ▸ exec_signatureCompletion hr he
    refine ⟨fun hw => hends v (State.completeSignature_unwatched he hw), fun e hw => ?_⟩
    cases hst : e.state with
    | stale => exact hends v (State.completeSignature_discarded he hw (.inl hst))
    | clean => exact hends v (State.completeSignature_discarded he hw (.inr hst))
    | restale => exact hends _ (State.completeSignature_restale he hw hst)
    | computing =>
      let u : State := put .clean (some sig) s.tm.stale
      let w : State := u.compareChain sig e.chain
      refine ⟨w, State.compareChain_signs sig e.chain u, fun i => ?_, ?_⟩
      · obtain ⟨b, hb⟩ := State.sign_compareChain sig e.chain i u
        rw [show w.sign i = _ from hb]
        rfl
      · refine hends _ ((State.completeSignature_computing he hw hst).trans ?_)
        exact congrArg (forSigns _ · w) (State.dueSigns_eq e.chain w)

end Sys2Proof.Machine
end

section
/-! PROOFS. Signature arithmetic: the words of a tile, the running sums and their closed form, the stored code. -/

namespace Sys2Proof.Machine

/-! ## The words of a tile (R41) -/

/-- Word `k` of a tile's bytes, counted from 0. -/
def wordAt (bytes : List Byte) (k : Nat) : Nat :=
  (bytes[2 * k]?.getD 0).toNat * 256 + (bytes[2 * k + 1]?.getD 0).toNat

theorem tileWords_eq (m : Nat) (bytes : List Byte) (h : bytes.length = 2 * m) :
    tileWords bytes = (List.range m).map (wordAt bytes) := by
  induction m generalizing bytes with
  | zero =>
    rw [List.length_eq_zero_iff.mp h]
    rfl
  | succ m ih =>
    match bytes, h with
    | hi :: lo :: rest, h =>
      rw [tileWords, ih rest (by simpa [Nat.mul_succ] using h), List.range_succ_eq_map, List.map_cons, List.map_map]
      rfl

/-! ## The running sums (R50) -/

/-- One more word raises the weight of every word before it by one. -/
theorem weightedSum_succ (f : Nat → Nat) (n : Nat) :
    ((List.range (n + 1)).map fun k => (n + 1 - k) * f k).sum =
      ((List.range n).map fun k => (n - k) * f k).sum + ((List.range (n + 1)).map f).sum := by
  have hraise : (List.range n).map (fun k => (n + 1 - k) * f k) = (List.range n).map fun k => (n - k) * f k + f k :=
    List.map_congr_left fun k hk => by
      rw [Nat.succ_sub (List.mem_range.mp hk).le, Nat.succ_mul]
  rw [List.range_succ, List.map_append, List.map_append, List.sum_append, List.sum_append, hraise, List.sum_map_add]
  simp [Nat.add_assoc]

/-- The sums over `n` words in closed form: A is one more than the words' sum, and B counts each word once for itself
and once for each word after it. -/
theorem foldl_sumStep_closed (f : Nat → Nat) (n : Nat) :
    (List.range n).foldl (fun ab k => sumStep ab (f k)) (1, 0) =
      ((1 + ((List.range n).map f).sum) % 65521, (n + ((List.range n).map fun k => (n - k) * f k).sum) % 65521) := by
  induction n with
  | zero => rfl
  | succ n ih =>
    have hsum : ((List.range (n + 1)).map f).sum = ((List.range n).map f).sum + f n := by simp [List.range_succ]
    rw [weightedSum_succ, hsum, List.range_succ, List.foldl_append, ih]
    simp only [List.foldl_cons, List.foldl_nil, sumStep, Prod.mk.injEq]
    omega

/-! ## The stored code (R50, R51) -/

theorem storedSignature_zero : storedSignature (0, 0) = 0xFFFFFFFF := rfl

theorem storedSignature_toNat {a b : Nat} (ha : a < 65521) (hb : b < 65521) (h : ¬(a = 0 ∧ b = 0)) :
    (storedSignature (a, b)).toNat = b * 65536 + a := by
  unfold storedSignature
  rw [if_neg (by dsimp only; omega), BitVec.toNat_ofNat]
  exact Nat.mod_eq_of_lt (by dsimp only; omega)

/-- The codes of a slot with nothing delivered and of a delivered BLANK slot are no signature of a tile. -/
theorem storedSignature_not_reserved {a b : Nat} (ha : a < 65521) (hb : b < 65521) :
    storedSignature (a, b) ≠ 0 ∧ storedSignature (a, b) ≠ 0xFFFFFFFE := by
  by_cases h : a = 0 ∧ b = 0
  · obtain ⟨rfl, rfl⟩ := h
    decide
  · have hn := storedSignature_toNat ha hb h
    have hcode : ∀ c : Nat, c = 0 ∨ c = 0xFFFFFFFE → storedSignature (a, b) ≠ BitVec.ofNat 32 c := by
      intro c hc he
      rw [he, BitVec.toNat_ofNat] at hn
      omega
    exact ⟨hcode 0 (.inl rfl), hcode 0xFFFFFFFE (.inr rfl)⟩

/-- Settles O37. -/
theorem signatureArithmetic : Obligations.SignatureArithmetic := by
  intro bytes hlen w run a b
  have hrun : run = (a, b) := foldl_sumStep_closed (fun k => w (k + 1)) 128
  have hsums : sums 1 0 bytes = run := by
    rw [sums, tileWords_eq 128 bytes hlen, List.foldl_map]
    rfl
  have ha : a < 65521 := Nat.mod_lt _ (by decide)
  have hb : b < 65521 := Nat.mod_lt _ (by decide)
  have hsig : signatureOf bytes = storedSignature (a, b) := congrArg storedSignature (hsums.trans hrun)
  refine ⟨hsums, hrun, ha, hb, fun x v hv => by omega, fun x => by omega, ?_, ?_, ?_⟩
  · rintro ⟨ha0, hb0⟩
    rw [hsig, ha0, hb0, storedSignature_zero]
  · exact fun h => hsig ▸ storedSignature_toNat ha hb h
  · exact hsig ▸ storedSignature_not_reserved ha hb

end Sys2Proof.Machine
end

section
/-! PROOFS. The second tick: the minute tick it may bring, the heartbeat, the pulse-missing counter and the dwell counts. -/

namespace Sys2Proof.Machine

/-! ## Sweeps over the signs -/

theorem State.signs_eq_ofFn (s : State) : s.signs = Vector.ofFn s.sign := by
  ext i hi
  simp [State.sign]

theorem State.sign_ofFn (s : State) (f : SignNo → SignState) (i : SignNo) :
    State.sign { s with signs := Vector.ofFn f } i = f i := by
  simp [State.sign]

/-- A change of a sign that leaves it as it is. -/
theorem State.modifySign_same {i : SignNo} {f : SignState → SignState} {s : State} (h : f (s.sign i) = s.sign i) :
    s.modifySign i f = s := by
  have hset : s.signs.set i (s.sign i) = s.signs := by simp [State.sign]
  rw [State.modifySign, h, SignState.markDue_of_view rfl, hset]

/-- A sweep that changes each sign by the clock and the sign's own number. -/
theorem forSigns_eq_modifySign {f : SignNo → State → State} {g : SignNo → SignState → SignState} {c : Clock}
    (hf : ∀ i t, t.clk = c → f i t = t.modifySign i (g i)) (is : List SignNo) {s : State} (hs : s.clk = c) :
    forSigns f is s = forSigns (fun i t => t.modifySign i (g i)) is s := by
  induction is generalizing s with
  | nil => rfl
  | cons i rest ih =>
    rw [forSigns, forSigns, hf i s hs]
    exact ih hs

/-! ## The minute tick (R71, R89, R103) -/

/-- A sign at the schedule engine's look at a minute tick (R103). -/
def SignState.advanceMarked (c : Clock) (i : SignNo) (g : SignState) : SignState :=
  if g.workDue = .none ∧ c.engine.sign ≠ some i ∧ g.nextDue c.time = true then { g with workDue := .advance } else g

theorem State.markAdvance_eq (i : SignNo) (s : State) :
    s.markAdvance i = s.modifySign i (SignState.advanceMarked s.clk i) := by
  unfold State.markAdvance SignState.advanceMarked
  dsimp only
  split
  · rename_i h
    simp only [State.modifySign, if_pos h]
  · rename_i h
    exact (State.modifySign_same (if_neg h)).symm

theorem SignState.advanceMarked_view (c : Clock) (i : SignNo) (g : SignState) :
    (g.advanceMarked c i).statusView = g.statusView := by
  unfold SignState.advanceMarked
  split <;> rfl

theorem State.markAdvances_eq (s : State) :
    s.markAdvances = { s with
      signs := Vector.ofFn fun i =>
        if s.clk.unset = false ∧ (s.sign i).entry.enabled = true then (s.sign i).advanceMarked s.clk i
        else s.sign i } := by
  unfold State.markAdvances
  cases hu : s.clk.unset with
  | true => simp [← State.signs_eq_ofFn]
  | false =>
    rw [if_neg Bool.false_ne_true, forSigns_eq_modifySign (fun i t ht => ht ▸ State.markAdvance_eq i t) _ rfl,
      forSigns_modifySign _ _ (s.signsWhere_nodup _)]
    refine congrArg (fun x => { s with signs := x }) (congrArg Vector.ofFn (funext fun i => ?_))
    rw [SignState.markDue_of_view (SignState.advanceMarked_view _ _ _)]
    simp only [State.mem_signsWhere, true_and]

/-- The sign joins the activation queue at an event of R71: it is IDLE and wants a page other than its active one. -/
def SignState.joins (g : SignState) : Bool := g.activation == .idle && g.wantsOther

/-- A sign that has met an event of R71. -/
def SignState.joined (g : SignState) : SignState :=
  { g with activation := if g.joins then .queued else g.activation }

theorem State.queueActivation_eq (i : SignNo) (s : State) :
    s.queueActivation i =
      { s.modifySign i SignState.joined with pl.queue := s.pl.queue ++ if (s.sign i).joins then [i] else [] } := by
  unfold State.queueActivation
  by_cases h : (s.sign i).joins = true
  · have h' : (s.sign i).activation = .idle ∧ (s.sign i).wantsOther = true := by simpa [SignState.joins] using h
    simp only [h', and_self, if_true, State.joinActivation, State.modifySign, SignState.joined, h]
  · have h' : ¬((s.sign i).activation = .idle ∧ (s.sign i).wantsOther = true) := by simpa [SignState.joins] using h
    rw [State.modifySign_same (by rw [SignState.joined, if_neg h]), if_neg h, List.append_nil]
    exact if_neg h'

theorem State.sign_queueActivation (i j : SignNo) (s : State) :
    (s.queueActivation i).sign j = if i = j then (s.sign j).joined else s.sign j := by
  rw [State.queueActivation_eq]
  refine Eq.trans (State.sign_modifySign i j SignState.joined s) ?_
  split
  · rename_i h
    subst h
    exact SignState.markDue_of_view rfl
  · rfl

/-- Signs in turn at an event of R71, none of them twice. -/
theorem forSigns_queueActivation (is : List SignNo) (hnd : is.Nodup) (s : State) :
    forSigns State.queueActivation is s = { s with
      pl.queue := s.pl.queue ++ is.filter fun i => (s.sign i).joins
      signs := Vector.ofFn fun i => if i ∈ is then (s.sign i).joined else s.sign i } := by
  induction is generalizing s with
  | nil =>
    simp only [forSigns, List.not_mem_nil, if_false, List.filter_nil, List.append_nil]
    exact congrArg (fun x => { s with signs := x }) s.signs_eq_ofFn
  | cons a rest ih =>
    obtain ⟨ha, hrest⟩ := List.nodup_cons.mp hnd
    have hother : ∀ i ∈ rest, (s.queueActivation a).sign i = s.sign i := fun i hi => by
      rw [State.sign_queueActivation, if_neg fun h => ha (by rw [h]; exact hi)]
    have hfilter : (rest.filter fun i => ((s.queueActivation a).sign i).joins) = rest.filter fun i => (s.sign i).joins :=
      List.filter_congr fun i hi => by rw [hother i hi]
    have hqueue : (s.queueActivation a).pl.queue ++ (rest.filter fun i => (s.sign i).joins) =
        s.pl.queue ++ (a :: rest).filter fun i => (s.sign i).joins := by
      rw [State.queueActivation_eq, List.filter_cons]
      split <;> simp
    have hsigns : (fun i => if i ∈ rest then ((s.queueActivation a).sign i).joined else (s.queueActivation a).sign i) =
        fun i => if i ∈ a :: rest then (s.sign i).joined else s.sign i := by
      funext i
      by_cases hi : i ∈ rest
      · rw [if_pos hi, if_pos (List.mem_cons_of_mem a hi), hother i hi]
      · rw [if_neg hi, State.sign_queueActivation]
        simp only [List.mem_cons, hi, or_false, eq_comm]
    rw [forSigns, ih hrest, hfilter, hqueue, hsigns, State.queueActivation_eq]
    rfl

theorem State.queueDiffering_eq (s : State) :
    s.queueDiffering = { s with
      pl.queue := s.pl.queue ++ (List.finRange 256).filter fun i => (s.sign i).entry.enabled && (s.sign i).joins
      signs := Vector.ofFn fun i => if (s.sign i).entry.enabled then (s.sign i).joined else s.sign i } := by
  rw [State.queueDiffering, forSigns_queueActivation _ (s.signsWhere_nodup _), State.signsWhere_eq, List.filter_filter]
  simp [Bool.and_comm]

theorem State.sign_markAllResync (i : SignNo) (s : State) :
    s.markAllResync.sign i =
      if (s.sign i).entry.enabled then (s.sign i).resyncMarked s.clk.engine i else s.sign i := by
  rw [State.markAllResync_eq, State.sign_ofFn]

/-- Where every enabled sign is RESYNC none becomes ADVANCE (R103). -/
theorem State.markAdvances_markAllResync (s : State) : s.markAllResync.markAdvances = s.markAllResync := by
  have hsame : ∀ i, (if s.markAllResync.clk.unset = false ∧ (s.markAllResync.sign i).entry.enabled = true then
      (s.markAllResync.sign i).advanceMarked s.markAllResync.clk i else s.markAllResync.sign i) =
        s.markAllResync.sign i := by
    intro i
    by_cases he : (s.sign i).entry.enabled = true
    · have hresync : (s.markAllResync.sign i).workDue = .resync := by rw [State.sign_markAllResync, if_pos he]; rfl
      have hnone : (s.markAllResync.sign i).advanceMarked s.markAllResync.clk i = s.markAllResync.sign i :=
        if_neg fun h => by rw [hresync] at h; exact nomatch h.1
      rw [hnone, ite_self]
    · exact if_neg fun h => he (by rw [State.sign_markAllResync, if_neg he] at h; exact h.2)
  rw [State.markAdvances_eq, funext hsame, ← State.signs_eq_ofFn]

/-- The clock and the marks of a minute tick, before work is taken up (R89, R103). -/
def State.minuteMarked (s : State) : State :=
  State.markAdvances
    (if s.clk.wrapsDay then State.markAllResync { s with clk := s.clk.nextMinute } else { s with clk := s.clk.nextMinute })

theorem State.tickMinute_eq (s : State) : s.tickMinute = s.minuteMarked.takeUp.queueDiffering.takeUp := rfl

/-- A sign of a minute tick from clock `c`: marked RESYNC at a day wrap, else ADVANCE where its next entry is due. -/
def SignState.minuteMarked (c : Clock) (i : SignNo) (g : SignState) : SignState :=
  if c.wrapsDay = true then (if g.entry.enabled then g.resyncMarked c.engine i else g)
  else if c.unset = false ∧ g.entry.enabled = true then g.advanceMarked c.nextMinute i
  else g

theorem Clock.nextMinute_engine (c : Clock) : c.nextMinute.engine = c.engine := by
  unfold Clock.nextMinute
  split <;> rfl

theorem Clock.nextMinute_unset (c : Clock) : c.nextMinute.unset = c.unset := by
  unfold Clock.nextMinute
  split <;> rfl

theorem State.minuteMarked_eq (s : State) :
    s.minuteMarked = { s with
      clk := s.clk.nextMinute, signs := Vector.ofFn fun i => (s.sign i).minuteMarked s.clk i } := by
  unfold State.minuteMarked SignState.minuteMarked
  cases s.clk.wrapsDay with
  | false =>
    simp only [Bool.false_eq_true, if_false, State.markAdvances_eq, Clock.nextMinute_unset]
    rfl
  | true =>
    rw [if_pos rfl, State.markAdvances_markAllResync, State.markAllResync_eq, Clock.nextMinute_engine]
    rfl

theorem Clock.nextMinute_eq (c : Clock) :
    c.nextMinute = { c with
      second := 0
      minute := if c.minute = 1439 then 0 else c.minute + 1
      day := if c.minute = 1439 ∧ c.day = 65535 then 0 else if c.minute = 1439 then c.day + 1 else c.day } := by
  unfold Clock.nextMinute
  by_cases hm : c.minute = 1439
  · simp [hm]
  · simp [hm]

/-- The next entry of the sign is due at a time. -/
theorem SignState.nextDue_eq (n : Nat) (g : SignState) :
    g.nextDue n = match g.nextEntry with | some x => decide (x.2 ≤ n) | none => false := by
  unfold SignState.nextDue
  cases g.nextEntry <;> rfl

theorem SignState.minuteMarked_eq (c : Clock) (i : SignNo) (g : SignState) :
    g.minuteMarked c i = { g with
      workDue :=
        if (c.minute = 1439 ∧ c.day = 65535) ∧ g.entry.enabled = true then .resync
        else if c.unset = false ∧ g.entry.enabled = true ∧ g.workDue = .none ∧ c.engine.sign ≠ some i ∧
          g.nextDue c.nextMinute.time = true then .advance
        else g.workDue
      redo := g.redo ||
        decide ((c.minute = 1439 ∧ c.day = 65535) ∧ g.entry.enabled = true ∧ c.engine.sign = some i) } := by
  have hwrap : c.wrapsDay = true ↔ c.minute = 1439 ∧ c.day = 65535 := by simp [Clock.wrapsDay]
  unfold SignState.minuteMarked
  by_cases hw : c.minute = 1439 ∧ c.day = 65535
  · rw [if_pos (hwrap.mpr hw)]
    by_cases he : g.entry.enabled = true
    · simp [hw, he, SignState.resyncMarked, Bool.or_comm]
    · simp [he]
  · rw [if_neg (mt hwrap.mp hw)]
    by_cases ha : c.unset = false ∧ g.entry.enabled = true
    · simp [hw, ha, SignState.advanceMarked, Clock.nextMinute_engine]
      split <;> rfl
    · rw [if_neg ha, if_neg fun h => hw h.1, if_neg fun h => ha ⟨h.1, h.2.1⟩, decide_eq_false fun h => hw h.1,
        Bool.or_false]

theorem SignState.joined_eq (g : SignState) :
    (if g.entry.enabled then g.joined else g) =
      { g with activation := if (g.entry.enabled && g.joins) = true then .queued else g.activation } := by
  cases he : g.entry.enabled with
  | true => simp [SignState.joined]
  | false => simp

/-- A minute tick is the turn of the minute as the statements write it. -/
theorem State.tickMinute_eq_minuteTurned (s : State) : s.tickMinute = s.minuteTurned := by
  have hjoins : ∀ g : SignState, (g.entry.enabled && g.joins) = (g.entry.enabled && g.activation == .idle &&
      match g.wanted with | some w => decide (g.activePage ≠ some w.1) | none => false) := fun g => by
    rw [SignState.joins, SignState.wantsOther, ← Bool.and_assoc]
    cases g.wanted <;> rfl
  have hmarked : s.minuteMarked = { s with
      clk := s.clk.nextMinute, signs := Vector.ofFn fun i => (s.sign i).minuteMarked s.clk i } := s.minuteMarked_eq
  simp only [SignState.minuteMarked_eq, SignState.nextDue_eq, Clock.nextMinute_eq, Clock.time] at hmarked
  rw [State.tickMinute_eq, hmarked, State.queueDiffering_eq]
  simp only [SignState.joined_eq, hjoins]
  rfl

/-! ## The second tick (R88, R94, R105, R119) -/

/-- The pulse-missing counter and its mode are the same. -/
structure SamePulse (s t : State) : Prop where
  mode : t.clk.pulseMode = s.clk.pulseMode
  armed : t.clk.armed = s.clk.armed
  missing : t.clk.pulseMissing = s.clk.pulseMissing

theorem SamePulse.of_taken {s t : State} (h : SameButTaken s t) : SamePulse s t :=
  ⟨congrArg (·.pulseMode) h.clk, congrArg (·.armed) h.clk, congrArg (·.pulseMissing) h.clk⟩

theorem SamePulse.trans {s t u : State} (h : SamePulse s t) (k : SamePulse t u) : SamePulse s u :=
  ⟨k.mode.trans h.mode, k.armed.trans h.armed, k.missing.trans h.missing⟩

/-- The turn of the minute leaves the directory, the chooser and the pulse-missing counter. -/
theorem State.minuteTurned_keeps (s : State) :
    s.minuteTurned.dir = s.dir ∧ s.minuteTurned.pc = s.pc ∧ SamePulse s s.minuteTurned := by
  have hmarked : SamePulse s s.minuteMarked ∧ s.minuteMarked.dir = s.dir ∧ s.minuteMarked.pc = s.pc := by
    rw [State.minuteMarked_eq, Clock.nextMinute_eq]
    exact ⟨⟨rfl, rfl, rfl⟩, rfl, rfl⟩
  have hqueue : ∀ t : State, SamePulse t t.queueDiffering ∧ t.queueDiffering.dir = t.dir ∧ t.queueDiffering.pc = t.pc :=
    fun t => by
      rw [State.queueDiffering_eq]
      exact ⟨⟨rfl, rfl, rfl⟩, rfl, rfl⟩
  have htaken := State.takeUp_taken (SameButTaken.refl s.minuteMarked)
  have htaken' := State.takeUp_taken (SameButTaken.refl s.minuteMarked.takeUp.queueDiffering)
  obtain ⟨hp, hd, hc⟩ := hmarked
  obtain ⟨hp', hd', hc'⟩ := hqueue s.minuteMarked.takeUp
  rw [← State.tickMinute_eq_minuteTurned, State.tickMinute_eq]
  exact ⟨htaken'.dir.trans (hd'.trans (htaken.dir.trans hd)), htaken'.pc.trans (hc'.trans (htaken.pc.trans hc)),
    hp.trans ((SamePulse.of_taken htaken).trans (hp'.trans (SamePulse.of_taken htaken')))⟩

theorem State.lapseDue_iff (s : State) :
    s.lapseDue = true ↔ (s.dir.part = .running ∧ s.pc.hb = .running) ∧ s.pc.hbCounter ≤ 1 := by
  simp [State.lapseDue]

theorem State.pulseMissingDue_iff (s : State) :
    s.pulseMissingDue = true ↔ s.clk.pulseMode = true ∧ s.clk.armed = true ∧ 179 ≤ s.clk.pulseMissing := by
  simp only [State.pulseMissingDue, Bool.and_eq_true, decide_eq_true_eq, and_assoc]
  exact and_congr_right fun _ => and_congr_right fun _ => ⟨fun h => Nat.le_of_succ_le_succ h, fun h => Nat.succ_le_succ h⟩

theorem State.lapse_eq (s : State) :
    s.lapse = State.evaluateEach (fun g => g.entry.enabled)
      ({ s with pc.hb := .lapsed, pc.hbCounter := 0 }.report
        { kind := .heartbeatLapsed, sign := none, page := none, detail := s.settings.heartbeatModulus }) :=
  State.evaluateAll_eq _

theorem State.tickHeartbeat_samePulse (s : State) : SamePulse s s.tickHeartbeat := by
  unfold State.tickHeartbeat
  split
  · have hlapse : SameButTaken { s with pc.hb := .lapsed, pc.hbCounter := 0 } s.lapse :=
      State.evaluateAll_taken (State.report_taken _ (SameButTaken.refl _))
    obtain ⟨hmode, harmed, hmissing⟩ := SamePulse.of_taken (State.takeUp_taken hlapse)
    exact ⟨hmode, harmed, hmissing⟩
  · split <;> exact ⟨rfl, rfl, rfl⟩

/-- The heartbeat's second tick where the directory and the chooser are those of `s` (R119). -/
theorem State.tickHeartbeat_eq {s t : State} (hdir : t.dir = s.dir) (hpc : t.pc = s.pc) :
    t.tickHeartbeat =
      if (s.dir.part = .running ∧ s.pc.hb = .running) ∧ s.pc.hbCounter ≤ 1 then
        State.takeUp (State.evaluateEach (fun g => g.entry.enabled)
          ({ t with pc.hb := .lapsed, pc.hbCounter := 0 }.report
            { kind := .heartbeatLapsed, sign := none, page := none, detail := s.settings.heartbeatModulus }))
      else if s.dir.part = .running ∧ s.pc.hb = .running then { t with pc.hbCounter := s.pc.hbCounter - 1 } else t := by
  have hdue : t.lapseDue = true ↔ (s.dir.part = .running ∧ s.pc.hb = .running) ∧ s.pc.hbCounter ≤ 1 := by
    rw [State.lapseDue_iff, hdir, hpc]
  have hset : t.settings = s.settings := by rw [State.settings, hdir]; rfl
  have hruns : (t.dir.part = .running ∧ t.pc.hb = .running) ↔ s.dir.part = .running ∧ s.pc.hb = .running := by
    rw [hdir, hpc]
  unfold State.tickHeartbeat
  by_cases hl : (s.dir.part = .running ∧ s.pc.hb = .running) ∧ s.pc.hbCounter ≤ 1
  · rw [if_pos (hdue.mpr hl), if_pos hl, State.lapse_eq, hset]
  · rw [if_neg (mt hdue.mp hl), if_neg hl, hpc]
    exact if_congr (hpc ▸ hruns) rfl rfl

/-- The pulse-missing counter's second tick where it stands as in `s` (R94). -/
theorem State.tickPulse_eq {s t : State} (h : SamePulse s t) :
    t.tickPulse =
      let counted : State :=
        if s.clk.pulseMode then { t with clk.pulseMissing := min 180 (s.clk.pulseMissing + 1) } else t
      if s.clk.pulseMode = true ∧ s.clk.armed = true ∧ 179 ≤ s.clk.pulseMissing then
        { counted with clk.armed := false }.report { kind := .pulseMissing, sign := none, page := none, detail := 180 }
      else counted := by
  have hdue : t.pulseMissingDue = true ↔
      s.clk.pulseMode = true ∧ s.clk.armed = true ∧ 179 ≤ s.clk.pulseMissing := by
    rw [State.pulseMissingDue_iff, h.mode, h.armed, h.missing]
  have hcounted : (if t.clk.pulseMode then
        { t with clk.pulseMissing := min Config.pulseMissingLimit (t.clk.pulseMissing + 1) } else t) =
      if s.clk.pulseMode then { t with clk.pulseMissing := min 180 (s.clk.pulseMissing + 1) } else t :=
    if_congr (by rw [h.mode]) (by rw [h.missing]) rfl
  exact if_congr hdue (congrArg State.missPulse hcounted) hcounted

theorem State.tickDwell_eq (s : State) :
    s.tickDwell = { s with
      signs := Vector.ofFn fun i =>
        let g := s.sign i
        { g with dwellCount :=
            if g.entry.enabled = true ∧ g.job = .shown ∧ g.rotDwell ≠ 0 ∧ g.rotFirst < g.rotLast then
              min g.rotDwell (g.dwellCount + 1)
            else g.dwellCount } } := by
  unfold State.tickDwell
  rw [forSigns_modifySign (fun _ g => { g with dwellCount := min g.rotDwell (g.dwellCount + 1) }) _
    (s.signsWhere_nodup _)]
  refine congrArg (fun x => { s with signs := x }) (congrArg Vector.ofFn (funext fun i => ?_))
  have hiff : (i ∈ s.signsWhere fun g => g.entry.enabled && g.rotating && g.job == .shown) ↔
      (s.sign i).entry.enabled = true ∧ (s.sign i).job = .shown ∧ (s.sign i).rotDwell ≠ 0 ∧
        (s.sign i).rotFirst < (s.sign i).rotLast := by
    rw [State.mem_signsWhere]
    simp [SignState.rotating]
    tauto
  by_cases h : i ∈ s.signsWhere fun g => g.entry.enabled && g.rotating && g.job == .shown
  · rw [if_pos h]
    refine (SignState.markDue_of_view rfl).trans ?_
    dsimp only
    rw [if_pos (hiff.mp h)]
  · rw [if_neg h]
    dsimp only
    rw [if_neg (mt hiff.mpr h)]

/-- The clock's own second tick: the prescaler at 0, the next second or the turn of the minute (R88). -/
def State.secondTurned (s : State) : State :=
  if 59 ≤ s.clk.second then State.minuteTurned { s with clk.prescaler := 0 }
  else { s with clk.prescaler := 0, clk.second := s.clk.second + 1 }

theorem State.tickSecond_eq (s : State) :
    s.tickSecond = { s.secondTurned.tickHeartbeat.tickPulse.tickDwell with rw.blockDue := true } := by
  unfold State.tickSecond State.secondTurned
  dsimp only
  rw [State.tickMinute_eq_minuteTurned]
  by_cases h : s.clk.second < 59
  · rw [if_pos h, if_neg (Nat.not_le.mpr h)]
  · rw [if_neg h, if_pos (Nat.not_lt.mp h)]

/-- The clock's own second tick leaves the directory, the chooser and the pulse-missing counter. -/
theorem State.secondTurned_keeps (s : State) :
    s.secondTurned.dir = s.dir ∧ s.secondTurned.pc = s.pc ∧ SamePulse s s.secondTurned := by
  unfold State.secondTurned
  split
  · obtain ⟨hdir, hpc, hmode, harmed, hmissing⟩ := State.minuteTurned_keeps { s with clk.prescaler := 0 }
    exact ⟨hdir, hpc, hmode, harmed, hmissing⟩
  · exact ⟨rfl, rfl, rfl, rfl, rfl⟩

/-- Settles O45. -/
theorem secondAndMinuteTicks : Obligations.SecondAndMinuteTicks := by
  intro s hr base turned runs lapses missing beat counted pulsed u
  obtain ⟨hdir, hpc, hpulse⟩ := s.secondTurned_keeps
  have hbeat : s.secondTurned.tickHeartbeat = beat := State.tickHeartbeat_eq hdir hpc
  have hpulsed : beat.tickPulse = pulsed :=
    State.tickPulse_eq (hbeat ▸ hpulse.trans s.secondTurned.tickHeartbeat_samePulse)
  have htick : s.tickSecond = u := by
    rw [State.tickSecond_eq, hbeat, hpulsed, State.tickDwell_eq]
  have hexec : ∀ ok : Bool, ok = true → (s.onEvent ok State.tickSecond) = u.settle := fun ok hok =>
    (State.onEvent_of _ hr hok).trans (congrArg State.settle htick)
  exact ⟨congrArg Host.Outcome.next (hexec true rfl),
    fun h => congrArg Host.Outcome.next (hexec _ (beq_iff_eq.mpr h)),
    fun h => congrArg Host.Outcome.next (hexec _ (s.lapseDue_iff.mpr h)),
    fun h => congrArg Host.Outcome.next (hexec _ (s.pulseMissingDue_iff.mpr h))⟩

end Sys2Proof.Machine
end

section
/-! PROOFS. The page loader's decisions: what it takes from the activation queue, and the end of a page-map read. -/

namespace Sys2Proof.Machine

/-! ## Changes of one sign -/

/-- Two changes of a sign that agree on what it holds. -/
theorem State.modifySign_congr {i : SignNo} {f f' : SignState → SignState} {s : State} (h : f (s.sign i) = f' (s.sign i)) :
    s.modifySign i f = s.modifySign i f' := by
  rw [State.modifySign, h, State.modifySign]

/-- The slots held are those of the signs, whichever way a sign changes that keeps its slots. -/
theorem State.freeSlots_eq (s : State) : s.freeSlots = 8192 - (s.signs.toList.map (·.slots.length)).sum := rfl

theorem State.freeSlots_modifySign {i : SignNo} {f : SignState → SignState} (hf : ∀ g, (f g).slots = g.slots) (s : State) :
    (s.modifySign i f).freeSlots = s.freeSlots := by
  have hlen : ∀ j, ((s.modifySign i f).sign j).slots.length = (s.sign j).slots.length := by
    intro j
    rw [State.sign_modifySign]
    split
    · rename_i h
      rw [SignState.markDue_slots, hf, h]
    · rfl
  rw [State.freeSlots, State.freeSlots, State.slotsHeld, State.slotsHeld, State.signs_toList, State.signs_toList,
    List.map_map, List.map_map]
  exact congrArg (fun l : List Nat => 8192 - l.sum) (List.map_congr_left fun j _ => hlen j)

/-! ## Taking from the activation queue (R72, R77, R83) -/

/-- The page loader takes signs as long as it may. -/
theorem State.takeActivation_blocked {s : State} (h : s.pl.loading ≠ none ∨ s.mp.load .pageMap ≠ 0 ∨ s.pl.queue = [])
    (n : Nat) : State.takeActivation n s = s := by
  cases n with
  | zero => rfl
  | succ n =>
    unfold State.takeActivation
    rcases h with h | h | h
    · rw [if_pos (by simp [Option.isSome_iff_ne_none, h])]
    · rw [if_pos (by rw [Bool.or_eq_true]; exact .inr (Bool.of_not_eq_false (mt (s.busy_eq_false .pageMap).mp h)))]
    · rw [h]
      exact ite_self _

/-- The sign at the head leaves the queue and is IDLE. -/
def State.headTaken (i : SignNo) (rest : List SignNo) (s : State) : State :=
  { s with pl.queue := rest }.modifySign i fun g => { g with activation := .idle }

theorem State.freeSlots_headTaken (i : SignNo) (rest : List SignNo) (s : State) :
    (s.headTaken i rest).freeSlots = s.freeSlots :=
  State.freeSlots_modifySign (f := fun g => { g with activation := .idle }) (fun _ => rfl) { s with pl.queue := rest }

theorem State.sign_headTaken (i : SignNo) (rest : List SignNo) (s : State) :
    (s.headTaken i rest).sign i = { s.sign i with activation := .idle } :=
  (State.sign_modifySign_self i (fun g => { g with activation := .idle }) { s with pl.queue := rest }).trans
    (SignState.markDue_of_view rfl)

theorem State.takeActivation_head {s : State} {i : SignNo} {rest : List SignNo} (hl : s.pl.loading = none)
    (hb : s.mp.load .pageMap = 0) (hq : s.pl.queue = i :: rest) (n : Nat) :
    State.takeActivation (n + 1) s =
      match (s.sign i).wanted with
      | none => State.takeActivation n (s.headTaken i rest)
      | some (p, r) =>
        if (s.sign i).activePage = some p then State.takeActivation n (s.headTaken i rest)
        else if (s.sign i).entry.slotCount ≤ s.freeSlots + (s.sign i).slots.length then
          (s.headTaken i rest).startActivation i p r
        else State.takeActivation n ((s.headTaken i rest).refuseActivation i p 1) := by
  have hmay : ¬(s.pl.loading.isSome || s.busy .pageMap) = true := by simp [hl, (s.busy_eq_false .pageMap).mpr hb]
  rw [State.takeActivation, if_neg hmay, hq]
  change (match ((s.headTaken i rest).sign i).wanted with
    | none => _
    | some (p, r) => if ((s.headTaken i rest).sign i).activePage = some p then _
      else if ((s.headTaken i rest).sign i).entry.slotCount ≤
        (s.headTaken i rest).freeSlots + ((s.headTaken i rest).sign i).slots.length then _ else _) = _
  rw [State.sign_headTaken, State.freeSlots_headTaken]
  rfl

/-! ## Refusal (R77, R78) -/

/-- A sign whose activation of page `p` is refused. -/
def SignState.refusedAt (p : Nat) (g : SignState) : SignState :=
  { g with activation := .idle, incoming := none, staged := [], lastRefused := some p }

/-- The refusal of page `p` before the sign is queued again. -/
def State.refused (i : SignNo) (p cause : Nat) (s : State) : State :=
  State.reportIf ((s.sign i).lastRefused ≠ some p)
    { kind := .slotsExhausted, sign := some i, page := some p, detail := cause }
    { s.modifySign i (SignState.refusedAt p) with pl.loading := if s.pl.loading = some i then none else s.pl.loading }

theorem State.refused_rest (i : SignNo) (p cause : Nat) (s : State) :
    s.refused i p cause =
      { s.modifySign i (SignState.refusedAt p) with
        pl.loading := if s.pl.loading = some i then none else s.pl.loading
        rw := (s.refused i p cause).rw } := State.reportIf_rw _ _ _

theorem State.sign_refused (i : SignNo) (p cause : Nat) (s : State) :
    (s.refused i p cause).sign i = (s.sign i).refusedAt p := by
  rw [State.refused_rest]
  exact (State.sign_modifySign_self i _ s).trans (SignState.markDue_of_view rfl)

theorem State.refuseActivation_eq (i : SignNo) (p cause : Nat) (s : State) :
    s.refuseActivation i p cause =
      if (s.sign i).wanted.map (·.1) ≠ some p then (s.refused i p cause).queueActivation i
      else s.refused i p cause := by
  have hreport : (if (s.sign i).lastRefused = some p then
      { s.modifySign i (SignState.refusedAt p) with pl.loading := if s.pl.loading = some i then none else s.pl.loading }
      else State.report { kind := .slotsExhausted, sign := some i, page := some p, detail := cause }
        { s.modifySign i (SignState.refusedAt p) with
          pl.loading := if s.pl.loading = some i then none else s.pl.loading }) = s.refused i p cause := (ite_not ..).symm
  have hwanted : ((s.refused i p cause).sign i).wanted = (s.sign i).wanted := by rw [State.sign_refused]; rfl
  unfold State.refuseActivation
  change (if (State.sign (if (s.sign i).lastRefused = some p then _ else _) i).wanted.map (·.1) ≠ some p then _ else _) = _
  rw [← hwanted, ← hreport]
  rfl

/-- A refused sign that wants that very page is not queued again. -/
theorem State.refuseActivation_of_wanted {i : SignNo} {p : Nat} {s : State} (h : (s.sign i).wanted.map (·.1) = some p)
    (cause : Nat) : s.refuseActivation i p cause = s.refused i p cause := by
  rw [State.refuseActivation_eq, if_neg (not_not_intro h)]

/-! ## What the page loader takes (R65, R66, R72, R73, R77) -/

/-- The page loader takes from the whole activation queue. -/
def State.takeQueued (s : State) : State := State.takeActivation s.pl.queue.length s

section
variable {s : State} {i : SignNo} {rest : List SignNo}

theorem State.takeQueued_head (hl : s.pl.loading = none) (hb : s.mp.load .pageMap = 0) (hq : s.pl.queue = i :: rest) :
    s.takeQueued =
      match (s.sign i).wanted with
      | none => (s.headTaken i rest).takeQueued
      | some (p, r) =>
        if (s.sign i).activePage = some p then (s.headTaken i rest).takeQueued
        else if (s.sign i).entry.slotCount ≤ s.freeSlots + (s.sign i).slots.length then
          (s.headTaken i rest).startActivation i p r
        else State.takeActivation rest.length ((s.headTaken i rest).refuseActivation i p 1) := by
  rw [State.takeQueued, hq]
  exact State.takeActivation_head hl hb hq rest.length

/-- A sign that wants no page, or its active one. -/
theorem State.takeQueued_passes (hl : s.pl.loading = none) (hb : s.mp.load .pageMap = 0) (hq : s.pl.queue = i :: rest)
    (hsame : ∀ x, (s.sign i).wanted = some x → (s.sign i).activePage = some x.1) :
    s.takeQueued = (s.headTaken i rest).takeQueued := by
  rw [State.takeQueued_head hl hb hq]
  cases hw : (s.sign i).wanted with
  | none => rfl
  | some x => exact if_pos (hsame x hw)

variable {p : Nat} {r : Reason}

theorem State.takeQueued_refuses (hl : s.pl.loading = none) (hb : s.mp.load .pageMap = 0) (hq : s.pl.queue = i :: rest)
    (hw : (s.sign i).wanted = some (p, r)) (hne : (s.sign i).activePage ≠ some p)
    (hfull : s.freeSlots + (s.sign i).slots.length < (s.sign i).entry.slotCount) :
    s.takeQueued = ((s.headTaken i rest).refuseActivation i p 1).takeQueued := by
  have hwanted : ((s.headTaken i rest).sign i).wanted.map (·.1) = some p := by
    rw [State.sign_headTaken]
    exact congrArg (Option.map (·.1)) hw
  have hqueue : ((s.headTaken i rest).refuseActivation i p 1).pl.queue = rest := by
    rw [State.refuseActivation_of_wanted hwanted, State.refused_rest]
    rfl
  rw [State.takeQueued_head hl hb hq, hw]
  dsimp only
  rw [if_neg hne, if_neg (Nat.not_le.mpr hfull), State.takeQueued, hqueue]

theorem State.takeQueued_starts (hl : s.pl.loading = none) (hb : s.mp.load .pageMap = 0) (hq : s.pl.queue = i :: rest)
    (hw : (s.sign i).wanted = some (p, r)) (hne : (s.sign i).activePage ≠ some p)
    (hfits : (s.sign i).entry.slotCount ≤ s.freeSlots + (s.sign i).slots.length) :
    s.takeQueued = (s.headTaken i rest).startActivation i p r := by
  rw [State.takeQueued_head hl hb hq, hw]
  dsimp only
  rw [if_neg hne, if_pos hfits]

end

/-- The first page-map read of `n` entries carries at most 128 of them (R73). -/
theorem State.mapReadOf_first (s : State) (i : SignNo) (p n : Nat) :
    s.mapReadOf i p n false =
      { kind := .mapRead i false, addr := (s.settings.mapBase + i.val * 4096 + p * 512) % 16777216
        len := if n ≤ 128 then 2 * n else 256, data := [] } := by
  have hlen : min 256 (2 * n) = if n ≤ 128 then 2 * n else 256 := by split <;> omega
  simp only [State.mapReadOf, Bool.false_eq_true, if_false, Nat.add_zero, hlen]

theorem State.startActivation_eq (i : SignNo) (p : Nat) (r : Reason) (s : State) :
    s.startActivation i p r =
      State.place (s.mapReadOf i p (s.sign i).entry.slotCount false)
        ({ s with pl.loading := some i }.modifySign i fun g =>
          { g with
            activation := .loadingMap, incoming := some (p, r)
            staged := List.replicate (s.sign i).entry.slotCount { value := 0, read := false } }) := rfl

/-! ## The end of a page-map read (R73, R75) -/

/-- The map values of a read, by their places. -/
theorem getElem?_parseMap (j : Nat) (bytes : List Byte) :
    (parseMap bytes)[j]? =
      if j < bytes.length / 2 then
        some ((bytes[2 * j]?.getD 0).toNat * 256 + (bytes[2 * j + 1]?.getD 0).toNat) else none := by
  induction bytes using parseMap.induct generalizing j with
  | case1 hi lo rest ih =>
    rw [parseMap]
    cases j with
    | zero => simp [be16]
    | succ j =>
      rw [List.getElem?_cons_succ, ih]
      have h2 : 2 * (j + 1) = 2 * j + 2 := by omega
      have hlen : j + 1 < (hi :: lo :: rest).length / 2 ↔ j < rest.length / 2 := by simp; omega
      simp only [hlen, h2, List.getElem?_cons_succ]
  | case2 bytes h =>
    have hlen : bytes.length / 2 = 0 := by
      cases bytes with
      | nil => rfl
      | cons hi rest =>
        cases rest with
        | nil => simp
        | cons lo rest => exact absurd rfl (h hi lo rest)
    rw [parseMap, hlen]
    · rfl
    · exact h

theorem length_parseMap (bytes : List Byte) : (parseMap bytes).length = bytes.length / 2 := by
  refine Nat.le_antisymm (List.getElem?_eq_none_iff.mp ?_) (Nat.not_lt.mp fun h => ?_)
  · rw [getElem?_parseMap, if_neg (Nat.lt_irrefl _)]
  · have := List.getElem?_eq_none (Nat.le_refl (parseMap bytes).length)
    rw [getElem?_parseMap, if_pos h] at this
    cases this

/-- The read's entries enter the staged map from entry `k` on, their read flags set (R73). -/
theorem stageRead_eq (k : Nat) (bytes : List Byte) (staged : List StagedEntry)
    (hk : k + bytes.length / 2 ≤ staged.length) :
    stageRead k (parseMap bytes) staged = staged.mapIdx fun j x =>
      if k ≤ j ∧ j < k + bytes.length / 2 then
        { value := (bytes[2 * (j - k)]?.getD 0).toNat * 256 + (bytes[2 * (j - k) + 1]?.getD 0).toNat, read := true }
      else x := by
  refine List.ext_getElem? fun j => ?_
  rw [stageRead, List.getElem?_append, List.getElem?_append, List.length_take, List.length_map, length_parseMap,
    Nat.min_eq_left (by omega), List.getElem?_mapIdx, List.getElem?_map, getElem?_parseMap]
  by_cases h1 : j < k
  · simp [h1, Nat.not_le.mpr h1]
  · by_cases h2 : j < k + bytes.length / 2
    · have hj : j < staged.length := by omega
      simp [h1, h2, Nat.not_lt.mp h1, show j - k < bytes.length / 2 by omega, hj]
    · have hj : k + (bytes.length / 2 + (j - k - bytes.length / 2)) = j := by omega
      rw [if_neg h1, if_neg (by omega), List.getElem?_drop, List.getElem?_drop, hj]
      simp [h2]

theorem exec_mapReadEnd {s : State} {i : SignNo} {second : Bool} {bytes : List Byte}
    (h : s.OwnEnds (.mapRead i second) bytes) :
    exec .mapReadEnd s = .next (s.portFreed.mapReadEnds i second bytes).settle := by
  obtain ⟨q, hq, he⟩ := State.loadReadEnds (ofKind := (·.mapOf.isSome)) h rfl fun q bytes s =>
    match q.kind.mapOf with
    | some (i, second) => s.mapReadEnds i second bytes
    | none => s
  refine congrArg Host.Outcome.next (Eq.trans he ?_)
  rw [hq]
  rfl

/-- The end of a page-map read leaves all but the memory path. -/
theorem State.portFreed_mapRead {s : State} {i : SignNo} {second : Bool} {bytes : List Byte}
    (h : s.OwnEnds (.mapRead i second) bytes) : ∃ mp, s.portFreed = { s with mp := mp } := by
  obtain ⟨-, x, hx, hkind, -⟩ := h
  have hread : x.req.isWrite = false := by
    rw [OwnReq.isWrite, OwnReq.requester, hkind]
    rfl
  obtain ⟨host, count, hfreed, -⟩ := State.portFreed_read hx hread
  exact ⟨_, hfreed⟩

/-- The distinct tiles the staged map names that would have no entry after a release of sign `i`'s page (R75). -/
theorem State.newTiles_eq (s : State) (i : SignNo) (staged : List StagedEntry) :
    s.newTiles i staged =
      ((staged.filterMap fun e => if e.value < s.settings.tileCount then some e.value else none).dedup.filter fun t =>
        match s.watched t with | none => true | some e => e.chain.all (·.1 = i)).length := by
  unfold State.newTiles
  refine congrArg List.length (List.filter_congr fun t _ => ?_)
  cases s.watched t <;> rfl

/-- The end of a page-map read whose sign is still LOADING_MAP (R73). -/
theorem State.mapReadEnds_eq {s : State} {i : SignNo} {p : Nat} {r : Reason} (h : (s.sign i).incoming = some (p, r))
    (second : Bool) (bytes : List Byte) :
    s.mapReadEnds i second bytes =
      let staged := stageRead (if second then 128 else 0) (parseMap bytes) (s.sign i).staged
      let v := s.modifySign i fun g => { g with staged := staged }
      if second = false ∧ 128 < (s.sign i).entry.slotCount then
        v.place (s.mapReadOf i p (s.sign i).entry.slotCount true)
      else if s.newTiles i staged ≤ s.freeAfterRelease i then v.acceptActivation i p r
      else v.refuseActivation i p 2 := by
  unfold State.mapReadEnds State.decideActivation
  rw [h]
  dsimp only
  rw [State.sign_modifySign_self, SignState.markDue_staged]
  simp only [Bool.and_eq_true, Bool.not_eq_true', decide_eq_true_eq]
  rfl

/-- Settles O38. -/
theorem mapReadEndDecides : Obligations.MapReadEndDecides := by
  refine ⟨fun s => ⟨fun h => State.takeActivation_blocked h _, ?_⟩, ?_⟩
  · intro i rest hl hb hq g n w free
    refine ⟨State.takeQueued_passes hl hb hq, fun p r hw hne => ⟨State.takeQueued_refuses hl hb hq hw hne, fun hfits => ?_⟩⟩
    refine (State.takeQueued_starts hl hb hq hw hne hfits).trans ?_
    rw [State.startActivation_eq, State.mapReadOf_first, State.sign_headTaken]
    rfl
  · intro s i second bytes p r hends hin g n k hk staged v tiles only missing
    obtain ⟨mp, hfreed⟩ := State.portFreed_mapRead hends
    have hsign : s.portFreed.sign i = s.sign i := by rw [hfreed]; rfl
    have hmissing : s.portFreed.newTiles i staged = missing.length := by
      rw [hfreed]
      exact State.newTiles_eq s i staged
    have hfree : s.portFreed.freeAfterRelease i = 4096 - s.tm.watch.length + s.tm.watch.countP only := by
      rw [hfreed]
      rfl
    have hread : s.portFreed.mapReadOf i p n true =
        { kind := .mapRead i true, addr := (s.settings.mapBase + i.val * 4096 + p * 512 + 256) % 16777216,
          len := 2 * n - 256, data := [] } := by
      rw [hfreed]
      rfl
    rw [exec_mapReadEnd hends, State.mapReadEnds_eq (hsign ▸ hin)]
    dsimp only
    rw [hsign, stageRead_eq _ _ _ hk]
    refine congrArg (fun u => Host.Outcome.next (State.settle u)) ?_
    refine if_congr Iff.rfl (congrArg (State.place · v) hread) (if_congr ?_ rfl rfl)
    rw [← hmissing, ← hfree]

end Sys2Proof.Machine
end

section
/-! PROOFS. The end of an activation: what a trigger does to its sign and its link, refusal, and acceptance. -/

namespace Sys2Proof.Machine

/-! ## Triggers (R130, R131) -/

/-- How a trigger acts on a sign. -/
inductive TriggerAct where
  | nothing | joins | raisesPending | raisesAgain | raisesAbort | stops

/-- How a trigger of class `c` acts on a sign whose link is `k`, by the job state (R130). -/
def SignState.triggerAct (i : SignNo) (c : Class) (k : LinkState) (g : SignState) : TriggerAct :=
  match g.job with
  | .shown => .joins
  | .queued => if classRank g.pendingClass < c.rank then .joins else .nothing
  | .cold => .raisesPending
  | .transfer =>
    if k.showBegun i then .raisesAgain
    else
      match c with
      | .alert | .page => if k.jobInFlight i then .raisesAbort else .stops
      | .recover | .content => .raisesAgain
  | .refreshing => .raisesAgain
  | .settling => .raisesAgain
  | .disabled => .nothing
  | .offline => .nothing
  | .panelFault => .nothing

/-- The class with which a job that a trigger of class `c` stops is queued (R131). -/
def SignState.stopClass (c : Class) (g : SignState) : Class :=
  (raise (raise (raise g.pendingClass (raise g.abort (some c))) g.again) none).getD .content

/-- The sign once a trigger of class `c` has acted (R130, R131). -/
def SignState.acted (c : Class) (a : TriggerAct) (g : SignState) : SignState :=
  match a with
  | .nothing => g
  | .joins => { g with job := .queued, pendingClass := some c }
  | .raisesPending => { g with pendingClass := raise g.pendingClass (some c) }
  | .raisesAgain => { g with again := raise g.again (some c) }
  | .raisesAbort => { g with abort := raise g.abort (some c) }
  | .stops => g.stopped (g.stopClass c)

/-- A link whose queue sign `i` joins with a class (R129). -/
def LinkState.joinedBy (i : SignNo) (c : Class) (k : LinkState) : LinkState :=
  { k.forJob i .queued with
    queue := insertQueue { sign := i, cls := c } ((k.forJob i .queued).queue.filter (·.sign ≠ i)) }

/-- The link of sign `g` once a trigger of class `c` has acted (R129, R131). -/
def LinkState.acted (i : SignNo) (c : Class) (a : TriggerAct) (g : SignState) (k : LinkState) : LinkState :=
  match a with
  | .nothing | .raisesPending | .raisesAgain | .raisesAbort => k
  | .joins => k.joinedBy i c
  | .stops => { k.joinedBy i (g.stopClass c) with job := none }

/-- From `s` to `t` a trigger of class `c` has acted on sign `i` and its link as `a` says; the memory path's withdrawals,
the fault count and the drives aside, all else stays. -/
structure Triggered (i : SignNo) (c : Class) (a : TriggerAct) (s t : State) : Prop where
  eq : ∃ signs lines pc mp, t = { s with
    signs := signs, lines := lines, pc := pc, mp := mp
    links := s.links.set (s.sign i).entry.link ((s.link (s.sign i).entry.link).acted i c a (s.sign i)) }
  sign : ((s.sign i).acted c a).ButDue (t.sign i)
  other : OnlySign i s t

theorem Triggered.links_eq {i : SignNo} {c : Class} {a : TriggerAct} {l : LinkNo} {k : LinkState} {s t : State}
    (h : Triggered i c a s t) (hl : (s.sign i).entry.link = l) (hk : s.link l = k) :
    t.links = s.links.set l (k.acted i c a (s.sign i)) := by
  subst hl hk
  obtain ⟨_, _, _, _, he⟩ := h.eq
  rw [he]

theorem Becomes.triggered {i : SignNo} {c : Class} {a : TriggerAct} {n : Nat} {s t : State}
    (h : Becomes i (s.sign i).entry.link ((s.sign i).acted c a)
      ((s.link (s.sign i).entry.link).acted i c a (s.sign i)) n s t) : Triggered i c a s t where
  eq := by
    obtain ⟨signs, lines, he⟩ := h.eq
    exact ⟨signs, lines, _, s.mp, by rw [he]⟩
  sign := h.sign
  other := h.other

theorem Triggered.withdraw {i : SignNo} {c : Class} {a : TriggerAct} {s t : State} (h : Triggered i c a s t)
    (rs : Requester → Bool) : Triggered i c a s (t.withdraw rs) where
  eq := by
    obtain ⟨signs, lines, pc, mp, he⟩ := h.eq
    exact ⟨signs, lines, pc, _, by rw [he]; rfl⟩
  sign := h.sign
  other := h.other.trans (OnlySign.of_signs rfl)

/-- The stop of the job of a sign that holds `g` (R131). -/
theorem Becomes.stopJob {i : SignNo} {l : LinkNo} {g : SignState} {k : LinkState} {n : Nat} {s t : State}
    (h : Becomes i l g k n s t) (hl : g.entry.link = l) (extra : Option Class) :
    let cls := (raise (raise (raise g.pendingClass g.abort) g.again) extra).getD .content
    ∃ v, Becomes i l (g.stopped cls) (k.joinedBy i cls) (faultsAfter g.job .queued n) s v ∧
      t.stopJob i extra = v.clearJob l := by
  intro cls
  have hjoin := (h.modify (fun g => { g with plan := none, forceFull := true, again := none, abort := none })
    fun _ _ => rfl).joinQueue hl cls
  have hcls : (raise (raise (raise (t.sign i).pendingClass (t.sign i).abort) (t.sign i).again) extra).getD .content =
      cls := by
    obtain ⟨b, hb⟩ := h.sign
    rw [hb]
  refine ⟨_, hjoin, ?_⟩
  unfold State.stopJob
  dsimp only
  rw [hcls, hjoin.entry_eq]
  exact congrArg (State.clearJob · _) hl

theorem State.trigger_acts (i : SignNo) (c : Class) (s : State) :
    Triggered i c ((s.sign i).triggerAct i c (s.link (s.sign i).entry.link)) s (s.trigger i c) := by
  have h0 := Becomes.refl i (s.sign i).entry.link s
  have hagain : Triggered i c .raisesAgain s (s.modifySign i fun g => { g with again := raise g.again (some c) }) :=
    (h0.modify (fun g => { g with again := raise g.again (some c) }) fun _ _ => rfl).triggered
  have hjoin : Triggered i c .joins s (s.joinQueue i c) := (h0.joinQueue rfl c).triggered
  have habort := h0.modify (fun g => { g with abort := raise g.abort (some c) }) fun _ _ => rfl
  have hstop : Triggered i c .stops s
      ((s.modifySign i fun g => { g with abort := raise g.abort (some c) }).stopJob i none) := by
    obtain ⟨v, hv, hstop⟩ := habort.stopJob rfl none
    rw [hstop]
    exact (Becomes.triggered (hv.modifyLink fun k => { k with job := none })).withdraw _
  unfold State.trigger SignState.triggerAct
  dsimp only
  cases (s.sign i).job with
  | disabled | offline | panelFault => exact h0.triggered
  | shown => exact hjoin
  | cold =>
    exact (h0.modify (fun g => { g with pendingClass := raise g.pendingClass (some c) }) fun _ _ => rfl).triggered
  | refreshing | settling => exact hagain
  | queued =>
    dsimp only
    split
    · exact hjoin
    · exact h0.triggered
  | transfer =>
    dsimp only
    split
    · exact hagain
    · cases c with
      | recover | content => exact hagain
      | alert | page =>
        dsimp only
        split
        · exact habort.triggered
        · exact hstop

/-! ## Add requests of a page's slots (R43, R68) -/

theorem State.addSlot_eq (tile : Option Nat) (slot : SignNo × Nat) (s : State) :
    s.addSlot tile slot = { s with tm := (s.addSlot tile slot).tm } := by
  cases tile with
  | none => rfl
  | some n => exact (congrArg (fun u : State => { u with tm := (s.addTile n slot).tm }) (s.addTile_watchOnly n slot).rest)

theorem State.dropSlot_eq (tile : Option Nat) (slot : SignNo × Nat) (s : State) :
    s.dropSlot tile slot = { s with tm := (s.dropSlot tile slot).tm } := State.dropSlots_eq slot.1 slot.2
      [{ mapValue := 0, tile := tile, delivered := 0, dirty := true }] s

/-- The add requests of the slots change the tile monitor alone. -/
theorem State.addSlots_eq (i : SignNo) (k : Nat) (slots : List Slot) (s : State) :
    s.addSlots i k slots = { s with tm := (s.addSlots i k slots).tm } := by
  induction slots generalizing k s with
  | nil => rfl
  | cons x rest ih =>
    calc s.addSlots i k (x :: rest)
        = { s.addSlot x.tile (i, k) with tm := (s.addSlots i k (x :: rest)).tm } := ih (k + 1) _
      _ = { s with tm := (s.addSlots i k (x :: rest)).tm } := by rw [State.addSlot_eq]

/-- What an add request leaves in the tile monitor depends on the tile monitor alone. -/
theorem State.addTile_tm_congr {s t : State} (h : s.tm = t.tm) (n : Nat) (slot : SignNo × Nat) :
    (s.addTile n slot).tm = (t.addTile n slot).tm := by
  have hw : s.watched n = t.watched n := by rw [State.watched, h, State.watched]
  unfold State.addTile State.addRefused State.modifyWatch
  rw [hw, h]
  split
  · rfl
  · split
    · exact h
    · rfl

theorem State.addSlots_tm_congr {i : SignNo} {k : Nat} {slots : List Slot} {s t : State} (h : s.tm = t.tm) :
    (s.addSlots i k slots).tm = (t.addSlots i k slots).tm := by
  induction slots generalizing k s t with
  | nil => exact h
  | cons x rest ih =>
    refine ih ?_
    cases hx : x.tile with
    | none => exact h
    | some n => exact State.addTile_tm_congr h n (i, k)

/-! ## The page switch of an acceptance (R67, R76) -/

/-- The sign's MAP_RANGE flag, set where `b` holds. -/
def SignState.rangeMarked (b : Bool) (g : SignState) : SignState := { g with rangeReported := g.rangeReported || b }

/-- MAP_RANGE for slot `k` where `b` holds. -/
theorem State.reportRange_if (b : Bool) (i : SignNo) (k : Nat) (s : State) :
    (if b then s.reportRange i k else s) =
      { s.modifySign i (SignState.rangeMarked b) with
        rw := (s.reportIf (b = true)
          { kind := .mapRange, sign := some i, page := (s.sign i).activePage, detail := k }).rw } := by
  cases b with
  | false =>
    rw [State.modifySign_same (by rw [SignState.rangeMarked, Bool.or_false])]
    rfl
  | true =>
    have hset : s.modifySign i (fun g => { g with rangeReported := true }) = s.modifySign i (SignState.rangeMarked true) :=
      State.modifySign_congr (by rw [SignState.rangeMarked, Bool.or_true])
    have hrw : ∀ r, (State.report r (s.modifySign i (SignState.rangeMarked true))).rw = (s.report r).rw :=
      State.report_rw_congr rfl rfl
    rw [if_pos rfl, State.reportRange, hset, State.reportIf, if_pos rfl, State.report_rw, hrw]

theorem State.reportIf_rw_congr {s t : State} (hrw : t.rw = s.rw) (hclk : t.clk = s.clk) (b : Prop) [Decidable b]
    (r : Report) : (t.reportIf b r).rw = (s.reportIf b r).rw := by
  unfold State.reportIf
  split
  · exact State.report_rw_congr hrw hclk r
  · exact hrw

/-- From `s` to `t` sign `i` comes to hold `g`, but for its record due, the tile monitor becomes `m` and the report writer
`w`; all else stays. -/
structure Switches (i : SignNo) (g : SignState) (m : TileMonitor) (w : ReportWriter) (s t : State) : Prop where
  eq : ∃ signs, t = { s with signs := signs, tm := m, rw := w }
  sign : g.ButDue (t.sign i)
  other : OnlySign i s t

section
variable {i : SignNo} {g : SignState} {m : TileMonitor} {w : ReportWriter} {s t v : State}

theorem Switches.refl (i : SignNo) (s : State) : Switches i (s.sign i) s.tm s.rw s s :=
  ⟨⟨s.signs, rfl⟩, (s.sign i).butDue_refl, OnlySign.of_signs rfl⟩

theorem Switches.tm_eq (h : Switches i g m w s t) : t.tm = m := by
  obtain ⟨signs, he⟩ := h.eq
  rw [he]

theorem Switches.rw_eq (h : Switches i g m w s t) : t.rw = w := by
  obtain ⟨signs, he⟩ := h.eq
  rw [he]

theorem Switches.clk_eq (h : Switches i g m w s t) : t.clk = s.clk := by
  obtain ⟨signs, he⟩ := h.eq
  rw [he]

theorem Switches.settings_eq (h : Switches i g m w s t) : t.settings = s.settings := by
  obtain ⟨signs, he⟩ := h.eq
  rw [he]
  rfl

theorem Switches.links_eq (h : Switches i g m w s t) : t.links = s.links := by
  obtain ⟨signs, he⟩ := h.eq
  rw [he]

theorem Switches.pl_eq (h : Switches i g m w s t) : t.pl = s.pl := by
  obtain ⟨signs, he⟩ := h.eq
  rw [he]

/-- A change of the sign that does not look at the record due. -/
theorem Switches.modify (h : Switches i g m w s t) (f : SignState → SignState)
    (hf : ∀ x b, f { x with recordDue := b } = { f x with recordDue := b }) :
    Switches i (f g) m w s (t.modifySign i f) where
  eq := by
    obtain ⟨signs, he⟩ := h.eq
    exact ⟨_, by rw [he]; rfl⟩
  sign := h.sign.modify f hf
  other := OnlySign.modifySign f h.other

/-- A change of the tile monitor alone. -/
theorem Switches.setTm (h : Switches i g m w s t) {u : State} {m' : TileMonitor} (hu : u = { t with tm := m' }) :
    Switches i g m' w s u where
  eq := by
    obtain ⟨signs, he⟩ := h.eq
    exact ⟨signs, by rw [hu, he]⟩
  sign := by rw [hu]; exact h.sign
  other := by rw [hu]; exact h.other.trans (OnlySign.of_signs rfl)

/-- A change of the report writer alone. -/
theorem Switches.setRw (h : Switches i g m w s t) {u : State} {w' : ReportWriter} (hu : u = { t with rw := w' }) :
    Switches i g m w' s u where
  eq := by
    obtain ⟨signs, he⟩ := h.eq
    exact ⟨signs, by rw [hu, he]⟩
  sign := by rw [hu]; exact h.sign
  other := by rw [hu]; exact h.other.trans (OnlySign.of_signs rfl)

/-- MAP_RANGE for slot `k` where `b` holds. -/
theorem Switches.reportRange (h : Switches i g m s.rw s t) (b : Bool) (k : Nat) :
    Switches i (g.rangeMarked b) m
      (s.reportIf (b = true) { kind := .mapRange, sign := some i, page := g.activePage, detail := k }).rw s
      (if b then t.reportRange i k else t) := by
  have hpage : (t.sign i).activePage = g.activePage := by
    obtain ⟨c, hc⟩ := h.sign
    rw [hc]
  rw [State.reportRange_if, hpage, State.reportIf_rw_congr h.rw_eq h.clk_eq]
  exact (h.modify (SignState.rangeMarked b) fun _ _ => rfl).setRw rfl

end

/-- The sign's registers once its new page's slots are made. -/
def SignState.switchedTo (p : Nat) (slots : List Slot) (range : Bool) (g : SignState) : SignState :=
  { g with
    generation := g.generation + 1, activePage := some p, slots := slots, rangeReported := range, forceFull := true }

/-- An acceptance up to its trigger: the page's slots made anew, MAP_RANGE, and FORCE_FULL (R67, R76). -/
def State.pageSwitched (i : SignNo) (p : Nat) (s : State) : State :=
  let values := (s.sign i).staged.map (·.value)
  let s := s.releaseSlots i
  let slots := values.map s.newSlot
  let s := s.modifySign i fun g =>
    { g with generation := g.generation + 1, activePage := some p, slots := slots, rangeReported := false }
  let s := s.addSlots i 0 slots
  let s :=
    match firstIndex (s.outOfRange ·) values with
    | some k => s.reportRange i k
    | none => s
  s.modifySign i fun g => { g with forceFull := true }

/-- A sign whose activation is accepted, before it is queued again. -/
def SignState.accepted (g : SignState) : SignState :=
  { g with lastRefused := none, incoming := none, staged := [], activation := .idle, recordDue := true }

/-- The new slots of the staged map (R76). -/
def State.stagedSlots (i : SignNo) (s : State) : List Slot :=
  (s.sign i).staged.map fun e => s.newSlot e.value

/-- MAP_RANGE of an acceptance names the lowest slot out of range. -/
theorem State.pageSwitched_switches (i : SignNo) (p : Nat) (s : State) :
    let slots := s.stagedSlots i
    let bad (v : Nat) : Bool := decide (s.settings.tileCount ≤ v ∧ v ≠ 0xFFFF)
    let range := (s.sign i).staged.any (bad ·.value)
    Switches i ((s.sign i).switchedTo p slots range)
      ((s.dropSlots i 0 (s.sign i).slots).addSlots i 0 slots).tm
      (s.reportIf (range = true)
        { kind := .mapRange, sign := some i, page := some p, detail := (s.sign i).staged.findIdx (bad ·.value) }).rw
      s (s.pageSwitched i p) := by
  intro slots bad range
  have h1 := ((Switches.refl i s).setTm (State.dropSlots_eq i 0 (s.sign i).slots s)).modify
    (fun g => { g with slots := [] }) fun _ _ => rfl
  have h2 := h1.modify (fun g =>
    { g with generation := g.generation + 1, activePage := some p, slots := slots, rangeReported := false })
    fun _ _ => rfl
  have h3 := h2.setTm (State.addSlots_eq i 0 slots _)
  rw [State.addSlots_tm_congr h2.tm_eq] at h3
  have hbad : ∀ v, State.outOfRange _ v = bad v := fun v => by
    rw [State.outOfRange, h3.settings_eq]
    exact (Bool.decide_and _ _).symm
  have hnew : (s.releaseSlots i).newSlot = s.newSlot := by
    funext v
    rw [State.newSlot, State.tileOf, State.releaseSlots, h1.settings_eq]
    rfl
  have hslots : ((s.sign i).staged.map (·.value)).map s.newSlot = slots := List.map_map
  unfold State.pageSwitched firstIndex
  dsimp only
  rw [hnew, hslots]
  simp only [State.releaseSlots, hbad, List.any_map, List.findIdx_map]
  have hmatch : ∀ (t : State) (b : Bool) (k : Nat),
      (match (if b = true then some k else none) with | some k => t.reportRange i k | none => t) =
        if b then t.reportRange i k else t := fun t b k => by cases b <;> rfl
  refine Eq.mpr (congrArg (Switches i _ _ _ s) (congrArg (State.modifySign i _) (hmatch _ range _))) ?_
  exact (h3.reportRange range _).modify (fun g => { g with forceFull := true }) fun _ _ => rfl

/-- What a trigger does to a sign leaves what a page switch has set. -/
theorem SignState.acted_switchedTo (c : Class) (a : TriggerAct) (p : Nat) (slots : List Slot) (range : Bool) (b : Bool)
    (g : SignState) :
    { g.switchedTo p slots range with recordDue := b }.acted c a =
      { (g.acted c a).switchedTo p slots range with recordDue := b } := by
  cases a <;> rfl

theorem LinkState.acted_switchedTo (i : SignNo) (c : Class) (a : TriggerAct) (p : Nat) (slots : List Slot)
    (range : Bool) (b : Bool) (g : SignState) (k : LinkState) :
    k.acted i c a { g.switchedTo p slots range with recordDue := b } = k.acted i c a g := by
  cases a <;> rfl

theorem SignState.wantsOther_iff (g : SignState) :
    g.wantsOther = true ↔ ∃ w, g.wanted = some w ∧ some w.1 ≠ g.activePage := by
  unfold SignState.wantsOther
  cases g.wanted with
  | none => simp
  | some w =>
    obtain ⟨p, r⟩ := w
    exact decide_eq_true_iff.trans ⟨fun h => ⟨_, rfl, Ne.symm h⟩, fun ⟨_, hw, hne⟩ => by cases hw; exact hne.symm⟩

/-- An IDLE sign joins the activation queue exactly when it wants a page other than its active one. -/
theorem State.queueActivation_idle {i : SignNo} {s : State} (h : (s.sign i).activation = .idle) :
    (s.queueActivation i).sign i = { s.sign i with activation := if (s.sign i).wantsOther then .queued else .idle } ∧
      (s.queueActivation i).pl.queue = s.pl.queue ++ if (s.sign i).wantsOther then [i] else [] := by
  have hjoins : (s.sign i).joins = (s.sign i).wantsOther := by rw [SignState.joins, h]; rfl
  rw [State.sign_queueActivation, if_pos rfl, SignState.joined, hjoins, State.queueActivation_eq, hjoins, h]
  exact ⟨rfl, rfl⟩

theorem State.queueActivation_rest (i : SignNo) (s : State) :
    ∃ signs queue, s.queueActivation i = { s with signs := signs, pl.queue := queue } := by
  rw [State.queueActivation_eq]
  exact ⟨_, _, rfl⟩

/-! ## The two ends (R76, R77, R78) -/

/-- A sign refused page `p` asks again: it wants a page that is neither its active one nor the refused one (R78). -/
def SignState.asksAgain (p : Nat) (g : SignState) : Bool := decide (g.wanted.map (·.1) ≠ some p) && g.wantsOther

theorem SignState.asksAgain_iff (p : Nat) (g : SignState) :
    g.asksAgain p = true ↔
      (∃ w, g.wanted = some w ∧ some w.1 ≠ g.activePage) ∧ ∃ w, g.wanted = some w ∧ some w.1 ≠ some p := by
  rw [SignState.asksAgain, Bool.and_eq_true, SignState.wantsOther_iff, decide_eq_true_eq, and_comm]
  refine and_congr_right fun ⟨w, hw, _⟩ => ?_
  rw [hw]
  exact ⟨fun h => ⟨w, rfl, h⟩, fun ⟨_, hv, h⟩ => by cases hv; exact h⟩

theorem State.refused_rw (i : SignNo) (p cause : Nat) (s : State) :
    (s.refused i p cause).rw = (s.reportIf ((s.sign i).lastRefused ≠ some p)
      { kind := .slotsExhausted, sign := some i, page := some p, detail := cause }).rw :=
  State.reportIf_rw_congr (by rfl) (by rfl) _ _

/-- What a refusal leaves: the sign, its place in the activation queue, and the rest as the refusal itself left it. -/
theorem State.refuseActivation_parts (i : SignNo) (p cause : Nat) (s : State) :
    (s.refuseActivation i p cause).sign i =
        { (s.sign i).refusedAt p with activation := if (s.sign i).asksAgain p then .queued else .idle } ∧
      (s.refuseActivation i p cause).pl.queue = s.pl.queue ++ (if (s.sign i).asksAgain p then [i] else []) ∧
      ∃ signs queue, s.refuseActivation i p cause = { s.refused i p cause with signs := signs, pl.queue := queue } := by
  have hsign := State.sign_refused i p cause s
  have hqueue : (s.refused i p cause).pl.queue = s.pl.queue := by rw [State.refused_rest]; rfl
  rw [State.refuseActivation_eq, SignState.asksAgain]
  by_cases h : (s.sign i).wanted.map (·.1) ≠ some p
  · obtain ⟨hself, hjoin⟩ := State.queueActivation_idle (i := i) (s := s.refused i p cause) (by rw [hsign]; rfl)
    rw [if_pos h, decide_eq_true h, Bool.true_and, hself, hjoin, hsign, hqueue]
    exact ⟨rfl, rfl, State.queueActivation_rest i _⟩
  · rw [if_neg h, decide_eq_false h, Bool.false_and, hsign, hqueue]
    exact ⟨rfl, (List.append_nil _).symm, _, _, rfl⟩

theorem State.refuseActivation_only (i : SignNo) (p cause : Nat) (s : State) :
    OnlySign i s (s.refuseActivation i p cause) := by
  have hrefused : OnlySign i s (s.refused i p cause) := by
    rw [State.refused_rest]
    exact (OnlySign.modify i (SignState.refusedAt p) s).trans (OnlySign.of_signs rfl)
  rw [State.refuseActivation_eq]
  split
  · exact hrefused.trans (State.queueActivation_only i _)
  · exact hrefused

/-- A trigger acts on a sign that has switched its page as it acts on the sign before. -/
theorem Switches.trigger {i : SignNo} {p : Nat} {slots : List Slot} {range : Bool} {m : TileMonitor} {w : ReportWriter}
    {s t : State} (h : Switches i ((s.sign i).switchedTo p slots range) m w s t) (c : Class) :
    ((t.trigger i c).sign i).accepted =
        (((s.trigger i c).sign i).switchedTo p slots range).accepted ∧
      OnlySign i s (t.trigger i c) ∧ (t.trigger i c).links = (s.trigger i c).links ∧ (t.trigger i c).rw = w ∧
      (t.trigger i c).tm = m ∧ (t.trigger i c).pl = s.pl ∧ (t.trigger i c).clk = s.clk := by
  obtain ⟨b, hb⟩ := h.sign
  have hlink := State.link_congr h.links_eq (s.sign i).entry.link
  have hs := State.trigger_acts i c s
  have ht := State.trigger_acts i c t
  have hentry : (t.sign i).entry = (s.sign i).entry := by rw [hb]; rfl
  have hact : (t.sign i).triggerAct i c (t.link (t.sign i).entry.link) =
      (s.sign i).triggerAct i c (s.link (s.sign i).entry.link) := by
    rw [hentry, hlink, hb]
    rfl
  rw [hact] at ht
  obtain ⟨bs, hbs⟩ := hs.sign
  obtain ⟨bt, hbt⟩ := ht.sign
  obtain ⟨_, _, _, _, het⟩ := ht.eq
  refine ⟨?_, h.other.trans ht.other, ?_, ?_, ?_, ?_, ?_⟩
  · rw [hbt, hbs, hb, SignState.acted_switchedTo]
    rfl
  · rw [ht.links_eq (congrArg (·.link) hentry) hlink, hs.links_eq rfl rfl, h.links_eq, hb, LinkState.acted_switchedTo]
  · rw [het]; exact h.rw_eq
  · rw [het]; exact h.tm_eq
  · rw [het]; exact h.pl_eq
  · rw [het]; exact h.clk_eq

/-- A trigger leaves the sign's entry, its slots' generation and its wanted page. -/
theorem State.trigger_keeps (i : SignNo) (c : Class) (s : State) :
    ((s.trigger i c).sign i).entry = (s.sign i).entry ∧ ((s.trigger i c).sign i).generation = (s.sign i).generation ∧
      ((s.trigger i c).sign i).wanted = (s.sign i).wanted := by
  have hacted : ∀ a, ((s.sign i).acted c a).entry = (s.sign i).entry ∧
      ((s.sign i).acted c a).generation = (s.sign i).generation ∧ ((s.sign i).acted c a).wanted = (s.sign i).wanted := by
    intro a
    cases a <;> exact ⟨rfl, rfl, rfl⟩
  obtain ⟨b, hb⟩ := (State.trigger_acts i c s).sign
  rw [hb]
  exact hacted _

/-- The state of an acceptance once PAGE_SWITCH is handed, before the sign is queued again. -/
def State.accepted (i : SignNo) (p : Nat) (r : Reason) (s : State) : State :=
  { (((s.pageSwitched i p).trigger i r.class).report
      { kind := .pageSwitch, sign := some i, page := some p,
        detail := r.code * 256 + pageCode (s.sign i).activePage }).modifySign i SignState.accepted with
    pl.loading := none }

theorem State.acceptActivation_eq (i : SignNo) (p : Nat) (r : Reason) (s : State) :
    s.acceptActivation i p r = (s.accepted i p r).queueActivation i := rfl

/-- What an acceptance leaves, before the sign is queued again, of a page switch that leaves the sign with `slots` and
`range`. -/
theorem Switches.accepted {i : SignNo} {p : Nat} {slots : List Slot} {range : Bool} {m : TileMonitor} {w : ReportWriter}
    {s : State} (h : Switches i ((s.sign i).switchedTo p slots range) m w s (s.pageSwitched i p)) (r : Reason) :
    (s.accepted i p r).sign i = (((s.trigger i r.class).sign i).switchedTo p slots range).accepted ∧
      OnlySign i s (s.accepted i p r) ∧ (s.accepted i p r).links = (s.trigger i r.class).links ∧
      (s.accepted i p r).tm = m ∧ (s.accepted i p r).pl = { s.pl with loading := none } ∧
      (s.accepted i p r).rw = (State.report
        { kind := .pageSwitch, sign := some i, page := some p,
          detail := r.code * 256 + pageCode (s.sign i).activePage } { s with rw := w }).rw := by
  obtain ⟨hsign, honly, hlinks, hrw, htm, hpl, hclk⟩ := h.trigger r.class
  unfold State.accepted
  refine ⟨?_, ?_, ?_, ?_, ?_, ?_⟩
  · refine (State.sign_modifySign_due (f := SignState.accepted) rfl).trans ?_
    rw [State.sign_report]
    exact hsign
  · exact (OnlySign.modifySign SignState.accepted (honly.trans (OnlySign.of_signs (State.report_signs _ _)))).trans
      (OnlySign.of_signs rfl)
  · rw [State.report_rw]; exact hlinks
  · rw [State.report_rw]; exact htm
  · rw [State.report_rw]; exact congrArg (fun x : PageLoader => { x with loading := none }) hpl
  · exact State.report_rw_congr (s := { s with rw := w }) hrw hclk _

/-- Settles O39. -/
theorem activationsEnd : Obligations.ActivationsEnd := by
  intro s i p r cause g tile slots bad range a f wants asks c
  refine ⟨?_, ?_⟩
  · have hswitch : Switches i (g.switchedTo p slots range) _ _ s (s.pageSwitched i p) := s.pageSwitched_switches i p
    obtain ⟨hu, honly, hlinks, htm, hpl, hrw⟩ := hswitch.accepted r
    obtain ⟨hentry, hgen, hwanted⟩ := s.trigger_keeps i r.class
    obtain ⟨hself, hqueue⟩ := State.queueActivation_idle (i := i) (s := s.accepted i p r) (by rw [hu]; rfl)
    obtain ⟨signs, queue, hrest⟩ := State.queueActivation_rest i (s.accepted i p r)
    have hwants : ((s.accepted i p r).sign i).wantsOther = true ↔ wants (some p) := by
      rw [SignState.wantsOther_iff, hu]
      exact exists_congr fun w => and_congr_left fun _ => by rw [← hwanted]; rfl
    have hsign : a.sign i = _ := hself
    rw [hu] at hsign hqueue hwants
    have hrest' : a = _ := hrest
    have hqueue' : a.pl.queue = _ := hqueue
    rw [hpl] at hqueue'
    rw [hsign, hqueue']
    refine ⟨rfl, congrArg (· + 1) hgen, rfl, rfl, rfl, rfl, rfl, rfl, rfl, hentry, hwanted, rfl, rfl, rfl, rfl, rfl,
      honly.trans (State.queueActivation_only i _), ?_, ?_, ?_, fun h => ?_, fun h => ?_, ?_⟩
    · rw [hrest']; exact hlinks
    · rw [hrest']; exact htm
    · rw [hrest', hpl]
    · rw [if_pos (hwants.mpr h), if_pos (hwants.mpr h)]; exact ⟨rfl, rfl⟩
    · rw [if_neg (mt hwants.mp h), if_neg (mt hwants.mp h)]; exact ⟨rfl, List.append_nil _⟩
    · rw [hrest', State.reportIf_rw]
      exact hrw
  · obtain ⟨hsign, hqueue, signs, queue, hrest⟩ := s.refuseActivation_parts i p cause
    have hasks : g.asksAgain p = true ↔ asks := g.asksAgain_iff p
    have hq := s.refused_rest i p cause
    have hsign' : f.sign i = _ := hsign
    have hqueue' : f.pl.queue = _ := hqueue
    have hrest' : f = _ := hrest
    rw [hsign', hqueue']
    refine ⟨rfl, rfl, rfl, rfl, s.refuseActivation_only i p cause, ?_, ?_, ?_, fun h => ?_, fun h => ?_, ?_⟩
    · rw [hrest', hq]; rfl
    · rw [hrest', hq]; rfl
    · rw [hrest', hq]
    · rw [if_pos (hasks.mpr h), if_pos (hasks.mpr h)]; exact ⟨rfl, rfl⟩
    · rw [if_neg (mt hasks.mp h), if_neg (mt hasks.mp h)]; exact ⟨rfl, List.append_nil _⟩
    · rw [hrest']; exact s.refused_rw i p cause

end Sys2Proof.Machine
end

section
/-! PROOFS. Map writes: the entries of a run, what each does to its slot, and a run of several. -/

namespace Sys2Proof.Machine

/-! ## The entries of a run (R74, R79) -/

/-- A host write inside one page map, granted with its command: its bytes in memory, then the map's run. -/
theorem exec_mapWrite {s : State} {addr pos p : Nat} {data : List Byte} {i : SignNo}
    (hgoes : s.HostGoes .write addr data.length) (hne : data ≠ [])
    (hin : ∀ j < data.length, classify s.mp.windowBase s.dir.header ((addr + j) % 16777216) = .map i p (pos + j)) :
    exec (.mapWrite addr data) s =
      .next ((s.wrote addr data).mapRunWritten i p ((List.range' pos data.length).zip data)).settle := by
  show Host.Outcome.next (s.carryWrite addr data) = _
  rw [State.carryWrite_of_goes hgoes, cutRuns_map _ _ addr i p pos data hne hin]
  rfl

/-- The one entry of a run that carries one entry or half of it. -/
theorem mapEntries_one (k : Nat) (hi lo : Option Byte) (h : hi.isSome ∨ lo.isSome) :
    mapEntries ((List.range' (2 * k + if hi.isSome then 0 else 1) (hi.toList ++ lo.toList).length).zip
      (hi.toList ++ lo.toList)) = [(k, hi, lo)] := by
  have hodd : (2 * k + 1) / 2 = k := by omega
  cases hi with
  | none =>
    cases lo with
    | none => simp at h
    | some c => simp [mapEntries, List.range'_succ, hodd]
  | some b => cases lo <;> simp [mapEntries, List.range'_succ]

/-- Entry `k + j` of a run of whole entries from entry `k` on. -/
def wholeEntry (k : Nat) (data : List Byte) (j : Nat) : Nat × Option Byte × Option Byte :=
  (k + j, some (data[2 * j]?.getD 0), some (data[2 * j + 1]?.getD 0))

theorem mapEntries_whole (m k : Nat) (data : List Byte) (h : data.length = 2 * m) :
    mapEntries ((List.range' (2 * k) data.length).zip data) = (List.range m).map (wholeEntry k data) := by
  induction m generalizing k data with
  | zero =>
    rw [List.length_eq_zero_iff.mp h]
    rfl
  | succ m ih =>
    obtain ⟨hi, lo, rest, rfl⟩ : ∃ hi lo rest, data = hi :: lo :: rest := by
      match data, h with
      | hi :: lo :: rest, _ => exact ⟨hi, lo, rest, rfl⟩
      | [], h => simp at h
      | [_], h => simp at h; omega
    have hrest : rest.length = 2 * m := by simp at h; omega
    have htail : (List.range m).map (wholeEntry (k + 1) rest) =
        (List.range m).map (wholeEntry k (hi :: lo :: rest) ∘ Nat.succ) := by
      refine List.map_congr_left fun j _ => ?_
      have h2 : 2 * (j + 1) = 2 * j + 1 + 1 := by omega
      simp [wholeEntry, h2, Nat.add_assoc, Nat.add_comm 1 j]
    have hhead : mapEntries ((List.range' (2 * k) (hi :: lo :: rest).length).zip (hi :: lo :: rest)) =
        (k, some hi, some lo) :: mapEntries ((List.range' (2 * (k + 1)) rest.length).zip rest) := by
      simp [mapEntries, List.range'_succ, Nat.mul_add]
    rw [hhead, ih (k + 1) rest hrest, htail, List.range_succ_eq_map, List.map_cons, List.map_map]
    rfl

/-! ## The staged map (R74) -/

theorem stageWrite_one (k : Nat) (hi lo : Option Byte) (staged : List StagedEntry) :
    [(k, hi, lo)].foldl stageWrite staged =
      staged.modify k fun x => if x.read then { x with value := mergeHalves x.value hi lo } else x := rfl

/-- The value of entry `k + j` of a run of whole entries. -/
def wholeValue (data : List Byte) (j : Nat) : Nat :=
  (data[2 * j]?.getD 0).toNat * 256 + (data[2 * j + 1]?.getD 0).toNat

/-- The staged map takes a run of whole entries where they are read already. -/
theorem stageWrite_whole (k m : Nat) (data : List Byte) (staged : List StagedEntry) :
    ((List.range m).map (wholeEntry k data)).foldl stageWrite staged =
      staged.mapIdx fun q x =>
        if k ≤ q ∧ q < k + m ∧ x.read = true then { x with value := wholeValue data (q - k) } else x := by
  induction m with
  | zero =>
    refine List.ext_getElem? fun q => ?_
    show staged[q]? = _
    rw [List.getElem?_mapIdx]
    cases staged[q]? with
    | none => rfl
    | some x => rw [Option.map_some, if_neg (by omega)]
  | succ m ih =>
    rw [List.range_succ, List.map_append, List.foldl_append, ih]
    refine List.ext_getElem? fun q => ?_
    show (List.modify _ (k + m) _)[q]? = _
    rw [List.getElem?_modify, List.getElem?_mapIdx, List.getElem?_mapIdx]
    cases staged[q]? with
    | none => rfl
    | some x =>
      by_cases hq : k + m = q
      · have hsub : q - k = m := by omega
        subst hq
        have hmerge : mergeHalves x.value (wholeEntry k data m).2.1 (wholeEntry k data m).2.2 = wholeValue data m := rfl
        cases hr : x.read <;> simp [hr, hmerge]
      · have hlt : q < k + (m + 1) ↔ q < k + m := by omega
        simp [hq, hlt]

/-! ## One entry at the active page's slots (R67, R79, R80) -/

/-- MAP_RANGE for a value written to slot `k` of page `p`, where it is out of range and none has been handed since the last
acceptance. -/
def State.rangeHanded (count : Nat) (i : SignNo) (p k v : Nat) (s : State) : State :=
  if count ≤ v ∧ v ≠ 0xFFFF ∧ (s.sign i).rangeReported = false then
    (s.modifySign i fun g => { g with rangeReported := true }).report
      { kind := .mapRange, sign := some i, page := some p, detail := k }
  else s

theorem State.rangeWrite_eq {s : State} {i : SignNo} {p count : Nat} (hcount : s.settings.tileCount = count)
    (hp : (s.sign i).activePage = some p) (k v : Nat) : s.rangeWrite i k v = s.rangeHanded count i p k v := by
  have hiff : (s.outOfRange v && !(s.sign i).rangeReported) = true ↔
      count ≤ v ∧ v ≠ 0xFFFF ∧ (s.sign i).rangeReported = false := by
    rw [State.outOfRange, hcount]
    simp [and_assoc]
  unfold State.rangeWrite State.rangeHanded State.reportRange
  rw [hp]
  exact if_congr hiff rfl rfl

/-- What slot `k` of page `p`, which holds `x`, and its sign take of a written value `v`; the flag says whether the slot's
tile changed. -/
def State.slotWritten (count : Nat) (i : SignNo) (p k v : Nat) (x : Slot) (s : State) : State × Bool :=
  let tile := if v < count then some v else none
  let d := s.dropSlot x.tile (i, k)
  if v = x.mapValue then (s, false)
  else if tile = x.tile then
    ((s.modifySign i fun g => { g with slots := g.slots.modify k fun x => { x with mapValue := v } }).rangeHanded
      count i p k v, false)
  else
    match tile with
    | none => ((d.changeSlot i k v none).rangeHanded count i p k v, true)
    | some n =>
      if d.watched n = none ∧ 4096 ≤ d.tm.watch.length then
        ((d.changeSlot i k v none).report { kind := .slotsExhausted, sign := some i, page := some p, detail := 3 }, true)
      else ((d.addTile n (i, k)).changeSlot i k v (some n), true)

/-- A state in which sign `i` shows page `p` and the tile count is `count`. -/
structure ShowsPage (count : Nat) (i : SignNo) (p : Nat) (s : State) : Prop where
  count : s.settings.tileCount = count
  page : (s.sign i).activePage = some p

theorem ShowsPage.modify {count p : Nat} {i : SignNo} {s : State} (h : ShowsPage count i p s) {f : SignState → SignState}
    (hf : (f (s.sign i)).activePage = (s.sign i).activePage) : ShowsPage count i p (s.modifySign i f) :=
  ⟨h.count, by rw [State.sign_modifySign_self, SignState.markDue_activePage, hf, h.page]⟩

theorem ShowsPage.report {count p : Nat} {i : SignNo} {s : State} (h : ShowsPage count i p s) (r : Report) :
    ShowsPage count i p (s.report r) :=
  ⟨by rw [State.report_settings]; exact h.count, by rw [State.sign_report]; exact h.page⟩

theorem ShowsPage.setTm {count p : Nat} {i : SignNo} {s t : State} {m : TileMonitor} (h : ShowsPage count i p s)
    (ht : t = { s with tm := m }) : ShowsPage count i p t := by
  subst ht
  exact ⟨h.count, h.page⟩

theorem State.mapEntryWritten_eq {count p : Nat} {i : SignNo} {s : State} (h : ShowsPage count i p s) (k : Nat)
    (hi lo : Option Byte) :
    s.mapEntryWritten i (k, hi, lo) =
      match (s.sign i).slots[k]? with
      | none => (s, false)
      | some x => s.slotWritten count i p k (mergeHalves x.mapValue hi lo) x := by
  have hd : ∀ tile, ShowsPage count i p (s.dropSlot tile (i, k)) := fun tile => h.setTm (State.dropSlot_eq tile (i, k) s)
  have hchange : ∀ {t : State} (v : Nat) (tile : Option Nat), ShowsPage count i p t →
      ShowsPage count i p (t.changeSlot i k v tile) := fun v tile ht => ht.modify rfl
  unfold State.mapEntryWritten
  dsimp only
  cases (s.sign i).slots[k]? with
  | none => rfl
  | some x =>
    dsimp only
    generalize mergeHalves x.mapValue hi lo = v
    have htile : s.tileOf v = if v < count then some v else none := by rw [State.tileOf, h.count]
    have hset := h.modify (f := fun g => { g with slots := g.slots.modify k fun x => { x with mapValue := v } }) rfl
    unfold State.slotWritten
    rw [htile]
    dsimp only
    generalize (if v < count then some v else none : Option Nat) = tile
    refine if_congr Iff.rfl rfl (if_congr Iff.rfl (congrArg (·, false) (State.rangeWrite_eq hset.count hset.page k v)) ?_)
    have hnone := hchange v none (hd x.tile)
    cases tile with
    | none => exact congrArg (·, true) (State.rangeWrite_eq hnone.count hnone.page k v)
    | some n =>
      have hrefused : (s.dropSlot x.tile (i, k)).addRefused n = true ↔
          (s.dropSlot x.tile (i, k)).watched n = none ∧ 4096 ≤ (s.dropSlot x.tile (i, k)).tm.watch.length := by
        simp [State.addRefused]
      dsimp only
      rw [(hd x.tile).page]
      exact if_congr hrefused rfl rfl

/-- A written entry leaves the page the sign shows. -/
theorem ShowsPage.slotWritten {count p : Nat} {i : SignNo} {s : State} (h : ShowsPage count i p s) (k v : Nat) (x : Slot) :
    ShowsPage count i p (s.slotWritten count i p k v x).1 := by
  have hd := h.setTm (State.dropSlot_eq x.tile (i, k) s)
  have hrange : ∀ t : State, ShowsPage count i p t → ShowsPage count i p (t.rangeHanded count i p k v) := by
    intro t ht
    unfold State.rangeHanded
    split
    · exact (ht.modify rfl).report _
    · exact ht
  have hchange : ∀ {t : State} (tile : Option Nat), ShowsPage count i p t →
      ShowsPage count i p (t.changeSlot i k v tile) := fun tile ht => ht.modify rfl
  unfold State.slotWritten
  dsimp only
  generalize (if v < count then some v else none : Option Nat) = tile
  split
  · exact h
  · split
    · exact hrange _ (h.modify rfl)
    · cases tile with
      | none => exact hrange _ (hchange none hd)
      | some n =>
        dsimp only
        split
        · exact (hchange none hd).report _
        · exact hchange _ (hd.setTm (State.addSlot_eq (some n) (i, k) _))

/-! ## The run (R74, R79, R81) -/

/-- The run's entries taken one after the other. -/
theorem State.mapEntriesWritten_eq (i : SignNo) (es : List (Nat × Option Byte × Option Byte)) (s : State) :
    s.mapEntriesWritten i es =
      es.foldl (fun x e => ((x.1.mapEntryWritten i e).1, x.2 || (x.1.mapEntryWritten i e).2)) (s, false) := by
  have hflag : ∀ (es : List (Nat × Option Byte × Option Byte)) (t : State) (b : Bool),
      es.foldl (fun x e => ((x.1.mapEntryWritten i e).1, x.2 || (x.1.mapEntryWritten i e).2)) (t, b) =
        ((t.mapEntriesWritten i es).1, b || (t.mapEntriesWritten i es).2) := by
    intro es
    induction es with
    | nil => exact fun t b => by simp [State.mapEntriesWritten]
    | cons e rest ih => exact fun t b => by rw [List.foldl_cons, ih, State.mapEntriesWritten, Bool.or_assoc]
  rw [hflag, Bool.false_or]

/-- The incoming page's staged map once a run on page `p` is taken (R74). -/
def State.mapStaged (i : SignNo) (p : Nat) (es : List (Nat × Option Byte × Option Byte)) (s : State) : State :=
  if (s.sign i).incoming.map (·.1) = some p then
    s.modifySign i fun g => { g with staged := es.foldl stageWrite g.staged }
  else s

theorem State.mapStaged_keeps (i : SignNo) (p : Nat) (es : List (Nat × Option Byte × Option Byte)) (s : State) :
    (s.mapStaged i p es).settings = s.settings ∧ ((s.mapStaged i p es).sign i).activePage = (s.sign i).activePage ∧
      ((s.mapStaged i p es).sign i).slots = (s.sign i).slots ∧
      ((s.mapStaged i p es).sign i).rangeReported = (s.sign i).rangeReported := by
  unfold State.mapStaged
  split
  · rw [State.sign_modifySign_self, SignState.markDue_activePage, SignState.markDue_slots, SignState.markDue_rangeReported]
    exact ⟨rfl, rfl, rfl, rfl⟩
  · exact ⟨rfl, rfl, rfl, rfl⟩

theorem State.mapRunWritten_eq (i : SignNo) (p : Nat) (bytes : List (Nat × Byte)) (s : State) :
    s.mapRunWritten i p bytes =
      let w := s.mapStaged i p (mapEntries bytes)
      if (s.sign i).activePage = some p then
        if (w.mapEntriesWritten i (mapEntries bytes)).2 then
          (w.mapEntriesWritten i (mapEntries bytes)).1.trigger i .content
        else (w.mapEntriesWritten i (mapEntries bytes)).1
      else w := by
  obtain ⟨-, hpage, -, -⟩ := s.mapStaged_keeps i p (mapEntries bytes)
  rw [← hpage]
  rfl

/-- A run of one entry or half of one, at the sign that shows its page and at any other. -/
theorem exec_mapWrite_one {s : State} {addr p k : Nat} {i : SignNo} {hi lo : Option Byte}
    (hgoes : s.HostGoes .write addr (hi.toList ++ lo.toList).length) (hsome : hi.isSome ∨ lo.isSome)
    (hin : ∀ m < (hi.toList ++ lo.toList).length, classify s.mp.windowBase s.dir.header ((addr + m) % 16777216) =
      .map i p (2 * k + (if hi.isSome then 0 else 1) + m)) :
    let w := (s.wrote addr (hi.toList ++ lo.toList)).mapStaged i p [(k, hi, lo)]
    exec (.mapWrite addr (hi.toList ++ lo.toList)) s = .next (State.settle
      (if (s.sign i).activePage = some p then
        match (s.sign i).slots[k]? with
        | none => w
        | some x =>
          let out := w.slotWritten s.settings.tileCount i p k (mergeHalves x.mapValue hi lo) x
          if out.2 then out.1.trigger i .content else out.1
      else w)) := by
  intro w
  have hne : hi.toList ++ lo.toList ≠ [] := by
    cases hi <;> cases lo <;> simp at hsome ⊢
  rw [exec_mapWrite hgoes hne hin, State.mapRunWritten_eq, mapEntries_one k hi lo hsome]
  show Host.Outcome.next (State.settle (if (s.sign i).activePage = some p then _ else _)) = _
  by_cases hp : (s.sign i).activePage = some p
  · obtain ⟨hsettings, hpage, hslots, -⟩ := (s.wrote addr (hi.toList ++ lo.toList)).mapStaged_keeps i p [(k, hi, lo)]
    have hshows : ShowsPage s.settings.tileCount i p w := ⟨by rw [hsettings]; rfl, by rw [hpage]; exact hp⟩
    have hslots : (w.sign i).slots = (s.sign i).slots := hslots
    rw [if_pos hp, if_pos hp]
    show Host.Outcome.next (State.settle (if ((w.mapEntryWritten i (k, hi, lo)).2 || false) = true then
      (w.mapEntryWritten i (k, hi, lo)).1.trigger i .content else (w.mapEntryWritten i (k, hi, lo)).1)) = _
    rw [Bool.or_false, State.mapEntryWritten_eq hshows, hslots]
    cases (s.sign i).slots[k]? with
    | none => rfl
    | some x => rfl
  · rw [if_neg hp, if_neg hp]

/-- What entry `k + j` of a run of whole entries does to its slot, where it has one. -/
def State.wholeWritten (count : Nat) (i : SignNo) (p k : Nat) (data : List Byte) (u : State) (j : Nat) : State × Bool :=
  match (u.sign i).slots[k + j]? with
  | none => (u, false)
  | some x => u.slotWritten count i p (k + j) (wholeValue data j) x

theorem State.mapEntryWritten_whole {count p : Nat} {i : SignNo} {u : State} (h : ShowsPage count i p u) (k : Nat)
    (data : List Byte) (j : Nat) :
    u.mapEntryWritten i (wholeEntry k data j) = u.wholeWritten count i p k data j ∧
      ShowsPage count i p (u.wholeWritten count i p k data j).1 := by
  unfold wholeEntry State.wholeWritten
  rw [State.mapEntryWritten_eq h]
  cases (u.sign i).slots[k + j]? with
  | none => exact ⟨rfl, h⟩
  | some x => exact ⟨rfl, h.slotWritten _ _ x⟩

/-- A run of whole entries, taken in travel order (R81). -/
theorem State.mapEntriesWritten_whole {count p : Nat} {i : SignNo} {u : State} (h : ShowsPage count i p u) (k m : Nat)
    (data : List Byte) :
    u.mapEntriesWritten i ((List.range m).map (wholeEntry k data)) =
      (List.range m).foldl (fun x j =>
        ((x.1.wholeWritten count i p k data j).1, x.2 || (x.1.wholeWritten count i p k data j).2)) (u, false) := by
  have hrun : ∀ (js : List Nat) (t : State) (b : Bool), ShowsPage count i p t →
      js.foldl (fun x j => ((x.1.mapEntryWritten i (wholeEntry k data j)).1,
          x.2 || (x.1.mapEntryWritten i (wholeEntry k data j)).2)) (t, b) =
        js.foldl (fun x j => ((x.1.wholeWritten count i p k data j).1,
          x.2 || (x.1.wholeWritten count i p k data j).2)) (t, b) := by
    intro js
    induction js with
    | nil => exact fun _ _ _ => rfl
    | cons j js ih =>
      intro t b ht
      obtain ⟨heq, hkeeps⟩ := State.mapEntryWritten_whole ht k data j
      rw [List.foldl_cons, List.foldl_cons, heq]
      exact ih _ _ hkeeps
  rw [State.mapEntriesWritten_eq, List.foldl_map, hrun _ _ _ h]

/-- A run of `m` whole entries, at the sign that shows its page and at any other. -/
theorem exec_mapWrite_whole {s : State} {addr p k m : Nat} {data : List Byte} {i : SignNo}
    (hgoes : s.HostGoes .write addr data.length) (hlength : data.length = 2 * m) (hm : 0 < m)
    (hin : ∀ j < data.length, classify s.mp.windowBase s.dir.header ((addr + j) % 16777216) = .map i p (2 * k + j)) :
    let w := (s.wrote addr data).mapStaged i p ((List.range m).map (wholeEntry k data))
    let out := (List.range m).foldl (fun x j => ((x.1.wholeWritten s.settings.tileCount i p k data j).1,
      x.2 || (x.1.wholeWritten s.settings.tileCount i p k data j).2)) (w, false)
    exec (.mapWrite addr data) s = .next (State.settle
      (if (s.sign i).activePage ≠ some p then w else if out.2 then out.1.trigger i .content else out.1)) := by
  intro w out
  have hne : data ≠ [] := List.ne_nil_of_length_pos (by omega)
  rw [exec_mapWrite hgoes hne hin, State.mapRunWritten_eq, mapEntries_whole m k data hlength]
  show Host.Outcome.next (State.settle (if (s.sign i).activePage = some p then _ else _)) = _
  by_cases hp : (s.sign i).activePage = some p
  · obtain ⟨hsettings, hpage, -, -⟩ :=
      (s.wrote addr data).mapStaged_keeps i p ((List.range m).map (wholeEntry k data))
    have hshows : ShowsPage s.settings.tileCount i p w := ⟨by rw [hsettings]; rfl, by rw [hpage]; exact hp⟩
    rw [if_pos hp, if_neg (not_not.mpr hp), State.mapEntriesWritten_whole hshows]
  · rw [if_neg hp, if_pos hp]

theorem State.sign_dropSlot (tile : Option Nat) (slot : SignNo × Nat) (j : SignNo) (s : State) :
    (s.dropSlot tile slot).sign j = s.sign j := by
  rw [State.dropSlot_eq]
  rfl

theorem State.rangeReported_changeSlot (i : SignNo) (k v : Nat) (tile : Option Nat) (s : State) :
    ((s.changeSlot i k v tile).sign i).rangeReported = (s.sign i).rangeReported := by
  rw [State.changeSlot, State.sign_modifySign_self, SignState.markDue_rangeReported]

/-- MAP_RANGE once the slot is changed: the sign's range report is still the one it had before. -/
theorem State.rangeHanded_of {t : State} {i : SignNo} {r : Bool} (h : (t.sign i).rangeReported = r) (count p k v : Nat) :
    t.rangeHanded count i p k v =
      if count ≤ v ∧ v ≠ 0xFFFF ∧ r = false then
        (t.modifySign i fun g => { g with rangeReported := true }).report
          { kind := .mapRange, sign := some i, page := some p, detail := k }
      else t := by
  subst h
  rfl

section
variable {count p k v : Nat} {i : SignNo} {x : Slot} {s : State}

theorem State.slotWritten_of_same (h : v = x.mapValue) : s.slotWritten count i p k v x = (s, false) := by
  unfold State.slotWritten
  exact if_pos h

theorem State.slotWritten_of_sameTile (hv : v ≠ x.mapValue) (ht : (if v < count then some v else none) = x.tile) :
    s.slotWritten count i p k v x =
      ((s.modifySign i fun g => { g with slots := g.slots.modify k fun x => { x with mapValue := v } }).rangeHanded
        count i p k v, false) := by
  unfold State.slotWritten
  dsimp only
  rw [if_neg hv, if_pos ht]

theorem State.slotWritten_of_blank (hv : v ≠ x.mapValue) (hx : (if v < count then some v else none) ≠ x.tile)
    (ht : (if v < count then some v else none) = none) :
    s.slotWritten count i p k v x =
      (((s.dropSlot x.tile (i, k)).changeSlot i k v none).rangeHanded count i p k v, true) := by
  unfold State.slotWritten
  dsimp only
  rw [if_neg hv, if_neg hx, ht]

theorem State.slotWritten_of_tile {n : Nat} (hv : v ≠ x.mapValue) (hx : (if v < count then some v else none) ≠ x.tile)
    (ht : (if v < count then some v else none) = some n) :
    s.slotWritten count i p k v x =
      if (s.dropSlot x.tile (i, k)).watched n = none ∧ 4096 ≤ (s.dropSlot x.tile (i, k)).tm.watch.length then
        (((s.dropSlot x.tile (i, k)).changeSlot i k v none).report
          { kind := .slotsExhausted, sign := some i, page := some p, detail := 3 }, true)
      else (((s.dropSlot x.tile (i, k)).addTile n (i, k)).changeSlot i k v (some n), true) := by
  unfold State.slotWritten
  dsimp only
  rw [if_neg hv, if_neg hx, ht]

end

/-- Settles O40. -/
theorem mapWriteChangesOneSlot : Obligations.MapWriteChangesOneSlot := by
  unfold Obligations.MapWriteChangesOneSlot
  refine ⟨?_, ?_⟩
  · intro s addr data i p k hi lo hgoes hsome hdata hin g merge v w
    subst hdata
    have hexec := exec_mapWrite_one hgoes hsome hin
    have hw : v.mapStaged i p [(k, hi, lo)] = w := by
      cases hi <;> cases lo <;> rfl
    have hmerge : ∀ a, mergeHalves a hi lo = merge a := by
      intro a
      cases hi <;> cases lo <;> rfl
    obtain ⟨-, -, -, hstaged⟩ := v.mapStaged_keeps i p [(k, hi, lo)]
    have hrange : (w.sign i).rangeReported = g.rangeReported := by rw [← hw, hstaged]; rfl
    dsimp only at hexec
    rw [hw] at hexec
    refine ⟨?_, ?_⟩
    · intro hnone
      rw [hexec]
      by_cases hp : (s.sign i).activePage = some p
      · rw [if_pos hp, hnone.resolve_left (not_not.mpr hp)]
      · rw [if_neg hp]
    · intro x hp hx value tile bad range change d
      have hslot : exec (.mapWrite addr (hi.toList ++ lo.toList)) s = .next (State.settle
          (if (w.slotWritten s.settings.tileCount i p k value x).2 then
            (w.slotWritten s.settings.tileCount i p k value x).1.trigger i .content
          else (w.slotWritten s.settings.tileCount i p k value x).1)) := by
        rw [hexec, if_pos hp, hx]
        dsimp only
        rw [hmerge x.mapValue]
      have hchanged : ((d.changeSlot i k value none).sign i).rangeReported = g.rangeReported := by
        rw [State.rangeReported_changeSlot, State.sign_dropSlot]
        exact hrange
      have hkept : ((w.modifySign i fun g =>
          { g with slots := g.slots.modify k fun x => { x with mapValue := value } }).sign i).rangeReported =
            g.rangeReported := by
        rw [State.sign_modifySign_self, SignState.markDue_rangeReported]
        exact hrange
      refine ⟨fun hv => ?_, fun hv ht => ?_, fun hv hne ht => ?_, fun n hv hne ht => ⟨fun hfull => ?_, fun hfree => ?_⟩⟩
      · rw [hslot, State.slotWritten_of_same hv]
        rfl
      · rw [hslot, State.slotWritten_of_sameTile hv ht, State.rangeHanded_of hkept]
        rfl
      · rw [hslot, State.slotWritten_of_blank hv hne ht, State.rangeHanded_of hchanged]
        rfl
      · rw [hslot, State.slotWritten_of_tile hv hne ht, if_pos hfull]
        rfl
      · rw [hslot, State.slotWritten_of_tile hv hne ht, if_neg hfree]
        rfl
  · intro s addr data i p k m hgoes hlength hm hin value g v w entry out
    have hw : v.mapStaged i p ((List.range m).map (wholeEntry k data)) = w := by
      unfold State.mapStaged
      simp only [stageWrite_whole]
      rfl
    have hentry : State.wholeWritten s.settings.tileCount i p k data = entry := rfl
    have hexec := exec_mapWrite_whole hgoes hlength hm hin
    dsimp only at hexec
    rw [hw, hentry] at hexec
    exact hexec

end Sys2Proof.Machine
end

section
/-! PROOFS. The step on an empty queue, and the general lines: the filter, and what a filtered edge does by the mode. -/

namespace Sys2Proof.Machine

/-! ## One cycle of the time base (R88) -/

/-- Settles O2, by the branches of `State.tickCycle`. -/
theorem idleStepIsOneCycle : Obligations.IdleStepIsOneCycle := by
  intro s hqueue
  have hstep : step s = .next s.tickCycle := by rw [step, hqueue]
  refine ⟨fun hr => ?_, fun hr hlt => ?_, fun hr hle => ?_⟩
  · rw [hstep, State.tickCycle, if_pos hr]
  · rw [hstep, State.tickCycle, if_neg (Bool.eq_false_iff.mp hr), if_pos hlt]
  · rw [hstep, State.tickCycle, if_neg (Bool.eq_false_iff.mp hr), if_neg (Nat.not_lt.mpr hle)]
    rfl

/-! ## The filter (R110) -/

theorem LineState.levelChanged_eq (ms : Nat) (high : Bool) (x : LineState) :
    x.levelChanged ms high = { x with
      raw := high
      timer := if x.raw = high ∨ x.entry.mode = .faultOutput then x.timer
        else if high = x.filtered then none else some ms } := by
  unfold LineState.levelChanged LineState.armFilter
  by_cases hraw : x.raw = high
  · rw [if_pos hraw, if_pos (.inl hraw), ← hraw]
  · by_cases hmode : x.entry.mode = .faultOutput
    · rw [if_neg hraw, if_pos hmode, if_pos (.inr hmode)]
    · rw [if_neg hraw, if_neg hmode, if_neg (not_or.mpr ⟨hraw, hmode⟩)]

/-! ## Filtered edges (R92 to R94, R111, R112, R115) -/

/-- An alert turned on or off: the line, the report, and the sweep of the signs its mask covers (R115). -/
theorem State.setAlert_eq (n : LineNo) (on : Bool) (cause : Nat) (zones : BitVec 64) (s : State) :
    s.setAlert n on cause zones =
      State.evaluateEach (fun g => g.entry.enabled && zones.getLsbD g.entry.zone)
        ((s.setLine n { s.line n with alert := on }).report
          { kind := if on then .alertOn else .alertOff, sign := none, page := (s.line n).entry.alertPage,
            detail := n.val * 256 + cause }) := by
  unfold State.setAlert
  simp only [State.line_modifyLine_self, State.sweep_eq]
  rfl

/-- A pulse capture, its minute tick as the statements write it (R92, R93). -/
theorem State.capturePulse_eq (s : State) :
    s.capturePulse =
      let offset : Int := if s.clk.second < 30 then (s.clk.second : Int) else (s.clk.second : Int) - 60
      let moved := if s.clk.second < 30 then { s with clk.second := 0 } else s.minuteTurned
      { moved with clk.prescaler := 0, clk.lastOffset := offset, clk.pulseMissing := 0, clk.armed := true }.report
        { kind := .pulseCapture, sign := none, page := none, detail := (offset % 65536).toNat } := by
  unfold State.capturePulse
  rw [State.tickMinute_eq_minuteTurned]
  rfl

/-- Settles O48: the filter by `LineState.levelChanged_eq`; a filtered edge by the mode. -/
theorem lineEdgesActByMode : Obligations.LineEdgesActByMode := by
  refine ⟨fun s n high => ⟨fun hr => ?_, fun hr => ?_⟩, ?_⟩
  · show Host.Outcome.next (if s.resetHeld then _ else _) = _
    rw [if_pos hr]
    rfl
  · show Host.Outcome.next (if s.resetHeld then _ else _) = _
    rw [if_neg (Bool.eq_false_iff.mp hr), State.onEvent_of _ hr rfl, State.modifyLine, LineState.levelChanged_eq]
    rfl
  · intro s n ms hr htimer x e v active turned sec offset moved captured
    have hline : v.line n = { x with filtered := x.raw, timer := none } := State.line_setLine_self n _ s
    have hactive : (v.line n).active = active := by
      rw [hline]
      rfl
    have hturned : ∀ on, v.setAlert n on 1 e.zones = turned on := fun on => by
      rw [State.setAlert_eq, hline]
      show State.evaluateEach _ (State.report _ { v with lines := (s.lines.set n _).set n _ }) = _
      rw [Vector.set_set]
    have hcaptured : v.capturePulse = captured := State.capturePulse_eq v
    have hentry : (v.line n).entry = e := by rw [hline]
    have halert : (v.line n).alert = x.alert := by rw [hline]
    show Host.Outcome.next (s.onEvent (s.line n).timer.isSome (State.filterExpires n)) = _
    rw [State.onEvent_of _ hr (by rw [htimer]; rfl)]
    refine congrArg (fun u => Host.Outcome.next (State.settle u)) ?_
    show v.filteredEdge n = _
    unfold State.filteredEdge
    dsimp only
    rw [hactive, hcaptured, hentry, halert, hturned, hturned]
    cases e.mode with
    | off => rfl
    | faultOutput => rfl
    | alertLevel => cases active <;> cases x.alert <;> rfl
    | alertLatched => cases active <;> cases x.alert <;> rfl
    | minutePulse => cases active <;> simp

end Sys2Proof.Machine
end

section
/-! PROOFS. The schedule page that follows a sign's schedule, and the result of a resync. -/

namespace Sys2Proof.Machine

/-! ## The schedule page (R98) -/

/-- A change of a sign that is no change of its status record. -/
theorem State.sign_modifySign_view {f : SignState → SignState} {i : SignNo} {s : State}
    (hview : (f (s.sign i)).statusView = (s.sign i).statusView) : (s.modifySign i f).sign i = f (s.sign i) :=
  (State.sign_modifySign_self i f s).trans (SignState.markDue_of_view hview)

/-- An evaluation of an enabled sign gives it its wanted page (R122, R123). -/
theorem State.sign_evaluate {i : SignNo} {s : State} (hen : (s.sign i).entry.enabled = true) :
    ∃ a b, (s.evaluate i).sign i =
      { s.sign i with wanted := some (s.wantedFor (s.sign i)), activation := a, recordDue := b } := by
  obtain ⟨b, hb⟩ := SignState.butDue_markDue (s.sign i) { s.sign i with wanted := some (s.wantedFor (s.sign i)) }
  rw [State.evaluate, if_pos hen, State.sign_queueActivation, if_pos rfl, State.sign_modifySign_self, hb]
  exact ⟨_, b, rfl⟩

/-- A sign whose schedule page has followed, and whose wanted page has where the schedule page moved (R98, R123). -/
def SignState.followed (s : State) (g : SignState) : SignState :=
  { g with
    schedulePage := s.schedulePageOf g
    wanted :=
      if g.schedulePage ≠ s.schedulePageOf g ∧ g.entry.enabled = true then
        some (s.wantedFor { g with schedulePage := s.schedulePageOf g })
      else g.wanted }

/-- From `s` to `t` sign `i` has come to hold `g`, its schedule page and its wanted page following; nothing else but its
place in the activation queue has changed. -/
structure Follows (i : SignNo) (g : SignState) (s t : State) : Prop where
  eq : ∃ signs queue, t = { s with signs := signs, pl.queue := queue }
  other : OnlySign i s t
  sign : ∃ a b, t.sign i = { g.followed s with activation := a, recordDue := b }

section
variable {i : SignNo} {g : SignState} {s t : State}

theorem Follows.clk_eq (h : Follows i g s t) : t.clk = s.clk := by
  obtain ⟨signs, queue, h⟩ := h.eq
  rw [h]

theorem Follows.mp_eq (h : Follows i g s t) : t.mp = s.mp := by
  obtain ⟨signs, queue, h⟩ := h.eq
  rw [h]

theorem Follows.rw_eq (h : Follows i g s t) : t.rw = s.rw := by
  obtain ⟨signs, queue, h⟩ := h.eq
  rw [h]

theorem Follows.wantedFor_eq (h : Follows i g s t) (x : SignState) : t.wantedFor x = s.wantedFor x := by
  obtain ⟨signs, queue, h⟩ := h.eq
  rw [h]
  rfl

/-- Where the schedule page of an enabled sign has moved, its wanted page is the one chosen now. -/
theorem Follows.wanted_of_moved (h : Follows i g s t) (hmoved : (t.sign i).schedulePage ≠ g.schedulePage)
    (hen : g.entry.enabled = true) : (t.sign i).wanted = some (t.wantedFor (t.sign i)) := by
  obtain ⟨a, b, hsign⟩ := h.sign
  rw [hsign] at hmoved
  rw [h.wantedFor_eq, hsign]
  exact if_pos ⟨Ne.symm hmoved, hen⟩

theorem Follows.wanted_of_stayed (h : Follows i g s t) (hstayed : (t.sign i).schedulePage = g.schedulePage) :
    (t.sign i).wanted = g.wanted := by
  obtain ⟨a, b, hsign⟩ := h.sign
  rw [hsign] at hstayed ⊢
  exact if_neg fun hmoved => hmoved.1 hstayed.symm

end

theorem SignState.followed_of_same {s : State} {g : SignState} (h : g.schedulePage = s.schedulePageOf g) :
    g.followed s = g := by
  rw [SignState.followed, if_neg fun hmoved => hmoved.1 h, ← h]

/-- The schedule page takes the value R98 derives. -/
def State.schedulePaged (i : SignNo) (s : State) : State :=
  s.modifySign i fun g => { g with schedulePage := s.schedulePageOf g }

theorem State.sign_schedulePaged (i : SignNo) (s : State) :
    (s.schedulePaged i).sign i = { s.sign i with schedulePage := s.schedulePageOf (s.sign i) } :=
  State.sign_modifySign_view (f := fun g => { g with schedulePage := s.schedulePageOf g }) rfl

theorem State.refreshSchedulePage_eq (i : SignNo) (s : State) :
    s.refreshSchedulePage i =
      if (s.sign i).schedulePage = s.schedulePageOf (s.sign i) then s else (s.schedulePaged i).evaluate i := rfl

/-- The schedule page follows what the sign holds (R98). -/
theorem State.refreshSchedulePage_follows (i : SignNo) (s : State) :
    Follows i (s.sign i) s (s.refreshSchedulePage i) := by
  have hother := State.refreshSchedulePage_only i s
  have hpaged := State.sign_schedulePaged i s
  rw [State.refreshSchedulePage_eq] at hother ⊢
  by_cases hsame : (s.sign i).schedulePage = s.schedulePageOf (s.sign i)
  · rw [if_pos hsame]
    exact ⟨⟨s.signs, s.pl.queue, rfl⟩, fun _ _ => rfl, _, _, (SignState.followed_of_same hsame).symm⟩
  · rw [if_neg hsame] at hother ⊢
    refine ⟨(s.schedulePaged i).evaluate_changes i, hother, ?_⟩
    by_cases hen : (s.sign i).entry.enabled = true
    · obtain ⟨a, b, he⟩ := State.sign_evaluate (i := i) (s := s.schedulePaged i) (by rw [hpaged]; exact hen)
      rw [hpaged] at he
      exact ⟨a, b, by rw [SignState.followed, if_pos ⟨hsame, hen⟩]; exact he⟩
    · have he : (s.schedulePaged i).evaluate i = s.schedulePaged i := if_neg (by rw [hpaged]; exact hen)
      rw [he, hpaged, SignState.followed, if_neg fun h => hen h.2]
      exact ⟨_, _, rfl⟩

/-- A change of a sign that is no change of its status record, then its schedule page. -/
theorem State.changed_follows {f : SignState → SignState} {i : SignNo} {s : State}
    (hview : (f (s.sign i)).statusView = (s.sign i).statusView) :
    Follows i (f (s.sign i)) s ((s.modifySign i f).refreshSchedulePage i) := by
  have hsign := State.sign_modifySign_view hview
  obtain ⟨heq, hother, hself⟩ := State.refreshSchedulePage_follows i (s.modifySign i f)
  rw [hsign] at hself
  exact ⟨heq, (OnlySign.modify i f s).trans hother, hself⟩

/-! ## The result of a resync (R102) -/

theorem State.endResync_discarded {i : SignNo} {s : State} (hredo : (s.sign i).redo = true) (cand : Option Candidate)
    (next : Option (Nat × Nat)) : s.endResync i cand next = { s with clk.engine := .idle } := if_pos hredo

theorem SignState.resynced_view (cand : Option Candidate) (next : Option (Nat × Nat)) (g : SignState) :
    (g.resynced cand next).statusView = g.statusView := by
  unfold SignState.resynced
  split
  · rfl
  · split <;> rfl

theorem State.endResync_follows {i : SignNo} {s : State} (hredo : (s.sign i).redo = false) (cand : Option Candidate)
    (next : Option (Nat × Nat)) :
    Follows i ((s.sign i).resynced cand next) { s with clk.engine := .idle } (s.endResync i cand next) := by
  have hend : s.endResync i cand next =
      (State.modifySign i (SignState.resynced cand next) { s with clk.engine := .idle }).refreshSchedulePage i :=
    if_neg (Bool.eq_false_iff.mp hredo)
  rw [hend]
  exact State.changed_follows (s := { s with clk.engine := .idle }) (SignState.resynced_view cand next _)

/-- A resync's result sets the next entry, and moves nothing of a sign but its schedule. -/
theorem SignState.resynced_keeps (cand : Option Candidate) (next : Option (Nat × Nat)) (g : SignState) :
    let h := g.resynced cand next
    h.nextEntry = next ∧ h.workDue = g.workDue ∧ h.entry = g.entry ∧ h.slots = g.slots ∧ h.job = g.job ∧
      h.schedulePage = g.schedulePage ∧ h.wanted = g.wanted := by
  cases cand with
  | none => exact ⟨rfl, rfl, rfl, rfl, rfl, rfl, rfl⟩
  | some c =>
    unfold SignState.resynced
    dsimp only
    split <;> exact ⟨rfl, rfl, rfl, rfl, rfl, rfl, rfl⟩

theorem SignState.sameEntry_iff (c : Candidate) (g : SignState) :
    g.sameEntry c = true ↔ g.curEntry = some c.index ∧ g.rotFirst = g.entry.pageOf c.first ∧
      g.rotLast = g.entry.pageOf c.last ∧ g.rotDwell = c.dwell := by
  simp [SignState.sameEntry, and_assoc]

/-- The candidate becomes current: by a switch, unless it is current with the fields held (R102). -/
theorem SignState.resynced_some (c : Candidate) (next : Option (Nat × Nat)) (g : SignState) :
    g.resynced (some c) next = { g with
      curEntry := some c.index, nextEntry := next, rotFirst := g.entry.pageOf c.first, rotLast := g.entry.pageOf c.last
      rotDwell := c.dwell
      rotPos := if g.sameEntry c then g.rotPos else g.entry.pageOf c.first
      dwellCount := if g.sameEntry c then g.dwellCount else 0 } := by
  rw [SignState.resynced]
  by_cases hsame : g.sameEntry c = true
  · obtain ⟨hcur, hfirst, hlast, hdwell⟩ := (SignState.sameEntry_iff c g).mp hsame
    rw [if_pos hsame, if_pos hsame, if_pos hsame, ← hcur, ← hfirst, ← hlast, ← hdwell]
  · rw [if_neg hsame, if_neg hsame, if_neg hsame]
    rfl

/-- Settles O43: discarded, or applied and followed by the schedule page. -/
theorem resyncResultIsApplied : Obligations.ResyncResultIsApplied := by
  intro s i cand next g u h page
  by_cases hredo : g.redo = true
  · have hu : u = { s with clk.engine := .idle } := State.endResync_discarded hredo cand next
    rw [hu]
    exact ⟨rfl, fun _ _ => rfl, rfl, rfl, fun _ => ⟨rfl, rfl⟩, fun hn => absurd hredo (Bool.eq_false_iff.mp hn)⟩
  · have hf : Follows i (g.resynced cand next) { s with clk.engine := .idle } u :=
      State.endResync_follows (Bool.eq_false_iff.mpr hredo) cand next
    refine ⟨hf.clk_eq, hf.other, hf.mp_eq, hf.rw_eq, fun hn => absurd hn hredo, fun _ => ?_⟩
    obtain ⟨hnext, hwork, hentry, hslots, hjob, hsched, hwant⟩ := SignState.resynced_keeps cand next g
    obtain ⟨a, b, hsign⟩ := hf.sign
    have hpage : h.schedulePage = if s.clk.unset || h.curEntry.isNone then 0 else h.rotPos := by
      show (u.sign i).schedulePage = if s.clk.unset || (u.sign i).curEntry.isNone then 0 else (u.sign i).rotPos
      rw [hsign]
      rfl
    refine ⟨(congrArg SignState.nextEntry hsign).trans hnext, hpage, (congrArg SignState.workDue hsign).trans hwork,
      (congrArg SignState.entry hsign).trans hentry, (congrArg SignState.slots hsign).trans hslots,
      (congrArg SignState.job hsign).trans hjob,
      fun hne hen => hf.wanted_of_moved (hsched ▸ hne) (hentry ▸ hen),
      fun he => (hf.wanted_of_stayed (he.trans hsched.symm)).trans hwant, ?_⟩
    have hh : h = { (g.resynced cand next).followed _ with activation := a, recordDue := b } := hsign
    cases cand with
    | none =>
      rw [hh]
      exact ⟨rfl, rfl, rfl, rfl, rfl, rfl⟩
    | some c =>
      rw [hh, SignState.resynced_some]
      refine ⟨rfl, rfl, rfl, rfl, ?_⟩
      by_cases hsame : g.sameEntry c = true
      · refine Eq.mpr (if_pos ?_) ⟨if_pos hsame, if_pos hsame⟩
        exact (SignState.sameEntry_iff c g).mp hsame
      · refine Eq.mpr (if_neg ?_) ⟨if_neg hsame, if_neg hsame⟩
        exact mt (SignState.sameEntry_iff c g).mpr hsame

end Sys2Proof.Machine
end

section
/-! PROOFS. The schedule engine's reads: their entries by place, the examination of a resync's read, and an advance. -/

namespace Sys2Proof.Machine

/-! ## The entries of a read (R96) -/

/-- Entry `m` of a read's bytes, counted from 0. -/
def scheduleEntry (bytes : List Byte) (m : Nat) : SchedEntry :=
  let b (n : Nat) : Byte := bytes[n]?.getD 0
  { day := be16 (b (8 * m)) (b (8 * m + 1)), minute := min 1439 (be16 (b (8 * m + 2)) (b (8 * m + 3)))
    first := (b (8 * m + 4)).toNat, last := (b (8 * m + 5)).toNat, dwell := be16 (b (8 * m + 6)) (b (8 * m + 7)) }

theorem parseSchedule_short (bytes : List Byte) (h : bytes.length < 8) : parseSchedule bytes = [] := by
  rw [parseSchedule]
  rintro d1 d0 m1 m0 f l w1 w0 rest rfl
  simp at h
  omega

/-- A read's entries, by their places. -/
theorem parseSchedule_eq (bytes : List Byte) :
    parseSchedule bytes = (List.range (bytes.length / 8)).map (scheduleEntry bytes) := by
  induction bytes using parseSchedule.induct with
  | case1 d1 d0 m1 m0 f l w1 w0 rest ih =>
    have hlen : (d1 :: d0 :: m1 :: m0 :: f :: l :: w1 :: w0 :: rest).length / 8 = rest.length / 8 + 1 := by
      simp only [List.length_cons]
      omega
    rw [parseSchedule, ih, hlen, List.range_succ_eq_map, List.map_cons, List.map_map]
    rfl
  | case2 bytes h =>
    have hlen : bytes.length < 8 := by
      refine Nat.lt_of_not_le fun hle => ?_
      match bytes, hle with
      | d1 :: d0 :: m1 :: m0 :: f :: l :: w1 :: w0 :: rest, _ => exact h d1 d0 m1 m0 f l w1 w0 rest rfl
    rw [parseSchedule_short bytes hlen, Nat.div_eq_of_lt hlen]
    rfl

/-! ## The examination of entries in order (R97, R101) -/

/-- The candidate that a due entry of index `k` is. -/
def SchedEntry.candidate (e : SchedEntry) (k : Nat) : Candidate :=
  { index := k, first := e.first, last := e.last, dwell := e.dwell }

section
variable {now k : Nat} {prev : Option Nat} {cand : Option Candidate} {e : SchedEntry}

/-- An entry not later than its predecessor breaks the list. -/
theorem examine_broken (h : ∃ x, prev = some x ∧ e.time ≤ x) (rest : List SchedEntry) :
    examine now k prev cand (e :: rest) = .broken k cand := by
  obtain ⟨x, rfl, hle⟩ := h
  simp [examine, hle]

/-- An entry later than now is found. -/
theorem examine_found (h : ¬∃ x, prev = some x ∧ e.time ≤ x) (hlater : now < e.time) (rest : List SchedEntry) :
    examine now k prev cand (e :: rest) = .found k e.time cand := by
  cases prev with
  | none => simp [examine, hlater]
  | some x =>
    have hunbroken : ¬e.time ≤ x := fun hle => h ⟨x, rfl, hle⟩
    simp [examine, hlater, hunbroken]

/-- A due entry is the candidate so far. -/
theorem examine_passed (h : ¬∃ x, prev = some x ∧ e.time ≤ x) (hdue : e.time ≤ now) (rest : List SchedEntry) :
    examine now k prev cand (e :: rest) = examine now (k + 1) (some e.time) (some (e.candidate k)) rest := by
  cases prev with
  | none => simp [examine, SchedEntry.candidate, hdue]
  | some x =>
    have hunbroken : ¬e.time ≤ x := fun hle => h ⟨x, rfl, hle⟩
    simp [examine, SchedEntry.candidate, hdue, hunbroken]

end

section
variable (f : Nat → SchedEntry) (prev : Option Nat) (cand : Option Candidate) (k : Nat)

/-- The time of the entry before place `m` of a read. -/
def timeBefore (m : Nat) : Option Nat := if m = 0 then prev else some (f (m - 1)).time

/-- The candidate once the entries before place `m` of a read are due. -/
def bestBefore (m : Nat) : Option Candidate := if m = 0 then cand else some ((f (m - 1)).candidate (k + (m - 1)))

/-- Due entries in order are passed, and the examination goes on behind them. -/
theorem examine_due (now n m : Nat)
    (hdue : ∀ q < m, ¬(∃ x, timeBefore f prev q = some x ∧ (f q).time ≤ x) ∧ (f q).time ≤ now) :
    examine now k prev cand ((List.range' 0 (m + n)).map f) =
      examine now (k + m) (timeBefore f prev m) (bestBefore f cand k m) ((List.range' m n).map f) := by
  induction m generalizing n with
  | zero => rw [Nat.zero_add]; rfl
  | succ m ih =>
    obtain ⟨hunbroken, hle⟩ := hdue m (Nat.lt_succ_self m)
    rw [Nat.add_right_comm, Nat.add_assoc, ih (n + 1) fun q hq => hdue q (Nat.lt_succ_of_lt hq), List.range'_succ,
      List.map_cons, examine_passed hunbroken hle]
    rfl

end

/-! ## The end of a resync's read (R96, R101) -/

section
variable {s : State} {i : SignNo} {offset : Nat} {prev : Option Nat} {cand best : Option Candidate} {bytes : List Byte}

/-- The entries of a read that lie below the schedule count now applied. -/
def State.readEntries (i : SignNo) (offset : Nat) (bytes : List Byte) (s : State) : List SchedEntry :=
  (parseSchedule bytes).take ((s.sign i).entry.scheduleCount - offset / 8)

theorem State.readEntries_eq (i : SignNo) (offset : Nat) (bytes : List Byte) (s : State) :
    s.readEntries i offset bytes =
      (List.range' 0 (min (bytes.length / 8) ((s.sign i).entry.scheduleCount - offset / 8))).map
        (scheduleEntry bytes) := by
  rw [State.readEntries, parseSchedule_eq, ← List.map_take, List.take_range, List.range_eq_range', Nat.min_comm]

/-- A break ends the resync at the candidate so far. -/
theorem State.resyncReadEnds_broken {k : Nat} (he : s.clk.engine = .resync i offset prev cand)
    (hx : examine s.clk.time (offset / 8) prev cand (s.readEntries i offset bytes) = .broken k best) :
    s.resyncReadEnds bytes = (s.reportOrder i k).endResync i best none := by
  rw [State.readEntries] at hx
  simp only [State.resyncReadEnds, he, hx]

/-- A later entry is the next entry, and ends the resync. -/
theorem State.resyncReadEnds_found {k time : Nat} (he : s.clk.engine = .resync i offset prev cand)
    (hx : examine s.clk.time (offset / 8) prev cand (s.readEntries i offset bytes) = .found k time best) :
    s.resyncReadEnds bytes = s.endResync i best (some (k, time)) := by
  rw [State.readEntries] at hx
  simp only [State.resyncReadEnds, he, hx]

/-- A read of due entries is followed by the next, or by the end of the list. -/
theorem State.resyncReadEnds_passed {last : Option Nat} (he : s.clk.engine = .resync i offset prev cand)
    (hx : examine s.clk.time (offset / 8) prev cand (s.readEntries i offset bytes) = .passed last best) :
    s.resyncReadEnds bytes =
      if 8 * (s.sign i).entry.scheduleCount ≤ offset + bytes.length then s.endResync i best none
      else s.readResync i (offset + bytes.length) last best := by
  rw [State.readEntries] at hx
  simp only [State.resyncReadEnds, he, hx]

end

/-! ## SCHEDULE_ORDER (R97) -/

section
variable {s : State} {i : SignNo} {k : Nat}

/-- A break already reported is not reported again. -/
theorem State.reportOrder_known (h : (s.sign i).orderReported = some k) : s.reportOrder i k = s := if_pos h

/-- A break met by a resync that will be discarded is reported, and the flag stays. -/
theorem State.reportOrder_discarded (h : (s.sign i).orderReported ≠ some k) (hredo : (s.sign i).redo = true) :
    s.reportOrder i k = s.report { kind := .scheduleOrder, sign := some i, page := none, detail := k } := by
  rw [State.reportOrder, if_neg h, State.modifySign_same (f := SignState.orderMet k) (if_pos hredo)]

/-- A new break is reported, and the flag set for it. -/
theorem State.reportOrder_new (h : (s.sign i).orderReported ≠ some k) (hredo : (s.sign i).redo = false) :
    s.reportOrder i k = (s.modifySign i fun g => { g with orderReported := some k }).report
      { kind := .scheduleOrder, sign := some i, page := none, detail := k } := by
  rw [State.reportOrder, if_neg h]
  exact congrArg (State.report _) (State.modifySign_congr (if_neg (Bool.eq_false_iff.mp hredo)))

end

/-! ## Where the reads end (R101, R104) -/

/-- The end of a read that is no report write leaves all but the memory path. -/
theorem State.portFreed_ownRead {s : State} {kind : OwnKind} {bytes : List Byte} (hk : kind.requester ≠ .report)
    (h : s.OwnEnds kind bytes) : ∃ mp, s.portFreed = { s with mp := mp } := by
  obtain ⟨-, x, hx, hkind, -⟩ := h
  have hread : x.req.isWrite = false :=
    Bool.eq_false_iff.mpr fun hw => hk (by rw [← hkind]; exact (OwnReq.isWrite_iff _).mp hw)
  obtain ⟨host, count, hfreed, -⟩ := State.portFreed_read hx hread
  exact ⟨_, hfreed⟩

theorem exec_scheduleResyncReadEnd {s : State} {j : SignNo} {bytes : List Byte} (h : s.OwnEnds (.schedResync j) bytes) :
    exec .scheduleResyncReadEnd s = .next (s.portFreed.resyncReadEnds bytes).settle := by
  obtain ⟨q, -, he⟩ := State.loadReadEnds (ofKind := OwnKind.isResync) h rfl fun _ bytes s => s.resyncReadEnds bytes
  exact congrArg Host.Outcome.next he

theorem exec_scheduleAdvanceReadEnd {s : State} {j : SignNo} {bytes : List Byte}
    (h : s.OwnEnds (.schedAdvance j) bytes) :
    exec .scheduleAdvanceReadEnd s = .next (s.portFreed.advanceReadEnds bytes).settle := by
  obtain ⟨q, -, he⟩ := State.loadReadEnds (ofKind := OwnKind.isAdvance) h rfl fun _ bytes s => s.advanceReadEnds bytes
  exact congrArg Host.Outcome.next he

/-- Settles O42: the due entries are passed by `examine_due`, and the next entry, or the lack of one, decides. -/
theorem resyncReadIsExamined : Obligations.ResyncReadIsExamined := by
  intro s j i bytes offset prev cand hends hengine b time entry now before best broken g count n next v out m hm hdue
  obtain ⟨mp, hfreed⟩ := State.portFreed_ownRead (kind := .schedResync j) (fun h => nomatch h) hends
  have hv : v = { s with mp := mp } := hfreed
  have hsign : v.sign i = g := by rw [hv]; rfl
  have hclk : v.clk = s.clk := by rw [hv]
  have hset : v.settings = s.settings := by rw [hv]; rfl
  have he : v.clk.engine = .resync i offset prev cand := by rw [hclk, hengine]
  have hout : ∀ u, v.resyncReadEnds bytes = u → out u := fun u hu => hu ▸ exec_scheduleResyncReadEnd hends
  have hexamined : examine v.clk.time (offset / 8) prev cand (v.readEntries i offset bytes) =
      examine now (offset / 8 + m) (timeBefore (scheduleEntry bytes) prev m)
        (bestBefore (scheduleEntry bytes) cand (offset / 8) m) ((List.range' m (n - m)).map (scheduleEntry bytes)) := by
    have hpassed := examine_due (scheduleEntry bytes) prev cand (offset / 8) now (n - m) m hdue
    rw [Nat.add_sub_cancel' hm] at hpassed
    rw [State.readEntries_eq, hsign, hclk]
    exact hpassed
  have hnext : m < n → (List.range' m (n - m)).map (scheduleEntry bytes) =
      scheduleEntry bytes m :: (List.range' (m + 1) (n - m - 1)).map (scheduleEntry bytes) := fun h => by
    rw [← List.map_cons, ← List.range'_succ, Nat.sub_add_cancel (Nat.sub_pos_of_lt h)]
  refine ⟨fun hlt hbroken => ?_, fun hlt hunbroken hlater => ?_, fun hend hle => ?_, fun hend hlt => ?_⟩
  · rw [hnext hlt, examine_broken (prev := timeBefore (scheduleEntry bytes) prev m) (e := scheduleEntry bytes m)
      hbroken] at hexamined
    have hbreaks := State.resyncReadEnds_broken he hexamined
    refine ⟨fun hknown => hout _ ?_, fun hnew hredo => hout _ ?_, fun hnew hredo => hout _ ?_⟩
    · rw [hbreaks, State.reportOrder_known (hsign ▸ hknown)]
      rfl
    · rw [hbreaks, State.reportOrder_discarded (hsign ▸ hnew) (hsign ▸ hredo)]
      rfl
    · rw [hbreaks, State.reportOrder_new (hsign ▸ hnew) (hsign ▸ hredo)]
      rfl
  · rw [hnext hlt, examine_found (prev := timeBefore (scheduleEntry bytes) prev m) (e := scheduleEntry bytes m)
      hunbroken hlater] at hexamined
    exact hout _ (State.resyncReadEnds_found he hexamined)
  · rw [hend, Nat.sub_self] at hexamined
    refine hout _ ((State.resyncReadEnds_passed he hexamined).trans ?_)
    rw [hsign, hend]
    exact if_pos hle
  · rw [hend, Nat.sub_self] at hexamined
    refine hout _ ((State.resyncReadEnds_passed he hexamined).trans ?_)
    rw [hsign, hend, if_neg (Nat.not_le.mpr hlt), State.readResync, State.listRead, hsign, hset]
    rfl

/-! ## The end of an advance's read (R104) -/

/-- The entry an advance has read becomes current by a switch, and the schedule page follows. -/
theorem State.applyAdvance_follows (i : SignNo) (k : Nat) (e : SchedEntry) (next : Option (Nat × Nat)) (s : State) :
    Follows i { (s.sign i).switchTo (e.candidate k) with nextEntry := next } s (s.applyAdvance i k e next) :=
  State.changed_follows (f := fun g => { g.switchTo (e.candidate k) with nextEntry := next }) rfl

/-- A break at entry `k`, where there is one, is reported unless it was (R97). -/
def State.orderChecked (broken : Prop) [Decidable broken] (i : SignNo) (k : Nat) (s : State) : State :=
  if broken then s.reportOrder i k else s

section
variable {s : State} {i : SignNo} {k : Nat}

theorem State.reportOrder_parts (hredo : (s.sign i).redo = false) :
    (∃ signs w, s.reportOrder i k = { s with signs := signs, rw := w }) ∧ OnlySign i s (s.reportOrder i k) ∧
      (s.reportOrder i k).sign i = { s.sign i with orderReported := some k } ∧
      (s.reportOrder i k).rw = (s.reportIf ((s.sign i).orderReported ≠ some k)
        { kind := .scheduleOrder, sign := some i, page := none, detail := k }).rw := by
  by_cases hknown : (s.sign i).orderReported = some k
  · rw [State.reportOrder_known hknown, State.reportIf, if_neg (not_not_intro hknown), ← hknown]
    exact ⟨⟨s.signs, s.rw, rfl⟩, fun _ _ => rfl, rfl, rfl⟩
  · rw [State.reportOrder_new hknown hredo, State.reportIf, if_pos hknown]
    refine ⟨?_, ?_, ?_, State.report_rw_congr (by rfl) (by rfl) _⟩
    · rw [State.report_rw]
      exact ⟨_, _, rfl⟩
    · exact (OnlySign.modify i _ s).trans (OnlySign.of_signs (State.report_signs _ _))
    · rw [State.sign_report]
      exact State.sign_modifySign_view (f := fun g => { g with orderReported := some k }) rfl

/-- What the check for a break leaves: the sign's order-reported flag, and the report. -/
theorem State.orderChecked_parts (broken : Prop) [Decidable broken] (hredo : (s.sign i).redo = false) :
    (∃ signs w, s.orderChecked broken i k = { s with signs := signs, rw := w }) ∧
      OnlySign i s (s.orderChecked broken i k) ∧
      (s.orderChecked broken i k).sign i =
        { s.sign i with orderReported := if broken then some k else (s.sign i).orderReported } ∧
      (s.orderChecked broken i k).rw = (s.reportIf (broken ∧ (s.sign i).orderReported ≠ some k)
        { kind := .scheduleOrder, sign := some i, page := none, detail := k }).rw := by
  by_cases hb : broken
  · simp only [State.orderChecked, hb, if_true, true_and]
    exact State.reportOrder_parts hredo
  · rw [State.orderChecked, if_neg hb, if_neg hb, State.reportIf, if_neg fun h => hb h.1]
    exact ⟨⟨s.signs, s.rw, rfl⟩, fun _ _ => rfl, rfl, rfl⟩

end

section
variable {s : State} {i : SignNo} {k : Nat} {bytes : List Byte}

/-- With the redo flag set the bytes of an advance's read are dropped. -/
theorem State.advanceReadEnds_dropped (he : s.clk.engine = .advance i k) (hredo : (s.sign i).redo = true) :
    s.advanceReadEnds bytes = { s with clk.engine := .idle } := by
  simp only [State.advanceReadEnds, he]
  exact if_pos hredo

/-- An advance's read whose bytes are not dropped, by its entries. -/
theorem State.advanceReadEnds_taken (he : s.clk.engine = .advance i k) (hredo : (s.sign i).redo = false)
    (hlen : bytes.length = 8 ∨ bytes.length = 16) :
    s.advanceReadEnds bytes =
      let v : State := { s with clk.engine := .idle }
      let e := scheduleEntry bytes 0
      let f := scheduleEntry bytes 1
      if bytes.length = 8 then v.applyAdvance i k e none
      else if f.time ≤ e.time then (v.reportOrder i (k + 1)).applyAdvance i k e none
      else if s.clk.time < f.time then v.applyAdvance i k e (some (k + 1, f.time))
      else v.markResync i := by
  unfold State.advanceReadEnds
  rw [he]
  dsimp only
  refine (if_neg ?_).trans ?_
  · exact Bool.eq_false_iff.mp hredo
  rw [parseSchedule_eq]
  rcases hlen with hlen | hlen <;> rw [hlen] <;> rfl

/-- An advance's read whose second entry is later than the first and due already marks the sign RESYNC. -/
theorem State.advanceReadEnds_due (he : s.clk.engine = .advance i k) (hredo : (s.sign i).redo = false)
    (hlen : bytes.length = 16) (hlater : (scheduleEntry bytes 0).time < (scheduleEntry bytes 1).time)
    (hdue : (scheduleEntry bytes 1).time ≤ s.clk.time) :
    s.advanceReadEnds bytes =
      State.modifySign i (fun g => { g with workDue := .resync }) { s with clk.engine := .idle } := by
  rw [State.advanceReadEnds_taken he hredo (.inr hlen)]
  dsimp only
  rw [if_neg (by omega), if_neg (Nat.not_le.mpr hlater), if_neg (Nat.not_lt.mpr hdue), State.markResync_eq]
  rfl

/-- Any other advance's read makes its entry current, a break behind it checked. -/
theorem State.advanceReadEnds_applies (he : s.clk.engine = .advance i k) (hredo : (s.sign i).redo = false)
    (hlen : bytes.length = 8 ∨ bytes.length = 16)
    (hnot : ¬(bytes.length = 16 ∧ (scheduleEntry bytes 0).time < (scheduleEntry bytes 1).time ∧
      (scheduleEntry bytes 1).time ≤ s.clk.time)) :
    s.advanceReadEnds bytes =
      (State.orderChecked (bytes.length = 16 ∧ (scheduleEntry bytes 1).time ≤ (scheduleEntry bytes 0).time) i (k + 1)
        { s with clk.engine := .idle }).applyAdvance i k (scheduleEntry bytes 0)
        (if bytes.length = 16 ∧ (scheduleEntry bytes 0).time < (scheduleEntry bytes 1).time then
          some (k + 1, (scheduleEntry bytes 1).time) else none) := by
  rw [State.advanceReadEnds_taken he hredo hlen]
  dsimp only
  generalize (scheduleEntry bytes 1).time = t at hnot ⊢
  generalize ht : (scheduleEntry bytes 0).time = t0 at hnot ⊢
  rcases hlen with hlen | hlen
  · have hone : ¬(bytes.length = 16 ∧ t0 < t) := by omega
    have hcheck : ¬(bytes.length = 16 ∧ t ≤ t0) := by omega
    rw [if_pos hlen, if_neg hone, State.orderChecked, if_neg hcheck]
  · rw [if_neg (by omega), State.orderChecked]
    by_cases hbroken : t ≤ t0
    · have hlater : ¬(bytes.length = 16 ∧ t0 < t) := by omega
      rw [if_pos hbroken, if_neg hlater, if_pos ⟨hlen, hbroken⟩]
    · have hlater : bytes.length = 16 ∧ t0 < t := by omega
      have hcheck : ¬(bytes.length = 16 ∧ t ≤ t0) := by omega
      rw [if_neg hbroken, if_pos hlater, if_neg hcheck, if_pos (by omega)]

/-- Such a read makes its entry current from a state `w` that differs from the engine's idle one by the check alone. -/
theorem State.advanceReadEnds_switches (he : s.clk.engine = .advance i k) (hredo : (s.sign i).redo = false)
    (hlen : bytes.length = 8 ∨ bytes.length = 16)
    (hnot : ¬(bytes.length = 16 ∧ (scheduleEntry bytes 0).time < (scheduleEntry bytes 1).time ∧
      (scheduleEntry bytes 1).time ≤ s.clk.time)) :
    let broken := bytes.length = 16 ∧ (scheduleEntry bytes 1).time ≤ (scheduleEntry bytes 0).time
    let g : SignState :=
      { s.sign i with orderReported := if broken then some (k + 1) else (s.sign i).orderReported }
    ∃ w,
      Follows i
        { g.switchTo ((scheduleEntry bytes 0).candidate k) with
          nextEntry := if bytes.length = 16 ∧ (scheduleEntry bytes 0).time < (scheduleEntry bytes 1).time then
            some (k + 1, (scheduleEntry bytes 1).time) else none }
        w (s.advanceReadEnds bytes) ∧
      w.clk = { s.clk with engine := .idle } ∧ w.mp = s.mp ∧ OnlySign i s w ∧
      w.rw = (State.reportIf (broken ∧ (s.sign i).orderReported ≠ some (k + 1))
        { kind := .scheduleOrder, sign := some i, page := none, detail := k + 1 }
        { s with clk.engine := .idle }).rw := by
  intro broken g
  obtain ⟨⟨signs, x, hrest⟩, hother, hsign, hrw⟩ :=
    State.orderChecked_parts (s := { s with clk.engine := .idle }) (i := i) (k := k + 1) broken hredo
  have hsign' : (State.orderChecked broken i (k + 1) { s with clk.engine := .idle }).sign i = g := hsign
  refine ⟨State.orderChecked broken i (k + 1) { s with clk.engine := .idle }, ?_, ?_, ?_, hother, hrw⟩
  · rw [State.advanceReadEnds_applies he hredo hlen hnot, ← hsign']
    exact State.applyAdvance_follows i k _ _ _
  · rw [hrest]
  · rw [hrest]

end

/-- Settles O44: dropped, marked RESYNC, or applied and followed by the schedule page. -/
theorem advanceReadIsApplied : Obligations.AdvanceReadIsApplied := by
  intro s j i k bytes hends hengine hlen b time now g page v broken
  obtain ⟨mp, hfreed⟩ := State.portFreed_ownRead (kind := .schedAdvance j) (fun h => nomatch h) hends
  have hsign : s.portFreed.sign i = g := by rw [hfreed]; rfl
  have hclk : s.portFreed.clk = s.clk := by rw [hfreed]
  have he : s.portFreed.clk.engine = .advance i k := by rw [hclk, hengine]
  refine ⟨s.portFreed.advanceReadEnds bytes, exec_scheduleAdvanceReadEnd hends, fun hredo => ?_,
    fun hredo h16 hlater hdue => ?_, fun hredo hnot => ?_⟩
  · exact State.advanceReadEnds_dropped he (hsign ▸ hredo)
  · exact State.advanceReadEnds_due he (hsign ▸ hredo) h16 hlater (hclk ▸ hdue)
  · obtain ⟨w, hf, hwclk, hwmp, hother, hwrw⟩ :=
      State.advanceReadEnds_switches he (hsign ▸ hredo) hlen (hclk ▸ hnot)
    rw [hsign] at hf hwrw
    generalize s.portFreed.advanceReadEnds bytes = u at hf ⊢
    obtain ⟨x, y, hu⟩ := hf.sign
    have hfield {α : Type} (p : SignState → α) := congrArg p hu
    refine ⟨hfield SignState.curEntry, hfield SignState.rotFirst, hfield SignState.rotLast,
      hfield SignState.rotDwell, hfield SignState.rotPos, hfield SignState.dwellCount,
      hfield SignState.workDue, hfield SignState.nextEntry, (hfield SignState.schedulePage).trans ?_,
      hf.wanted_of_moved, fun q hq => ?_, hf.clk_eq.trans hwclk, hf.mp_eq.trans hwmp,
      fun hbroken => (hfield SignState.orderReported).trans (if_pos hbroken),
      fun hbroken => (hfield SignState.orderReported).trans (if_neg hbroken), hf.rw_eq.trans hwrw⟩
    · show (if (w.clk.unset || false) = true then 0 else page (b 4)) = _
      rw [hwclk, Bool.or_false, hclk]
    · rw [hf.other q hq, hother q hq, hfreed]
      rfl

end Sys2Proof.Machine
end

section
/-! PROOFS. Schedule work: what a host write into a list marks, and what the idle engine takes. -/

namespace Sys2Proof.Machine

/-! ## Host writes into a schedule list (R97, R100) -/

/-- A host write inside one sign's list, granted with its command: its bytes in memory, then the list's run. -/
theorem exec_scheduleWrite {s : State} {addr : Nat} {data : List Byte} {i : SignNo}
    (hgoes : s.HostGoes .write addr data.length) (hne : data ≠ [])
    (hin : ∀ k < data.length, classify s.mp.windowBase s.dir.header ((addr + k) % 16777216) = .schedule i) :
    exec (.scheduleWrite addr data) s = .next ((s.wrote addr data).scheduleWritten i).settle := by
  show Host.Outcome.next (s.carryWrite addr data) = _
  rw [State.carryWrite_of_goes hgoes, cutRuns_schedule _ _ addr i data hne hin]
  rfl

/-- A write into the list marks an enabled sign as a commit does that leaves it enabled. -/
theorem State.scheduleWritten_eq (i : SignNo) (s : State) :
    s.scheduleWritten i =
      if (s.sign i).entry.enabled then s.modifySign i (SignState.commitMarked s.clk.engine i) else s := by
  rw [← State.resyncCommitted_eq]
  rfl

/-! ## The lowest sign with work due (R99) -/

/-- The sign found is the lowest that satisfies the predicate. -/
theorem State.findSign_eq_some_iff (s : State) (p : SignState → Bool) (i : SignNo) :
    s.findSign p = some i ↔ p (s.sign i) = true ∧ ∀ j, j < i → p (s.sign j) = false := by
  rw [State.findSign, State.signsWhere_eq, List.head?_filter, List.find?_eq_some_iff_getElem]
  refine and_congr_right fun _ =>
    ⟨fun ⟨n, hn, hi, hlow⟩ j hj => ?_, fun hlow => ⟨i.val, by simp, by simp, fun j hj => ?_⟩⟩
  · rw [List.getElem_finRange] at hi
    have hin : n = i.val := congrArg Fin.val hi
    have hjn : j.val < n := hin ▸ hj
    simpa using hlow j.val hjn
  · rw [List.getElem_finRange, Bool.not_eq_true']
    exact hlow _ hj

/-- The sign is enabled and has work due. -/
def SignState.hasWork (g : SignState) : Bool := g.entry.enabled && g.workDue != .none

theorem SignState.hasWork_eq_false (g : SignState) :
    g.hasWork = false ↔ (g.entry.enabled = true → g.workDue = .none) := by
  cases h : g.entry.enabled <;> simp [SignState.hasWork, h]

/-! ## What starting an operation does (R99, R101, R104) -/

/-- The sign's work due becomes none, its redo flag clear. -/
def State.workTaken (i : SignNo) (s : State) : State :=
  s.modifySign i fun g => { g with workDue := .none, redo := false }

theorem State.sign_workTaken (i : SignNo) (s : State) :
    (s.workTaken i).sign i = { s.sign i with workDue := .none, redo := false } :=
  State.sign_modifySign_view (f := fun g => { g with workDue := .none, redo := false }) rfl

theorem State.endResync_workDue (i : SignNo) (cand : Option Candidate) (next : Option (Nat × Nat)) (s : State) :
    ((s.endResync i cand next).sign i).workDue = (s.sign i).workDue := by
  by_cases hredo : (s.sign i).redo = true
  · rw [State.endResync_discarded hredo]
    rfl
  · obtain ⟨a, b, hsign⟩ := (State.endResync_follows (Bool.eq_false_iff.mpr hredo) cand next).sign
    obtain ⟨-, hwork, -⟩ := SignState.resynced_keeps cand next (s.sign i)
    rw [hsign]
    exact hwork

section
variable {i : SignNo} {s : State}

/-- A resync of an empty list ends at once. -/
theorem State.startWork_empty (hwork : (s.sign i).workDue = .resync) (hcount : (s.sign i).entry.scheduleCount = 0) :
    s.startWork i = (s.workTaken i).endResync i none none := by
  simp only [State.startWork, hwork, hcount, if_true]
  rfl

/-- A resync reads from the start of the list. -/
theorem State.startWork_resync (hwork : (s.sign i).workDue = .resync) (hcount : 0 < (s.sign i).entry.scheduleCount) :
    s.startWork i = (s.workTaken i).readResync i 0 none none := by
  simp only [State.startWork, hwork, if_neg (Nat.ne_of_gt hcount)]
  rfl

/-- An advance reads its next entry and the one after it. -/
theorem State.startWork_advance {k x : Nat} (hwork : (s.sign i).workDue = .advance)
    (hnext : (s.sign i).nextEntry = some (k, x)) :
    s.startWork i = State.place
      (s.listRead i (.schedAdvance i) (8 * k) (if k + 1 < (s.sign i).entry.scheduleCount then 16 else 8))
      { s.workTaken i with clk.engine := .advance i k } := by
  simp only [State.startWork, hwork, hnext]
  rfl

theorem State.startWork_workDue (i : SignNo) (s : State) : ((s.startWork i).sign i).workDue = .none := by
  have htaken : ((s.workTaken i).sign i).workDue = .none := congrArg SignState.workDue (State.sign_workTaken i s)
  unfold State.startWork
  dsimp only
  split
  · split
    · rw [State.endResync_workDue]
      exact htaken
    · exact htaken
  · exact htaken
  · exact htaken
  · exact htaken

end

/-! ## Taking schedule work (R99) -/

/-- A busy engine, a clock not set, an abandoned read on the port, or no work due: none is taken. -/
theorem State.takeWork_none {s : State}
    (h : s.clk.engine ≠ .idle ∨ s.clk.unset = true ∨ s.mp.load .schedule ≠ 0 ∨ ∀ i, (s.sign i).hasWork = false)
    (n : Nat) : State.takeWork n s = s := by
  cases n with
  | zero => rfl
  | succ n =>
    unfold State.takeWork
    split
    · rfl
    · rename_i hfree
      have hnone : s.findSign (fun g => g.entry.enabled && g.workDue != .none) = none := by
        refine (State.findSign_eq_none s _).mpr ?_
        rcases h with h | h | h | h
        · exact absurd (.inl h) hfree
        · exact absurd (.inr (.inl h)) hfree
        · exact absurd (.inr (.inr (Bool.of_not_eq_false (mt (s.busy_eq_false .schedule).mp h)))) hfree
        · exact h
      rw [hnone]

/-- The idle engine of a set clock takes the sign found. -/
theorem State.takeWork_found {s : State} {i : SignNo} (he : s.clk.engine = .idle) (hu : s.clk.unset = false)
    (hl : s.mp.load .schedule = 0) (hi : s.findSign SignState.hasWork = some i) (n : Nat) :
    State.takeWork (n + 1) s = State.takeWork n (s.startWork i) := by
  have hfree : ¬(s.clk.engine ≠ .idle ∨ s.clk.unset = true ∨ s.busy .schedule = true) := by
    simp [he, hu, (s.busy_eq_false .schedule).mpr hl]
  have hfound : s.findSign (fun g => g.entry.enabled && g.workDue != .none) = some i := hi
  rw [State.takeWork, if_neg hfree, hfound]

/-- With no work due below a sign taken, none is due up to it once its operation has started. -/
theorem State.startWork_below {i : SignNo} {s : State} (hbelow : ∀ j, j < i → (s.sign j).hasWork = false) (j : SignNo)
    (hj : j.val < i.val + 1) : ((s.startWork i).sign j).hasWork = false := by
  by_cases hji : j = i
  · rw [hji]
    exact (SignState.hasWork_eq_false _).mpr fun _ => State.startWork_workDue i s
  · rw [State.startWork_only i s j hji]
    exact hbelow j (Fin.lt_def.mpr (by have := Fin.val_ne_of_ne hji; omega))

/-- Signs are taken from below, so as many turns as signs stand at or above the lowest with work are enough. -/
theorem State.takeWork_enough {n m : Nat} (hn : 256 ≤ m + n) {s : State}
    (hlow : ∀ j : SignNo, j.val < m → (s.sign j).hasWork = false) : State.takeWork (n + 1) s = State.takeWork n s := by
  induction n generalizing m s with
  | zero => exact State.takeWork_none (.inr (.inr (.inr fun j => hlow j (by omega)))) 1
  | succ n ih =>
    by_cases hbusy : s.clk.engine ≠ .idle ∨ s.clk.unset = true ∨ s.mp.load .schedule ≠ 0
    · have hnone := hbusy.imp_right (Or.imp_right (Or.inl (b := ∀ i, (s.sign i).hasWork = false)))
      rw [State.takeWork_none hnone, State.takeWork_none hnone]
    · obtain ⟨he, hu, hl⟩ : s.clk.engine = .idle ∧ s.clk.unset = false ∧ s.mp.load .schedule = 0 := by
        simpa only [not_or, not_not, Bool.not_eq_true] using hbusy
      cases hi : s.findSign SignState.hasWork with
      | none =>
        have hnone := (State.findSign_eq_none s _).mp hi
        rw [State.takeWork_none (.inr (.inr (.inr hnone))), State.takeWork_none (.inr (.inr (.inr hnone)))]
      | some i =>
        obtain ⟨hwork, hbelow⟩ := (s.findSign_eq_some_iff SignState.hasWork i).mp hi
        have him : m ≤ i.val := Nat.not_lt.mp fun h => by
          rw [hlow i h] at hwork
          cases hwork
        rw [State.takeWork_found he hu hl hi, State.takeWork_found he hu hl hi]
        exact ih (m := i.val + 1) (by omega) (State.startWork_below hbelow)

/-! ## What the page loader and the signature engine leave of it (R47, R72) -/

/-- The clock, and each sign's work due, are the same. -/
structure WorkKept (s t : State) : Prop where
  clk : t.clk = s.clk
  workDue : ∀ i, (t.sign i).workDue = (s.sign i).workDue

theorem WorkKept.refl (s : State) : WorkKept s s := ⟨rfl, fun _ => rfl⟩

theorem WorkKept.trans {s t u : State} (h : WorkKept s t) (k : WorkKept t u) : WorkKept s u :=
  ⟨k.clk.trans h.clk, fun i => (k.workDue i).trans (h.workDue i)⟩

theorem WorkKept.of_signs {s t : State} (hclk : t.clk = s.clk) (h : t.signs = s.signs) : WorkKept s t :=
  ⟨hclk, fun i => by simp only [State.sign, h]⟩

theorem WorkKept.sign (i : SignNo) (f : SignState → SignState) (hf : ∀ g, (f g).workDue = g.workDue) (s : State) :
    WorkKept s (s.modifySign i f) := by
  refine ⟨rfl, fun j => ?_⟩
  rw [State.sign_modifySign]
  split
  · rename_i hij
    rw [SignState.markDue_workDue, hf, hij]
  · rfl

theorem State.report_workKept (r : Report) (s : State) : WorkKept s (s.report r) :=
  WorkKept.of_signs (by rw [State.report_rw]) (State.report_signs r s)

theorem State.queueActivation_workKept (i : SignNo) (s : State) : WorkKept s (s.queueActivation i) := by
  rw [State.queueActivation_eq]
  exact (WorkKept.sign i SignState.joined (fun _ => rfl) s).trans (WorkKept.of_signs rfl rfl)

theorem State.refuseActivation_workKept (i : SignNo) (p cause : Nat) (s : State) :
    WorkKept s (s.refuseActivation i p cause) := by
  have hrefused : WorkKept s (s.refused i p cause) := by
    rw [State.refused_rest]
    exact (WorkKept.sign i (SignState.refusedAt p) (fun _ => rfl) s).trans (WorkKept.of_signs rfl rfl)
  rw [State.refuseActivation_eq]
  split
  · exact hrefused.trans (State.queueActivation_workKept i _)
  · exact hrefused

theorem State.startActivation_workKept (i : SignNo) (p : Nat) (r : Reason) (s : State) :
    WorkKept s (s.startActivation i p r) := by
  rw [State.startActivation_eq]
  have hloading : WorkKept s { s with pl.loading := some i } := WorkKept.of_signs rfl rfl
  have hsign := hloading.trans (WorkKept.sign i (fun g => { g with
    activation := .loadingMap, incoming := some (p, r)
    staged := List.replicate (s.sign i).entry.slotCount { value := 0, read := false } }) (fun _ => rfl) _)
  exact hsign.trans (WorkKept.of_signs rfl rfl)

theorem State.takeActivation_workKept (n : Nat) (s : State) : WorkKept s (State.takeActivation n s) := by
  induction n generalizing s with
  | zero => exact WorkKept.refl s
  | succ n ih =>
    by_cases hfree : s.pl.loading = none ∧ s.mp.load .pageMap = 0
    · cases hq : s.pl.queue with
      | nil =>
        rw [State.takeActivation_blocked (.inr (.inr hq))]
        exact WorkKept.refl s
      | cons i rest =>
        have hhead : WorkKept s (s.headTaken i rest) :=
          (WorkKept.sign i (fun g => { g with activation := .idle }) (fun _ => rfl) s).trans (WorkKept.of_signs rfl rfl)
        rw [State.takeActivation_head hfree.1 hfree.2 hq]
        split
        · exact hhead.trans (ih _)
        · split
          · exact hhead.trans (ih _)
          · split
            · exact hhead.trans (State.startActivation_workKept i _ _ _)
            · exact hhead.trans ((State.refuseActivation_workKept i _ 1 _).trans (ih _))
    · rw [State.takeActivation_blocked (by tauto)]
      exact WorkKept.refl s

theorem State.takeStale_clk (s : State) : s.takeStale.clk = s.clk := by
  unfold State.takeStale
  split <;> rfl

theorem State.placeSignature_clk (s : State) : s.placeSignature.clk = s.clk := by
  unfold State.placeSignature
  split
  · split <;> rfl
  · rfl

/-- The page loader and the signature engine take up their work. -/
def State.othersTakeUp (s : State) : State := (State.takeActivation s.pl.queue.length s).takeStale.placeSignature

theorem State.takeUp_eq (s : State) : s.takeUp = (State.takeWork 256 s).othersTakeUp := rfl

theorem State.othersTakeUp_workKept (s : State) : WorkKept s s.othersTakeUp := by
  unfold State.othersTakeUp
  refine (State.takeActivation_workKept s.pl.queue.length s).trans (WorkKept.of_signs ?_ ?_)
  · rw [State.placeSignature_clk, State.takeStale_clk]
  · rw [State.placeSignature_signs, State.takeStale_signs]

theorem State.othersTakeUp_held (s : State) : HeldSigns s s.othersTakeUp := by
  unfold State.othersTakeUp
  refine (State.takeActivation_held s.pl.queue.length s).trans (HeldSigns.of_signs ?_)
  rw [State.placeSignature_signs, State.takeStale_signs]

theorem State.othersTakeUp_waiting (s : State) : s.mp.waiting <+: s.othersTakeUp.mp.waiting :=
  (State.placeSignature_taken (State.takeStale_taken (State.takeActivation_taken _ (SameButTaken.refl s)))).waiting

/-- An operation of a sign that the schedule engine has started stands while the others take up their work. -/
theorem State.othersTakeUp_operation {s : State} {i : SignNo} {q : OwnReq} (hwork : (s.sign i).workDue = .none)
    (hredo : (s.sign i).redo = false) (hq : q ∈ s.mp.waiting) :
    s.othersTakeUp.clk.engine = s.clk.engine ∧ (s.othersTakeUp.sign i).workDue = .none ∧
      (s.othersTakeUp.sign i).redo = false ∧ q ∈ s.othersTakeUp.mp.waiting := by
  have hkept := s.othersTakeUp_workKept
  have hheld := s.othersTakeUp_held i hwork
  exact ⟨by rw [hkept.clk], (hkept.workDue i).trans hwork, (congrArg SignState.redo hheld).trans hredo,
    s.othersTakeUp_waiting.subset hq⟩

/-- Settles O41: the mark is a commit's; the engine takes the sign found and starts its operation, and the others leave
what it has started. -/
theorem scheduleWorkIsMarkedAndTaken : Obligations.ScheduleWorkIsMarkedAndTaken := by
  refine ⟨fun s addr data i hgoes hne hin => ?_, fun s i he hu hl hen hlow => ?_, fun s h => ?_⟩
  · rw [exec_scheduleWrite hgoes hne hin, State.scheduleWritten_eq]
    rfl
  · have hbelow : ∀ j, j < i → (s.sign j).hasWork = false := fun j hj =>
      (SignState.hasWork_eq_false _).mpr (hlow j hj)
    have htakes : (s.sign i).workDue ≠ .none → State.takeWork 256 s = State.takeWork 255 (s.startWork i) := fun hwork =>
      State.takeWork_found he hu hl ((s.findSign_eq_some_iff SignState.hasWork i).mpr
        ⟨by simp [SignState.hasWork, hen, hwork], hbelow⟩) 255
    intro g count read
    refine ⟨fun hwork hcount => ?_, fun hwork hcount => ?_, fun k x hwork hnext => ?_⟩
    · have hstart : State.takeWork 256 s = (s.workTaken i).readResync i 0 none none := by
        rw [htakes (by rw [hwork]; exact nofun), State.startWork_resync hwork hcount]
        exact State.takeWork_none (.inl (show SchedEngine.resync i 0 none none ≠ .idle from nofun)) 255
      have hsign := State.sign_workTaken i s
      rw [State.takeUp_eq, hstart]
      refine State.othersTakeUp_operation (congrArg SignState.workDue hsign) (congrArg SignState.redo hsign) ?_
      refine List.mem_append_right _ (List.mem_singleton.mpr ?_)
      rw [hsign]
      rfl
    · have hempty : s.startWork i = (s.workTaken i).endResync i none none := State.startWork_empty hwork hcount
      rw [State.takeUp_eq, State.takeUp_eq, htakes (by rw [hwork]; exact nofun),
        ← State.takeWork_enough (m := i.val + 1) (by omega) (State.startWork_below hbelow), hempty]
      rfl
    · have hstart : State.takeWork 256 s = s.startWork i := by
        rw [htakes (by rw [hwork]; exact nofun), State.startWork_advance hwork hnext]
        exact State.takeWork_none (.inl (show SchedEngine.advance i k ≠ .idle from nofun)) 255
      have hsign := State.sign_workTaken i s
      rw [State.takeUp_eq, hstart, State.startWork_advance hwork hnext]
      exact State.othersTakeUp_operation (congrArg SignState.workDue hsign) (congrArg SignState.redo hsign)
        (List.mem_append_right _ (List.mem_singleton.mpr rfl))
  · have hnone : State.takeWork 256 s = s := State.takeWork_none (by
      rcases h with h | h | h
      · exact .inl h
      · exact .inr (.inl h)
      · exact .inr (.inr (.inr fun i => (SignState.hasWork_eq_false _).mpr (h i)))) 256
    have htakeUp : s.takeUp = s.othersTakeUp := by rw [State.takeUp_eq, hnone]
    have hkept := s.othersTakeUp_workKept
    rw [htakeUp]
    exact ⟨rfl, hkept.clk, hkept.workDue⟩

end Sys2Proof.Machine
end

section
/-! PROOFS. The page chooser: the wanted page by alert, fallback and schedule, and an evaluation's hand-on to the page
loader. -/

namespace Sys2Proof.Machine

/-! ## The wanted page (R122) -/

theorem State.alertPageFor_eq (s : State) (zone : Nat) :
    s.alertPageFor zone = ((List.ofFn s.line).find? (·.covers zone)).map fun x => x.entry.alertPage.getD 0 := rfl

theorem LineState.covers_iff (x : LineState) (zone : Nat) :
    x.covers zone = true ↔ x.alert = true ∧ x.entry.zones.getLsbD zone = true := Bool.and_eq_true_iff

/-- The lowest line whose alert covers the zone names the page. -/
theorem State.alertPageFor_lowest {s : State} {zone : Nat} {n : LineNo} (hcovers : (s.line n).covers zone = true)
    (hlow : ∀ m, m < n → ¬(s.line m).covers zone = true) :
    s.alertPageFor zone = some ((s.line n).entry.alertPage.getD 0) := by
  have hfind : (List.ofFn s.line).find? (·.covers zone) = some (s.line n) :=
    List.find?_ofFn_eq_some.mpr ⟨hcovers, n, rfl, hlow⟩
  rw [State.alertPageFor_eq, hfind, Option.map_some]

theorem State.alertPageFor_none {s : State} {zone : Nat} (h : ∀ n, ¬(s.line n).covers zone = true) :
    s.alertPageFor zone = none := by
  rw [State.alertPageFor_eq, List.find?_eq_none.mpr (List.forall_mem_ofFn_iff.mpr h), Option.map_none]

/-- Under an alert the wanted page is the alert's, within the sign's page count. -/
theorem State.wantedFor_alert {s : State} {g : SignState} {p : Nat} (h : s.alertPageFor g.entry.zone = some p) :
    s.wantedFor g = (min p (g.entry.pageCount - 1), .alert) := by
  rw [State.wantedFor, h]

/-- Without an alert it is the fallback page while the heartbeat has lapsed, else the schedule page. -/
theorem State.wantedFor_noAlert {s : State} {g : SignState} (h : s.alertPageFor g.entry.zone = none) :
    s.wantedFor g = (match s.pc.hb, g.entry.fallback with | .lapsed, some p => p | _, _ => g.schedulePage, .page) := by
  rw [State.wantedFor, h]
  cases s.pc.hb <;> cases g.entry.fallback <;> rfl

/-! ## An evaluation (R71, R123) -/

theorem State.evaluate_disabled {i : SignNo} {s : State} (hen : (s.sign i).entry.enabled = false) :
    s.evaluate i = s := if_neg (Bool.eq_false_iff.mp hen)

/-- The wanted page chosen now is the sign's. -/
def State.wantChosen (i : SignNo) (s : State) : State :=
  s.modifySign i fun g => { g with wanted := some (s.wantedFor g) }

theorem State.evaluate_enabled {i : SignNo} {s : State} (hen : (s.sign i).entry.enabled = true) :
    s.evaluate i = (s.wantChosen i).queueActivation i := if_pos hen

/-- The sign joins the queue where it is IDLE and the page chosen is not its active page. -/
theorem State.wantChosen_joins (i : SignNo) (s : State) :
    (((s.wantChosen i).sign i).activation = .idle ∧ ((s.wantChosen i).sign i).wantsOther = true) ↔
      (s.sign i).activation = .idle ∧ (s.sign i).activePage ≠ some (s.wantedFor (s.sign i)).1 := by
  rw [State.wantChosen, State.sign_modifySign_self, SignState.wantsOther, SignState.markDue_wanted,
    SignState.markDue_activation, SignState.markDue_activePage, decide_eq_true_iff]

/-- Settles O47: the lowest covering line by `State.alertPageFor_lowest`; an evaluation by `State.wantChosen_joins`. -/
theorem wantedPageIsChosen : Obligations.WantedPageIsChosen := by
  refine ⟨fun s g => ⟨fun n halert hzone hlow => ?_, fun hnone => ?_⟩, ?_⟩
  · exact State.wantedFor_alert (State.alertPageFor_lowest ((LineState.covers_iff _ _).mpr ⟨halert, hzone⟩)
      fun m hm => mt (LineState.covers_iff _ _).mp (hlow m hm))
  · exact State.wantedFor_noAlert (State.alertPageFor_none fun n => mt (LineState.covers_iff _ _).mp (hnone n))
  · intro s i g w
    refine ⟨State.evaluate_disabled, fun hen hstays => ?_, fun hen hidle hother => ?_⟩
    · rw [State.evaluate_enabled hen]
      refine if_neg fun hjoins => ?_
      obtain ⟨hidle, hother⟩ := (State.wantChosen_joins i s).mp hjoins
      exact hstays.elim (· hidle) hother
    · rw [State.evaluate_enabled hen]
      exact if_pos ((State.wantChosen_joins i s).mpr ⟨hidle, hother⟩)

end Sys2Proof.Machine
end

section
/-! PROOFS. Line-entry commits: the line under its new entry, line 3's pulse mode, the alert state, and the sweep. -/

namespace Sys2Proof.Machine

/-! ## The line under its new entry (R27, R110, R116) -/

/-- The codes that stand for a mode on line `n` (R27). -/
theorem lineMode_isSome (n : LineNo) (code : Nat) :
    (lineMode n code).isSome = true ↔ ¬(5 ≤ code ∨ (code = 3 ∧ n ≠ 3)) := by
  match code with
  | 0 | 1 | 2 | 4 => exact iff_of_true rfl (by omega)
  | 3 => by_cases hn : n = 3 <;> simp [lineMode, hn]
  | k + 5 => exact iff_of_false Bool.false_ne_true (by omega)

theorem State.reportLineMode_eq (n : LineNo) (s : State) :
    s.reportLineMode n =
      s.reportIf (5 ≤ lineCode s.dir.image n ∨ (lineCode s.dir.image n = 3 ∧ n ≠ 3))
        { kind := .config, sign := none, page := none, detail := n.val * 256 + lineCode s.dir.image n } := by
  unfold State.reportLineMode State.reportIf
  by_cases h : 5 ≤ lineCode s.dir.image n ∨ (lineCode s.dir.image n = 3 ∧ n ≠ 3)
  · rw [if_pos h]
    exact if_neg fun hsome => (lineMode_isSome n _).mp hsome h
  · rw [if_neg h]
    exact if_pos ((lineMode_isSome n _).mpr h)

/-- The filtered level under a new entry: on leaving FAULT_OUTPUT the inactive one (R110). -/
def LineState.filteredUnder (e : LineEntry) (x : LineState) : Bool :=
  if x.entry.mode = .faultOutput ∧ e.mode ≠ .faultOutput then !e.activeHigh else x.filtered

/-- The filter timer under a new entry: stopped in FAULT_OUTPUT, on leaving it started where the pin differs (R110). -/
def LineState.timerUnder (e : LineEntry) (ms : Nat) (x : LineState) : Option Nat :=
  if e.mode = .faultOutput then none
  else if x.entry.mode = .faultOutput then (if x.raw = x.filteredUnder e then none else some ms)
  else x.timer

theorem LineState.applied_eq (e : LineEntry) (faults ms : Nat) (x : LineState) :
    x.applied e faults ms =
      { entry := e, raw := x.raw, filtered := x.filteredUnder e, timer := x.timerUnder e ms, alert := x.alert
        drive := e.mode == .faultOutput && (decide (0 < faults) != e.activeHigh) } := by
  unfold LineState.applied LineState.timerUnder LineState.filteredUnder
  by_cases hnew : e.mode = .faultOutput
  · simp [hnew, LineState.driveFor]
  · by_cases hold : x.entry.mode = .faultOutput
    · simp [hnew, hold, LineState.driveFor, LineState.armFilter]
    · simp [hnew, hold, LineState.driveFor]

/-- The alert state under a new entry, with the filtered level then held (R114). -/
def LineState.alertUnder (e : LineEntry) (filtered : Bool) (x : LineState) : Bool :=
  match e.mode with
  | .alertLevel => filtered == e.activeHigh
  | .alertLatched => x.alert && (x.entry.mode == .alertLatched || x.entry.mode == .alertLevel)
  | _ => false

theorem LineState.alertAfter_applied (e : LineEntry) (faults ms : Nat) (x : LineState) :
    (x.applied e faults ms).alertAfter x.entry.mode = x.alertUnder e (x.filteredUnder e) := by
  rw [LineState.applied_eq, LineState.alertAfter, LineState.alertUnder]
  cases e.mode <;> rfl

/-! ## The commit (R95, R114, R115) -/

theorem State.setPulseMode_eq (on : Bool) (s : State) :
    s.setPulseMode on = { s with
      clk :=
        if s.clk.pulseMode ≠ on then { s.clk with pulseMode := on, pulseMissing := 0, armed := on } else s.clk } := by
  unfold State.setPulseMode
  by_cases h : s.clk.pulseMode = on
  · rw [if_pos h, if_neg (not_not_intro h)]
  · rw [if_neg h, if_pos h]

/-- Line `n` under entry `e` with an alert state, and line 3's pulse mode told to the clock (R27, R95). -/
def State.lineReplaced (n : LineNo) (e : LineEntry) (alert : Bool) (s : State) : State :=
  { s with
    lines := s.lines.set n { (s.line n).applied e s.pc.faultCount s.settings.lineFilter with alert := alert }
    clk :=
      if n = 3 ∧ s.clk.pulseMode ≠ (e.mode == .minutePulse) then
        { s.clk with pulseMode := e.mode == .minutePulse, pulseMissing := 0, armed := e.mode == .minutePulse }
      else s.clk }

theorem State.line_lineReplaced (n : LineNo) (e : LineEntry) (alert : Bool) (s : State) :
    (s.lineReplaced n e alert).line n =
      { (s.line n).applied e s.pc.faultCount s.settings.lineFilter with alert := alert } :=
  State.line_setLine_self n _ s

theorem State.setLine_lineReplaced (n : LineNo) (e : LineEntry) (alert after : Bool) (s : State) :
    (s.lineReplaced n e alert).setLine n { (s.lineReplaced n e alert).line n with alert := after } =
      s.lineReplaced n e after := by
  rw [State.line_lineReplaced, State.setLine, State.lineReplaced, Vector.set_set]
  rfl

/-- A report handed first is about neither the line nor the clock. -/
theorem State.lineReplaced_reportIf (n : LineNo) (e : LineEntry) (alert : Bool) (b : Prop) [Decidable b] (r : Report)
    (s : State) :
    (s.reportIf b r).lineReplaced n e alert = { s.reportIf b r with
      lines := (s.lineReplaced n e alert).lines, clk := (s.lineReplaced n e alert).clk } := by
  rw [State.reportIf_rw]
  rfl

/-- An entry replaced with the alert state as it was. -/
theorem State.lineReplaced_same (n : LineNo) (e : LineEntry) (s : State) :
    (if n = 3 then
        (s.setLine n ((s.line n).applied e s.pc.faultCount s.settings.lineFilter)).setPulseMode (e.mode == .minutePulse)
      else s.setLine n ((s.line n).applied e s.pc.faultCount s.settings.lineFilter)) =
      s.lineReplaced n e (s.line n).alert := by
  rw [State.setPulseMode_eq, State.lineReplaced, LineState.applied_eq]
  by_cases hn : n = 3
  · simp only [hn, true_and]
    rfl
  · simp only [hn, false_and, if_false]
    rfl

/-- A commit: the line replaced, then the sweep where the alert changes, or stays ACTIVE under another page or mask. -/
theorem State.applyLine_eq (n : LineNo) (e : LineEntry) (s : State) :
    let x := s.line n
    let after := x.alertUnder e (x.filteredUnder e)
    let w := s.lineReplaced n e after
    s.applyLine n e =
      if after ≠ x.alert then
        (w.report
          { kind := if after then .alertOn else .alertOff, sign := none, page := e.alertPage
            detail := n.val * 256 + 3 }).sweep (x.entry.zones ||| e.zones)
      else if after = true ∧ (x.entry.alertPage ≠ e.alertPage ∨ x.entry.zones ≠ e.zones) then
        w.sweep (x.entry.zones ||| e.zones)
      else w := by
  intro x after w
  have hentry : ((s.lineReplaced n e x.alert).line n).entry = e := by
    rw [State.line_lineReplaced, LineState.applied_eq]
  have hafter : ((s.lineReplaced n e x.alert).line n).alertAfter x.entry.mode = after := by
    refine Eq.trans ?_ (LineState.alertAfter_applied e s.pc.faultCount s.settings.lineFilter x)
    rw [State.line_lineReplaced, LineState.applied_eq]
  have hset : (s.lineReplaced n e x.alert).setAlert n after 3 (x.entry.zones ||| e.zones) =
      (w.report
        { kind := if after then .alertOn else .alertOff, sign := none, page := e.alertPage
          detail := n.val * 256 + 3 }).sweep (x.entry.zones ||| e.zones) := by
    rw [State.setAlert_eq, State.setLine_lineReplaced, hentry, State.sweep_eq]
  have happly : s.applyLine n e =
      if after ≠ x.alert then (s.lineReplaced n e x.alert).setAlert n after 3 (x.entry.zones ||| e.zones)
      else if after = true ∧ (x.entry.alertPage ≠ e.alertPage ∨ x.entry.zones ≠ e.zones) then
        (s.lineReplaced n e x.alert).sweep (x.entry.zones ||| e.zones)
      else s.lineReplaced n e x.alert := by
    unfold State.applyLine
    dsimp only
    rw [State.lineReplaced_same, hafter]
    simp only [bne_iff_ne, Bool.and_eq_true, Bool.or_eq_true]
    rfl
  rw [happly, hset]
  by_cases hchanged : after = x.alert
  · have hsame : s.lineReplaced n e x.alert = w := by rw [← hchanged]
    rw [hsame]
  · rw [if_pos hchanged, if_pos hchanged]

theorem State.windowAction_lineCommit (n : LineNo) (v : Byte) (s : State) :
    s.windowAction (0x10F + 16 * n.val) v = if s.lineReached then s.commitLine n else s := by
  have hn : Fin.ofNat 4 ((0x10F + 16 * n.val - 0x100) / 16) = n := Fin.ext (by simp only [Fin.val_ofNat]; omega)
  unfold State.windowAction
  rw [if_neg (by omega), if_pos (by omega)]
  dsimp only
  rw [if_neg (by omega), if_pos (by omega), hn]

/-- Settles O18. -/
theorem lineEntryCommitApplies : Obligations.LineEntryCommitApplies := by
  intro s addr b n hgoes hwin v code e x fault left filtered alert y pulse w swept
  rw [exec_record (c := 0x10F + 16 * n.val) (by simp [writeRows]) hgoes (List.cons_ne_nil _ _) rfl hwin
    (fun o h1 h2 => absurd h1 (Nat.not_le.mpr h2))
    (by simp only [Sys2Proof.Machine.imaged, Bool.or_eq_true, Bool.and_eq_true, decide_eq_true_eq]; omega),
    State.windowAction_lineCommit]
  refine congrArg (fun u => Host.Outcome.next (State.settle u)) ?_
  have hreached : v.lineReached = s.lineReached := rfl
  show (if v.lineReached = true then v.commitLine n else v) = _
  have hfiltered : x.filteredUnder e = filtered := if_congr (by simp [left, fault]) rfl rfl
  have halert : x.alertUnder e (x.filteredUnder e) = alert := congrArg (fun f => x.alertUnder e f) hfiltered
  have htimer : x.timerUnder e s.settings.lineFilter = y.timer := by
    rw [LineState.timerUnder, hfiltered]
    by_cases hnew : e.mode = .faultOutput <;> simp [y, left, fault, hnew]
  have happlied : { x.applied e s.pc.faultCount s.settings.lineFilter with alert := alert } = y := by
    rw [LineState.applied_eq, hfiltered, htimer]
    rfl
  have hw : (v.reportLineMode n).lineReplaced n e alert = w := by
    rw [State.reportLineMode_eq, State.lineReplaced_reportIf]
    exact congrArg (fun z => { w with lines := s.lines.set n z }) happlied
  have hline : (v.reportLineMode n).line n = x := by
    rw [State.reportLineMode_eq, State.reportIf_rw]
    rfl
  have hcommit := State.applyLine_eq n e (v.reportLineMode n)
  simp only [hline, halert, hw, State.sweep_eq] at hcommit
  rw [hreached, State.commitLine, hcommit]
  cases s.lineReached <;> rfl

end Sys2Proof.Machine
end

section
/-! PROOFS. The counters at their limits: the heartbeat's lapse and the wanted pages it leaves, the missing pulse, and the
rotation's advance. -/

namespace Sys2Proof.Machine

/-! ## A sign whose wanted page is the one chosen now (R122, R123) -/

/-- If sign `i` is enabled, its wanted page is the one R122 chooses now. -/
def State.ChosenAt (s : State) (i : SignNo) : Prop :=
  (s.sign i).entry.enabled = true → (s.sign i).wanted = some (s.wantedFor (s.sign i))

/-- What the choice for sign `i` looks at, and the choice made, are the same. -/
structure SameChoice (i : SignNo) (s t : State) : Prop where
  lines : t.lines = s.lines
  pc : t.pc = s.pc
  entry : (t.sign i).entry = (s.sign i).entry
  page : (t.sign i).schedulePage = (s.sign i).schedulePage
  wanted : (t.sign i).wanted = (s.sign i).wanted

theorem SameChoice.refl (i : SignNo) (s : State) : SameChoice i s s := ⟨rfl, rfl, rfl, rfl, rfl⟩

theorem SameChoice.trans {i : SignNo} {s t u : State} (h : SameChoice i s t) (k : SameChoice i t u) : SameChoice i s u :=
  ⟨k.lines.trans h.lines, k.pc.trans h.pc, k.entry.trans h.entry, k.page.trans h.page, k.wanted.trans h.wanted⟩

/-- A change elsewhere than at the lines, the chooser and the sign. -/
theorem SameChoice.of_sign {i : SignNo} {s t : State} (hlines : t.lines = s.lines) (hpc : t.pc = s.pc)
    (hsign : t.sign i = s.sign i) : SameChoice i s t := by
  refine ⟨hlines, hpc, ?_, ?_, ?_⟩ <;> rw [hsign]

/-- A change of a sign that leaves its entry, its schedule page and its wanted page. -/
theorem SameChoice.modify (i j : SignNo) {f : SignState → SignState} (hentry : ∀ g, (f g).entry = g.entry)
    (hpage : ∀ g, (f g).schedulePage = g.schedulePage) (hwanted : ∀ g, (f g).wanted = g.wanted) (s : State) :
    SameChoice i s (s.modifySign j f) := by
  by_cases hij : j = i
  · subst hij
    refine ⟨rfl, rfl, ?_, ?_, ?_⟩ <;> rw [State.sign_modifySign_self]
    · rw [SignState.markDue_entry, hentry]
    · rw [SignState.markDue_schedulePage, hpage]
    · rw [SignState.markDue_wanted, hwanted]
  · exact SameChoice.of_sign rfl rfl (OnlySign.modify j f s i (Ne.symm hij))

theorem State.ChosenAt.of_same {i : SignNo} {s t : State} (hs : s.ChosenAt i) (h : SameChoice i s t) : t.ChosenAt i := by
  intro hen
  rw [h.wanted, hs (h.entry ▸ hen)]
  have halert : ∀ z, t.alertPageFor z = s.alertPageFor z := fun z => by
    simp only [State.alertPageFor, State.line, h.lines]
  exact congrArg some (State.wantedFor_congr halert (congrArg (·.hb) h.pc) h.entry h.page).symm

/-! ## The page loader leaves the choice (R72, R77) -/

theorem State.report_sameChoice (i : SignNo) (r : Report) (s : State) : SameChoice i s (s.report r) := by
  rw [State.report_rw]
  exact SameChoice.of_sign rfl rfl rfl

theorem State.queueActivation_sameChoice (i j : SignNo) (s : State) : SameChoice i s (s.queueActivation j) := by
  rw [State.queueActivation_eq]
  exact (SameChoice.modify i j (f := SignState.joined) (fun _ => rfl) (fun _ => rfl) (fun _ => rfl) s).trans
    (SameChoice.of_sign rfl rfl rfl)

theorem State.refuseActivation_sameChoice (i j : SignNo) (p cause : Nat) (s : State) :
    SameChoice i s (s.refuseActivation j p cause) := by
  have hrefused : SameChoice i s (s.refused j p cause) := by
    rw [State.refused_rest]
    exact (SameChoice.modify i j (f := SignState.refusedAt p) (fun _ => rfl) (fun _ => rfl) (fun _ => rfl) s).trans
      (SameChoice.of_sign rfl rfl rfl)
  rw [State.refuseActivation_eq]
  split
  · exact hrefused.trans (State.queueActivation_sameChoice i j _)
  · exact hrefused

theorem State.startActivation_sameChoice (i j : SignNo) (p : Nat) (r : Reason) (s : State) :
    SameChoice i s (s.startActivation j p r) := by
  have hloading : SameChoice i s { s with pl.loading := some j } := SameChoice.of_sign rfl rfl rfl
  have hsign := hloading.trans (SameChoice.modify i j (f := fun g => { g with
    activation := .loadingMap, incoming := some (p, r)
    staged := List.replicate (s.sign j).entry.slotCount { value := 0, read := false } })
    (fun _ => rfl) (fun _ => rfl) (fun _ => rfl) _)
  rw [State.startActivation_eq]
  exact hsign.trans (SameChoice.of_sign rfl rfl rfl)

theorem State.takeActivation_sameChoice (i : SignNo) (n : Nat) (s : State) :
    SameChoice i s (State.takeActivation n s) := by
  induction n generalizing s with
  | zero => exact SameChoice.refl i s
  | succ n ih =>
    by_cases hfree : s.pl.loading = none ∧ s.mp.load .pageMap = 0
    · cases hq : s.pl.queue with
      | nil =>
        rw [State.takeActivation_blocked (.inr (.inr hq))]
        exact SameChoice.refl i s
      | cons j rest =>
        have hhead : SameChoice i s (s.headTaken j rest) :=
          (SameChoice.modify i j (f := fun g => { g with activation := .idle })
            (fun _ => rfl) (fun _ => rfl) (fun _ => rfl) s).trans (SameChoice.of_sign rfl rfl rfl)
        rw [State.takeActivation_head hfree.1 hfree.2 hq]
        split
        · exact hhead.trans (ih _)
        · split
          · exact hhead.trans (ih _)
          · split
            · exact hhead.trans (State.startActivation_sameChoice i j _ _ _)
            · exact hhead.trans ((State.refuseActivation_sameChoice i j _ 1 _).trans (ih _))
    · rw [State.takeActivation_blocked (by tauto)]
      exact SameChoice.refl i s

/-- The signature engine's take and its request touch neither lines, chooser nor signs. -/
theorem State.othersTakeUp_sameChoice (i : SignNo) (s : State) : SameChoice i s s.othersTakeUp := by
  have hactivation := State.takeActivation_sameChoice i s.pl.queue.length s
  have hrest := State.placeSignature_taken (State.takeStale_taken
    (SameButTaken.refl (State.takeActivation s.pl.queue.length s)))
  refine hactivation.trans (SameChoice.of_sign hrest.lines hrest.pc ?_)
  rw [State.othersTakeUp, State.sign_def, State.placeSignature_signs, State.takeStale_signs]
  rfl

/-! ## The schedule engine chooses anew where it moves a schedule page (R98, R99, R102) -/

/-- A sign that came to hold `g`, its schedule page following, wants the page chosen now if it did before. -/
theorem Follows.chosenAt {i : SignNo} {g : SignState} {s t : State} (h : Follows i g s t)
    (hentry : g.entry = (s.sign i).entry) (hpage : g.schedulePage = (s.sign i).schedulePage)
    (hwanted : g.wanted = (s.sign i).wanted) {j : SignNo} (hs : s.ChosenAt j) : t.ChosenAt j := by
  obtain ⟨signs, queue, ht⟩ := h.eq
  have hlines : t.lines = s.lines := by rw [ht]
  have hpc : t.pc = s.pc := by rw [ht]
  by_cases hj : j = i
  · subst hj
    obtain ⟨a, b, hsign⟩ := h.sign
    have hent : (t.sign j).entry = g.entry := by rw [hsign]; rfl
    by_cases hmoved : (t.sign j).schedulePage = g.schedulePage
    · exact hs.of_same ⟨hlines, hpc, hent.trans hentry, hmoved.trans hpage, (h.wanted_of_stayed hmoved).trans hwanted⟩
    · exact fun hen => h.wanted_of_moved hmoved (hent ▸ hen)
  · exact hs.of_same (SameChoice.of_sign hlines hpc (h.other j hj))

theorem State.endResync_chosenAt {i j : SignNo} {s : State} (hs : s.ChosenAt j) (cand : Option Candidate)
    (next : Option (Nat × Nat)) : (s.endResync i cand next).ChosenAt j := by
  have hidle : State.ChosenAt { s with clk.engine := .idle } j := hs.of_same (SameChoice.of_sign rfl rfl rfl)
  by_cases hredo : (s.sign i).redo = true
  · rw [State.endResync_discarded hredo]
    exact hidle
  · obtain ⟨-, -, hentry, -, -, hpage, hwanted⟩ := SignState.resynced_keeps cand next (s.sign i)
    exact (State.endResync_follows (Bool.eq_false_iff.mpr hredo) cand next).chosenAt hentry hpage hwanted hidle

theorem State.startWork_chosenAt (i : SignNo) {j : SignNo} {s : State} (hs : s.ChosenAt j) :
    (s.startWork i).ChosenAt j := by
  have htaken : (s.workTaken i).ChosenAt j :=
    hs.of_same (SameChoice.modify j i (f := fun g => { g with workDue := .none, redo := false })
      (fun _ => rfl) (fun _ => rfl) (fun _ => rfl) s)
  unfold State.startWork
  dsimp only
  split
  · split
    · exact State.endResync_chosenAt htaken none none
    · exact htaken.of_same (SameChoice.of_sign rfl rfl rfl)
  · exact htaken.of_same (SameChoice.of_sign rfl rfl rfl)
  · exact htaken
  · exact htaken

theorem State.takeWork_chosenAt (n : Nat) {j : SignNo} {s : State} (hs : s.ChosenAt j) :
    (State.takeWork n s).ChosenAt j := by
  induction n generalizing s with
  | zero => exact hs
  | succ n ih =>
    unfold State.takeWork
    split
    · exact hs
    · split
      · exact hs
      · exact ih (State.startWork_chosenAt _ hs)

/-- Work taken up leaves a sign that wants the page chosen now one that does. -/
theorem State.takeUp_chosenAt {j : SignNo} {s : State} (hs : s.ChosenAt j) : s.takeUp.ChosenAt j := by
  rw [State.takeUp_eq]
  exact (State.takeWork_chosenAt 256 hs).of_same (State.othersTakeUp_sameChoice j _)

/-! ## A sweep over the enabled signs (R119 to R121) -/

theorem State.wantedFor_evaluate (i : SignNo) (g : SignState) (s : State) :
    (s.evaluate i).wantedFor g = s.wantedFor g := by
  obtain ⟨signs, queue, h⟩ := s.evaluate_changes i
  rw [h]
  rfl

/-- An evaluation makes its sign want the page chosen now. -/
theorem State.evaluate_chosenAt_self (i : SignNo) (s : State) : (s.evaluate i).ChosenAt i := by
  by_cases hen : (s.sign i).entry.enabled = true
  · obtain ⟨a, b, hsign⟩ := State.sign_evaluate hen
    intro _
    rw [State.wantedFor_evaluate, hsign]
    rfl
  · rw [State.evaluate_disabled (Bool.eq_false_iff.mpr hen)]
    exact fun h => absurd h hen

theorem State.evaluate_chosenAt {i j : SignNo} {s : State} (hs : s.ChosenAt j) : (s.evaluate i).ChosenAt j := by
  by_cases hj : j = i
  · rw [hj]
    exact State.evaluate_chosenAt_self i s
  · have htaken := State.evaluate_taken i (SameButTaken.refl s)
    exact hs.of_same (SameChoice.of_sign htaken.lines htaken.pc (State.evaluate_only i s j hj))

theorem forSigns_evaluate_chosenAt {is : List SignNo} {j : SignNo} {s : State} (h : j ∈ is ∨ s.ChosenAt j) :
    (forSigns State.evaluate is s).ChosenAt j := by
  induction is generalizing s with
  | nil => exact h.resolve_left List.not_mem_nil
  | cons i rest ih =>
    refine ih ?_
    rcases h with h | h
    · rcases List.mem_cons.mp h with rfl | h
      · exact .inr (State.evaluate_chosenAt_self j s)
      · exact .inl h
    · exact .inr (State.evaluate_chosenAt h)

/-- After a sweep over the enabled signs each wants the page chosen now. -/
theorem State.evaluateAll_chosenAt (s : State) (j : SignNo) : s.evaluateAll.ChosenAt j := by
  refine forSigns_evaluate_chosenAt ?_
  by_cases hen : (s.sign j).entry.enabled = true
  · exact .inl ((s.mem_signsWhere _ j).mpr hen)
  · exact .inr fun h => absurd h hen

/-! ## The second tick of a lapse, and of a missing pulse (R94, R119) -/

/-- What a report does to the writer hangs on the writer and the clock's day, minute and second. -/
theorem State.report_rw_of_clock (c : Clock) (r : Report) (s : State) :
    (State.report r { s with
      clk := { c with day := s.clk.day, minute := s.clk.minute, second := s.clk.second } }).rw = (s.report r).rw := by
  unfold State.report
  dsimp only
  cases s.rw.ring with
  | none => rfl
  | some q => exact ite_rw_congr rfl (ite_rw_congr rfl (ite_rw_congr rfl rfl rfl) rfl) rfl

theorem State.report_rw_of_now {s t : State} (hrw : t.rw = s.rw) (hnow : t.now = s.now) (r : Report) :
    (t.report r).rw = (s.report r).rw := by
  obtain ⟨hday, hminute, hsecond⟩ := TimeOfDay.mk.inj hnow
  rw [← State.report_rw_of_clock t.clk r s, ← hday, ← hminute, ← hsecond]
  exact State.report_rw_congr (s := { s with clk := t.clk }) hrw rfl r

/-- The clock's own second tick within a minute: the prescaler at 0 and the next second (R88). -/
def State.secondPassed (s : State) : State := { s with clk.prescaler := 0, clk.second := s.clk.second + 1 }

theorem State.secondTurned_within {s : State} (h : s.clk.second < 59) : s.secondTurned = s.secondPassed :=
  if_neg (Nat.not_le.mpr h)

/-- HEARTBEAT_LAPSED (R119). -/
def State.lapseReport (s : State) : Report :=
  { kind := .heartbeatLapsed, sign := none, page := none, detail := s.settings.heartbeatModulus }

/-- PULSE_MISSING (R94). -/
def pulseMissingReport : Report := { kind := .pulseMissing, sign := none, page := none, detail := 180 }

/-- The pulse-missing counter's second tick changes the clock and the report writer alone, whose entries stay. -/
theorem State.tickPulse_changes (s : State) :
    ∃ clk rw, s.tickPulse = { s with clk := clk, rw := rw } ∧ s.rw.entries <+: rw.entries := by
  have hcounted : ∃ clk, (if s.clk.pulseMode then
      { s with clk.pulseMissing := min Config.pulseMissingLimit (s.clk.pulseMissing + 1) } else s) =
        { s with clk := clk } := by
    split
    · exact ⟨_, rfl⟩
    · exact ⟨s.clk, rfl⟩
  obtain ⟨clk, hclk⟩ := hcounted
  unfold State.tickPulse
  rw [hclk]
  dsimp only
  split
  · have htaken := State.report_taken pulseMissingReport (SameButTaken.refl { s with clk := { clk with armed := false } })
    exact ⟨_, _, State.report_rw _ _, htaken.entries⟩
  · exact ⟨clk, s.rw, rfl, List.prefix_rfl⟩

/-- What a second tick does once the heartbeat has had it: the pulse-missing counter, the dwell counts, the status block. -/
def State.tickCounters (s : State) : State := { s.tickPulse.tickDwell with rw.blockDue := true }

theorem State.tickSecond_within {s : State} (h : s.clk.second < 59) :
    s.tickSecond = s.secondPassed.tickHeartbeat.tickCounters := by
  rw [State.tickSecond_eq, State.secondTurned_within h]
  rfl

theorem State.sign_tickDwell (i : SignNo) (s : State) :
    ∃ n, s.tickDwell.sign i = { s.sign i with dwellCount := n } := by
  rw [State.tickDwell_eq, State.sign_ofFn]
  exact ⟨_, rfl⟩

theorem State.tickDwell_sameChoice (i : SignNo) (s : State) : SameChoice i s s.tickDwell := by
  have hlines : s.tickDwell.lines = s.lines := by rw [State.tickDwell_eq]
  have hpc : s.tickDwell.pc = s.pc := by rw [State.tickDwell_eq]
  obtain ⟨n, hsign⟩ := State.sign_tickDwell i s
  refine ⟨hlines, hpc, ?_, ?_, ?_⟩ <;> rw [hsign]

/-- The counters leave the chooser, the entries handed and what the choice of pages looks at. -/
theorem State.tickCounters_keeps (s : State) :
    s.tickCounters.pc = s.pc ∧ s.rw.entries <+: s.tickCounters.rw.entries ∧
      ∀ i, SameChoice i s s.tickCounters := by
  obtain ⟨clk, rw, hpulse, hentries⟩ := s.tickPulse_changes
  have hcounted : ∀ i, SameChoice i s s.tickPulse := fun i => by
    rw [hpulse]
    exact SameChoice.of_sign rfl rfl rfl
  have hchoice : ∀ i, SameChoice i s s.tickPulse.tickDwell := fun i =>
    (hcounted i).trans (State.tickDwell_sameChoice i _)
  have hrw : s.tickCounters.rw.entries = rw.entries := by rw [State.tickCounters, State.tickDwell_eq, hpulse]
  exact ⟨(hchoice 0).pc, hrw ▸ hentries, fun i => (hchoice i).trans (SameChoice.of_sign rfl rfl rfl)⟩

/-- The heartbeat has lapsed, before it is reported (R119). -/
def State.lapsed (s : State) : State := { s with pc.hb := .lapsed, pc.hbCounter := 0 }

/-- The lapse and the work it takes up (R119). -/
theorem State.lapse_takeUp_keeps (s : State) :
    s.lapse.takeUp.pc = { s.pc with hb := .lapsed, hbCounter := 0 } ∧
      (∀ i, (s.lapse.takeUp.sign i).entry = (s.sign i).entry) ∧
      (s.report s.lapseReport).rw.entries <+: s.lapse.takeUp.rw.entries ∧ ∀ i, s.lapse.takeUp.ChosenAt i := by
  have htaken : SameButTaken (s.lapsed.report s.lapseReport) s.lapse.takeUp :=
    State.takeUp_taken (State.evaluateAll_taken (SameButTaken.refl _))
  have hpc : (s.lapsed.report s.lapseReport).pc = s.lapsed.pc := State.report_pc _ _
  have hrw : (s.lapsed.report s.lapseReport).rw = (s.report s.lapseReport).rw :=
    State.report_rw_congr (s := s) (t := s.lapsed) rfl rfl _
  have hentry : ∀ i, (s.lapse.takeUp.sign i).entry = (s.sign i).entry := fun i => by
    have hlasting := congrArg (fun g : SignState => g.entry) (htaken.signs i)
    rw [State.sign_report] at hlasting
    exact hlasting
  exact ⟨htaken.pc.trans hpc, hentry, hrw ▸ htaken.entries, fun i =>
    State.takeUp_chosenAt (State.evaluateAll_chosenAt _ i)⟩

/-- Without a lapse the heartbeat's second tick moves its counter alone. -/
theorem State.tickHeartbeat_counts {s : State} (h : ¬s.lapseDue = true) :
    ∃ n, s.tickHeartbeat = { s with pc.hbCounter := n } := by
  unfold State.tickHeartbeat
  rw [if_neg h]
  split
  · exact ⟨_, rfl⟩
  · exact ⟨s.pc.hbCounter, rfl⟩

/-- The pulse-missing counter's second tick that reaches 180 armed (R94). -/
theorem State.tickPulse_missing {s : State} (h : s.pulseMissingDue = true) :
    s.tickPulse = State.missPulse { s with clk.pulseMissing := 180 } := by
  obtain ⟨hmode, -, hcount⟩ := (State.pulseMissingDue_iff s).mp h
  have hlimit : min Config.pulseMissingLimit (s.clk.pulseMissing + 1) = 180 := Nat.min_eq_left (Nat.succ_le_succ hcount)
  unfold State.tickPulse
  dsimp only
  rw [if_pos h, if_pos hmode, hlimit]

/-- The counter stands at 180, disarmed, before PULSE_MISSING is handed (R94). -/
def State.pulseMissed (s : State) : State := { s with clk.pulseMissing := 180, clk.armed := false }

/-- The counters of the second tick in which a pulse is found missing. -/
theorem State.tickCounters_missing {s : State} (h : s.pulseMissingDue = true) :
    s.tickCounters.clk = { s.clk with pulseMissing := 180, armed := false } ∧
      s.tickCounters.rw = { (s.report pulseMissingReport).rw with blockDue := true } ∧ s.tickCounters.pc = s.pc := by
  have hcounters : s.tickCounters = { (s.pulseMissed.report pulseMissingReport).tickDwell with rw.blockDue := true } := by
    rw [State.tickCounters, State.tickPulse_missing h]
    rfl
  have hrw : (s.pulseMissed.report pulseMissingReport).rw = (s.report pulseMissingReport).rw :=
    State.report_rw_of_now (s := s) (t := s.pulseMissed) rfl rfl _
  have hclk : (s.pulseMissed.report pulseMissingReport).clk = s.pulseMissed.clk := by rw [State.report_rw]
  have hpc : (s.pulseMissed.report pulseMissingReport).pc = s.pulseMissed.pc := State.report_pc _ _
  rw [hcounters, State.tickDwell_eq]
  exact ⟨hclk, congrArg (fun w : ReportWriter => { w with blockDue := true }) hrw, hpc⟩

section
variable {s : State} (hr : s.resetHeld = false) (hsecond : s.clk.second < 59)
include hr hsecond

/-- The row HEARTBEAT_LAPSE within a minute. -/
theorem exec_heartbeatLapse_within (hdue : s.lapseDue = true) :
    exec .heartbeatLapse s = .next s.secondPassed.lapse.takeUp.tickCounters.settle := by
  have hbeat : s.secondPassed.tickHeartbeat = s.secondPassed.lapse.takeUp := if_pos hdue
  rw [← hbeat, ← State.tickSecond_within hsecond]
  exact congrArg Host.Outcome.next (State.onEvent_of _ hr hdue)

/-- The row PULSE_MISSING within a minute. -/
theorem exec_pulseMissing_within (hdue : s.pulseMissingDue = true) :
    exec .pulseMissing s = .next s.secondPassed.tickHeartbeat.tickCounters.settle := by
  rw [← State.tickSecond_within hsecond]
  exact congrArg Host.Outcome.next (State.onEvent_of _ hr hdue)

end

/-! ## The rotation's advance (R98, R106) -/

theorem State.rotate_follows (i : SignNo) (s : State) :
    Follows i { s.sign i with dwellCount := 0, rotPos := (s.sign i).nextPage } s (s.rotate i) :=
  State.changed_follows (f := fun g => { g with dwellCount := 0, rotPos := g.nextPage }) rfl

theorem SignState.rotationDue_iff (g : SignState) :
    g.rotationDue = true ↔
      g.entry.enabled = true ∧ (g.rotDwell ≠ 0 ∧ g.rotFirst < g.rotLast) ∧ g.rotDwell ≤ g.dwellCount := by
  simp [SignState.rotationDue, SignState.rotating, and_assoc]

/-- Settles O46: a lapse by `State.lapse_takeUp_keeps`; a missing pulse by `State.tickPulse_missing`; a rotation's advance
by `State.rotate_follows`. -/
theorem countersReachTheirLimits : Obligations.CountersReachTheirLimits := by
  intro s hr lapses missing
  refine ⟨fun hlapses hsecond => ?_, fun hmissing hnot hsecond => ?_, ?_⟩
  · have hdue : s.lapseDue = true := (State.lapseDue_iff s).mpr (and_assoc.mpr hlapses)
    obtain ⟨hpc, hentry, hentries, hchosen⟩ := State.lapse_takeUp_keeps s.secondPassed
    obtain ⟨hpc', hentries', hsame⟩ := State.tickCounters_keeps s.secondPassed.lapse.takeUp
    have hrw := State.report_rw_of_now (s := { s with clk.second := s.clk.second + 1 }) (t := s.secondPassed) rfl rfl
      s.lapseReport
    refine ⟨_, exec_heartbeatLapse_within hr hsecond hdue, hpc'.trans hpc, ?_, fun i hen => ?_⟩
    · have hprefix := hentries.trans hentries'
      rw [show s.secondPassed.lapseReport = s.lapseReport from rfl, hrw] at hprefix
      exact hprefix
    · refine (hchosen i).of_same (hsame i) ?_
      rw [(hsame i).entry, hentry i]
      exact hen
  · have hdue : s.pulseMissingDue = true := (State.pulseMissingDue_iff s).mpr hmissing
    obtain ⟨n, hbeat⟩ := State.tickHeartbeat_counts (s := s.secondPassed)
      fun hlapse => hnot (and_assoc.mp ((State.lapseDue_iff s).mp hlapse))
    obtain ⟨hclk, hrw, hpc⟩ := State.tickCounters_missing (s := { s.secondPassed with pc.hbCounter := n }) hdue
    have hreport := State.report_rw_of_now (s := { s with clk.second := s.clk.second + 1 })
      (t := { s.secondPassed with pc.hbCounter := n }) rfl rfl pulseMissingReport
    refine ⟨_, exec_pulseMissing_within hr hsecond hdue, ?_⟩
    rw [hbeat]
    exact ⟨hclk, hrw.trans (congrArg (fun w => { w with blockDue := true }) hreport), congrArg (·.hb) hpc⟩
  · intro i g next page hen hdwell hfirst hcount
    have hrotated := State.rotate_follows i s
    obtain ⟨a, b, hsign⟩ := hrotated.sign
    obtain ⟨signs, queue, heq⟩ := hrotated.eq
    have hdue : g.rotationDue = true := (SignState.rotationDue_iff g).mpr ⟨hen, ⟨hdwell, hfirst⟩, hcount⟩
    have hwanted : ((s.rotate i).sign i).wanted =
        if page = g.schedulePage then g.wanted else some (s.wantedFor ((s.rotate i).sign i)) := by
      rw [hsign]
      by_cases hsame : page = g.schedulePage
      · exact (if_neg fun hmoved => hmoved.1 hsame.symm).trans (if_pos hsame).symm
      · exact (if_pos ⟨Ne.symm hsame, hen⟩).trans (if_neg hsame).symm
    refine ⟨s.rotate i, congrArg Host.Outcome.next (State.onEvent_of _ hr hdue), ?_, ?_, ?_, ?_, ?_, hwanted,
      hrotated.other⟩
    · rw [heq]
    all_goals
      rw [hsign]
      rfl

end Sys2Proof.Machine
end

section
/-! PROOFS. Triggers by job state: raised classes, the place in an update queue, and the stop of a job. -/

namespace Sys2Proof.Machine

/-! ## Classes and queues (R128, R129) -/

theorem raise_none (x : Option Class) : raise x none = x := if_neg (Nat.not_lt_zero _)

/-- Raising to a class leaves a class: the higher of the two. -/
theorem raise_some (x : Option Class) (c : Class) :
    raise x (some c) = some (match x with | none => c | some d => if d.rank < c.rank then c else d) := by
  cases x with
  | none => cases c <;> rfl
  | some d => exact (apply_ite some (d.rank < c.rank) c d).symm

/-- A sign joins its class at the tail: after every sign of a class at least as high. -/
theorem insertQueue_eq (e : QueueEntry) (q : List QueueEntry) :
    insertQueue e q = q.takeWhile (fun x => e.cls.rank ≤ x.cls.rank) ++ [e] ++
      q.dropWhile fun x => e.cls.rank ≤ x.cls.rank := by
  induction q with
  | nil => rfl
  | cons h rest ih =>
    unfold insertQueue
    by_cases hle : e.cls.rank ≤ h.cls.rank
    · rw [if_pos hle, ih, List.takeWhile_cons_of_pos (by simpa using hle), List.dropWhile_cons_of_pos (by simpa using hle)]
      rfl
    · rw [if_neg hle, List.takeWhile_cons_of_neg (by simpa using hle), List.dropWhile_cons_of_neg (by simpa using hle)]
      rfl

/-! ## A change of job state that leaves the fault count (R116, R117) -/

section
variable {i : SignNo} {s : State}

/-- A sign that neither is nor becomes lost changes its link alone. -/
theorem State.setJob_unlost {j : Job} (hold : (s.sign i).job.lost = false) (hnew : j.lost = false) :
    s.setJob i j = (s.modifySign i fun g => { g with job := j }).modifyLink (s.sign i).entry.link (LinkState.forJob i j) := by
  have hentry : ((s.modifySign i fun g => { g with job := j }).sign i).entry = (s.sign i).entry := by
    rw [State.sign_modifySign_self, SignState.markDue_entry]
  unfold State.setJob
  simp only [hold, hnew, hentry]
  rfl

/-- From `s` to `t` nothing changes but what the signs and the links hold. -/
def SignsAndLinks (s t : State) : Prop := ∃ signs links, t = { s with signs := signs, links := links }

theorem SignsAndLinks.refl (s : State) : SignsAndLinks s s := ⟨s.signs, s.links, rfl⟩

theorem SignsAndLinks.modifySign {t : State} (h : SignsAndLinks s t) (i : SignNo) (f : SignState → SignState) :
    SignsAndLinks s (t.modifySign i f) := by
  obtain ⟨signs, links, rfl⟩ := h
  exact ⟨_, links, rfl⟩

theorem SignsAndLinks.modifyLink {t : State} (h : SignsAndLinks s t) (l : LinkNo) (f : LinkState → LinkState) :
    SignsAndLinks s (t.modifyLink l f) := by
  obtain ⟨signs, links, rfl⟩ := h
  exact ⟨signs, _, rfl⟩

theorem SignsAndLinks.setJob {t : State} (h : SignsAndLinks s t) {j : Job} (hold : (t.sign i).job.lost = false)
    (hnew : j.lost = false) : SignsAndLinks s (t.setJob i j) := by
  rw [State.setJob_unlost hold hnew]
  exact (h.modifySign i _).modifyLink _ _

theorem SignsAndLinks.joinQueue {t : State} (h : SignsAndLinks s t) (hold : (t.sign i).job.lost = false) (c : Class) :
    SignsAndLinks s (t.joinQueue i c) := by
  unfold State.joinQueue
  exact ((h.setJob (j := .queued) hold rfl).modifySign i fun g => { g with pendingClass := some c }).modifyLink _ _

/-- A job that stops withdraws its tile read besides. -/
theorem SignsAndLinks.stopJob {t : State} (h : SignsAndLinks s t) (hold : (t.sign i).job.lost = false)
    (extra : Option Class) : ∃ mp, SignsAndLinks { s with mp := mp } (t.stopJob i extra) := by
  have hdropped := h.modifySign i fun g => { g with plan := none, forceFull := true, again := none, abort := none }
  have hjob : ((t.modifySign i fun g =>
      { g with plan := none, forceFull := true, again := none, abort := none }).sign i).job.lost = false := by
    rw [State.sign_modifySign_self, SignState.markDue_job]
    exact hold
  obtain ⟨signs, links, hjoin⟩ := hdropped.joinQueue hjob
    ((raise (raise (raise (t.sign i).pendingClass (t.sign i).abort) (t.sign i).again) extra).getD .content)
  unfold State.stopJob
  dsimp only
  rw [hjoin]
  exact ⟨_, _, _, rfl⟩

end

/-! ## What a trigger looks at, and what a stop leaves (R130, R131) -/

theorem LinkState.showBegun_iff (k : LinkState) (i : SignNo) :
    k.showBegun i = true ↔ ∃ x, k.job = some x ∧ x.sign = i ∧ x.showSent = true := by
  unfold LinkState.showBegun
  cases k.job with
  | none => simp
  | some c => simp

theorem LinkState.jobInFlight_iff (k : LinkState) (i : SignNo) :
    k.jobInFlight i = true ↔ ∃ e, k.exch = some e ∧ e.sign = i ∧ e.discard = false ∧
      (e.purpose = .jobProbe ∨ e.purpose = .jobLoad ∨ e.purpose = .jobShow) := by
  unfold LinkState.jobInFlight
  cases k.exch with
  | none => simp
  | some e => simp [Purpose.ofJob_iff, and_comm, and_assoc]

theorem LinkState.joinedBy_eq (i : SignNo) (c : Class) (k : LinkState) :
    k.joinedBy i c =
      let rest := k.queue.filter (·.sign ≠ i)
      { k with
        queue := rest.takeWhile (fun e => c.rank ≤ e.cls.rank) ++ [{ sign := i, cls := c }] ++
          rest.dropWhile (fun e => c.rank ≤ e.cls.rank)
        polls := k.polls.filter (·.sign ≠ i), refresh := k.refresh.filter (·.1 ≠ i)
        survey := k.survey.filter (·.sign ≠ i) } := by
  unfold LinkState.joinedBy
  rw [insertQueue_eq]
  rfl

/-- The class with which a stopped job is queued: the pending class raised to the abort class and to AGAIN. -/
theorem SignState.stopClass_eq (c : Class) (g : SignState) :
    g.stopClass c =
      let raised (x : Option Class) (c : Class) : Class :=
        match x with | none => c | some d => if d.rank < c.rank then c else d
      let b := raised g.pendingClass (raised g.abort c)
      match g.again with | none => b | some e => raised (some b) e := by
  unfold SignState.stopClass
  rw [raise_none, raise_some, raise_some]
  cases g.again with
  | none => rfl
  | some e =>
    rw [raise_some]
    rfl

theorem Becomes.sign_eq {i : SignNo} {l : LinkNo} {g : SignState} {k : LinkState} {n : Nat} {s t : State}
    (h : Becomes i l g k n s t) (b : Bool) : { t.sign i with recordDue := b } = { g with recordDue := b } := by
  obtain ⟨b', hb⟩ := h.sign
  rw [hb]

theorem Becomes.link_ne {i : SignNo} {l m : LinkNo} {g : SignState} {k : LinkState} {n : Nat} {s t : State}
    (h : Becomes i l g k n s t) (hm : m ≠ l) : t.link m = s.link m :=
  (State.link_congr (s := s.setLink l k) h.links_eq m).trans ((State.link_setLink l m k s).trans (if_neg hm.symm))

theorem Becomes.mp_eq {i : SignNo} {l : LinkNo} {g : SignState} {k : LinkState} {n : Nat} {s t : State}
    (h : Becomes i l g k n s t) : t.mp = s.mp := by
  obtain ⟨signs, lines, he⟩ := h.eq
  rw [he]

/-- A trigger of a sign whose job is on the link: AGAIN, the abort class, or the stop (R130, R131). -/
theorem State.trigger_transfer {i : SignNo} {s : State} (hjob : (s.sign i).job = .transfer) (c : Class) :
    let k := s.link (s.sign i).entry.link
    let aborted := s.modifySign i fun g => { g with abort := raise g.abort (some c) }
    (k.showBegun i = true ∨ c = .recover ∨ c = .content →
      s.trigger i c = s.modifySign i fun g => { g with again := raise g.again (some c) }) ∧
    (k.showBegun i = false → (c = .alert ∨ c = .page) →
      s.trigger i c = if k.jobInFlight i then aborted else aborted.stopJob i none) := by
  intro k aborted
  unfold State.trigger
  dsimp only
  rw [hjob]
  refine ⟨fun h => ?_, fun hnot hc => ?_⟩
  · by_cases hb : k.showBegun i = true
    · exact if_pos hb
    · rcases h.resolve_left hb with rfl | rfl <;> exact if_neg hb
  · rcases hc with rfl | rfl <;> exact if_neg (Bool.not_eq_true _ ▸ hnot)

/-- Settles O49: by the job state; a join by `Becomes.joinQueue`, a stop by `Becomes.stopJob`. -/
theorem triggersActByJobState : Obligations.TriggersActByJobState := by
  intro s i c g l k u raised queued joins begun flying again
  have h0 := Becomes.refl i l s
  have hraise : ∀ x d, raise x (some d) = some (raised x d) := raise_some
  have hjoins : g.job.lost = false → u = s.joinQueue i c → joins := fun hlost hu => by
    have hjoin := h0.joinQueue rfl c
    have hlink := hjoin.link_self.trans (LinkState.joinedBy_eq i c k)
    rw [← hu] at hjoin hlink
    obtain ⟨signs, links, hrest⟩ := (SignsAndLinks.refl s).joinQueue hlost c
    exact ⟨⟨hjoin.sign_eq _, hjoin.other, fun m hm => hjoin.link_ne hm, hlink⟩, by rw [hu, hrest]⟩
  have hagain : u = (s.modifySign i fun g => { g with again := raise g.again (some c) }) → again := fun hu =>
    hu.trans (State.modifySign_congr (by rw [hraise]))
  have hu : u = s.trigger i c := rfl
  unfold State.trigger at hu
  dsimp only at hu
  split
  case h_1 hjob =>
    rw [hjob] at hu
    exact hjoins (by rw [hjob]; rfl) hu
  case h_2 hjob =>
    rw [hjob] at hu
    refine ⟨fun hlow => hjoins (by rw [hjob]; rfl) (hu.trans (if_pos ?_)), fun ⟨d, hd, hle⟩ => hu.trans (if_neg ?_)⟩
    · cases hd : (s.sign i).pendingClass with
      | none => cases c <;> decide
      | some d => exact hlow d hd
    · rw [show (s.sign i).pendingClass = some d from hd]
      exact Nat.not_lt.mpr hle
  case h_3 hjob =>
    rw [hjob] at hu
    exact hu.trans (State.modifySign_congr (by rw [hraise]))
  case h_4 hjob =>
    obtain ⟨hraises, haborts⟩ := State.trigger_transfer hjob c
    have hbegun : k.showBegun i = true ↔ begun := k.showBegun_iff i
    have hflying : k.jobInFlight i = true ↔ flying := k.jobInFlight_iff i
    have hidle : ¬begun → k.showBegun i = false := fun h => Bool.eq_false_iff.mpr (mt hbegun.mp h)
    refine ⟨fun h => hagain (hraises (h.imp_left hbegun.mpr)), fun hnot hc hfly => ?_, fun hnot hc hno => ?_⟩
    · refine (haborts (hidle hnot) hc).trans ((if_pos (hflying.mpr hfly)).trans (State.modifySign_congr ?_))
      rw [hraise]
    · have hstops := (haborts (hidle hnot) hc).trans (if_neg (mt hflying.mp hno))
      have haborted := h0.modify (fun g => { g with abort := raise g.abort (some c) }) fun _ _ => rfl
      have hlost : ((s.modifySign i fun g => { g with abort := raise g.abort (some c) }).sign i).job.lost = false := by
        rw [haborted.job_eq, show (s.sign i).job = .transfer from hjob]
        rfl
      obtain ⟨mp, signs, links, hrest⟩ := ((SignsAndLinks.refl s).modifySign i _).stopJob hlost none
      obtain ⟨v, hv, hclear⟩ := haborted.stopJob rfl none
      have huv : u = v.clearJob l := hstops.trans hclear
      have hqueued : ∀ d, d = g.stopClass c →
          queued d { g with plan := none, forceFull := true, again := none, abort := none } none := by
        rintro _ rfl
        refine ⟨?_, ?_, fun m hm => ?_, ?_⟩ <;> rw [huv]
        · exact hv.sign_eq _
        · exact hv.other
        · exact (State.link_modifyLink l m (fun k => { k with job := none }) v).trans
            ((if_neg hm.symm).trans (hv.link_ne hm))
        · rw [State.link_clearJob_self, hv.link_self, LinkState.joinedBy_eq]
          rfl
      refine ⟨hqueued _ (SignState.stopClass_eq c g).symm, ?_, ?_, ?_⟩
      · exact congrArg (fun v : State => { v with signs := s.signs, links := s.links, mp := s.mp }) (hstops.trans hrest)
      · rw [huv, State.clearJob_eq, hv.mp_eq]
      · rw [huv, State.clearJob_eq, hv.mp_eq]
  case h_5 hjob | h_6 hjob =>
    rw [hjob] at hu
    exact hagain hu
  case h_7 hjob | h_8 hjob | h_9 hjob =>
    rw [hjob] at hu
    exact hu
end Sys2Proof.Machine
end

section
/-! PROOFS. The exchange arbiter's choice on an idle link: due polls, then a new job from the update queue. -/

namespace Sys2Proof.Machine

/-! ## The best of a list (R156, R167) -/

/-- A fold that keeps the better of two finds an element better than all others. -/
theorem foldl_best {α : Type} (better : α → α → Prop) [DecidableRel better] {pick : Option α → α → Option α}
    (hnone : ∀ a, pick none a = some a) (hsome : ∀ b a, pick (some b) a = if better a b then some a else some b)
    {p : α} {as : List α} (hp : p ∈ as) (hbest : ∀ a ∈ as, a = p ∨ (better p a ∧ ¬better a p)) :
    as.foldl pick none = some p := by
  have hfold : ∀ acc : Option α, (∀ b, acc = some b → b = p ∨ (better p b ∧ ¬better b p)) → p ∈ as ∨ acc = some p →
      as.foldl pick acc = some p := by
    clear hp
    induction as with
    | nil => exact fun acc _ h => h.resolve_left List.not_mem_nil
    | cons a rest ih =>
      intro acc hacc h
      have ha := hbest a List.mem_cons_self
      have hrest := fun acc hacc h => ih (fun b hb => hbest b (List.mem_cons_of_mem a hb)) acc hacc h
      have hlater : p ∈ a :: rest → a ≠ p → p ∈ rest := fun hmem hne =>
        (List.mem_cons.mp hmem).resolve_left hne.symm
      rw [List.foldl_cons]
      by_cases hap : a = p
      · have hpick : pick acc a = some p := by
          cases acc with
          | none => rw [hnone, hap]
          | some b =>
            rw [hsome, hap]
            rcases hacc b rfl with hb | hb
            · rw [hb, ite_self]
            · rw [if_pos hb.1]
        exact hrest _ (fun b hb => .inl (Option.some.inj (hb.symm.trans hpick))) (.inr hpick)
      · have hworse := ha.resolve_left hap
        cases acc with
        | none =>
          rw [hnone]
          exact hrest _ (fun b hb => Option.some.inj hb ▸ ha) (.inl (hlater (h.resolve_right nofun) hap))
        | some b =>
          rw [hsome]
          split
          · refine hrest _ (fun b hb => Option.some.inj hb ▸ ha) (.inl (h.elim (hlater · hap) fun hb => ?_))
            exact absurd (Option.some.inj hb ▸ ‹better a b›) hworse.2
          · exact hrest _ hacc (h.imp_left (hlater · hap))
  exact hfold none nofun (.inl hp)

/-! ## The event and its choice (R156, log 11) -/

section
variable {s : State} {l : LinkNo} {t : Nat}

/-- A link in its gap or IDLE, with no exchange, makes its choice as an IDLE one. -/
theorem exec_linkIdle (hr : s.resetHeld = false) (hexch : (s.link l).exch = none)
    (hphase : (s.link l).phase = .gap ∨ (s.link l).phase = .idle) :
    exec (.linkIdle l t) s = .next (State.settle ((s.setLink l { s.link l with phase := .idle }).choose l t)) := by
  refine congrArg Host.Outcome.next (State.onEvent_of _ hr ?_)
  rcases hphase with h | h <;> rw [LinkState.mayChoose, hexch, h] <;> rfl

theorem exec_linkIdle_not (h : (s.link l).exch ≠ none ∨ ((s.link l).phase ≠ .gap ∧ (s.link l).phase ≠ .idle)) :
    exec (.linkIdle l t) s = .next s := by
  refine congrArg Host.Outcome.next (State.onEvent_not _ (.inr (Bool.eq_false_iff.mpr fun hmay => ?_)))
  obtain ⟨hexch, hphase⟩ := Bool.and_eq_true_iff.mp hmay
  rcases h with h | ⟨hgap, hidle⟩
  · exact h (Option.isNone_iff_eq_none.mp hexch)
  · rcases Bool.or_eq_true_iff.mp hphase with hp | hp
    · exact hgap (beq_iff_eq.mp hp)
    · exact hidle (beq_iff_eq.mp hp)

theorem State.duePoll_none (h : ∀ p ∈ (s.link l).polls, p.passed = false) : s.duePoll l = none := by
  have hnil : (s.link l).polls.filter (·.passed) = [] :=
    List.filter_eq_nil_iff.mpr fun p hp => by rw [h p hp]; exact Bool.false_ne_true
  rw [State.duePoll, hnil]
  rfl

/-- The due poll that is due before every other, or as early with the lower drop, is served. -/
theorem State.duePoll_some {p : Poll} (hp : p ∈ (s.link l).polls) (hpassed : p.passed = true)
    (hfirst : ∀ q ∈ (s.link l).polls, q.passed = true → q = p ∨ p.due < q.due ∨
      (p.due = q.due ∧ (s.sign p.sign).entry.drop < (s.sign q.sign).entry.drop)) : s.duePoll l = some p := by
  refine foldl_best (fun p q : Poll => p.due < q.due ∨
    (p.due = q.due ∧ (s.sign p.sign).entry.drop < (s.sign q.sign).entry.drop)) (fun _ => rfl) (fun _ _ => rfl)
    (List.mem_filter.mpr ⟨hp, hpassed⟩) fun q hq => ?_
  obtain ⟨hmem, hdue⟩ := List.mem_filter.mp hq
  exact (hfirst q hmem hdue).imp_right fun h => ⟨h, by omega⟩

theorem State.choose_poll {p : Poll} (h : s.duePoll l = some p) :
    s.choose l t = s.beginFrame l p.sign .poll (p.attempts + 1) p.window (probeFrame (s.sign p.sign).entry.drop) := by
  simp only [State.choose, h]

theorem State.choose_noJob (hdue : s.duePoll l = none) (hjob : (s.link l).job = none) :
    s.choose l t = s.chooseNew l := by
  simp only [State.choose, hdue, hjob]

theorem State.chooseNew_start {e : QueueEntry} {rest : List QueueEntry} (hjob : (s.link l).job = none)
    (hqueue : (s.link l).queue = e :: rest) : s.chooseNew l = s.startJob l e := by
  simp only [State.chooseNew, hjob, hqueue]

/-- A frame that begins on a link whose registers have just changed. -/
theorem State.beginFrame_setLink (x : LinkState) (i : SignNo) (p : Purpose) (n : Nat) (w : Option Nat) (f : List Byte) :
    (s.setLink l x).beginFrame l i p n w f = s.setLink l { x with
      phase := .sending
      exch := some { sign := i, drop := (s.sign i).entry.drop, purpose := p, attempt := n, frame := f,
                     rate := s.settings.rates[l], discard := false }
      window := w.getD s.settings.answerWindow } :=
  State.setLink_modifyLink l x _ s

end

/-! ## A new job (R132, R158) -/

/-- The link once it has taken sign `i` out of its queue into TRANSFER. -/
def LinkState.jobBegun (i : SignNo) (k : LinkState) : LinkState :=
  { LinkState.forJob i .transfer { k with queue := k.queue.filter (·.sign ≠ i) } with
    job := some { sign := i, step := .probe, attempts := 0, wait := .ready, held := [], busyStart := none
                  showSent := false, window := none } }

theorem Becomes.settings_eq {i : SignNo} {l : LinkNo} {g : SignState} {k : LinkState} {n : Nat} {s t : State}
    (h : Becomes i l g k n s t) : t.settings = s.settings := by
  obtain ⟨signs, lines, he⟩ := h.eq
  rw [he]
  rfl

/-- A frame to the sign begins on its link. -/
theorem Becomes.beginFrame {i : SignNo} {l : LinkNo} {g : SignState} {k : LinkState} {n : Nat} {s t : State}
    (h : Becomes i l g k n s t) (p : Purpose) (m : Nat) (w : Option Nat) (f : List Byte) :
    Becomes i l g
      { k with
        phase := .sending
        exch := some { sign := i, drop := g.entry.drop, purpose := p, attempt := m, frame := f
                       rate := s.settings.rates[l], discard := false }
        window := w.getD s.settings.answerWindow }
      n s (t.beginFrame l i p m w f) := by
  unfold State.beginFrame
  rw [h.entry_eq, h.settings_eq]
  exact h.modifyLink fun k => { k with
    phase := .sending
    exch := some { sign := i, drop := g.entry.drop, purpose := p, attempt := m, frame := f, rate := s.settings.rates[l]
                   discard := false }
    window := w.getD s.settings.answerWindow }

/-- A job starts: its sign is TRANSFER, its PROBE is sent, and no other block changes. -/
theorem State.startJob_becomes {s : State} {l : LinkNo} {e : QueueEntry} (hl : (s.sign e.sign).entry.link = l)
    (hlost : (s.sign e.sign).job.lost = false) :
    Becomes e.sign l { s.sign e.sign with job := .transfer, abort := none }
        { (s.link l).jobBegun e.sign with
          phase := .sending
          exch := some { sign := e.sign, drop := (s.sign e.sign).entry.drop, purpose := .jobProbe, attempt := 1
                         frame := probeFrame (s.sign e.sign).entry.drop, rate := s.settings.rates[l], discard := false }
          window := s.settings.answerWindow }
        (faultsAfter (s.sign e.sign).job .transfer s.pc.faultCount) s (s.startJob l e) ∧
      SignsAndLinks s (s.startJob l e) := by
  constructor
  · have h := ((((Becomes.refl e.sign l s).leaveQueue hl).setJob hl .transfer).modify
      (fun g => { g with abort := none }) fun _ _ => rfl).modifyLink fun k => { k with
        job := some { sign := e.sign, step := .probe, attempts := 0, wait := .ready, held := [], busyStart := none
                      showSent := false, window := none } }
    unfold State.startJob
    dsimp only
    rw [h.entry_eq]
    exact h.beginFrame .jobProbe 1 none _
  · have hleft : ((s.leaveQueue e.sign).sign e.sign).job.lost = false := hlost
    unfold State.startJob
    exact ((((((SignsAndLinks.refl s).modifyLink _ _).setJob hleft rfl).modifySign _ _).modifyLink _ _).modifyLink _ _)

/-- Settles O51: a due poll by `State.duePoll_some`, a new job by `State.startJob_becomes`. -/
theorem linkServesPollsThenNewJobs : Obligations.LinkServesPollsThenNewJobs := by
  intro s l t hr k drop probe
  refine ⟨fun h => exec_linkIdle_not h, fun hexch hphase => ⟨fun p hp hpassed hfirst => ?poll,
    fun e rest hnone hjob hqueue hqueued hl => ?start⟩⟩
  all_goals
    have hexec := exec_linkIdle (t := t) hr hexch hphase
    let y : LinkState := { k with phase := .idle }
    have hlink : (s.setLink l y).link l = y := State.link_setLink_self l y s
  case poll =>
    have hdue : (s.setLink l y).duePoll l = some p :=
      State.duePoll_some (by rw [hlink]; exact hp) hpassed (by rw [hlink]; exact hfirst)
    rw [hexec, State.choose_poll hdue, State.beginFrame_setLink]
    rfl
  case start =>
    have hdue : (s.setLink l y).duePoll l = none := State.duePoll_none (by rw [hlink]; exact hnone)
    have hjob' : ((s.setLink l y).link l).job = none := by rw [hlink]; exact hjob
    have hqueue' : ((s.setLink l y).link l).queue = e :: rest := by rw [hlink]; exact hqueue
    rw [State.choose_noJob hdue hjob', State.chooseNew_start hjob' hqueue'] at hexec
    obtain ⟨hstart, hrest⟩ := State.startJob_becomes (s := s.setLink l y) (e := e) hl
      (by rw [show ((s.setLink l y).sign e.sign).job = .queued from hqueued]; rfl)
    obtain ⟨signs, links, he⟩ := hrest
    refine ⟨_, hexec, by rw [he]; rfl, hstart.other, hstart.sign_eq _, fun m hm => ?_, ?_⟩
    · exact (hstart.link_ne hm).trans ((State.link_setLink l m y s).trans (if_neg hm.symm))
    · rw [hstart.link_self, hlink]
      rfl

end Sys2Proof.Machine
end

section
/-! PROOFS. How a job ends without its panel's refresh: a HOLD, SETTLING, the sign's registers and its link. -/

namespace Sys2Proof.Machine

section
variable {i : SignNo} {l : LinkNo} {g : SignState} {k : LinkState} {n : Nat} {s t : State}

/-- The tile read of link `l` is withdrawn, or its bytes will be discarded (R159). -/
def State.tileDropped (l : LinkNo) (s : State) : State := s.withdraw (· == .link l)

/-- A cleared job context withdraws its tile read, and takes the context from the link. -/
theorem Becomes.clearJob (h : Becomes i l g k n s t) :
    Becomes i l g { k with job := none } n (s.tileDropped l) (t.clearJob l) where
  eq := by
    have hk := h.link_self
    obtain ⟨signs, lines, rfl⟩ := h.eq
    refine ⟨signs, lines, ?_⟩
    unfold State.clearJob State.modifyLink
    rw [hk]
    exact congrArg (State.tileDropped l) (State.setLink_setLink l k { k with job := none }
      { s with signs := signs, lines := lines, pc.faultCount := n })
  sign := h.sign
  other := h.other

/-- The shown picture is lost (R135). -/
theorem Becomes.loss (h : Becomes i l g k n s t) (tag : Option Nat) :
    Becomes i l { g with slots := g.slots.map Slot.lose, forceFull := true, shownTag := tag.getD g.shownTag } k n s
      (t.loss i tag) :=
  h.modify (fun g => { g with slots := g.slots.map Slot.lose, forceFull := true, shownTag := tag.getD g.shownTag })
    fun _ _ => rfl

/-- The sign's plan and classes go (R136). -/
theorem Becomes.dropWork (h : Becomes i l g k n s t) :
    Becomes i l { g with plan := none, pendingClass := none, again := none, abort := none } k n s (t.dropWork i) :=
  h.modify (fun g => { g with plan := none, pendingClass := none, again := none, abort := none }) fun _ _ => rfl

/-- The link once sign `i` is on its poll list anew, due at `due` (R157). -/
def LinkState.polling (i : SignNo) (due : Nat) (k : LinkState) : LinkState :=
  { k with
    polls := k.polls.filter (·.sign ≠ i) ++ [{ sign := i, due := due, passed := false, attempts := 0, window := none }] }

theorem State.pollMs_us (s : State) : s.pollMs * 1000 = s.settings.pollInterval * 10000 := Nat.mul_assoc _ 10 1000

theorem Becomes.addPoll (h : Becomes i l g k n s t) (hl : g.entry.link = l) (time : Nat) :
    Becomes i l g (k.polling i (time + s.settings.pollInterval * 10000)) n s (t.addPoll i time) := by
  unfold State.addPoll
  rw [h.entry_eq, hl, State.pollMs_us, h.settings_eq]
  exact h.modifyLink (LinkState.polling i (time + s.settings.pollInterval * 10000))

/-- A sign becomes SETTLING: AGAIN goes into the pending class, the job context goes, and the sign is polled (R136). -/
theorem Becomes.becomeSettling (h : Becomes i l g k n s t) (hl : g.entry.link = l) (time : Nat) :
    Becomes i l { g with pendingClass := raise g.pendingClass g.again, again := none, job := .settling }
      ((LinkState.forJob i .settling { k with job := none }).polling i (time + s.settings.pollInterval * 10000))
      (faultsAfter g.job .settling n) (s.tileDropped l) (t.becomeSettling i time) := by
  have hraised := h.modify (fun g => { g with pendingClass := raise g.pendingClass g.again, again := none }) fun _ _ => rfl
  unfold State.becomeSettling
  dsimp only
  rw [hraised.entry_eq]
  simp only [hl]
  exact (hraised.clearJob.setJob hl .settling).addPoll hl time

theorem Becomes.report (h : Becomes i l g k n s t) (r : Report) : Becomes i l g k n (s.report r) (t.report r) where
  eq := by
    have hrw := State.report_rw_congr h.rw_eq h.clk_eq r
    obtain ⟨signs, lines, rfl⟩ := h.eq
    refine ⟨signs, lines, ?_⟩
    rw [State.report_rw, hrw, State.report_rw r s]
  sign := by
    rw [State.sign_report]
    exact h.sign
  other j hj := by
    rw [State.sign_report, State.sign_report]
    exact h.other j hj

/-- A SHOW that is not repeated: the picture is lost, and the sign becomes SETTLING (R162). -/
theorem Becomes.abandonShow (h : Becomes i l g k n s t) (hl : g.entry.link = l) (time : Nat) :
    Becomes i l
      { g with
        slots := g.slots.map Slot.lose, forceFull := true, plan := none
        pendingClass := raise g.pendingClass g.again, again := none, job := .settling }
      ((LinkState.forJob i .settling { k with job := none }).polling i (time + s.settings.pollInterval * 10000))
      (faultsAfter g.job .settling n) (s.tileDropped l) (t.abandonShow i time) :=
  ((h.loss none).modify (fun g => { g with plan := none }) fun _ _ => rfl).becomeSettling hl time

/-- A job ends as a HOLD: COLD under the pending class raised to AGAIN, with COLD_HOLD (R138). -/
theorem Becomes.holdJob (h : Becomes i l g k n s t) (hl : g.entry.link = l) :
    Becomes i l { g with pendingClass := raise g.pendingClass g.again, again := none, plan := none, job := .cold }
      { LinkState.forJob i .cold k with job := none } (faultsAfter g.job .cold n)
      ((s.report { kind := .coldHold, sign := some i, page := g.activePage
                   detail := bits16 (g.average.getD 0) }).tileDropped l)
      (t.holdJob i) := by
  have hcold := (h.modify (fun g =>
    { g with pendingClass := raise g.pendingClass g.again, again := none, plan := none }) fun _ _ => rfl).setJob hl .cold
  unfold State.holdJob State.reportSign
  dsimp only
  generalize ((t.modifySign i fun g =>
    { g with pendingClass := raise g.pendingClass g.again, again := none, plan := none }).setJob i .cold) = v at hcold ⊢
  rw [State.sign_report, hcold.entry_eq, hl]
  obtain ⟨b, hb⟩ := hcold.sign
  rw [hb]
  exact (hcold.report _).clearJob

/-- A job stops: its sign is QUEUED, and its link holds no job context (R131). -/
theorem Becomes.stopsJob (h : Becomes i l g k n s t) (hl : g.entry.link = l) (extra : Option Class) :
    let c := (raise (raise (raise g.pendingClass g.abort) g.again) extra).getD .content
    Becomes i l (g.stopped c) { k.joinedBy i c with job := none } (faultsAfter g.job .queued n) (s.tileDropped l)
      (t.stopJob i extra) := by
  intro c
  obtain ⟨v, hv, hstop⟩ := h.stopJob hl extra
  rw [hstop]
  exact hv.clearJob

end

end Sys2Proof.Machine
end

section
/-! PROOFS. The exchange arbiter's choice on an idle link: the job's next step, the check before a SHOW, and the survey. -/

namespace Sys2Proof.Machine

/-! ## The step of the link's job (R156, R158) -/

section
variable {s : State} {l : LinkNo} {t : Nat} {c : JobCtx} (hdue : s.duePoll l = none) (hjob : (s.link l).job = some c)
include hdue hjob

theorem State.choose_waiting (hwait : c.wait ≠ .ready) : s.choose l t = s.chooseNew l := by
  simp only [State.choose, hdue, hjob, hwait, ne_eq, not_false_eq_true, if_true]

theorem State.choose_probe (hwait : c.wait = .ready) (hstep : c.step = .probe) :
    s.choose l t = s.beginFrame l c.sign .jobProbe (c.attempts + 1) c.window
      (probeFrame (s.sign c.sign).entry.drop) := by
  simp only [State.choose, hdue, hjob, hwait, hstep, ne_eq, not_true_eq_false, if_false]

theorem State.choose_load {j : Nat} {p : Plan} {f : List Byte} (hwait : c.wait = .ready) (hstep : c.step = .load j)
    (hplan : (s.sign c.sign).plan = some p) (hframe : c.loadFrame (s.sign c.sign).entry.drop j p = some f) :
    s.choose l t = s.beginFrame l c.sign .jobLoad (c.attempts + 1) c.window f := by
  simp only [State.choose, hdue, hjob, hwait, hstep, hplan, hframe, ne_eq, not_true_eq_false, if_false]

theorem State.choose_awaiting {j : Nat} {p : Plan} (hwait : c.wait = .ready) (hstep : c.step = .load j)
    (hplan : (s.sign c.sign).plan = some p) (hframe : c.loadFrame (s.sign c.sign).entry.drop j p = none) :
    s.choose l t = s.chooseNew l := by
  simp only [State.choose, hdue, hjob, hwait, hstep, hplan, hframe, ne_eq, not_true_eq_false, if_false]

theorem State.choose_show {p : Plan} (hwait : c.wait = .ready) (hstep : c.step = .showStep)
    (hplan : (s.sign c.sign).plan = some p) :
    (s.showCheck c.sign = .send → s.choose l t = s.sendShow l c p) ∧
    (s.showCheck c.sign ≠ .send → c.showSent = true → s.choose l t = (s.abandonShow c.sign t).chooseNew l) ∧
    (s.showCheck c.sign ≠ .send → c.showSent = false →
      s.choose l t = (s.endAtShow c.sign (s.showCheck c.sign == .hold)).chooseNew l) := by
  simp only [State.choose, hdue, hjob, hwait, hstep, hplan, ne_eq, not_true_eq_false, if_false]
  cases hcheck : s.showCheck c.sign with
  | send => exact ⟨fun _ => rfl, fun h => absurd rfl h, fun h => absurd rfl h⟩
  | hold => exact ⟨nofun, fun _ hsent => if_pos hsent, fun _ hsent => if_neg (Bool.eq_false_iff.mp hsent)⟩
  | stop => exact ⟨nofun, fun _ hsent => if_pos hsent, fun _ hsent => if_neg (Bool.eq_false_iff.mp hsent)⟩

end

section
variable {c : JobCtx} {j : Nat} {p : Plan} {q : PlannedSlot} (hq : p.planned[j]? = some q) (drop : Nat)
include hq

theorem JobCtx.loadFrame_blank (htile : q.tile = none) : c.loadFrame drop j p = some (Machine.loadFrame drop q.index none) := by
  simp only [JobCtx.loadFrame, hq, htile]

theorem JobCtx.loadFrame_held {b : List Byte} (htile : q.tile ≠ none) (hheld : c.held.find? (·.1 = j) = some (j, b)) :
    c.loadFrame drop j p = some (Machine.loadFrame drop q.index (some b)) := by
  obtain ⟨n, hn⟩ := Option.ne_none_iff_exists'.mp htile
  have hfind : c.held.find? (·.1 == j) = some (j, b) := hheld
  simp only [JobCtx.loadFrame, hq, hn, hfind, Option.map_some]

theorem JobCtx.loadFrame_awaited (htile : q.tile ≠ none) (hheld : ∀ h ∈ c.held, h.1 ≠ j) :
    c.loadFrame drop j p = none := by
  obtain ⟨n, hn⟩ := Option.ne_none_iff_exists'.mp htile
  have hfind : c.held.find? (·.1 == j) = none := List.find?_eq_none.mpr fun h hh => by simpa using hheld h hh
  simp only [JobCtx.loadFrame, hq, hn, hfind, Option.map_none]

end

/-! ## The check before a SHOW (R141, R161, R162) -/

theorem belowAverage_iff (a : Option Int) (x : Int) : belowAverage a x = true ↔ ∃ y, a = some y ∧ y < x := by
  cases a with
  | none => simp [belowAverage]
  | some y => simp [belowAverage]

/-- What the check says of a plan: HOLD below the freeze threshold, and the stop of a PART plan that has to be FULL. -/
theorem State.showCheck_cases {s : State} {i : SignNo} {p : Plan} (hplan : (s.sign i).plan = some p) :
    let g := s.sign i
    let below (x : Int) : Prop := ∃ y, g.average = some y ∧ y < x
    let full := p.mode = .part ∧
      (g.forceFull = true ∨ g.entry.ghostLimit ≤ g.partialCount ∨ below s.settings.coldThreshold)
    (below s.settings.freezeThreshold → s.showCheck i = .hold) ∧
    (¬below s.settings.freezeThreshold → full → s.showCheck i = .stop) ∧
    (¬below s.settings.freezeThreshold → ¬full → s.showCheck i = .send) := by
  intro g below full
  have hcheck : s.showCheck i = if below s.settings.freezeThreshold then .hold else if full then .stop else .send := by
    simp only [State.showCheck, hplan, Option.map_some, Option.some.injEq, belowAverage_iff, full, below, g]
  rw [hcheck]
  exact ⟨fun h => if_pos h, fun h hf => (if_neg h).trans (if_pos hf), fun h hf => (if_neg h).trans (if_neg hf)⟩

theorem mem_insertQueue_self (e : QueueEntry) (q : List QueueEntry) : e ∈ insertQueue e q := by
  rw [insertQueue_eq]
  simp

/-! ## Polls that wait -/

theorem LinkState.forJob_waits {k : LinkState} (h : ∀ q ∈ k.polls, q.passed = false) (i : SignNo) (j : Job) :
    ∀ q ∈ (k.forJob i j).polls, q.passed = false := by
  unfold LinkState.forJob
  dsimp only
  split
  · exact h
  · exact fun q hq => h q (List.mem_filter.mp hq).1

theorem LinkState.polling_waits {k : LinkState} (h : ∀ q ∈ k.polls, q.passed = false) (i : SignNo) (due : Nat) :
    ∀ q ∈ (k.polling i due).polls, q.passed = false := fun q hq =>
  (List.mem_append.mp hq).elim (fun hq => h q (List.mem_filter.mp hq).1) fun hq => by rw [List.mem_singleton.mp hq]

/-! ## The survey (R167) -/

section
variable {s : State} {l : LinkNo}

theorem State.chooseNew_survey (h : ((s.link l).job = none ∧ (s.link l).queue = []) ∨ ∃ c, (s.link l).job = some c) :
    s.chooseNew l = s.chooseSurvey l := by
  rcases h with ⟨hjob, hqueue⟩ | ⟨c, hjob⟩
  · simp only [State.chooseNew, hjob, hqueue]
  · simp only [State.chooseNew, hjob]

/-- A link without job and queue, and one whose job waits, turns to the survey. -/
theorem State.choose_survey {t : Nat} (hdue : s.duePoll l = none)
    (h : ((s.link l).job = none ∧ (s.link l).queue = []) ∨ ∃ c, (s.link l).job = some c ∧ (c.wait ≠ .ready ∨
      ∃ j p q, c.step = .load j ∧ (s.sign c.sign).plan = some p ∧ p.planned[j]? = some q ∧ q.tile ≠ none ∧
        ∀ h ∈ c.held, h.1 ≠ j)) :
    s.choose l t = s.chooseSurvey l := by
  rw [← State.chooseNew_survey (h.imp_right fun ⟨c, hc, _⟩ => ⟨c, hc⟩)]
  rcases h with ⟨hjob, -⟩ | ⟨c, hjob, hwait⟩
  · exact State.choose_noJob hdue hjob
  · by_cases hready : c.wait = .ready
    · obtain ⟨j, p, q, hstep, hplan, hq, htile, hheld⟩ := hwait.resolve_left (not_not_intro hready)
      exact State.choose_awaiting hdue hjob hready hstep hplan (JobCtx.loadFrame_awaited hq _ htile hheld)
    · exact State.choose_waiting hdue hjob hready

theorem State.chooseSurvey_held {v : Survey} (hv : (s.link l).survey = some v) :
    s.chooseSurvey l = if v.wait = .ready then s.sendSurvey l v else s := by
  simp only [State.chooseSurvey, hv]

theorem State.chooseSurvey_notDue (hv : (s.link l).survey = none) (hdue : (s.link l).surveyDue = false) :
    s.chooseSurvey l = s := by
  simp only [State.chooseSurvey, hv, hdue, Bool.false_eq_true, if_false]

theorem State.chooseSurvey_nobody (hv : (s.link l).survey = none) (hdue : (s.link l).surveyDue = true)
    (hpick : s.surveyPick l = none) :
    s.chooseSurvey l = s.modifyLink l fun k => { k with surveyDue := false } := by
  simp only [State.chooseSurvey, hv, hdue, hpick, if_true]

theorem State.chooseSurvey_new {i : SignNo} (hv : (s.link l).survey = none) (hdue : (s.link l).surveyDue = true)
    (hpick : s.surveyPick l = some i) :
    let v : Survey :=
      { sign := i, attempts := 0, single := (s.sign i).job == .offline, wait := .ready, window := none }
    s.chooseSurvey l = State.sendSurvey l v (State.modifyLink l
      (fun k => { k with surveyPointer := (s.sign i).entry.drop, survey := some v })
      (s.modifyLink l fun k => { k with surveyDue := false })) := by
  simp only [State.chooseSurvey, hv, hdue, hpick, if_true]

/-- The signs the survey of link `l` visits. -/
def SignState.surveyedOn (l : LinkNo) (g : SignState) : Bool := g.entry.enabled && g.entry.link == l && g.job.surveyed

theorem SignState.surveyedOn_iff (l : LinkNo) (g : SignState) :
    g.surveyedOn l = true ↔ g.entry.enabled = true ∧ g.entry.link = l ∧
      (g.job = .shown ∨ g.job = .cold ∨ g.job = .offline ∨ g.job = .panelFault) := by
  simp only [SignState.surveyedOn, Job.surveyed, Bool.and_eq_true, Bool.or_eq_true, beq_iff_eq, and_assoc, or_assoc]

theorem State.surveyPick_none (h : ∀ i, ¬(s.sign i).surveyedOn l = true) : s.surveyPick l = none := by
  have hnil : s.signsWhere (SignState.surveyedOn l) = [] :=
    List.eq_nil_iff_forall_not_mem.mpr fun i hi => h i ((s.mem_signsWhere _ i).mp hi)
  unfold State.surveyPick
  dsimp only
  rw [show (fun g : SignState => g.entry.enabled && g.entry.link == l && g.job.surveyed) = SignState.surveyedOn l from rfl,
    hnil]
  rfl

/-- The sign whose drop comes first after the survey pointer is picked. -/
theorem State.surveyPick_some {i : SignNo} (hi : (s.sign i).surveyedOn l = true)
    (hfirst : ∀ j, (s.sign j).surveyedOn l = true → j = i ∨
      surveyDistance (s.link l).surveyPointer (s.sign i).entry.drop <
        surveyDistance (s.link l).surveyPointer (s.sign j).entry.drop) : s.surveyPick l = some i :=
  foldl_best (fun i j => surveyDistance (s.link l).surveyPointer (s.sign i).entry.drop <
      surveyDistance (s.link l).surveyPointer (s.sign j).entry.drop) (fun _ => rfl) (fun _ _ => rfl)
    ((s.mem_signsWhere (SignState.surveyedOn l) i).mpr hi) fun j hj =>
      (hfirst j ((s.mem_signsWhere (SignState.surveyedOn l) j).mp hj)).imp_right fun h => ⟨h, Nat.lt_asymm h⟩

end

/-! ## The choice made again (R161, R162) -/

theorem Becomes.resetHeld_eq {i : SignNo} {l : LinkNo} {g : SignState} {k : LinkState} {n : Nat} {s t : State}
    (h : Becomes i l g k n s t) : t.resetHeld = s.resetHeld := by
  obtain ⟨signs, lines, rfl⟩ := h.eq
  rfl

/-- A link that has just lost its job chooses again, as an IDLE link without a job does. -/
theorem Becomes.choosesAgain {i : SignNo} {l : LinkNo} {g : SignState} {k : LinkState} {n t : Nat} {s v u : State}
    (h : Becomes i l g k n v u) (hr : s.resetHeld = false) (hexch : (s.link l).exch = none)
    (hphase : (s.link l).phase = .gap ∨ (s.link l).phase = .idle)
    (hsame : v.resetHeld = s.resetHeld ∧ v.signs = s.signs ∧ v.links = s.links.set l { s.link l with phase := .idle })
    (hquiet : k.job = none ∧ k.phase = .idle ∧ k.exch = none ∧ ∀ p ∈ k.polls, p.passed = false)
    (hchoice : (s.setLink l { s.link l with phase := .idle }).choose l t = u.chooseNew l) :
    exec (.linkIdle l t) s = exec (.linkIdle l t) u ∧ u.resetHeld = false ∧ (u.link l).job = none ∧
      (u.link l).phase = .idle ∧ (u.link l).exch = none ∧ (∀ j, j ≠ i → u.sign j = s.sign j) ∧
      ∀ m, m ≠ l → u.link m = s.link m := by
  obtain ⟨hheld, hsigns, hlinks⟩ := hsame
  obtain ⟨hjob', hphase', hexch', hpolls'⟩ := hquiet
  have hru : u.resetHeld = false := (h.resetHeld_eq.trans hheld).trans hr
  have hlink := h.link_self
  have hidle : u.setLink l { u.link l with phase := .idle } = u := by
    rw [show { u.link l with phase := .idle } = u.link l by rw [hlink, ← hphase']]
    exact State.setLink_self l u
  have hdue : u.duePoll l = none := State.duePoll_none (by rw [hlink]; exact hpolls')
  have hexec : exec (.linkIdle l t) u = .next (u.chooseNew l).settle := by
    rw [exec_linkIdle hru (by rw [hlink, hexch']) (.inr (by rw [hlink, hphase'])), hidle,
      State.choose_noJob hdue (by rw [hlink, hjob'])]
  rw [hexec, exec_linkIdle hr hexch hphase, hchoice, hlink]
  refine ⟨rfl, hru, hjob', hphase', hexch', fun j hj => (h.other j hj).trans (by rw [State.sign, hsigns]; rfl),
    fun m hm => (h.link_ne hm).trans ?_⟩
  rw [State.link_congr (s := s.setLink l _) hlinks, State.link_setLink, if_neg hm.symm]

/-- Settles O52: the job's step by `State.choose`'s cases, its end by `Becomes.choosesAgain`, the survey by
`State.chooseSurvey`'s. -/
theorem linkCarriesOnJobsAndSurvey : Obligations.LinkCarriesOnJobsAndSurvey := by
  intro s l t hr k hexch hphase hpolls drop send
  have hexec := exec_linkIdle (t := t) hr hexch hphase
  let y : LinkState := { k with phase := .idle }
  have hlink : (s.setLink l y).link l = y := State.link_setLink_self l y s
  have hdue : (s.setLink l y).duePoll l = none := State.duePoll_none (by rw [hlink]; exact hpolls)
  refine ⟨fun c hc hwait => ?job, fun hnone => ?survey⟩
  case job =>
    intro g below
    have hjob : ((s.setLink l y).link l).job = some c := by rw [hlink]; exact hc
    refine ⟨fun hstep => ?probe, fun j p q hstep hplan hq => ⟨fun htile => ?blank, fun b htile hheld => ?held⟩,
      fun p hstep hplan => ?shows⟩
    case probe =>
      rw [State.choose_probe hdue hjob hwait hstep, State.beginFrame_setLink] at hexec
      exact hexec
    case blank =>
      rw [State.choose_load hdue hjob hwait hstep hplan (JobCtx.loadFrame_blank hq _ htile),
        State.beginFrame_setLink] at hexec
      exact hexec
    case held =>
      rw [State.choose_load hdue hjob hwait hstep hplan (JobCtx.loadFrame_held hq _ htile hheld),
        State.beginFrame_setLink] at hexec
      exact hexec
    case shows =>
      intro hold full
      have hplan' : ((s.setLink l y).sign c.sign).plan = some p := hplan
      obtain ⟨hcheckHold, hcheckStop, hcheckSend⟩ := State.showCheck_cases hplan'
      obtain ⟨hsends, hretry, hfirst⟩ := State.choose_show (t := t) hdue hjob hwait hstep hplan'
      refine ⟨fun hwarm hpart => ?sends, fun hfails hl htransfer => ?ends⟩
      case sends =>
        rw [hsends (hcheckSend hwarm hpart), State.sendShow, State.setLink_modifyLink,
          State.beginFrame_setLink] at hexec
        exact hexec
      case ends =>
        have h0 := Becomes.refl c.sign l (s.setLink l y)
        rw [hlink] at h0
        have hnot : (s.setLink l y).showCheck c.sign ≠ .send := by
          by_cases hcold : hold
          · rw [hcheckHold hcold]
            nofun
          · rw [hcheckStop hcold (hfails.resolve_left hcold)]
            nofun
        have hwaits := fun j => LinkState.forJob_waits (k := y) hpolls c.sign j
        cases hsent : c.showSent with
        | true =>
          have hends := h0.abandonShow hl t
          obtain ⟨hsame, hru, hjobu, hphaseu, hexchu, hothers, hlinks⟩ := hends.choosesAgain (t := t) hr hexch hphase
            ⟨rfl, rfl, rfl⟩ ⟨rfl, rfl, hexch, LinkState.polling_waits (hwaits .settling) _ _⟩ (hretry hnot hsent)
          obtain ⟨b, hb⟩ := hends.sign
          exact ⟨_, hsame, hru, hjobu, hphaseu, hexchu, hothers, hlinks, congrArg (·.plan) hb, congrArg (·.forceFull) hb,
            congrArg (·.again) hb, nofun, nofun, fun _ => ⟨hends.job_eq, congrArg (·.pendingClass) hb,
              congrArg (·.slots) hb, congrArg (·.polls) hends.link_self, hends.rw_eq⟩⟩
        | false =>
          have hchoice := hfirst hnot hsent
          by_cases hcold : hold
          · rw [hcheckHold hcold] at hchoice
            have hends := (h0.modify (fun g => { g with forceFull := true }) fun _ _ => rfl).holdJob hl
            obtain ⟨hsame, hru, hjobu, hphaseu, hexchu, hothers, hlinks⟩ := hends.choosesAgain (t := t) hr hexch hphase
              (by rw [State.report_rw]; exact ⟨rfl, rfl, rfl⟩) ⟨rfl, rfl, hexch, hwaits .cold⟩ hchoice
            obtain ⟨b, hb⟩ := hends.sign
            exact ⟨_, hsame, hru, hjobu, hphaseu, hexchu, hothers, hlinks, congrArg (·.plan) hb, congrArg (·.forceFull) hb,
              congrArg (·.again) hb, fun _ _ => ⟨hends.job_eq, congrArg (·.slots) hb, congrArg (·.pendingClass) hb,
                hends.rw_eq.trans (State.report_rw_congr (s := s) (t := s.setLink l y) rfl rfl _)⟩,
              fun _ hwarm => absurd hcold hwarm, nofun⟩
          · rw [hcheckStop hcold (hfails.resolve_left hcold)] at hchoice
            have hends := h0.stopsJob hl none
            obtain ⟨hsame, hru, hjobu, hphaseu, hexchu, hothers, hlinks⟩ := hends.choosesAgain (t := t) hr hexch hphase
              ⟨rfl, rfl, rfl⟩ ⟨rfl, rfl, hexch, hwaits .queued⟩ hchoice
            obtain ⟨b, hb⟩ := hends.sign
            rw [raise_none] at hb
            refine ⟨_, hsame, hru, hjobu, hphaseu, hexchu, hothers, hlinks, congrArg (·.plan) hb,
              congrArg (·.forceFull) hb, congrArg (·.again) hb, fun _ h => absurd h hcold,
              fun _ _ => ⟨hends.job_eq, congrArg (·.slots) hb, congrArg (·.abort) hb, congrArg (·.pendingClass) hb, ?_,
                hends.rw_eq⟩, nofun⟩
            rw [hends.link_self]
            exact ⟨_, mem_insertQueue_self _ _, rfl⟩
  case survey =>
    intro surveyed far
    rw [State.choose_survey hdue (by rw [hlink]; exact hnone)] at hexec
    have hsurveyed : ∀ i, ((s.setLink l y).sign i).surveyedOn l = true ↔ surveyed i := fun i =>
      SignState.surveyedOn_iff l (s.sign i)
    refine ⟨fun v hv hready => ?held, fun v hv hwaits => ?backsOff, fun hv hnotDue => ?notDue,
      fun hv hsdue => ⟨fun hnobody => ?nobody, fun i hi hfirst => ?visits⟩⟩
    all_goals have hv' := (congrArg LinkState.survey hlink).trans hv
    case held =>
      rw [State.chooseSurvey_held hv', if_pos hready, State.sendSurvey, State.beginFrame_setLink] at hexec
      exact hexec
    case backsOff =>
      rw [State.chooseSurvey_held hv', if_neg hwaits] at hexec
      exact hexec
    case notDue =>
      rw [State.chooseSurvey_notDue hv' (by rw [hlink]; exact hnotDue)] at hexec
      exact hexec
    case nobody =>
      have hpick : (s.setLink l y).surveyPick l = none :=
        State.surveyPick_none fun i hi => hnobody i ((hsurveyed i).mp hi)
      rw [State.chooseSurvey_nobody hv' (by rw [hlink]; exact hsdue) hpick, State.setLink_modifyLink] at hexec
      exact hexec
    case visits =>
      have hpick : (s.setLink l y).surveyPick l = some i :=
        State.surveyPick_some ((hsurveyed i).mpr hi) fun j hj => by
          rw [hlink]
          exact hfirst j ((hsurveyed j).mp hj)
      rw [State.chooseSurvey_new hv' (by rw [hlink]; exact hsdue) hpick, State.setLink_modifyLink,
        State.setLink_modifyLink, State.sendSurvey, State.beginFrame_setLink] at hexec
      exact hexec

end Sys2Proof.Machine
end

section
/-! PROOFS. Refresh planning: the tests of a plan and its slots, completions, and failed refreshes. -/

namespace Sys2Proof.Machine

/-! ## What a plan decides (R138) -/

section
variable {s : State} {i : SignNo}

/-- The tests in order. -/
theorem State.planKind_cases (s : State) (i : SignNo) :
    let g := s.sign i
    let d := g.slots.countP s.sendable
    let below (x : Int) : Prop := ∃ a, g.average = some a ∧ a < x
    let hold := below s.settings.freezeThreshold
    let nothing := ¬hold ∧ (g.activePage = none ∨ (g.forceFull = false ∧ d = 0))
    let full := ¬hold ∧ g.activePage ≠ none ∧ (g.forceFull = true ∨ (0 < d ∧
      (g.entry.ghostLimit ≤ g.partialCount ∨ below s.settings.coldThreshold ∨
        g.slots.length * min s.settings.fraction 8 < 8 * d)))
    (hold → s.planKind i = .hold) ∧ (nothing → s.planKind i = .nothing) ∧ (full → s.planKind i = .full) ∧
      (¬hold → ¬nothing → ¬full → s.planKind i = .part) := by
  intro g d below hold nothing full
  have hkind : s.planKind i =
      if hold then .hold else if g.activePage = none then .nothing else if g.forceFull = true then .full
      else if d = 0 then .nothing
      else if g.entry.ghostLimit ≤ g.partialCount ∨ below s.settings.coldThreshold ∨
        g.slots.length * min s.settings.fraction 8 < 8 * d then .full
      else .part := by
    simp only [State.planKind, belowAverage_iff, Option.isNone_iff_eq_none, hold, below, g, d]
  rw [hkind]
  refine ⟨fun h => if_pos h, fun ⟨hwarm, h⟩ => ?nothing, fun ⟨hwarm, hpage, h⟩ => ?full, fun hwarm hsome hpart => ?part⟩
  case nothing =>
    rw [if_neg hwarm]
    by_cases hpage : g.activePage = none
    · exact if_pos hpage
    · obtain ⟨hforce, hd⟩ := h.resolve_left hpage
      rw [if_neg hpage, if_neg (Bool.eq_false_iff.mp hforce), if_pos hd]
  case full =>
    rw [if_neg hwarm, if_neg hpage]
    by_cases hforce : g.forceFull = true
    · exact if_pos hforce
    · obtain ⟨hd, hlimit⟩ := h.resolve_left hforce
      rw [if_neg hforce, if_neg (Nat.pos_iff_ne_zero.mp hd), if_pos hlimit]
  case part =>
    have hpage : g.activePage ≠ none := fun h => hsome ⟨hwarm, .inl h⟩
    have hforce : ¬g.forceFull = true := fun h => hpart ⟨hwarm, hpage, .inl h⟩
    have hd : d ≠ 0 := fun h => hsome ⟨hwarm, .inr ⟨Bool.eq_false_iff.mpr hforce, h⟩⟩
    rw [if_neg hwarm, if_neg hpage, if_neg hforce, if_neg hd,
      if_neg fun h => hpart ⟨hwarm, hpage, .inr ⟨Nat.pos_of_ne_zero hd, h⟩⟩]

/-- A change of a sign that keeps its slots leaves the slots a plan lists. -/
theorem State.plannedSlots_modifySign {f : SignState → SignState} (hf : (f (s.sign i)).slots = (s.sign i).slots)
    (m : RefreshMode) : (s.modifySign i f).plannedSlots i m = s.plannedSlots i m := by
  have hslots : ((s.modifySign i f).sign i).slots = (s.sign i).slots := by
    rw [State.sign_modifySign_self, SignState.markDue_slots, hf]
  unfold State.plannedSlots
  rw [hslots]
  rfl

end

/-! ## The planned slots (R140) -/

theorem indexed_planSlot (s : State) (slots : List Slot) :
    (indexed slots).map s.planSlot =
      (List.range slots.length).zipWith (fun k x => s.planSlot (k, x)) slots := by
  rw [indexed, List.zip, List.map_zipWith]

theorem getElem?_of_mem_indexed {slots : List Slot} {x : Nat × Slot} (h : x ∈ indexed slots) :
    slots[x.1]? = some x.2 := by
  obtain ⟨k, hk, rfl⟩ := List.getElem_of_mem h
  have hlt : k < slots.length := by simpa [indexed] using hk
  simp [indexed, hlt]

/-- The slots of a PART plan are those of a FULL one that can be sent. -/
theorem indexed_sendable (s : State) (slots : List Slot) :
    ((indexed slots).filter fun x => s.sendable x.2).map s.planSlot =
      ((indexed slots).map s.planSlot).filter fun q : PlannedSlot =>
        decide (∃ x, slots[q.index]? = some x ∧ s.sendable x = true) := by
  rw [List.filter_map]
  refine congrArg (List.map s.planSlot) (List.filter_congr fun x hx => ?_)
  have hslot : slots[(s.planSlot x).index]? = some x.2 := getElem?_of_mem_indexed hx
  simp [hslot, Function.comp]

/-! ## The record of a plan (R140, R158) -/

section
variable {i : SignNo} {l : LinkNo} {g : SignState} {k : LinkState} {n : Nat} {s t : State}

/-- A plan is made: the next tag, the planned slots, and the first LOAD as the job's step. -/
theorem Becomes.startPlan (h : Becomes i l g k n s t) (hl : g.entry.link = l) (m : RefreshMode) :
    Becomes i l
      { g with
        lastTag := nextTag g.lastTag
        plan := some { mode := m, page := g.activePage.getD 0, generation := g.generation, tag := nextTag g.lastTag
                       planned := t.plannedSlots i m } }
      { k with job := k.job.map fun c => { c with step := .load 0, attempts := 0, wait := .ready, window := none } }
      n s (t.startPlan i m) := by
  have hplan := h.modify (fun g =>
    { g with
      lastTag := nextTag g.lastTag
      plan := some { mode := m, page := g.activePage.getD 0, generation := g.generation, tag := nextTag g.lastTag
                     planned := t.plannedSlots i m } }) fun _ _ => rfl
  unfold State.startPlan
  dsimp only
  rw [hplan.entry_eq, hl]
  exact hplan.modifyLink fun k => { k with
    job := k.job.map fun c => { c with step := .load 0, attempts := 0, wait := .ready, window := none } }

/-- A job ends as NOTHING: SHOWN under no class (R138). -/
theorem Becomes.nothingJob (h : Becomes i l g k n s t) (hl : g.entry.link = l) :
    Becomes i l { g with pendingClass := none, job := .shown } { LinkState.forJob i .shown k with job := none }
      (faultsAfter g.job .shown n) (s.tileDropped l) (t.nothingJob i) := by
  have hshown := (h.modify (fun g => { g with pendingClass := none }) fun _ _ => rfl).setJob hl .shown
  unfold State.nothingJob
  dsimp only
  rw [hshown.entry_eq, hl]
  exact hshown.clearJob

end

/-! ## Completions (R142) -/

/-- What a completion leaves of a slot: the planned picture where the slot still names the planned tile. -/
theorem foldl_deliver {s : State} {planned : List PlannedSlot} (hnd : (planned.map (·.index)).Nodup)
    {slots : List Slot} {k : Nat} {x : Slot} (hx : slots[k]? = some x) :
    (∀ q ∈ planned, q.index = k → q.tile = x.tile → (planned.foldl s.deliver slots)[k]? =
      some { x with delivered := q.sig, dirty := decide (s.presentSig x.tile ≠ some q.sig) }) ∧
    ((∀ q ∈ planned, q.index = k → q.tile ≠ x.tile) → (planned.foldl s.deliver slots)[k]? = some x) := by
  induction planned generalizing slots x with
  | nil => exact ⟨nofun, fun _ => hx⟩
  | cons a rest ih =>
    obtain ⟨hfresh, hrest⟩ := List.nodup_cons.mp hnd
    rw [List.foldl_cons]
    by_cases ha : a.index = k
    · have hgone : ∀ q ∈ rest, q.index ≠ k := fun q hq hk =>
        hfresh (List.mem_map.mpr ⟨q, hq, hk.trans ha.symm⟩)
      have hslot : (s.deliver slots a)[k]? = some
          (if x.tile = a.tile then
            { x with delivered := a.sig, dirty := decide (s.presentSig a.tile ≠ some a.sig) } else x) := by
        simp [State.deliver, modifySlot, ha, hx]
      have hfinal := (ih hrest hslot).2 fun q hq hk => absurd hk (hgone q hq)
      refine ⟨fun q hq hk htile => ?_, fun hnone => ?_⟩
      · have hqa : q = a := (List.mem_cons.mp hq).resolve_right fun hq => hgone q hq hk
        rw [hqa] at htile ⊢
        rw [hfinal, if_pos htile.symm, htile]
      · rw [hfinal, if_neg (hnone a List.mem_cons_self ha).symm]
    · have hslot : (s.deliver slots a)[k]? = some x := by
        simp [State.deliver, modifySlot, ha, hx]
      obtain ⟨hdelivered, hkept⟩ := ih hrest hslot
      exact ⟨fun q hq hk => hdelivered q ((List.mem_cons.mp hq).resolve_left fun h => ha (h ▸ hk)) hk,
        fun hnone => hkept fun q hq => hnone q (List.mem_cons_of_mem a hq)⟩

theorem length_foldl_deliver (s : State) (planned : List PlannedSlot) (slots : List Slot) :
    (planned.foldl s.deliver slots).length = slots.length := by
  induction planned generalizing slots with
  | nil => rfl
  | cons q rest ih => exact (ih _).trans (List.length_modify _ _ _)

theorem State.sendable_congr {s t : State} (htm : t.tm = s.tm) : t.sendable = s.sendable := by
  unfold State.sendable State.presentSig State.tileSig State.watched
  rw [htm]

/-- The sign once it is queued again after a completion, or not (R142). -/
def SignState.requeued (again : Bool) (g : SignState) : SignState :=
  if again then { g with again := none, job := .queued, pendingClass := some (g.again.getD .content) }
  else { g with pendingClass := none }

theorem Becomes.requeue {i : SignNo} {l : LinkNo} {g : SignState} {k : LinkState} {n : Nat} {s t : State}
    (h : Becomes i l g k n s t) (hl : g.entry.link = l) :
    ∃ k' n', Becomes i l (g.requeued (g.again.isSome || g.slots.any s.sendable)) k' n' s (t.requeue i) := by
  have hsendable : t.sendable = s.sendable := State.sendable_congr (by
    obtain ⟨signs, lines, rfl⟩ := h.eq
    rfl)
  obtain ⟨b, hb⟩ := h.sign
  unfold State.requeue SignState.requeued
  dsimp only
  rw [hsendable, hb]
  split
  · exact ⟨_, _, (h.modify (fun g => { g with again := none }) fun _ _ => rfl).joinQueue hl _⟩
  · exact ⟨_, _, h.modify (fun g => { g with pendingClass := none }) fun _ _ => rfl⟩

/-- The sign once the refresh of plan `p` is complete, before it is queued again (R142). -/
def SignState.completed (s : State) (p : Plan) (g : SignState) : SignState :=
  { g with
    slots := if g.generation = p.generation then p.planned.foldl s.deliver g.slots else g.slots
    partialCount := if p.mode = .full then 0 else g.partialCount + 1
    forceFull := if g.generation = p.generation then false else g.forceFull
    shownTag := p.tag, lastUpdate := some s.now, plan := none, job := .shown }

/-- The report of a completion. -/
def Plan.doneReport (i : SignNo) (p : Plan) : Report :=
  { kind := .updateDone, sign := some i, page := some p.page
    detail := p.planned.length + (if p.mode = .part then 0x8000 else 0) }

theorem State.complete_becomes (i : SignNo) (p : Plan) (s : State) :
    let g := (s.sign i).completed s p
    ∃ k n, Becomes i (s.sign i).entry.link (g.requeued (g.again.isSome || g.slots.any s.sendable)) k n
      (s.report (p.doneReport i)) (s.complete i p) := by
  intro g
  have hshown := ((Becomes.refl i (s.sign i).entry.link s).modify (fun g =>
    { g with
      slots := if g.generation = p.generation then p.planned.foldl s.deliver g.slots else g.slots
      partialCount := if p.mode = .full then 0 else g.partialCount + 1
      forceFull := if g.generation = p.generation then false else g.forceFull
      shownTag := p.tag
      lastUpdate := some s.now
      plan := none }) fun _ _ => rfl).setJob rfl .shown
  have hdone := (hshown.report (p.doneReport i)).requeue rfl
  rw [State.sendable_congr (State.report_tm _ s)] at hdone
  exact hdone

/-! ## Failed refreshes and the re-check (R139, R143) -/

theorem State.failedRefresh_becomes (i : SignNo) (tag : Nat) (s : State) :
    ∃ k n, Becomes i (s.sign i).entry.link
      { s.sign i with
        slots := (s.sign i).slots.map Slot.lose, forceFull := true, shownTag := tag, plan := none, again := none
        job := .queued, pendingClass := some ((raise (some .recover) (s.sign i).again).getD .recover) } k n s
      (s.failedRefresh i tag) :=
  ⟨_, _, (((Becomes.refl i (s.sign i).entry.link s).loss (some tag)).modify
    (fun g => { g with plan := none, again := none }) fun _ _ => rfl).joinQueue rfl _⟩

theorem State.coldRecheck_joins {i : SignNo} {s : State} (hjob : (s.sign i).job = .cold)
    (hwarm : ¬∃ a, (s.sign i).average = some a ∧ a < s.settings.freezeThreshold) :
    s.coldRecheck i = s.joinQueue i ((s.sign i).pendingClass.getD .content) :=
  if_pos ⟨hjob, by rw [Bool.eq_false_iff.mpr (mt (belowAverage_iff _ _).mp hwarm)]; rfl⟩

theorem State.coldRecheck_stays {i : SignNo} {s : State}
    (h : (s.sign i).job ≠ .cold ∨ ∃ a, (s.sign i).average = some a ∧ a < s.settings.freezeThreshold) :
    s.coldRecheck i = s := if_neg fun ⟨hjob, hwarm⟩ => h.elim (fun hne => hne hjob) fun hcold => by
  rw [(belowAverage_iff _ _).mpr hcold] at hwarm
  exact Bool.false_ne_true hwarm

theorem SignState.requeued_kept (again : Bool) (g : SignState) :
    g.requeued again = { g with
      again := (g.requeued again).again, job := (g.requeued again).job
      pendingClass := (g.requeued again).pendingClass } := by
  cases again <;> rfl

theorem SignState.requeued_again {again : Bool} {g : SignState} (h : g.again.isSome = true → again = true) :
    (g.requeued again).again = none := by
  cases again with
  | true => rfl
  | false => exact Option.not_isSome_iff_eq_none.mp (mt h Bool.false_ne_true)

theorem SignState.requeued_job (again : Bool) (g : SignState) :
    (g.requeued again).job = if again then .queued else g.job := by
  cases again <;> rfl

theorem SignState.requeued_pendingClass (again : Bool) (g : SignState) :
    (g.requeued again).pendingClass = if again then some (g.again.getD .content) else none := by
  cases again <;> rfl

/-! ## The plan made on a READY answer (R138) -/

/-- The sign's pending class raised to AGAIN. -/
def State.classesMerged (i : SignNo) (s : State) : State :=
  s.modifySign i fun g => { g with pendingClass := raise g.pendingClass g.again, again := none }

theorem State.classesMerged_becomes (i : SignNo) (s : State) :
    Becomes i (s.sign i).entry.link
      { s.sign i with pendingClass := raise (s.sign i).pendingClass (s.sign i).again, again := none }
      (s.link (s.sign i).entry.link) s.pc.faultCount s (s.classesMerged i) :=
  (Becomes.refl i (s.sign i).entry.link s).modify
    (fun g => { g with pendingClass := raise g.pendingClass g.again, again := none }) fun _ _ => rfl

/-- What a plan decides, by the tests on the sign before its classes are merged. -/
theorem State.makePlan_cases (s : State) (i : SignNo) :
    let g := s.sign i
    let d := g.slots.countP s.sendable
    let below (x : Int) : Prop := ∃ a, g.average = some a ∧ a < x
    let hold := below s.settings.freezeThreshold
    let nothing := ¬hold ∧ (g.activePage = none ∨ (g.forceFull = false ∧ d = 0))
    let full := ¬hold ∧ g.activePage ≠ none ∧ (g.forceFull = true ∨ (0 < d ∧
      (g.entry.ghostLimit ≤ g.partialCount ∨ below s.settings.coldThreshold ∨
        g.slots.length * min s.settings.fraction 8 < 8 * d)))
    (hold → s.makePlan i = (s.classesMerged i).holdJob i) ∧
      (nothing → s.makePlan i = (s.classesMerged i).nothingJob i) ∧
      (full → s.makePlan i = (s.classesMerged i).startPlan i .full) ∧
      (¬hold → ¬nothing → ¬full → s.makePlan i = (s.classesMerged i).startPlan i .part) := by
  have hcases := State.planKind_cases (s.classesMerged i) i
  obtain ⟨b, hb⟩ := (s.classesMerged_becomes i).sign
  dsimp only at hcases
  rw [hb] at hcases
  have hmake : s.makePlan i = match (s.classesMerged i).planKind i with
    | .hold => (s.classesMerged i).holdJob i
    | .nothing => (s.classesMerged i).nothingJob i
    | .full => (s.classesMerged i).startPlan i .full
    | .part => (s.classesMerged i).startPlan i .part := rfl
  obtain ⟨hhold, hnothing, hfull, hpart⟩ := hcases
  rw [hmake]
  exact ⟨fun h => by rw [hhold h], fun h => by rw [hnothing h], fun h => by rw [hfull h],
    fun h1 h2 h3 => by rw [hpart h1 h2 h3]⟩

theorem State.presentSig_tile (s : State) (n : Nat) : s.presentSig (some n) =
    match s.watched n with
    | some e => if e.state = .clean then some e.sig else none
    | none => none := by
  show (s.watched n).bind (fun e => if e.state = .clean then some e.sig else none) = _
  cases s.watched n <;> rfl

/-- Settles O56: a plan by `State.makePlan_cases`, a completion by `State.complete_becomes`, a failed refresh by
`State.failedRefresh_becomes`. -/
theorem plansAndCompletions : Obligations.PlansAndCompletions := by
  intro s i g l sig sendable d below u hold nothing full tag planned list starts
  have hsig : s.presentSig = sig := by
    funext tile
    cases tile with
    | none => rfl
    | some n => exact s.presentSig_tile n
  have hsendable : s.sendable = sendable := by
    funext x
    rw [State.sendable, hsig]
  have hcases := State.makePlan_cases s i
  rw [hsendable] at hcases
  obtain ⟨hhold, hnothing, hfull, hpart⟩ := hcases
  have h1 := s.classesMerged_becomes i
  have hplanned : (indexed g.slots).map s.planSlot = planned := by
    rw [indexed_planSlot]
    simp only [State.planSlot, hsig]
    rfl
  have hlist : ∀ m, (s.classesMerged i).plannedSlots i m = list m := fun m => by
    rw [State.classesMerged, State.plannedSlots_modifySign rfl]
    cases m with
    | full => exact hplanned
    | part =>
      refine (indexed_sendable s g.slots).trans ?_
      rw [hsendable, hplanned]
  have hstarts : ∀ m, u = (s.classesMerged i).startPlan i m → starts m := fun m hu => by
    have hplan := h1.startPlan rfl m
    rw [hlist, ← hu] at hplan
    obtain ⟨b, hb⟩ := hplan.sign
    exact ⟨congrArg (·.plan) hb, congrArg (·.lastTag) hb, congrArg (·.job) hb, congrArg (·.pendingClass) hb,
      congrArg (·.again) hb, hplan.rw_eq, congrArg (·.job) hplan.link_self⟩
  refine ⟨fun h => ?hold, fun h => ?nothing, fun h => hstarts .full (hfull h),
    fun h h' h'' => hstarts .part (hpart h h' h''), ?complete,
    fun hjob hwarm => State.coldRecheck_joins hjob hwarm, fun h => State.coldRecheck_stays h, ?failed⟩
  case hold =>
    have hends := h1.holdJob rfl
    rw [← hhold h] at hends
    obtain ⟨b, hb⟩ := hends.sign
    rw [raise_none] at hb
    exact ⟨hends.job_eq, congrArg (·.pendingClass) hb, congrArg (·.again) hb, congrArg (·.plan) hb,
      congrArg (·.job) hends.link_self, hends.rw_eq⟩
  case nothing =>
    have hends := h1.nothingJob rfl
    rw [← hnothing h] at hends
    obtain ⟨b, hb⟩ := hends.sign
    exact ⟨hends.job_eq, congrArg (·.pendingClass) hb, congrArg (·.again) hb, congrArg (·.job) hends.link_self,
      hends.rw_eq⟩
  case complete =>
    intro p hnd c same again
    obtain ⟨k, n, hdone⟩ := s.complete_becomes i p
    obtain ⟨b, hb⟩ := hdone.sign
    have hslots : (c.sign i).slots = (g.completed s p).slots := by
      rw [SignState.requeued_kept] at hb
      exact congrArg (·.slots) hb
    have hagain : (g.again.isSome || (g.completed s p).slots.any s.sendable) = again := by
      rw [← hslots, hsendable]
    have hkeeps : g.again.isSome = true → again = true := fun h => by rw [← hagain, h]; rfl
    change c.sign i = { (g.completed s p).requeued _ with recordDue := b } at hb
    rw [show (g.completed s p).again = g.again from rfl, hagain] at hb
    rw [SignState.requeued_kept] at hb
    refine ⟨congrArg (·.partialCount) hb, congrArg (·.forceFull) hb, congrArg (·.shownTag) hb, congrArg (·.lastUpdate) hb,
      congrArg (·.plan) hb, (congrArg (·.again) hb).trans (SignState.requeued_again (g := g.completed s p) hkeeps), ?_,
      (congrArg (·.job) hb).trans (SignState.requeued_job again _),
      (congrArg (·.pendingClass) hb).trans (SignState.requeued_pendingClass again _),
      fun hother => hslots.trans (if_neg hother), fun hsame k x hx => ?_, hdone.rw_eq⟩
    · rw [hslots]
      exact (apply_ite List.length _ _ _).trans (by rw [length_foldl_deliver, ite_self])
    · rw [hslots.trans (if_pos hsame), ← hsig]
      exact foldl_deliver (s := s) hnd hx
  case failed =>
    intro tag f
    obtain ⟨k, n, hfailed⟩ := s.failedRefresh_becomes i tag
    obtain ⟨b, hb⟩ := hfailed.sign
    refine ⟨congrArg (·.job) hb, congrArg (·.plan) hb, congrArg (·.again) hb, congrArg (·.shownTag) hb,
      congrArg (·.forceFull) hb, congrArg (·.slots) hb, (congrArg (·.pendingClass) hb).trans ?_,
      congrArg (·.partialCount) hb, hfailed.rw_eq⟩
    show some ((raise (some .recover) g.again).getD .recover) = _
    rcases g.again with _ | _ | _ | _ | _ <;> rfl

end Sys2Proof.Machine
end

section
/-! PROOFS. Answers that pass their tests, by the job state, the exchange and the panel state. -/

namespace Sys2Proof.Machine

/-! ## PANEL_FAULT (R136, R137, R168) -/

/-- A sign whose panel has answered ERROR. -/
def SignState.faulted (lose : Bool) (g : SignState) : SignState :=
  { g with
    job := .panelFault, plan := none, pendingClass := none, again := none, abort := none
    slots := if lose then g.slots.map Slot.lose else g.slots, forceFull := lose || g.forceFull }

section
variable {i : SignNo} {l : LinkNo} {g : SignState} {k : LinkState} {n : Nat} {s t : State}

theorem Becomes.goFault (h : Becomes i l g k n s t) (hl : g.entry.link = l) (lose : Bool) (p : Purpose) :
    Becomes i l (g.faulted lose) (LinkState.forJob i .panelFault k) (faultsAfter g.job .panelFault n)
      (s.report { kind := .panelError, sign := some i, page := g.activePage, detail := p.code * 256 })
      (t.goFault i lose p) := by
  have hfault : Becomes i l (g.faulted lose) (LinkState.forJob i .panelFault k) (faultsAfter g.job .panelFault n) s
      (((if lose then t.loss i none else t).dropWork i).setJob i .panelFault) := by
    cases lose with
    | true => exact (h.loss none).dropWork.setJob hl .panelFault
    | false => exact h.dropWork.setJob hl .panelFault
  unfold State.goFault State.reportSign
  dsimp only
  obtain ⟨b, hb⟩ := hfault.sign
  rw [hb]
  exact hfault.report _

/-- A sign recovers: QUEUED under RECOVER, with SIGN_ONLINE (R137). -/
theorem Becomes.recover_eq (h : Becomes i l g k n s t) (hl : g.entry.link = l) (tag : Nat) :
    t.recover i tag = State.report { kind := .signOnline, sign := some i, page := g.activePage, detail := tag }
      ((t.loss i none).joinQueue i .recover) := by
  obtain ⟨b, hb⟩ := ((h.loss none).joinQueue hl .recover).sign
  unfold State.recover State.reportSign
  rw [hb]

/-- The refresh timer starts. -/
theorem Becomes.startRefresh (h : Becomes i l g k n s t) (hl : g.entry.link = l) :
    Becomes i l g { k with refresh := k.refresh.filter (·.1 ≠ i) ++ [(i, s.settings.refreshLimit)] } n s
      (t.startRefresh i) := by
  unfold State.startRefresh
  rw [h.entry_eq, hl, h.settings_eq]
  exact h.modifyLink fun k => { k with refresh := k.refresh.filter (·.1 ≠ i) ++ [(i, s.settings.refreshLimit)] }

end

/-! ## What an answered attempt does, by its exchange (R131, R134) -/

section
variable {s : State} {l : LinkNo} {e : Exchange} {a : Answer} {t : Nat}

theorem State.attemptOut_jobAnswered (h : e.purpose.ofJob = true) :
    s.attemptOut l e (.answered a) t = s.jobAnswered l e a t := by
  unfold State.attemptOut
  cases hp : e.purpose with
  | poll => rw [hp] at h; cases h
  | survey => rw [hp] at h; cases h
  | jobProbe => rfl
  | jobLoad => rfl
  | jobShow => rfl

theorem State.attemptOut_pollAnswered (h : e.purpose = .poll) :
    s.attemptOut l e (.answered a) t = (s.sample e.sign a.temp).pollAnswer e.sign a t := by
  simp only [State.attemptOut, h]

theorem State.attemptOut_surveyAnswered (h : e.purpose = .survey) :
    s.attemptOut l e (.answered a) t =
      if (s.link l).survey.isSome then
        ((s.modifyLink l fun k => { k with survey := none }).sample e.sign a.temp).quietAnswer e.sign a .survey
      else (s.modifyLink l fun k => { k with survey := none }).sample e.sign a.temp := by
  simp only [State.attemptOut, h]

theorem State.sample_sign (i : SignNo) (x : Int) (s : State) :
    ∃ b, (s.sample i x).sign i = { (s.sign i).addSample x with recordDue := b } := by
  obtain ⟨b, hb⟩ := SignState.butDue_markDue (s.sign i) ((s.sign i).addSample x)
  exact ⟨b, (State.sign_modifySign_self i _ s).trans hb⟩

theorem State.jobAnswered_aborted (hjob : (s.sign e.sign).job = .transfer) (habort : (s.sign e.sign).abort ≠ none) :
    s.jobAnswered l e a t = (s.sample e.sign a.temp).abortAnswer e.sign a e.purpose := by
  obtain ⟨b, hb⟩ := State.sample_sign e.sign a.temp s
  have hjob' : ((s.sample e.sign a.temp).sign e.sign).job = .transfer := by rw [hb]; exact hjob
  have habort' : ((s.sample e.sign a.temp).sign e.sign).abort.isSome = true := by
    rw [hb]
    exact Option.isSome_iff_ne_none.mpr habort
  unfold State.jobAnswered
  exact (if_neg (not_not_intro hjob')).trans (if_pos habort')

theorem State.jobAnswered_goesOn (hjob : (s.sign e.sign).job = .transfer) (habort : (s.sign e.sign).abort = none) :
    (e.purpose = .jobProbe → s.jobAnswered l e a t = (s.sample e.sign a.temp).probeAnswer e.sign a t) ∧
    (e.purpose = .jobLoad → s.jobAnswered l e a t = (s.sample e.sign a.temp).loadAnswer l e.sign a t) ∧
    (e.purpose = .jobShow → s.jobAnswered l e a t = (s.sample e.sign a.temp).showAnswer l e.sign a t) := by
  obtain ⟨b, hb⟩ := State.sample_sign e.sign a.temp s
  have hjob' : ((s.sample e.sign a.temp).sign e.sign).job = .transfer := by rw [hb]; exact hjob
  have habort' : ¬((s.sample e.sign a.temp).sign e.sign).abort.isSome = true := by
    rw [hb]
    exact Option.not_isSome_iff_eq_none.mpr habort
  unfold State.jobAnswered
  refine ⟨fun hp => ?_, fun hp => ?_, fun hp => ?_⟩
  all_goals
    refine (if_neg (not_not_intro hjob')).trans ((if_neg habort').trans ?_)
    rw [hp]

end

/-! ## Each exchange by the panel state (R136, R137, R157, R158, R160, R161, R165) -/

section
variable {s : State} {l : LinkNo} {i : SignNo} {a : Answer} {t : Nat}

theorem State.probeAnswer_cases :
    (a.state = .ready → s.probeAnswer i a t =
      (if a.tag = (s.sign i).shownTag then s else s.loss i (some a.tag)).makePlan i) ∧
    (a.state = .busy → s.probeAnswer i a t = s.becomeSettling i t) ∧
    (a.state = .error → s.probeAnswer i a t = (s.goFault i true .jobProbe).clearJob (s.sign i).entry.link) := by
  refine ⟨fun ha => ?_, fun ha => ?_, fun ha => ?_⟩ <;> rw [State.probeAnswer, ha]

theorem State.abortAnswer_cases {p : Purpose} :
    (a.state = .ready → s.abortAnswer i a p =
      (if a.tag = (s.sign i).shownTag then s else s.loss i (some a.tag)).stopJob i none) ∧
    (a.state = .busy → s.abortAnswer i a p = s.stopJob i none) ∧
    (a.state = .error → s.abortAnswer i a p = (s.goFault i true p).clearJob (s.sign i).entry.link) := by
  refine ⟨fun ha => ?_, fun ha => ?_, fun ha => ?_⟩ <;> rw [State.abortAnswer, ha]

theorem State.loadAnswer_cases {c : JobCtx} {j : Nat} {p : Plan} (hc : (s.link l).job = some c)
    (hstep : c.step = .load j) (hplan : (s.sign i).plan = some p) :
    (a.state = .ready → s.loadAnswer l i a t =
      if a.tag = (s.sign i).shownTag then
        s.modifyLink l fun k => { k with
          job := some { c with
            step := if j + 1 < p.planned.length then .load (j + 1) else .showStep
            attempts := 0, wait := .ready, busyStart := none, window := none, held := c.held.filter (·.1 ≠ j) } }
      else (s.loss i (some a.tag)).stopJob i (some .recover)) ∧
    (a.state = .busy → s.loadAnswer l i a t = s.loadBusy l i c t) ∧
    (a.state = .error → s.loadAnswer l i a t = (s.goFault i true .jobLoad).clearJob l) := by
  refine ⟨fun ha => ?_, fun ha => ?_, fun ha => ?_⟩ <;> simp only [State.loadAnswer, hc, hstep, hplan, ha, nextStep]

theorem State.showAnswer_cases {p : Plan} (hplan : (s.sign i).plan = some p) :
    (a.state = .ready → s.showAnswer l i a t =
      (if a.tag = p.tag then s.complete i p else s.failedRefresh i a.tag).clearJob l) ∧
    (a.state = .busy → s.showAnswer l i a t = (((s.clearJob l).setJob i .refreshing).startRefresh i).addPoll i t) ∧
    (a.state = .error → s.showAnswer l i a t = (s.goFault i true .jobShow).clearJob l) := by
  refine ⟨fun ha => ?_, fun ha => ?_, fun ha => ?_⟩ <;> simp only [State.showAnswer, hplan, ha]

theorem State.pollAnswer_refreshing {p : Plan} (hjob : (s.sign i).job = .refreshing) (hplan : (s.sign i).plan = some p) :
    (a.state = .ready → s.pollAnswer i a t = if a.tag = p.tag then s.complete i p else s.failedRefresh i a.tag) ∧
    (a.state = .busy → s.pollAnswer i a t = s.addPoll i t) ∧
    (a.state = .error → s.pollAnswer i a t = s.goFault i true .poll) := by
  refine ⟨fun ha => ?_, fun ha => ?_, fun ha => ?_⟩ <;> simp only [State.pollAnswer, hjob, hplan, ha, State.pollAgain]

theorem State.pollAnswer_settling (hjob : (s.sign i).job = .settling) :
    (a.state = .ready → s.pollAnswer i a t = State.joinQueue i
      ((raise (raise (s.sign i).pendingClass (s.sign i).again)
        (if a.tag = (s.sign i).shownTag then none else some .recover)).getD .content)
      (State.modifySign i (fun g => { g with again := none })
        (if a.tag = (s.sign i).shownTag then s else s.loss i (some a.tag)))) ∧
    (a.state = .busy → s.pollAnswer i a t = s.addPoll i t) ∧
    (a.state = .error → s.pollAnswer i a t = s.goFault i true .poll) := by
  refine ⟨fun ha => ?_, fun ha => ?_, fun ha => ?_⟩
  · simp only [State.pollAnswer, hjob, ha, decide_eq_true_eq, ne_eq, ite_not]
  · simp only [State.pollAnswer, hjob, ha, State.pollAgain]
  · simp only [State.pollAnswer, hjob, ha]

theorem State.pollAnswer_quiet (h : (s.sign i).job ≠ .refreshing) (h' : (s.sign i).job ≠ .settling) :
    s.pollAnswer i a t = s.quietAnswer i a .poll := by
  unfold State.pollAnswer
  dsimp only
  cases hjob : (s.sign i).job with
  | refreshing => exact absurd hjob h
  | settling => exact absurd hjob h'
  | _ => rfl

/-- A LOAD answered BUSY: its busy run goes on, or has lasted the refresh limit. -/
theorem State.loadBusy_eq (c : JobCtx) :
    s.loadBusy l i c t =
      if s.settings.refreshLimit * 1000000 ≤ t - c.busyStart.getD t then s.jobSilent i .jobLoad 5
      else s.modifyLink l fun k => { k with
        job := some { c with
          attempts := 0, wait := .busyRepeat s.pollMs, busyStart := some (c.busyStart.getD t), window := none } } := rfl

end

end Sys2Proof.Machine
end

section
/-! PROOFS. An answer's act on a sign's job, its poll, or a sign without a job. -/

namespace Sys2Proof.Machine

/-! ## The end of an answered attempt (R134, R153, R156) -/

/-- The part once an answered attempt has left link `l` with `y` and given sign `i`'s ring the sample `x`. -/
def State.sampled (l : LinkNo) (i : SignNo) (x : Int) (s : State) (y : LinkState) : State := (s.setLink l y).sample i x

section
variable (l : LinkNo) (i : SignNo) (x : Int) (s : State) (y : LinkState)

theorem State.sampled_becomes :
    Becomes i l ((s.sign i).addSample x) y s.pc.faultCount s (s.sampled l i x y) :=
  ((Becomes.refl i l s).modifyLink fun _ => y).modify (SignState.addSample x) fun _ _ => rfl

theorem State.sampled_entry : ((s.sampled l i x y).sign i).entry = (s.sign i).entry :=
  (congrArg SignState.entry (State.sign_modifySign_self i _ _)).trans (SignState.markDue_entry _ _)

theorem State.sampled_job : ((s.sampled l i x y).sign i).job = (s.sign i).job :=
  (congrArg SignState.job (State.sign_modifySign_self i _ _)).trans (SignState.markDue_job _ _)

theorem State.sampled_shownTag : ((s.sampled l i x y).sign i).shownTag = (s.sign i).shownTag :=
  (congrArg SignState.shownTag (State.sign_modifySign_self i _ _)).trans (SignState.markDue_shownTag _ _)

theorem State.sampled_plan : ((s.sampled l i x y).sign i).plan = (s.sign i).plan :=
  (congrArg SignState.plan (State.sign_modifySign_self i _ _)).trans (SignState.markDue_plan _ _)

theorem State.sampled_activePage : ((s.sampled l i x y).sign i).activePage = (s.sign i).activePage :=
  (congrArg SignState.activePage (State.sign_modifySign_self i _ _)).trans (SignState.markDue_activePage _ _)

theorem State.sampled_modifyLink (f : LinkState → LinkState) :
    (s.sampled l i x y).modifyLink l f = s.sampled l i x (f y) :=
  congrArg (State.sample i x) (State.setLink_modifyLink l y f s)

theorem State.sampled_addPoll (hl : (s.sign i).entry.link = l) (t : Nat) :
    (s.sampled l i x y).addPoll i t = s.sampled l i x (y.polling i (t + s.settings.pollInterval * 10000)) := by
  unfold State.addPoll
  rw [State.sampled_entry, hl, State.pollMs_us]
  exact s.sampled_modifyLink l i x y (LinkState.polling i (t + s.settings.pollInterval * 10000))

end

/-- Settles O55: the attempt's end, the sample, then the exchange and the panel state. -/
theorem answersActByJobState : Obligations.AnswersActByJobState := by
  intro s l bytes t e a hr k i g hphase he hd hl hjudge temp x put polled seen
  have hexec : exec (.stateAnswer l bytes t) s = .next (s.attemptEnds l (.answered a) t).settle := by
    rw [exec_stateAnswer hr hphase he, hjudge]
  refine ⟨_, hexec, ?_⟩
  have hout : s.attemptEnds l (.answered a) t = (s.setLink l x).attemptOut l e (.answered a) t :=
    State.attemptEnds_kept he hd _ t
  rw [hout]
  generalize hu : (s.setLink l x).attemptOut l e (.answered a) t = u
  intro fault quiet
  let gs : SignState := g.addSample a.temp
  have hput : ∀ y, Becomes i l gs y s.pc.faultCount s (put y) := s.sampled_becomes l i a.temp
  have hmod : ∀ y f, (put y).modifyLink l f = put (f y) := s.sampled_modifyLink l i a.temp
  have hagain : ∀ y, (put y).addPoll i t = put (polled y) := fun y => s.sampled_addPoll l i a.temp y hl t
  have hentry : ∀ y, ((put y).sign i).entry.link = l := fun y =>
    (congrArg SignEntry.link (s.sampled_entry l i a.temp y)).trans hl
  have hjob : ∀ y, ((put y).sign i).job = g.job := s.sampled_job l i a.temp
  have hshown : ∀ y, ((put y).sign i).shownTag = g.shownTag := s.sampled_shownTag l i a.temp
  have hplan : ∀ y, ((put y).sign i).plan = g.plan := s.sampled_plan l i a.temp
  have hpage : ∀ y, ((put y).sign i).activePage = g.activePage := s.sampled_activePage l i a.temp
  have hfault : ∀ {code lose k' n' w}, Becomes i l (gs.faulted lose) k' n' w u →
      w.rw = (s.report { kind := .panelError, sign := some i, page := g.activePage, detail := code * 256 }).rw →
      fault code lose := fun h hw => by
    obtain ⟨b, hb⟩ := h.sign
    exact ⟨h.job_eq, congrArg (·.plan) hb, congrArg (·.pendingClass) hb, congrArg (·.again) hb, congrArg (·.abort) hb,
      congrArg (·.slots) hb, congrArg (·.forceFull) hb, h.rw_eq.trans hw⟩
  have hfaults : ∀ {y} p lose, (put y).goFault i lose p = u → fault p.code lose := fun {y} p lose hgoes => by
    have hends := (hput y).goFault hl lose p
    rw [hgoes] at hends
    exact hfault hends rfl
  have hjobFaults : ∀ p, ((put x).goFault i true p).clearJob l = u → fault p.code true ∧ (u.link l).job = none :=
    fun p hgoes => by
      have hends := ((hput x).goFault hl true p).clearJob
      rw [hgoes] at hends
      exact ⟨hfault hends rfl, congrArg (·.job) hends.link_self⟩
  have hquiet : ∀ {p y}, (put y).quietAnswer i a p = u → quiet p.code y := fun {p y} hout => by
    have hrecovers := (hput y).recover_eq hl a.tag
    unfold State.quietAnswer at hout
    dsimp only at hout
    rw [hjob, hshown] at hout
    dsimp only [quiet]
    generalize g.job = j at hout ⊢
    generalize a.state = panel at hout ⊢
    cases j with
    | shown =>
      cases panel with
      | ready => exact hout.symm
      | busy => exact hout.symm
      | error => exact hfaults p true hout
    | cold =>
      cases panel with
      | ready => exact hout.symm.trans (apply_ite (State.coldRecheck i) _ _ _).symm
      | busy => exact hout.symm
      | error => exact hfaults p true hout
    | offline =>
      cases panel with
      | ready => exact hout.symm.trans hrecovers
      | busy => exact hout.symm
      | error => exact hfaults p false hout
    | panelFault =>
      cases panel with
      | ready => exact hout.symm.trans hrecovers
      | busy => exact hout.symm
      | error => exact hout.symm
    | _ => exact hout.symm
  refine ⟨fun c htransfer habort hc => ⟨fun hp => ?probe, fun j p hp hstep hpl => ?load, fun p hp hpl => ?shows⟩,
    fun htransfer habort hp => ?abort, ?refreshingPoll, ?settlingPoll,
    fun hnot hnot' hp => ?quietPoll, fun hp hsurvey => ?quietSurvey, fun hp hsurvey => ?late⟩
  case probe =>
    obtain ⟨hprobe, -, -⟩ := State.jobAnswered_goesOn (s := s.setLink l x) (l := l) (a := a) (t := t) htransfer habort
    have hout : (put x).probeAnswer i a t = u :=
      ((State.attemptOut_jobAnswered (e.purpose.ofJob_iff.mpr (.inl hp))).trans (hprobe hp)).symm.trans hu
    obtain ⟨hready, hbusy, herror⟩ := State.probeAnswer_cases (s := put x) (i := i) (a := a) (t := t)
    cases ha : a.state with
    | ready =>
      rw [hready ha, hshown] at hout
      exact hout.symm
    | busy =>
      have hends := (hput x).becomeSettling hl t
      rw [← hbusy ha, hout] at hends
      obtain ⟨b, hb⟩ := hends.sign
      exact ⟨hends.job_eq, congrArg (·.pendingClass) hb, congrArg (·.again) hb, congrArg (·.job) hends.link_self,
        congrArg (·.polls) hends.link_self⟩
    | error =>
      rw [herror ha, hentry] at hout
      exact hjobFaults .jobProbe hout
  case load =>
    obtain ⟨-, hload, -⟩ := State.jobAnswered_goesOn (s := s.setLink l x) (l := l) (a := a) (t := t) htransfer habort
    have hout : (put x).loadAnswer l i a t = u :=
      ((State.attemptOut_jobAnswered (e.purpose.ofJob_iff.mpr (.inr (.inl hp)))).trans (hload hp)).symm.trans hu
    have hc' : ((put x).link l).job = some c := (congrArg LinkState.job (hput x).link_self).trans hc
    obtain ⟨hready, hbusy, herror⟩ := State.loadAnswer_cases (a := a) (t := t) hc' hstep ((hplan x).trans hpl)
    cases ha : a.state with
    | ready =>
      rw [hready ha, hshown, hmod] at hout
      exact hout.symm
    | busy =>
      rw [hbusy ha, State.loadBusy_eq] at hout
      refine ⟨fun hshort => ?_, fun hlong => ?_⟩
      · have hgoes := (if_neg (Nat.not_le.mpr hshort)).symm.trans hout
        rw [hmod] at hgoes
        exact hgoes.symm
      · have hsilent := (if_pos hlong).symm.trans hout
        obtain ⟨hgo, hnojob⟩ := State.jobSilent_silent (s := put x) (i := i) (reason := 5) (hentry x) .jobLoad
        rw [hsilent] at hgo hnojob
        obtain ⟨b, hb⟩ := hgo.sign
        have hreport := hgo.report
        rw [hpage] at hreport
        exact ⟨congrArg (·.job) hb, congrArg (·.plan) hb, hnojob,
          hreport.trans (State.report_rw_congr (hput x).rw_eq (hput x).clk_eq _)⟩
    | error => exact hjobFaults .jobLoad ((herror ha).symm.trans hout)
  case shows =>
    obtain ⟨-, -, hshow⟩ := State.jobAnswered_goesOn (s := s.setLink l x) (l := l) (a := a) (t := t) htransfer habort
    have hout : (put x).showAnswer l i a t = u :=
      ((State.attemptOut_jobAnswered (e.purpose.ofJob_iff.mpr (.inr (.inr hp)))).trans (hshow hp)).symm.trans hu
    obtain ⟨hready, hbusy, herror⟩ := State.showAnswer_cases (l := l) (a := a) (t := t) ((hplan x).trans hpl)
    cases ha : a.state with
    | ready => exact hout.symm.trans (hready ha)
    | busy =>
      have hends := (((hput x).clearJob.setJob hl .refreshing).startRefresh hl).addPoll hl t
      rw [← hbusy ha, hout] at hends
      obtain ⟨b, hb⟩ := hends.sign
      exact ⟨hends.job_eq, (congrArg (·.plan) hb).trans hpl, congrArg (·.job) hends.link_self,
        congrArg (·.polls) hends.link_self, congrArg (·.refresh) hends.link_self⟩
    | error => exact hjobFaults .jobShow ((herror ha).symm.trans hout)
  case abort =>
    have hout : (put x).abortAnswer i a e.purpose = u :=
      ((State.attemptOut_jobAnswered (e.purpose.ofJob_iff.mpr hp)).trans
        (State.jobAnswered_aborted (s := s.setLink l x) htransfer habort)).symm.trans hu
    obtain ⟨hready, hbusy, herror⟩ := State.abortAnswer_cases (s := put x) (i := i) (a := a) (p := e.purpose)
    cases ha : a.state with
    | ready =>
      rw [hready ha, hshown] at hout
      exact hout.symm
    | busy => exact hout.symm.trans (hbusy ha)
    | error =>
      rw [herror ha, hentry] at hout
      rcases hp with hp | hp | hp <;> rw [hp] at hout ⊢
      · exact hjobFaults .jobProbe hout
      · exact hjobFaults .jobLoad hout
      · exact hjobFaults .jobShow hout
  case refreshingPoll =>
    intro p hrefreshing hpl hp
    have hout : (put x).pollAnswer i a t = u := (State.attemptOut_pollAnswered hp).symm.trans hu
    obtain ⟨hready, hbusy, herror⟩ :=
      State.pollAnswer_refreshing (a := a) (t := t) ((hjob x).trans hrefreshing) ((hplan x).trans hpl)
    cases ha : a.state with
    | ready => exact hout.symm.trans (hready ha)
    | busy => exact hout.symm.trans ((hbusy ha).trans (hagain x))
    | error => exact hfaults .poll true ((herror ha).symm.trans hout)
  case settlingPoll =>
    intro hsettling hp
    have hout : (put x).pollAnswer i a t = u := (State.attemptOut_pollAnswered hp).symm.trans hu
    obtain ⟨hready, hbusy, herror⟩ := State.pollAnswer_settling (a := a) (t := t) ((hjob x).trans hsettling)
    cases ha : a.state with
    | ready =>
      obtain ⟨b, hb⟩ := (hput x).sign
      rw [hb] at hready
      exact hout.symm.trans (hready ha)
    | busy => exact hout.symm.trans ((hbusy ha).trans (hagain x))
    | error => exact hfaults .poll true ((herror ha).symm.trans hout)
  case quietPoll =>
    exact hquiet (p := .poll) ((State.pollAnswer_quiet (by rw [hjob]; exact hnot) (by rw [hjob]; exact hnot')).symm.trans
      ((State.attemptOut_pollAnswered hp).symm.trans hu))
  case quietSurvey =>
    have hheld : ((s.setLink l x).link l).survey.isSome = true := by
      rw [State.link_setLink_self]
      exact Option.isSome_iff_ne_none.mpr hsurvey
    have hout := (State.attemptOut_surveyAnswered hp).symm.trans hu
    rw [if_pos hheld, State.setLink_modifyLink] at hout
    exact hquiet (p := .survey) hout
  case late =>
    have hnone : ((s.setLink l x).link l).survey = none := by
      rw [State.link_setLink_self]
      exact hsurvey
    have hout := (State.attemptOut_surveyAnswered hp).symm.trans hu
    rw [hnone, State.setLink_modifyLink] at hout
    have hsame : { x with survey := none } = x := by rw [← show x.survey = none from hsurvey]
    rw [hsame] at hout
    exact hout.symm

end Sys2Proof.Machine
end

section
/-! PROOFS. The small events of a link: the frame's end, characters, waits that end, the survey timer; and the tile read placed
for a job. -/

namespace Sys2Proof.Machine

/-! ## Events that change one link (R149, R152, R154, R157, R160, R166) -/

section
variable {s : State} {l : LinkNo}

/-- An event whose effect is a change of one link alone. -/
theorem State.onEvent_modifyLink {ok : Bool} (f : LinkState → LinkState) (hr : s.resetHeld = false) (hok : ok = true) :
    s.onEvent ok (State.modifyLink l f) = (s.setLink l (f (s.link l))).settle :=
  State.onEvent_of _ hr hok

theorem LinkState.backingOff_job {k : LinkState} {c : JobCtx} {ms : Nat} (hjob : k.job = some c)
    (hwait : c.wait = .backoff ms) : k.backingOff .job = true := by
  simp only [LinkState.backingOff, hjob, hwait]

theorem LinkState.backingOff_survey {k : LinkState} {v : Survey} {ms : Nat} (hsurvey : k.survey = some v)
    (hwait : v.wait = .backoff ms) : k.backingOff .survey = true := by
  simp only [LinkState.backingOff, hsurvey, hwait]

theorem LinkState.backingOff_poll {k : LinkState} {p : Poll} (hp : p ∈ k.polls) (hpassed : p.passed = false)
    (hretry : 0 < p.attempts) : k.backingOff (.poll p.sign) = true :=
  List.any_eq_true.mpr ⟨p, hp, by simp [hpassed, hretry]⟩

theorem LinkState.retryReady_job {k : LinkState} {c : JobCtx} (hjob : k.job = some c) :
    k.retryReady .job = { k with job := some { c with wait := .ready } } := by
  rw [LinkState.retryReady, hjob]
  rfl

theorem LinkState.retryReady_survey {k : LinkState} {v : Survey} (hsurvey : k.survey = some v) :
    k.retryReady .survey = { k with survey := some { v with wait := .ready } } := by
  rw [LinkState.retryReady, hsurvey]
  rfl

theorem LinkState.busyWaiting_of {k : LinkState} {c : JobCtx} {ms : Nat} (hjob : k.job = some c)
    (hwait : c.wait = .busyRepeat ms) : k.busyWaiting = true := by
  simp only [LinkState.busyWaiting, hjob, hwait]

/-! ## The end of a tile read (R159) -/

theorem State.fillBuffer_eq {c : JobCtx} (j : Nat) (bytes : List Byte) (hjob : (s.link l).job = some c) :
    s.fillBuffer l j bytes =
      s.setLink l { s.link l with job := some { c with held := c.held ++ [(j, bytes)] } } := by
  rw [State.fillBuffer, State.modifyLink, hjob]
  rfl

theorem OwnKind.tileFor_self (l : LinkNo) (j : Nat) : (OwnKind.tileRead l j).tileFor l = some j := if_pos rfl

theorem exec_linkTileReadEnd {j : Nat} {bytes : List Byte} (h : s.OwnEnds (.tileRead l j) bytes) :
    exec (.linkTileReadEnd l) s = .next (s.portFreed.fillBuffer l j bytes).settle := by
  obtain ⟨q, hq, he⟩ := State.loadReadEnds (ofKind := fun k => (k.tileFor l).isSome) h
    (by rw [OwnKind.tileFor_self]; rfl)
    fun q bytes s => match q.kind.tileFor l with
      | some j => s.fillBuffer l j bytes
      | none => s
  rw [hq, OwnKind.tileFor_self] at he
  exact congrArg Host.Outcome.next he

end

/-! ## The tile wanted next (R159) -/

section
variable {held : List (Nat × List Byte)} {j n : Nat} {q : PlannedSlot} {rest : List PlannedSlot}

/-- Planned slot `k` needs no read: it is blank, or a buffer holds its bytes. -/
def PlannedSlot.served (held : List (Nat × List Byte)) (k : Nat) (q : PlannedSlot) : Prop :=
  q.tile = none ∨ ∃ h ∈ held, h.1 = k

theorem any_held_iff : held.any (·.1 == j) = true ↔ ∃ h ∈ held, h.1 = j := by
  simp only [List.any_eq_true, beq_iff_eq]

theorem wantedTile_served (h : q.served held j) : wantedTile held j (q :: rest) = wantedTile held (j + 1) rest := by
  rw [wantedTile]
  cases htile : q.tile with
  | none => rfl
  | some n =>
    have hheld : ∃ h ∈ held, h.1 = j := h.resolve_left (by rw [htile]; exact Option.some_ne_none n)
    exact if_pos (any_held_iff.mpr hheld)

theorem wantedTile_wanted (htile : q.tile = some n) (hheld : ∀ h ∈ held, h.1 ≠ j) :
    wantedTile held j (q :: rest) = some (j, n) := by
  rw [wantedTile, htile]
  exact if_neg fun h => (any_held_iff.mp h).elim fun x hx => hheld x hx.1 hx.2

/-- With each planned slot served, none is wanted. -/
theorem wantedTile_eq_none {slots : List PlannedSlot} (h : ∀ (m : Nat) x, slots[m]? = some x → x.served held (j + m)) :
    wantedTile held j slots = none := by
  induction slots generalizing j with
  | nil => rfl
  | cons q rest ih =>
    rw [wantedTile_served (j := j) (h 0 q rfl)]
    exact ih fun m x hx => by rw [Nat.add_right_comm]; exact h (m + 1) x hx

/-- The first planned slot that is not served is the one wanted. -/
theorem wantedTile_eq_some {slots : List PlannedSlot} {m : Nat} (hq : slots[m]? = some q) (htile : q.tile = some n)
    (hheld : ∀ h ∈ held, h.1 ≠ j + m) (hbefore : ∀ (k : Nat) x, k < m → slots[k]? = some x → x.served held (j + k)) :
    wantedTile held j slots = some (j + m, n) := by
  induction slots generalizing j m with
  | nil => cases hq
  | cons y rest ih =>
    cases m with
    | zero =>
      cases hq
      exact wantedTile_wanted htile hheld
    | succ m =>
      have hshift : ∀ k, j + 1 + k = j + (k + 1) := fun k => Nat.add_right_comm j 1 k
      rw [wantedTile_served (j := j) (hbefore 0 y (Nat.succ_pos m) rfl), ← hshift m]
      exact ih hq (by rwa [hshift]) fun k x hk hx => by
        rw [hshift]
        exact hbefore (k + 1) x (Nat.succ_lt_succ hk) hx

end

/-! ## The tile read placed (R159) -/

section
variable {s : State} {l : LinkNo} {c : JobCtx}

/-- The planned slot and the tile that the job's next read is for; none without LOADs to send, a plan or a free buffer. -/
def State.nextTile (l : LinkNo) (c : JobCtx) (s : State) : Option (Nat × Nat) :=
  if c.held.length < 2 then
    c.step.loadIndex.bind fun j => (s.jobPlan l c).bind fun p => wantedTile c.held j (p.planned.drop j)
  else none

theorem JobStep.loadIndex_eq_none {x : JobStep} (h : ∀ j, x ≠ .load j) : x.loadIndex = none := by
  cases x with
  | load j => exact absurd rfl (h j)
  | probe => rfl
  | showStep => rfl

theorem State.nextTile_load {j : Nat} {p : Plan} (hfree : c.held.length < 2) (hstep : c.step = .load j)
    (hplan : (s.sign c.sign).plan = some p) (hl : (s.sign c.sign).entry.link = l) :
    s.nextTile l c = wantedTile c.held j (p.planned.drop j) := by
  rw [State.nextTile, if_pos hfree, State.jobPlan, if_pos hl, hplan, hstep]
  rfl

theorem State.jobPlan_eq_none (h : (s.sign c.sign).plan = none ∨ (s.sign c.sign).entry.link ≠ l) :
    s.jobPlan l c = none := by
  unfold State.jobPlan
  split
  · exact h.resolve_right (not_not_intro ‹_›)
  · rfl

theorem State.nextTile_planless (h : s.jobPlan l c = none) : s.nextTile l c = none := by
  unfold State.nextTile
  rw [h]
  cases c.step.loadIndex <;> exact ite_self none

theorem State.nextTile_loadless (h : ∀ j, c.step ≠ .load j) : s.nextTile l c = none := by
  rw [State.nextTile, JobStep.loadIndex_eq_none h]
  exact ite_self none

theorem State.placeTile_busy (h : s.mp.load (.link l) ≠ 0) : s.placeTile l = s :=
  if_pos (Bool.of_not_eq_false fun hidle => h ((State.busy_eq_false s _).mp hidle))

theorem State.placeTile_jobless (h : (s.link l).job = none) : s.placeTile l = s := by
  simp only [State.placeTile, h, ite_self]

/-- An idle link with a job reads the next tile of its plan. -/
theorem State.placeTile_eq (hidle : s.mp.load (.link l) = 0) (hjob : (s.link l).job = some c) :
    s.placeTile l = (s.nextTile l c).elim s fun x => s.place
      { kind := .tileRead l x.1, addr := (s.settings.tileBase + x.2 * 256) % Config.memorySize, len := 256,
        data := [] } := by
  have hbusy : ¬s.busy (.link l) = true := Bool.eq_false_iff.mp ((State.busy_eq_false s _).mpr hidle)
  simp only [State.placeTile, State.nextTile, if_neg hbusy, hjob]
  cases c.step.loadIndex with
  | none => rw [Option.bind_none, ite_self]; rfl
  | some j =>
    cases s.jobPlan l c with
    | none => simp
    | some p =>
      dsimp only [Option.bind_some]
      split
      · cases wantedTile c.held j (p.planned.drop j) <;> rfl
      · rfl

theorem State.placeTile_unwanted (hjob : (s.link l).job = some c) (h : s.nextTile l c = none) : s.placeTile l = s := by
  by_cases hidle : s.mp.load (.link l) = 0
  · rw [State.placeTile_eq hidle hjob, h]
    rfl
  · exact State.placeTile_busy hidle

end

/-- Settles O53: each event is a change of its link, and the read placed is that of the first planned slot not served. -/
theorem linkTimersAndCharacters : Obligations.LinkTimersAndCharacters := by
  refine ⟨fun s l hr => ?events, fun s l => ⟨?unplaced, ?placed⟩⟩
  case events =>
    intro k ends
    have event {c : Instr} {ok : Bool} {f : LinkState → LinkState} {x : LinkState}
        (hc : exec c s = .next (s.onEvent ok (State.modifyLink l f))) (hok : ok = true) (hx : f k = x) : ends c s x := by
      rw [← hx]
      exact hc.trans (congrArg Host.Outcome.next (State.onEvent_modifyLink f hr hok))
    refine ⟨?sent, ?character, ?jobWait, ?surveyWait, ?poll, ?busy, ?surveyTimer, ?tile⟩
    case sent =>
      intro hphase
      exact event rfl (beq_iff_eq.mpr hphase) rfl
    case character =>
      intro b
      refine event rfl rfl (f := LinkState.received b) ?_
      unfold LinkState.received
      cases k.phase <;> rfl
    case jobWait =>
      intro c ms hjob hwait
      exact event rfl (LinkState.backingOff_job hjob hwait) (LinkState.retryReady_job hjob)
    case surveyWait =>
      intro v ms hsurvey hwait
      exact event rfl (LinkState.backingOff_survey hsurvey hwait) (LinkState.retryReady_survey hsurvey)
    case poll =>
      intro p hp hpassed x
      refine ⟨fun hretry => event rfl (LinkState.backingOff_poll hp hpassed hretry) rfl, fun hl => ?_⟩
      have hok : ((s.link l).polls.any fun q => q.sign == p.sign && !q.passed) = true :=
        List.any_eq_true.mpr ⟨p, hp, by simp [hpassed]⟩
      refine event ?_ hok (f := LinkState.modifyPoll p.sign fun q => { q with passed := true }) rfl
      subst hl
      rfl
    case busy =>
      intro c ms hjob hwait
      exact event rfl (LinkState.busyWaiting_of hjob hwait) (by rw [hjob]; rfl)
    case surveyTimer =>
      intro htimer
      exact event rfl (Option.isSome_iff_ne_none.mpr htimer) rfl
    case tile =>
      intro j bytes c hends hjob
      obtain ⟨mp, hfreed⟩ := State.portFreed_ownRead (kind := .tileRead l j) (fun h => nomatch h) hends
      have hlink : s.portFreed.link l = s.link l := by
        rw [hfreed]
        rfl
      refine (exec_linkTileReadEnd hends).trans ?_
      rw [State.fillBuffer_eq j bytes ((congrArg LinkState.job hlink).trans hjob), hlink]
      rfl
  case unplaced =>
    rintro (hbusy | hjob | ⟨c, hjob, hnot⟩)
    · exact State.placeTile_busy hbusy
    · exact State.placeTile_jobless hjob
    · refine State.placeTile_unwanted hjob ?_
      rcases hnot with hfull | hstep | hplan | hl | ⟨j, p, hstep, hplan, hserved⟩
      · exact if_neg (Nat.not_lt.mpr hfull)
      · exact State.nextTile_loadless hstep
      · exact State.nextTile_planless (State.jobPlan_eq_none (.inl hplan))
      · exact State.nextTile_planless (State.jobPlan_eq_none (.inr hl))
      · by_cases hfree : c.held.length < 2
        · by_cases hl : (s.sign c.sign).entry.link = l
          · rw [State.nextTile_load hfree hstep hplan hl]
            exact wantedTile_eq_none fun m x hx =>
              hserved (j + m) x (Nat.le_add_right j m) (by rwa [List.getElem?_drop] at hx)
          · exact State.nextTile_planless (State.jobPlan_eq_none (.inr hl))
        · exact if_neg hfree
  case placed =>
    intro c j p q x n hidle hjob hstep hplan hl hfree hjq hx htile hheld hbefore
    obtain ⟨m, rfl⟩ := Nat.exists_eq_add_of_le hjq
    have hnext : s.nextTile l c = some (j + m, n) := by
      rw [State.nextTile_load hfree hstep hplan hl]
      exact wantedTile_eq_some (by rwa [List.getElem?_drop]) htile hheld fun i y hi hy =>
        hbefore (j + i) y (Nat.le_add_right j i) (Nat.add_lt_add_left hi j) (by rwa [List.getElem?_drop] at hy)
    rw [State.placeTile_eq hidle hjob, hnext]
    rfl

end Sys2Proof.Machine
end

section
/-! PROOFS. Frames: the line levels of a character and of a frame, the CRC bit by bit, the part's frames byte by byte; and the
tests on the characters of an answer. -/

namespace Sys2Proof.Machine

/-! ## The line (R149) -/

section
variable {v : Byte}

theorem length_characterBits (v : Byte) : (characterBits v).length = 10 := rfl

theorem characterBits_start : (characterBits v)[0]? = some false := rfl

theorem characterBits_data {n : Nat} (hn : n < 8) : (characterBits v)[1 + n]? = some (v.getLsbD n) := by
  rw [characterBits, List.getElem?_append_left (by simp; omega), List.getElem?_append_right (by simp)]
  simp [List.getElem?_range hn]

theorem characterBits_stop : (characterBits v)[9]? = some true := rfl

end

theorem frameBits_cons (v : Byte) (f : List Byte) : frameBits (v :: f) = characterBits v ++ frameBits f := List.flatMap_cons

theorem length_frameBits (f : List Byte) : (frameBits f).length = 10 * f.length := by
  induction f with
  | nil => rfl
  | cons v f ih =>
    rw [frameBits_cons, List.length_append, length_characterBits, ih, List.length_cons]
    omega

/-- The characters of a frame follow back to back: the levels from `10 * j` on are those of its character `j`. -/
theorem frameBits_getElem? {f : List Byte} {j m : Nat} {v : Byte} (hv : f[j]? = some v) (hm : m < 10) :
    (frameBits f)[10 * j + m]? = (characterBits v)[m]? := by
  induction f generalizing j with
  | nil => cases hv
  | cons w f ih =>
    rw [frameBits_cons]
    cases j with
    | zero =>
      cases hv
      rw [Nat.mul_zero, Nat.zero_add, List.getElem?_append_left (by rwa [length_characterBits])]
    | succ j =>
      rw [List.getElem?_append_right (by rw [length_characterBits]; omega), length_characterBits,
        show 10 * (j + 1) + m - 10 = 10 * j + m by omega]
      exact ih hv

theorem LinkState.sde_iff (k : LinkState) : k.sde = true ↔ k.phase = .sending := beq_iff_eq

theorem LinkState.sent_sending {k : LinkState} {e : Exchange} (hphase : k.phase = .sending) (he : k.exch = some e) :
    k.sent = frameBits e.frame := by
  rw [LinkState.sent, k.sde_iff.mpr hphase, he]

theorem LinkState.sent_resting {k : LinkState} (hphase : k.phase ≠ .sending) : k.sent = [true] := by
  rw [LinkState.sent, Bool.eq_false_iff.mpr (mt k.sde_iff.mp hphase)]
  rfl

theorem Exchange.bitRate_cases (e : Exchange) :
    (e.rate = 0 → e.bitRate = 115200) ∧ (e.rate = 1 → e.bitRate = 250000) ∧ (e.rate = 2 → e.bitRate = 500000) ∧
      (e.rate = 3 → e.bitRate = 1000000) := by
  refine ⟨?_, ?_, ?_, ?_⟩ <;> intro h <;> simp only [Exchange.bitRate, h]

/-! ## The CRC (R151) -/

theorem crcBit_eq (crc : BitVec 16) (b : Bool) :
    crcBit crc b = if crc.getLsbD 15 = b then crc <<< 1 else (crc <<< 1) ^^^ 0x1021 := by
  rw [crcBit]
  by_cases h : crc.getLsbD 15 = b
  · rw [if_pos h, if_neg (by simpa using h)]
  · rw [if_neg h, if_pos (by simpa using h)]

/-- The bits of a byte, most significant first. -/
def msbFirst (b : Byte) : List Bool := (List.range 8).map fun n => b.getLsbD (7 - n)

/-- The CRC of some bytes takes their bits one by one. -/
theorem crc16_eq (bytes : List Byte) : crc16 bytes = (bytes.flatMap msbFirst).foldl crcBit 0xFFFF := by
  rw [List.foldl_flatMap]
  rfl

/-! ## The part's frames (R150, R185) -/

/-- A frame's bytes before its CRC, and the CRC's two bytes. -/
def withCrc (body : List Byte) : List Byte := body ++ bytes16 (crc16 body).toNat

section
variable {drop : Nat}

theorem frame_eq (hdrop : drop < 64) (kind : Nat) {payload : List Byte} {n : Nat} (hn : payload.length = n) :
    frame drop kind payload = withCrc ([byteOf drop, byteOf kind] ++ bytes16 n ++ payload) := by
  rw [frame, Nat.mod_eq_of_lt hdrop, hn]
  rfl

theorem probeFrame_eq (hdrop : drop < 64) : probeFrame drop = withCrc [byteOf drop, 0x01, 0, 0] :=
  frame_eq hdrop 1 (n := 0) rfl

theorem loadFrame_none (hdrop : drop < 64) (index : Nat) :
    loadFrame drop index none = withCrc [byteOf drop, 0x02, 0, 2, byteOf index, 1] := frame_eq hdrop 2 (n := 2) rfl

theorem loadFrame_some (hdrop : drop < 64) (index : Nat) {tile : List Byte} (htile : tile.length = 256) :
    loadFrame drop index (some tile) = withCrc ([byteOf drop, 0x02, 1, 2, byteOf index, 0] ++ tile) :=
  frame_eq hdrop 2 (n := 258) (congrArg (· + 2) htile)

theorem showFrame_full (hdrop : drop < 64) (tag : Nat) :
    showFrame drop .full tag = withCrc [byteOf drop, 0x03, 0, 2, 0, byteOf tag] := frame_eq hdrop 3 (n := 2) rfl

theorem showFrame_part (hdrop : drop < 64) (tag : Nat) :
    showFrame drop .part tag = withCrc [byteOf drop, 0x03, 0, 2, 1, byteOf tag] := frame_eq hdrop 3 (n := 2) rfl

end

/-! ## The characters stored of an answer (R152) -/

/-- The kind and payload length received so far are those of a STATE frame. -/
theorem mayBeState_iff (rx : List Byte) :
    mayBeState rx = true ↔
      (∀ k, rx[1]? = some k → k = 0x81) ∧ (∀ h, rx[2]? = some h → h = 0) ∧ (∀ l, rx[3]? = some l → l = 4) := by
  match rx with
  | [] => simp [mayBeState]
  | [_] => simp [mayBeState]
  | [_, k] => simp [mayBeState]
  | [_, k, h] => simp [mayBeState]
  | _ :: k :: h :: l :: _ => simp [mayBeState, and_assoc]

theorem storeCharacter_stores {rx : List Byte} (hstate : mayBeState rx = true) (hlength : rx.length < 10) (v : Byte) :
    storeCharacter rx v = rx ++ [v] := if_pos (by simp [hstate, hlength])

theorem storeCharacter_drops {rx : List Byte} (h : mayBeState rx ≠ true ∨ 10 ≤ rx.length) (v : Byte) :
    storeCharacter rx v = rx := by
  refine if_neg fun hstores => ?_
  obtain ⟨hstate, hlength⟩ := Bool.and_eq_true_iff.mp hstores
  exact h.elim (· hstate) (Nat.not_le.mpr (of_decide_eq_true hlength))

/-! ## The tests of an answer (R153, R185) -/

theorem signed16_be16 (hi lo : Byte) :
    signed16 (be16 hi lo) = (hi.toNat : Int) * 256 + lo.toNat - (if 128 ≤ hi.toNat then 65536 else 0) := by
  have hhi := hi.isLt
  have hlo := lo.isLt
  unfold signed16 be16
  split <;> split <;> omega

/-- Two bytes one after the other are their 16-bit value, most significant byte first (R183). -/
theorem toNat_append_be16 (hi lo : Byte) : (hi ++ lo).toNat = be16 hi lo := by
  rw [BitVec.toNat_append, ← Nat.shiftLeft_add_eq_or_of_lt lo.isLt, Nat.shiftLeft_eq]
  rfl

theorem judge_length {drop : Nat} {rx : List Byte} (h : rx.length ≠ 10) : judge drop rx = .failed 4 := by
  unfold judge
  split
  · exact absurd rfl h
  · rfl

/-- The panel state a code up to 2 stands for (R150). -/
def PanelState.ofCode : Nat → PanelState
  | 0 => .ready
  | 1 => .busy
  | _ => .error

section
variable {drop : Nat} {d k h l p t1 t0 g c1 c0 : Byte}

theorem judge_kind (hkind : mayBeState [d, k, h, l] ≠ true) :
    judge drop [d, k, h, l, p, t1, t0, g, c1, c0] = .failed 4 :=
  if_pos (by simpa using hkind)

theorem judge_state (hkind : mayBeState [d, k, h, l] = true) :
    judge drop [d, k, h, l, p, t1, t0, g, c1, c0] =
      if (crc16 [d, k, h, l, p, t1, t0, g]).toNat ≠ be16 c1 c0 then .failed 2
      else if d.toNat ≠ drop then .failed 3
      else if 2 < p.toNat then .failed 4
      else .answered { state := .ofCode p.toNat, temp := signed16 (be16 t1 t0), tag := g.toNat } := by
  have hcrc : crc16 [d, k, h, l, p, t1, t0, g] = c1 ++ c0 ↔ (crc16 [d, k, h, l, p, t1, t0, g]).toNat = be16 c1 c0 := by
    rw [← toNat_append_be16]
    exact BitVec.toNat_inj.symm
  simp only [judge, hkind, hcrc, Bool.not_true, Bool.false_eq_true, if_false, ne_eq]
  congr 2
  match p.toNat with
  | 0 => rfl
  | 1 => rfl
  | 2 => rfl
  | n + 3 => exact (if_pos (Nat.le_add_left 3 n)).symm

end

/-- Settles O50: the statement's CRC is `crc16` and its frames are `withCrc`; characters are stored while `mayBeState` holds,
and the tests of a STATE frame come in the order of `judge_state`. -/
theorem framesAndAnswerTests : Obligations.FramesAndAnswerTests := by
  unfold Obligations.FramesAndAnswerTests
  intro byte bit crc framed
  have hcrc (bytes : List Byte) : crc bytes = (crc16 bytes).toNat := by
    have hbit : bit = crcBit := funext₂ fun c b => (crcBit_eq c b).symm
    rw [crc16_eq, ← hbit]
    rfl
  have hframed (body : List Byte) : framed body = withCrc body := by
    show body ++ bytes16 (crc body) = _
    rw [hcrc]
    rfl
  refine ⟨fun k e => ⟨fun hphase he => ?sending, fun hphase => ?resting, e.bitRate_cases⟩, fun drop hdrop => ?frames,
    fun rx v => ?stored, fun drop rx => ?judged⟩
  case sending =>
    rw [k.sent_sending hphase he]
    refine ⟨k.sde_iff.mpr hphase, length_frameBits _, fun j v hv => ⟨?_, fun n hn => ?_, ?_⟩⟩
    · exact (frameBits_getElem? hv (by decide : 0 < 10)).trans characterBits_start
    · rw [Nat.add_assoc]
      exact (frameBits_getElem? hv (by omega)).trans (characterBits_data hn)
    · exact (frameBits_getElem? hv (by decide)).trans characterBits_stop
  case resting => exact ⟨Bool.eq_false_iff.mpr (mt k.sde_iff.mp hphase), k.sent_resting hphase⟩
  case frames =>
    simp only [hframed]
    exact ⟨probeFrame_eq hdrop, loadFrame_none hdrop, fun index tile => loadFrame_some hdrop index,
      fun tag => ⟨showFrame_full hdrop tag, showFrame_part hdrop tag⟩⟩
  case stored =>
    intro wrong
    have hwrong : wrong ↔ mayBeState rx ≠ true := by
      rw [Ne, mayBeState_iff]
      simp only [wrong, not_and_or, not_forall, exists_prop]
    refine ⟨fun hlength hkind hpayload => ?early, fun _ hlength hright => ?late, fun h => ?dropped⟩
    case early =>
      have hshort {n : Nat} (hn : rx.length ≤ n) (w x : Byte) : rx[n]? = some w → w = x := by
        rw [List.getElem?_eq_none hn]
        exact nofun
      refine storeCharacter_stores ((mayBeState_iff rx).mpr ⟨fun w => ?_, fun w => ?_, fun w => ?_⟩) (by omega) v
      · exact hkind.elim (fun hk hw => Option.some.inj (hw.symm.trans hk)) fun hn => hshort (Nat.le_of_lt_succ hn) w _
      · exact hpayload.elim (fun hk hw => Option.some.inj (hw.symm.trans hk)) fun hn => hshort (Nat.le_of_lt_succ hn) w _
      · exact hshort (Nat.le_of_lt_succ hlength) w _
    case late => exact storeCharacter_stores (not_not.mp (mt hwrong.mpr hright)) hlength v
    case dropped => exact storeCharacter_drops (h.imp_left hwrong.mp) v
  case judged =>
    refine ⟨judge_length, ?_⟩
    rintro d k h l p t1 t0 g c1 c0 rfl temp passes
    have hkind : mayBeState [d, k, h, l] = true ↔ k = 0x81 ∧ h = 0 ∧ l = 4 := by simp [mayBeState_iff]
    have hpasses : passes ↔ (crc16 [d, k, h, l, p, t1, t0, g]).toNat = be16 c1 c0 := by
      rw [← hcrc]
      exact eq_comm
    refine ⟨fun hnot => judge_kind (mt hkind.mp hnot), fun hk hh hl => ?_⟩
    rw [judge_state (hkind.mpr ⟨hk, hh, hl⟩), signed16_be16]
    refine ⟨fun hfails => ?_, fun hpass hdrop => ?_, fun hpass hdrop hp => ?_, fun hpass hdrop hp => ?_⟩
    · exact if_pos (mt hpasses.mpr hfails)
    · rw [if_neg (not_not_intro (hpasses.mp hpass)), if_pos hdrop]
    · rw [if_neg (not_not_intro (hpasses.mp hpass)), if_neg (not_not_intro hdrop), if_pos hp]
    · rw [if_neg (not_not_intro (hpasses.mp hpass)), if_neg (not_not_intro hdrop), if_neg (Nat.not_lt.mpr hp)]
      rfl

end Sys2Proof.Machine
end

section
/-! PROOFS. Reports and suppression: which reports are accepted, what an accepted one does, and the tests of R176. -/

namespace Sys2Proof.Machine

/-! ## Grades (R178) -/

/-- The kinds of the routine grade (R178). -/
def routineKinds : List ReportKind := [.updateDone, .pageSwitch, .signOnline, .clockSet, .pulseCapture, .coldHold]

theorem ReportKind.routine_iff (k : ReportKind) : k.routine = true ↔ k ∈ routineKinds := by
  cases k <;> decide

/-! ## Acceptance (R175) -/

theorem State.accepts_iff (s : State) (r : Ring) (k : ReportKind) :
    s.accepts r k = true ↔ s.rw.placed = true ∧ 0 < r.free ∧ ¬(k ∈ routineKinds ∧ s.rw.suppressing = true) := by
  rw [State.accepts, Bool.and_eq_true, Bool.and_eq_true, decide_eq_true_eq, and_assoc, Bool.not_eq_true',
    ← Bool.not_eq_true, Bool.and_eq_true, ReportKind.routine_iff]

section
variable {s : State} {r : Ring} {rep : Report}

theorem State.report_ringless (hring : s.rw.ring = none) : s.report rep = s := by rw [State.report, hring]

/-- A report handed to a ring is accepted, and then the NORMAL test made, or it is dropped (R175, R176). -/
theorem State.report_ring (hring : s.rw.ring = some r) :
    s.report rep = if s.accepts r rep.kind then (s.acceptEntry r rep).startSuppression else s := by
  rw [State.report, hring]

theorem State.report_dropped (hring : s.rw.ring = some r) (h : ¬s.accepts r rep.kind = true) : s.report rep = s :=
  (State.report_ring hring).trans (if_neg h)

theorem State.report_unplaced (hplaced : s.rw.placed = false) : s.report rep = s := by
  cases hring : s.rw.ring with
  | none => exact State.report_ringless hring
  | some r =>
    refine State.report_dropped hring fun h => ?_
    exact Bool.false_ne_true (hplaced.symm.trans ((s.accepts_iff r rep.kind).mp h).1)

theorem State.report_accepted (hring : s.rw.ring = some r) (h : s.accepts r rep.kind = true) :
    s.report rep = (s.acceptEntry r rep).startSuppression :=
  (State.report_ring hring).trans (if_pos h)

/-! ## Suppression (R176) -/

theorem State.startSuppression_suppressing (hsup : s.rw.suppressing = true) : s.startSuppression = s := by
  unfold State.startSuppression
  rw [hsup]
  cases s.rw.ring <;> rfl

/-- In SUPPRESSING an accepted priority report is added and nothing more. -/
theorem State.report_suppressing (hring : s.rw.ring = some r) (hsup : s.rw.suppressing = true) :
    s.report rep = if s.accepts r rep.kind then s.acceptEntry r rep else s := by
  rw [State.report_ring hring, State.startSuppression_suppressing (s := s.acceptEntry r rep) hsup]

theorem State.evalSuppression_normal (hsup : s.rw.suppressing = false) : s.evalSuppression = s.startSuppression :=
  if_neg (Bool.eq_false_iff.mp hsup)

/-- The NORMAL test hands SUPPRESSED as any report is handed. -/
theorem State.startSuppression_normal (hring : s.rw.ring = some r) (hsup : s.rw.suppressing = false) :
    s.startSuppression = if r.free ≤ r.size / 4 then
      { s with rw.suppressing := true }.report { kind := .suppressed, sign := none, page := none, detail := r.free }
    else s := by
  have hreport := State.report_suppressing (s := { s with rw.suppressing := true })
    (rep := { kind := .suppressed, sign := none, page := none, detail := r.free }) hring rfl
  rw [hreport, State.startSuppression, hring]
  simp [hsup]

/-- The SUPPRESSING test hands RESUMED in NORMAL. -/
theorem State.evalSuppression_suppressing (hring : s.rw.ring = some r) (hsup : s.rw.suppressing = true) :
    s.evalSuppression = if r.size / 2 ≤ r.free then
      { s with rw.suppressing := false }.report { kind := .resumed, sign := none, page := none, detail := r.free }
    else s := by
  rw [State.evalSuppression, if_pos hsup, State.endSuppression, hring]
  simp [hsup]

end

/-- Settles O31, by the cases of `accepts_iff` and of the suppression state. -/
theorem reportsAndSuppression : Obligations.ReportsAndSuppression := by
  refine ⟨fun s rep => ⟨?unplaced, fun r hring => ⟨?dropped, ?accepted⟩⟩,
    fun s r hring => ⟨fun hsup => ?normal, ?suppressing⟩⟩
  case unplaced => exact fun h => h.elim State.report_unplaced State.report_ringless
  case dropped =>
    refine fun h => State.report_dropped hring fun hacc => ?_
    obtain ⟨-, hfree, hgrade⟩ := (s.accepts_iff r rep.kind).mp hacc
    exact h.elim hfree.ne' hgrade
  case accepted =>
    intro hplaced hfree hgrade w
    rw [State.report_accepted hring ((s.accepts_iff r rep.kind).mpr ⟨hplaced, hfree, hgrade⟩)]
    show w.startSuppression = _
    cases hsup : s.rw.suppressing with
    | false => exact (State.evalSuppression_normal (s := w) hsup).symm
    | true => exact State.startSuppression_suppressing (s := w) hsup
  case normal => exact (State.evalSuppression_normal hsup).trans (State.startSuppression_normal hring hsup)
  case suppressing => exact State.evalSuppression_suppressing hring

end Sys2Proof.Machine
end

section
/-! PROOFS. The ends of the report writer's writes: the bytes in memory, and the published index with ATTN. -/

namespace Sys2Proof.Machine

section
variable {s : State} {x : Running}

theorem State.portFreed_eq (hx : s.mp.running = some x) :
    ∃ mp, s.portFreed = { s with
      mp := mp, mem := if x.req.isWrite then s.mem.writeBytes x.req.addr x.req.data else s.mem } := by
  obtain ⟨h, g, he, -⟩ := State.grantHost_eq { s with
    mp.running := none, mem := if x.req.isWrite then s.mem.writeBytes x.req.addr x.req.data else s.mem }
  refine ⟨{ s.mp with running := none, host := h, grantCount := g }, ?_⟩
  rw [State.portFreed, hx]
  exact he

/-- A report write's bytes stand in memory at its end (log 8). -/
theorem State.portFreed_stored (hx : s.mp.running = some x) (hreq : x.req.requester = .report) (hwf : s.mem.wf = true) :
    s.mem.Stored s.portFreed.mem x.req.addr x.req.data := by
  obtain ⟨mp, he⟩ := State.portFreed_eq hx
  rw [he, if_pos ((OwnReq.isWrite_iff _).mpr hreq)]
  exact Memory.stored_writeBytes hwf _ _

theorem State.portFreed_rw (hx : s.mp.running = some x) : s.portFreed.rw = s.rw := by
  obtain ⟨mp, he⟩ := State.portFreed_eq hx
  rw [he]

theorem State.portFreed_settings (hx : s.mp.running = some x) : s.portFreed.settings = s.settings := by
  obtain ⟨mp, he⟩ := State.portFreed_eq hx
  rw [he]
  rfl

theorem State.publish_eq {r : Ring} (hring : s.rw.ring = some r) (value : Nat) :
    s.publish value = { s with
      rw.ring := some { r with published := value }
      rw.attn := s.settings.attention && s.rw.placed &&
        decide (0 < (value + (r.size - r.consumer % r.size)) % r.size) } := by
  rw [State.publish, State.evalAttn, State.attnLevel_eq]
  simp only [hring]
  rfl

end

/-- Settles O32: each end frees the port, and then the writer's part of it follows. -/
theorem reportWriterWritesEnd : Obligations.ReportWriterWritesEnd := by
  intro s x hr hx hd v
  have hends : s.OwnEnds x.req.kind x.bytes := ⟨hr, x, hx, rfl, rfl, hd⟩
  have hrw : v.rw = s.rw := State.portFreed_rw hx
  have hset : v.settings = s.settings := State.portFreed_settings hx
  refine ⟨State.portFreed_stored hx, fun hk => ?entry, fun hk => ?status, fun value r hk hring => ?index⟩
  case entry =>
    obtain ⟨q, -, he⟩ := State.loadReadEnds hends (ofKind := (· == .entryWrite)) (beq_iff_eq.mpr hk)
      fun _ _ s => { s with rw.entries := s.rw.entries.tail, rw.owedIndex := true }
    rw [← hrw]
    exact congrArg Host.Outcome.next he
  case status =>
    have hstatus : x.req.kind.isStatus = true := by
      obtain hk | ⟨i, hk⟩ := hk <;> rw [hk] <;> rfl
    obtain ⟨q, -, he⟩ := State.loadReadEnds hends hstatus fun _ _ s => s
    exact congrArg Host.Outcome.next he
  case index =>
    obtain ⟨q, hq, he⟩ := State.loadReadEnds hends (ofKind := (·.indexOf.isSome)) (by rw [hk]; rfl)
      fun q _ s => match q.kind.indexOf with | some v => s.publish v | none => s
    have hindex : q.kind.indexOf = some value := by rw [hq, hk]; rfl
    rw [hindex] at he
    rw [← hset, ← hrw, ← State.publish_eq (hrw ▸ hring : v.rw.ring = some r)]
    exact congrArg Host.Outcome.next he

end Sys2Proof.Machine
end

section
/-! PROOFS. What the report writer places next: the order of its work, the bytes of entries, records and the block, and when a
record becomes due. -/

namespace Sys2Proof.Machine

/-! ## The bytes placed (R178, R184) -/

theorem PendingEntry.bytes_eq (e : PendingEntry) :
    e.bytes =
      [byteOf e.report.kind.code,
        (if e.report.kind ∈ routineKinds then 0 else 1) + (if e.report.sign = none then 0 else 2),
        byteOf ((e.report.sign.map (·.val)).getD 0), byteOf (e.report.page.getD 0xFF)] ++
      bytes16 e.report.detail ++ bytes16 e.stamp.day ++ bytes16 e.stamp.minute ++
      [byteOf e.stamp.second, 0, 0, 0, 0, 0] := by
  have hgrade : (if e.report.kind.routine then 0 else 1 : Byte) = if e.report.kind ∈ routineKinds then 0 else 1 :=
    if_congr e.report.kind.routine_iff rfl rfl
  rw [PendingEntry.bytes, hgrade]
  cases e.report.sign <;> rfl

/-- The average as its field has it: two's complement, 0x8000 while the ring is empty (R134, R184). -/
def SignState.averageCode (g : SignState) : Nat := g.average.elim 0x8000 bits16

theorem SignState.averageCode_empty {g : SignState} (h : g.ring = []) : g.averageCode = 0x8000 := by
  rw [SignState.averageCode, SignState.average, h]
  rfl

theorem SignState.averageCode_samples {g : SignState} {x : Int} {rest : List Int} (h : g.ring = x :: rest) :
    g.averageCode = ((x :: rest).sum / 4 % 65536).toNat := by
  rw [SignState.averageCode, SignState.average, h]
  rfl

/-- The reason code of the wanted page, 0 for none (R184). -/
def SignState.reasonCode (g : SignState) : Nat := g.wanted.elim 0 (·.2.code)

/-- The bytes of a sign status record, from its coded fields. -/
theorem SignState.record_of {g : SignState} {job reason flag : Byte} {average : Nat} (hjob : byteOf g.job.code = job)
    (hreason : byteOf g.reasonCode = reason) (haverage : g.averageCode = average)
    (hflag : bitOf g.lastUpdate.isSome = flag) :
    g.record =
      let last := g.lastUpdate.getD { day := 0, minute := 0, second := 0 }
      [job, byteOf (g.activePage.getD 0xFF), byteOf ((g.wanted.map (·.1)).getD 0xFF), reason, byteOf g.shownTag,
        byteOf g.partialCount] ++
      bytes16 average ++ bytes16 (g.slots.countP (·.dirty)) ++ [flag, 0] ++ bytes16 last.day ++ bytes16 last.minute ++
      [byteOf last.second] ++ List.replicate 15 0 := by
  subst hjob hreason haverage hflag
  unfold SignState.record SignState.averageCode SignState.reasonCode
  cases g.average <;> cases g.wanted <;> rfl

theorem State.countOn_eq (s : State) (l : LinkNo) (j : Job) :
    s.countOn l j = ((List.finRange 256).filter fun i => (s.sign i).entry.link == l && (s.sign i).job == j).length :=
  State.countSigns_eq _ s

/-- The bytes of the device status block, from its coded fields. -/
theorem State.statusBlock_of {s : State} {part unset hb : Byte} {count : LinkNo → Job → Nat}
    (hpart : byteOf s.dir.part.code = part) (hunset : bitOf s.clk.unset = unset) (hhb : byteOf s.pc.hb.code = hb)
    (hcount : ∀ l j, s.countOn l j = count l j) :
    s.statusBlock =
      let counts (l : LinkNo) : List Byte :=
        [byteOf (count l .queued), byteOf (count l .refreshing), byteOf (count l .offline)]
      [part, unset] ++ bytes16 s.clk.day ++ bytes16 s.clk.minute ++
      [byteOf s.clk.second, BitVec.ofInt 8 s.clk.lastOffset, hb, 0] ++ bytes16 s.pc.hbCounter ++
      bytes16 (8192 - (s.signs.toList.map (·.slots.length)).sum) ++ bytes16 (4096 - s.tm.watch.length) ++
      bytes16 s.tm.stale.length ++ counts 0 ++ counts 1 ++ counts 2 ++ counts 3 ++ List.replicate 34 0 := by
  obtain rfl : s.countOn = count := funext₂ hcount
  subst hpart hunset hhb
  rfl

/-! ## The order of the work (R177) -/

/-- What the writer places with no index write owed and no entry pending, or no ring: the block if it is due, else the record
of the lowest sign whose record is due. -/
def State.placeStatus (s : State) : State :=
  if s.rw.blockDue then
    { s with rw.blockDue := false }.place
      { kind := .blockWrite, addr := s.mp.windowBase + 0x6000, len := 64, data := s.statusBlock }
  else
    match s.findSign (·.recordDue) with
    | none => s
    | some i =>
      (s.modifySign i fun g => { g with recordDue := false }).place
        { kind := .recordWrite i, addr := s.mp.windowBase + 0x4000 + 32 * i.val, len := 32, data := (s.sign i).record }

section
variable {s : State} {r : Ring}

theorem State.placeReport_busy (h : s.mp.load .report ≠ 0) : s.placeReport = s :=
  if_pos (Bool.of_not_eq_false fun hidle => h ((State.busy_eq_false s _).mp hidle))

theorem State.placeReport_index (hidle : s.mp.load .report = 0) (hring : s.rw.ring = some r)
    (howed : s.rw.owedIndex = true) :
    s.placeReport = { s with rw.owedIndex := false }.place
      { kind := .indexWrite (s.writtenIndex r), addr := (s.mp.windowBase + 0x222) % Config.memorySize, len := 2,
        data := bytes16 (s.writtenIndex r) } := by
  unfold State.placeReport
  rw [(State.busy_eq_false s _).mpr hidle, hring, howed]
  rfl

theorem State.placeReport_entry (hidle : s.mp.load .report = 0) (hring : s.rw.ring = some r)
    (howed : s.rw.owedIndex = false) {e : PendingEntry} {rest : List PendingEntry} (hentries : s.rw.entries = e :: rest) :
    s.placeReport = s.place
      { kind := .entryWrite, addr := (r.base + e.pos * 16) % Config.memorySize, len := 16, data := e.bytes } := by
  unfold State.placeReport
  rw [(State.busy_eq_false s _).mpr hidle, hring, howed, hentries]
  rfl

theorem State.placeReport_status (hidle : s.mp.load .report = 0)
    (hno : s.rw.ring = none ∨ (s.rw.owedIndex = false ∧ s.rw.entries = [])) : s.placeReport = s.placeStatus := by
  unfold State.placeReport
  rw [(State.busy_eq_false s _).mpr hidle]
  rcases hno with hring | ⟨howed, hentries⟩
  · rw [hring]
    rfl
  · rw [howed, hentries]
    cases s.rw.ring <;> rfl

theorem State.placeStatus_block (hdue : s.rw.blockDue = true) :
    s.placeStatus = { s with rw.blockDue := false }.place
      { kind := .blockWrite, addr := s.mp.windowBase + 0x6000, len := 64, data := s.statusBlock } :=
  if_pos hdue

theorem State.placeStatus_idle (hblock : s.rw.blockDue = false) (hnone : ∀ i, (s.sign i).recordDue = false) :
    s.placeStatus = s := by
  rw [State.placeStatus, if_neg (Bool.eq_false_iff.mp hblock), (State.findSign_eq_none s _).mpr hnone]

theorem State.placeStatus_record (hblock : s.rw.blockDue = false) {i : SignNo} (hdue : (s.sign i).recordDue = true)
    (hlow : ∀ j, j < i → (s.sign j).recordDue = false) :
    s.placeStatus = (s.modifySign i fun g => { g with recordDue := false }).place
      { kind := .recordWrite i, addr := s.mp.windowBase + 0x4000 + 32 * i.val, len := 32,
        data := (s.sign i).record } := by
  rw [State.placeStatus, if_neg (Bool.eq_false_iff.mp hblock), (State.findSign_eq_some_iff s _ i).mpr ⟨hdue, hlow⟩]

end

/-! ## Records due (R179) -/

theorem SignState.statusView_eq_iff (g h : SignState) :
    h.statusView = g.statusView ↔
      h.job = g.job ∧ h.activePage = g.activePage ∧ h.wanted = g.wanted ∧ h.shownTag = g.shownTag ∧
        h.partialCount = g.partialCount ∧ h.average = g.average ∧ h.slots.countP (·.dirty) = g.slots.countP (·.dirty) ∧
        h.lastUpdate = g.lastUpdate := by
  rw [SignState.statusView, SignState.statusView, StatusView.mk.injEq]
  rfl

theorem SignState.markDue_of_view_ne {g h : SignState} (hv : h.statusView ≠ g.statusView) :
    g.markDue h = { h with recordDue := true } := if_neg hv

/-- Settles O33: the order of `placeReport`, with the tables' bytes, and the marking of `modifySign`. -/
theorem reportWriterChoosesItsWrite : Obligations.ReportWriterChoosesItsWrite := by
  refine ⟨fun s => ?placed, fun s i f => ?due⟩
  case placed =>
    intro u put byte word code grade entry record held counts block
    have hentry (e : PendingEntry) : e.bytes = entry e := by
      have hcode : byteOf e.report.kind.code = code e.report.kind := by cases e.report.kind <;> rfl
      rw [e.bytes_eq, hcode]
      rfl
    have hrecord (g : SignState) : g.record = record g := by
      refine SignState.record_of ?job ?reason ?average ?updated
      case job => cases g.job <;> rfl
      case reason =>
        unfold SignState.reasonCode
        rcases g.wanted with _ | ⟨p, _ | _⟩ <;> rfl
      case average =>
        cases hring : g.ring with
        | nil => exact SignState.averageCode_empty hring
        | cons x rest => exact SignState.averageCode_samples hring
      case updated => cases g.lastUpdate <;> rfl
    have hblock : s.statusBlock = block := by
      refine State.statusBlock_of ?part ?unset ?heartbeat s.countOn_eq
      case part => cases s.dir.part <;> rfl
      case unset => rfl
      case heartbeat => cases s.pc.hb <;> rfl
    refine ⟨State.placeReport_busy, fun hidle => ⟨fun r hring => ⟨fun howed => ?index, fun e rest howed hentries => ?entry⟩,
      fun hno => ⟨fun hdue => ?block, fun hblockDue => ⟨fun hnone => ?idle, fun i hdue hlow => ?record⟩⟩⟩⟩
    case index =>
      intro v
      have hv : s.writtenIndex r = v := by
        simp only [State.writtenIndex, v]
        cases s.rw.entries <;> rfl
      rw [← hv]
      exact State.placeReport_index hidle hring howed
    case entry =>
      rw [← hentry]
      exact State.placeReport_entry hidle hring howed hentries
    case block =>
      rw [← hblock]
      exact (State.placeReport_status hidle hno).trans (State.placeStatus_block hdue)
    case idle => exact (State.placeReport_status hidle hno).trans (State.placeStatus_idle hblockDue hnone)
    case record =>
      rw [← hrecord]
      exact (State.placeReport_status hidle hno).trans (State.placeStatus_record hblockDue hdue hlow)
  case due =>
    intro g h same
    have hview : h.statusView = g.statusView ↔ same := SignState.statusView_eq_iff g h
    have hself : (s.modifySign i f).sign i = g.markDue h := State.sign_modifySign_self i f s
    refine ⟨fun hsame => ?_, fun hdiff => ?_, fun j hj => ?_⟩
    · exact hself.trans (SignState.markDue_of_view (hview.mpr hsame))
    · exact hself.trans (SignState.markDue_of_view_ne (mt hview.mp hdiff))
    · exact (State.sign_modifySign i j f s).trans (if_neg hj.symm)

end Sys2Proof.Machine
end

section
/-! PROOFS. The step on a queue that holds a command. -/

namespace Sys2Proof.Machine

/-- Settles O1: a queue with a front is the second branch of `step`. -/
theorem stepRunsFrontCommand : Obligations.StepRunsFrontCommand := by
  intro c rest s hqueue
  rw [step, hqueue]

end Sys2Proof.Machine
end
